-- ==== Sys2Proof/Word.lean ====
section
/-! DEFINITION. The three operand widths of the MC68000 (00_scope.md R7, R10). -/

namespace Sys2Proof

/-- A byte, 8 bits (R7). -/
abbrev Byte := BitVec 8

/-- A word, 16 bits: also one instruction word (R7). -/
abbrev Word := BitVec 16

/-- A long word, 32 bits: the width of every register but the status register (R7). -/
abbrev Long := BitVec 32

end Sys2Proof
end

