-- ==== Sys2Proof/Syntax.lean ====
section
/-! DEFINITION. The instructions in scope, one constructor of `Instr` for each of the 61 rows of
spec/opcode_table.json, and their operands (30_encoding.md R83 to R103). -/

namespace Sys2Proof

/-- A 3-bit register number: D0 to D7 or A0 to A7 (10_state.md R20, R22). -/
inductive RegNum where
  | r0 | r1 | r2 | r3 | r4 | r5 | r6 | r7
  deriving DecidableEq, Repr

/-- The operation size (00_scope.md R10). -/
inductive Size where
  | byte | word | long
  deriving DecidableEq, Repr

/-- The operation size in bits, `n` of the spec's rules (R10). -/
def Size.bits : Size → Nat
  | .byte => 8
  | .word => 16
  | .long => 32

/-- `bytes(n)` of the spec's rules (R10). -/
def Size.bytes : Size → Nat
  | .byte => 1
  | .word => 2
  | .long => 4

/-- The index register of the two index modes (30_encoding.md R84, bits 15 to 12). -/
inductive IndexReg where
  | d (r : RegNum)
  | a (r : RegNum)
  deriving DecidableEq, Repr

/-- The brief extension word (R84); bits 10 to 8 are ignored and have no place here (R106). -/
structure IndexExt where
  /-- which register is the index -/
  reg : IndexReg
  /-- the whole long word rather than the sign-extended low word -/
  long : Bool
  /-- the signed displacement -/
  disp : Byte
  deriving DecidableEq, Repr

/-- An effective address with its extension words (20_memory.md R62 to R73, 30_encoding.md R83). -/
inductive EA where
  | dn (r : RegNum)
  | an (r : RegNum)
  | ind (r : RegNum)
  | postinc (r : RegNum)
  | predec (r : RegNum)
  | disp (r : RegNum) (d : Word)
  | index (r : RegNum) (x : IndexExt)
  | absW (a : Word)
  | absL (a : Long)
  | pcDisp (d : Word)
  | pcIndex (x : IndexExt)
  /-- the immediate operand, zero-extended to 32 bits -/
  | imm (v : Long)
  deriving DecidableEq, Repr

/-- The twelve addressing modes without their operands (R83). -/
inductive Mode where
  | dn | an | ind | postinc | predec | disp | index | absW | absL | pcDisp | pcIndex | imm
  deriving DecidableEq, Repr

/-- The mode of an effective address. -/
def EA.mode : EA → Mode
  | .dn _ => .dn
  | .an _ => .an
  | .ind _ => .ind
  | .postinc _ => .postinc
  | .predec _ => .predec
  | .disp _ _ => .disp
  | .index _ _ => .index
  | .absW _ => .absW
  | .absL _ => .absL
  | .pcDisp _ => .pcDisp
  | .pcIndex _ => .pcIndex
  | .imm _ => .imm

/-- The two operand forms of ADDX and SUBX (40_add_sub.md R127): `Dy,Dx` and `-(Ay),-(Ax)`. -/
inductive XForm where
  | regs | predec
  deriving DecidableEq, Repr

/-- The count of a register shift or rotate (43_asl_asr.md R170): the 3-bit field of the operation word, or a
data register. -/
inductive ShiftCount where
  | imm (c : BitVec 3)
  | reg (r : RegNum)
  deriving DecidableEq, Repr

/-- The conditions of Bcc (47_example_support.md R239). -/
inductive Cond where
  | hi | ls | cc | cs | ne | eq | vc | vs | pl | mi | ge | lt | gt | le
  deriving DecidableEq, Repr

/-- The displacement of Bcc: in the operation word, or in a word of its own (R238). -/
inductive BranchDisp where
  | short (d : Byte)
  | word (d : Word)
  deriving DecidableEq, Repr

/-- An instruction: one constructor for each row of spec/opcode_table.json, in the table's order. -/
inductive Instr where
  -- IMM_EA: `op #<data>,<ea>`; the immediate is zero-extended to 32 bits
  | ori (sz : Size) (imm : Long) (ea : EA)
  | andi (sz : Size) (imm : Long) (ea : EA)
  | subi (sz : Size) (imm : Long) (ea : EA)
  | addi (sz : Size) (imm : Long) (ea : EA)
  | eori (sz : Size) (imm : Long) (ea : EA)
  | cmpi (sz : Size) (imm : Long) (ea : EA)
  | andiToCcr (imm : Byte)
  -- BIT_STATIC: `op #<data>,<ea>`
  | btstStatic (bit : Byte) (ea : EA)
  | bchgStatic (bit : Byte) (ea : EA)
  | bclrStatic (bit : Byte) (ea : EA)
  | bsetStatic (bit : Byte) (ea : EA)
  -- BIT_DYN: `op Dn,<ea>`
  | btstDyn (r : RegNum) (ea : EA)
  | bchgDyn (r : RegNum) (ea : EA)
  | bclrDyn (r : RegNum) (ea : EA)
  | bsetDyn (r : RegNum) (ea : EA)
  | move (sz : Size) (src dst : EA)
  | movea (sz : Size) (src : EA) (r : RegNum)
  | clr (sz : Size) (ea : EA)
  | notEa (sz : Size) (ea : EA)
  | extW (r : RegNum)
  | extL (r : RegNum)
  | lea (ea : EA) (r : RegNum)
  | stop (imm : Word)
  -- QUICK: the 3-bit data field, 0 standing for 8 (30_encoding.md R85)
  | addq (data : BitVec 3) (sz : Size) (ea : EA)
  | addqA (data : BitVec 3) (sz : Size) (r : RegNum)
  | subq (data : BitVec 3) (sz : Size) (ea : EA)
  | subqA (data : BitVec 3) (sz : Size) (r : RegNum)
  | bcc (c : Cond) (disp : BranchDisp)
  -- EA_DN: `ToDn` is `op <ea>,Dn`, `ToEa` is `op Dn,<ea>`
  | orToDn (sz : Size) (ea : EA) (r : RegNum)
  | orToEa (sz : Size) (r : RegNum) (ea : EA)
  | divu (ea : EA) (r : RegNum)
  | divs (ea : EA) (r : RegNum)
  | subToDn (sz : Size) (ea : EA) (r : RegNum)
  | subToEa (sz : Size) (r : RegNum) (ea : EA)
  | suba (sz : Size) (ea : EA) (r : RegNum)
  | subx (sz : Size) (form : XForm) (ry rx : RegNum)
  | eor (sz : Size) (r : RegNum) (ea : EA)
  | andToDn (sz : Size) (ea : EA) (r : RegNum)
  | andToEa (sz : Size) (r : RegNum) (ea : EA)
  | mulu (ea : EA) (r : RegNum)
  | muls (ea : EA) (r : RegNum)
  | addToDn (sz : Size) (ea : EA) (r : RegNum)
  | addToEa (sz : Size) (r : RegNum) (ea : EA)
  | adda (sz : Size) (ea : EA) (r : RegNum)
  | addx (sz : Size) (form : XForm) (ry rx : RegNum)
  -- SHIFT_REG: `op #<data>,Dy` and `op Dx,Dy`
  | asrReg (sz : Size) (count : ShiftCount) (r : RegNum)
  | aslReg (sz : Size) (count : ShiftCount) (r : RegNum)
  | lsrReg (sz : Size) (count : ShiftCount) (r : RegNum)
  | lslReg (sz : Size) (count : ShiftCount) (r : RegNum)
  | roxrReg (sz : Size) (count : ShiftCount) (r : RegNum)
  | roxlReg (sz : Size) (count : ShiftCount) (r : RegNum)
  | rorReg (sz : Size) (count : ShiftCount) (r : RegNum)
  | rolReg (sz : Size) (count : ShiftCount) (r : RegNum)
  -- SHIFT_MEM: `op <ea>`, a word in memory, one place
  | asrMem (ea : EA)
  | aslMem (ea : EA)
  | lsrMem (ea : EA)
  | lslMem (ea : EA)
  | roxrMem (ea : EA)
  | roxlMem (ea : EA)
  | rorMem (ea : EA)
  | rolMem (ea : EA)
  deriving DecidableEq, Repr

end Sys2Proof
end

