-- ==== Sys2Proof/WellFormed.lean ====
section
/-! DEFINITION. Which instructions have an encoding: the legal addressing modes (30_encoding.md R87, R88) and
the ranges of the operand fields (R85, R86). -/

namespace Sys2Proof

/-- The categories of addressing modes (R87), with the one category more of opcode_table.json's static BTST
row. -/
inductive Cat where
  | all | data | dataExceptImmediate | memory | control | alterable | dataAlterable | memoryAlterable
  deriving DecidableEq, Repr

/-- Whether a mode can be changed by a write: neither immediate nor program counter relative (R87). -/
def Mode.alterable : Mode → Bool
  | .pcDisp | .pcIndex | .imm => false
  | .dn | .an | .ind | .postinc | .predec | .disp | .index | .absW | .absL => true

/-- The table of R87. -/
def Cat.allows : Cat → Mode → Bool
  | .all, _ => true
  | .data, m => m ≠ .an
  | .dataExceptImmediate, m => m ≠ .an && m ≠ .imm
  | .memory, m => m ≠ .dn && m ≠ .an
  | .control, m =>
    m = .ind || m = .disp || m = .index || m = .absW || m = .absL || m = .pcDisp || m = .pcIndex
  | .alterable, m => m.alterable
  | .dataAlterable, m => m.alterable && m ≠ .an
  | .memoryAlterable, m => m.alterable && m ≠ .dn && m ≠ .an

/-- An operand zero-extended to 32 bits has the operation size (R85). -/
def fits (sz : Size) (v : Long) : Bool := v.toNat < 2 ^ sz.bits

/-- An immediate effective address has the operation size (R85); the other modes have no size of their own. -/
def EA.fits (sz : Size) : EA → Bool
  | .imm v => Sys2Proof.fits sz v
  | _ => true

/-- An effective address is of a category (R88), is no address register with byte size (20_memory.md R63),
and an immediate has the operation size. -/
def EA.ok (cat : Cat) (sz : Size) (ea : EA) : Bool :=
  cat.allows ea.mode && !(ea.mode = .an && sz = .byte) && ea.fits sz

/-- The 8-bit displacement 0 means that a displacement word follows (30_encoding.md R94). -/
def BranchDisp.ok : BranchDisp → Bool
  | .short d => d ≠ 0
  | .word _ => true

/-- An instruction that has an encoding (R88 to R100). -/
def Instr.wellFormed : Instr → Bool
  | .ori sz imm ea | .andi sz imm ea | .subi sz imm ea | .addi sz imm ea | .eori sz imm ea
  | .cmpi sz imm ea => fits sz imm && ea.ok .dataAlterable sz
  | .andiToCcr _ => true
  | .btstStatic _ ea => ea.ok .dataExceptImmediate .byte
  | .bchgStatic _ ea | .bclrStatic _ ea | .bsetStatic _ ea => ea.ok .dataAlterable .byte
  | .btstDyn _ ea => ea.ok .data .byte
  | .bchgDyn _ ea | .bclrDyn _ ea | .bsetDyn _ ea => ea.ok .dataAlterable .byte
  | .move sz src dst => src.ok .all sz && dst.ok .dataAlterable sz
  | .movea sz src _ => sz ≠ .byte && src.ok .all sz
  | .clr sz ea | .notEa sz ea => ea.ok .dataAlterable sz
  | .extW _ | .extL _ => true
  | .lea ea _ => ea.ok .control .long
  | .stop _ => true
  | .addq _ sz ea | .subq _ sz ea => ea.ok .dataAlterable sz
  | .addqA _ sz _ | .subqA _ sz _ => sz ≠ .byte
  | .bcc _ disp => disp.ok
  | .orToDn sz ea _ | .andToDn sz ea _ => ea.ok .data sz
  | .orToEa sz _ ea | .andToEa sz _ ea | .addToEa sz _ ea | .subToEa sz _ ea => ea.ok .memoryAlterable sz
  | .addToDn sz ea _ | .subToDn sz ea _ => ea.ok .all sz
  | .divu ea _ | .divs ea _ | .mulu ea _ | .muls ea _ => ea.ok .data .word
  | .adda sz ea _ | .suba sz ea _ => sz ≠ .byte && ea.ok .all sz
  | .addx _ _ _ _ | .subx _ _ _ _ => true
  | .eor sz _ ea => ea.ok .dataAlterable sz
  | .asrReg _ _ _ | .aslReg _ _ _ | .lsrReg _ _ _ | .lslReg _ _ _
  | .roxrReg _ _ _ | .roxlReg _ _ _ | .rorReg _ _ _ | .rolReg _ _ _ => true
  | .asrMem ea | .aslMem ea | .lsrMem ea | .lslMem ea
  | .roxrMem ea | .roxlMem ea | .rorMem ea | .rolMem ea => ea.ok .memoryAlterable .word

end Sys2Proof
end

