-- ==== Sys2Proof/Decode.lean ====
section
/-! DEFINITION. The decoder (30_encoding.md R80 to R107), total on any list of words or bytes, and after it the
encoder, both written from the same encoding tables. -/

namespace Sys2Proof

/-- Why a list of words is no instruction in scope. -/
inductive Reject where
  /-- no instruction of the MC68000 (R105) -/
  | illegal
  /-- bits 15 to 12 are 1010 (R101) -/
  | lineA
  /-- bits 15 to 12 are 1111 (R101) -/
  | lineF
  /-- another instruction of the MC68000, which this spec gives no meaning (R104) -/
  | outOfScope (mnemonic : String)
  /-- the list ends before the instruction does -/
  | truncated
  deriving DecidableEq, Repr

/-! ### Fields -/

/-- The `len` bits of an operation word from bit `lo` up (00_scope.md R8). -/
def bitsAt (w : Word) (lo len : Nat) : BitVec len := w.extractLsb' lo len

/-- A 3-bit register number (R83). -/
def RegNum.ofBits (b : BitVec 3) : RegNum :=
  match b.toNat with
  | 0 => .r0
  | 1 => .r1
  | 2 => .r2
  | 3 => .r3
  | 4 => .r4
  | 5 => .r5
  | 6 => .r6
  | _ => .r7

/-- The 3-bit register number of a register (R83). -/
def RegNum.toBits : RegNum → BitVec 3
  | .r0 => 0
  | .r1 => 1
  | .r2 => 2
  | .r3 => 3
  | .r4 => 4
  | .r5 => 5
  | .r6 => 6
  | .r7 => 7

/-- The size field, bits 7 to 6, and the low two bits of the opmode field (R86). -/
def sizeOfBits (b : BitVec 2) : Option Size :=
  match b.toNat with
  | 0 => some .byte
  | 1 => some .word
  | 2 => some .long
  | _ => none

/-- The size field of a size (R86). -/
def Size.toBits : Size → BitVec 2
  | .byte => 0
  | .word => 1
  | .long => 2

/-- The size field of MOVE, bits 13 to 12 (R86). -/
def moveSizeOfBits (b : BitVec 2) : Option Size :=
  match b.toNat with
  | 1 => some .byte
  | 3 => some .word
  | 2 => some .long
  | _ => none

/-- The size field of MOVE for a size (R86). -/
def Size.toMoveBits : Size → BitVec 2
  | .byte => 1
  | .word => 3
  | .long => 2

/-- The addressing mode of a mode field and a register field (R83). -/
def modeOf (mode reg : BitVec 3) : Option Mode :=
  match mode.toNat with
  | 0 => some .dn
  | 1 => some .an
  | 2 => some .ind
  | 3 => some .postinc
  | 4 => some .predec
  | 5 => some .disp
  | 6 => some .index
  | _ =>
    match reg.toNat with
    | 0 => some .absW
    | 1 => some .absL
    | 2 => some .pcDisp
    | 3 => some .pcIndex
    | 4 => some .imm
    | _ => none

/-- The mode field of an effective address (R83). -/
def EA.modeBits (ea : EA) : BitVec 3 :=
  match ea.mode with
  | .dn => 0
  | .an => 1
  | .ind => 2
  | .postinc => 3
  | .predec => 4
  | .disp => 5
  | .index => 6
  | .absW | .absL | .pcDisp | .pcIndex | .imm => 7

/-- The register field of an effective address (R83). -/
def EA.regBits : EA → BitVec 3
  | .dn r | .an r | .ind r | .postinc r | .predec r | .disp r _ | .index r _ => r.toBits
  | .absW _ => 0
  | .absL _ => 1
  | .pcDisp _ => 2
  | .pcIndex _ => 3
  | .imm _ => 4

/-- The brief extension word (R84); bits 10 to 8 are ignored (R106, D33). -/
def IndexExt.ofWord (w : Word) : IndexExt :=
  { reg := if w.getLsbD 15 then .a (RegNum.ofBits (bitsAt w 12 3)) else .d (RegNum.ofBits (bitsAt w 12 3))
    long := w.getLsbD 11
    disp := bitsAt w 0 8 }

/-- The brief extension word of an index, its bits 10 to 8 zero (R84). -/
def IndexExt.toWord (x : IndexExt) : Word :=
  match x.reg with
  | .d r => 0#1 ++ r.toBits ++ BitVec.ofBool x.long ++ 0#3 ++ x.disp
  | .a r => 1#1 ++ r.toBits ++ BitVec.ofBool x.long ++ 0#3 ++ x.disp

/-- The condition field of Bcc (47_example_support.md R239); 0000 and 0001 are BRA and BSR (R94). -/
def condOfBits (b : BitVec 4) : Option Cond :=
  match b.toNat with
  | 2 => some .hi
  | 3 => some .ls
  | 4 => some .cc
  | 5 => some .cs
  | 6 => some .ne
  | 7 => some .eq
  | 8 => some .vc
  | 9 => some .vs
  | 10 => some .pl
  | 11 => some .mi
  | 12 => some .ge
  | 13 => some .lt
  | 14 => some .gt
  | 15 => some .le
  | _ => none

/-- The condition field of a condition (R239). -/
def Cond.toBits : Cond → BitVec 4
  | .hi => 2
  | .ls => 3
  | .cc => 4
  | .cs => 5
  | .ne => 6
  | .eq => 7
  | .vc => 8
  | .vs => 9
  | .pl => 10
  | .mi => 11
  | .ge => 12
  | .lt => 13
  | .gt => 14
  | .le => 15

/-! ### Operands -/

/-- What a reader of the instruction stream gives: what it read, and the words that follow. -/
abbrev Parsed (α : Type) := α × List Word

/-- The next word of the instruction. -/
def takeWord : List Word → Except Reject (Parsed Word)
  | [] => .error .truncated
  | w :: ws => .ok (w, ws)

/-- Two words, the high one first (R85). -/
def takeLong (ws : List Word) : Except Reject (Parsed Long) := do
  let (hi, ws) ← takeWord ws
  let (lo, ws) ← takeWord ws
  .ok (hi ++ lo, ws)

/-- Immediate data of an operation size (R85): one word for byte and word, bits 15 to 8 of a byte's word
ignored (R106), two words for long; zero-extended. -/
def takeImm (sz : Size) (ws : List Word) : Except Reject (Parsed Long) :=
  match sz with
  | .byte => do
    let (w, ws) ← takeWord ws
    .ok ((bitsAt w 0 8).setWidth 32, ws)
  | .word => do
    let (w, ws) ← takeWord ws
    .ok (w.setWidth 32, ws)
  | .long => takeLong ws

/-- Whether a mode is legal in a category at a size (R88); address register direct is never a byte operand
(20_memory.md R63). -/
def decodeAllows (cat : Cat) (sz : Size) (m : Mode) : Bool := cat.allows m && !(m = .an && sz = .byte)

/-- The mode of an effective-address field, if it is legal; else the word is illegal (R105 a). -/
def legalMode (cat : Cat) (sz : Size) (mode reg : BitVec 3) : Except Reject Mode :=
  match modeOf mode reg with
  | some m => if decodeAllows cat sz m then .ok m else .error .illegal
  | none => .error .illegal

/-- The operand of a mode, with its extension words (R83). -/
def takeOperand (m : Mode) (r : RegNum) (sz : Size) (ws : List Word) : Except Reject (Parsed EA) :=
  match m with
  | .dn => .ok (.dn r, ws)
  | .an => .ok (.an r, ws)
  | .ind => .ok (.ind r, ws)
  | .postinc => .ok (.postinc r, ws)
  | .predec => .ok (.predec r, ws)
  | .disp => do
    let (d, ws) ← takeWord ws
    .ok (.disp r d, ws)
  | .index => do
    let (x, ws) ← takeWord ws
    .ok (.index r (IndexExt.ofWord x), ws)
  | .absW => do
    let (a, ws) ← takeWord ws
    .ok (.absW a, ws)
  | .absL => do
    let (a, ws) ← takeLong ws
    .ok (.absL a, ws)
  | .pcDisp => do
    let (d, ws) ← takeWord ws
    .ok (.pcDisp d, ws)
  | .pcIndex => do
    let (x, ws) ← takeWord ws
    .ok (.pcIndex (IndexExt.ofWord x), ws)
  | .imm => do
    let (v, ws) ← takeImm sz ws
    .ok (.imm v, ws)

/-- The effective address of bits 5 to 0, mode then register (R83). -/
def takeEa (cat : Cat) (sz : Size) (w : Word) (ws : List Word) : Except Reject (Parsed EA) := do
  let m ← legalMode cat sz (bitsAt w 3 3) (bitsAt w 0 3)
  takeOperand m (RegNum.ofBits (bitsAt w 0 3)) sz ws

/-- A size, or an illegal word (R105 b). -/
def sizeOr (o : Option Size) : Except Reject Size :=
  match o with
  | some sz => .ok sz
  | none => .error .illegal

/-- The size of bits 7 to 6 (R86). -/
def sizeAt6 (w : Word) : Except Reject Size := sizeOr (sizeOfBits (bitsAt w 6 2))

/-- The register of bits 11 to 9. -/
def regAt9 (w : Word) : RegNum := RegNum.ofBits (bitsAt w 9 3)

/-- The register of bits 2 to 0. -/
def regAt0 (w : Word) : RegNum := RegNum.ofBits (bitsAt w 0 3)

/-! ### The sixteen lines (R89) -/

/-- Format IMM_EA: the immediate first, then the effective address (R82). -/
def decodeImmEa (mk : Size → Long → EA → Instr) (w : Word) (ws : List Word) : Except Reject (Parsed Instr) := do
  let sz ← sizeAt6 w
  let m ← legalMode .dataAlterable sz (bitsAt w 3 3) (bitsAt w 0 3)
  let (imm, ws) ← takeImm sz ws
  let (ea, ws) ← takeOperand m (regAt0 w) sz ws
  .ok (mk sz imm ea, ws)

/-- Format BIT_STATIC: the bit-number word, bits 15 to 8 of it ignored, then the effective address (R82, R106). -/
def decodeBitStatic (cat : Cat) (mk : Byte → EA → Instr) (w : Word) (ws : List Word) : Except Reject (Parsed Instr) := do
  let m ← legalMode cat .byte (bitsAt w 3 3) (bitsAt w 0 3)
  let (n, ws) ← takeWord ws
  let (ea, ws) ← takeOperand m (regAt0 w) .byte ws
  .ok (mk (bitsAt n 0 8) ea, ws)

/-- Format BIT_DYN. -/
def decodeBitDyn (cat : Cat) (mk : RegNum → EA → Instr) (w : Word) (ws : List Word) : Except Reject (Parsed Instr) := do
  let (ea, ws) ← takeEa cat .byte w ws
  .ok (mk (regAt9 w) ea, ws)

/-- `ANDI #<data>,CCR`: bits 15 to 8 of the operand word ignored (R85, R106). -/
def decodeAndiToCcr (ws : List Word) : Except Reject (Parsed Instr) := do
  let (n, ws) ← takeWord ws
  .ok (.andiToCcr (bitsAt n 0 8), ws)

/-- Line 0000 (R90). -/
def decodeLine0 (w : Word) (ws : List Word) : Except Reject (Parsed Instr) :=
  if w.getLsbD 8 then
    match (bitsAt w 6 2).toNat with
    | 0 => decodeBitDyn .data .btstDyn w ws
    | 1 => decodeBitDyn .dataAlterable .bchgDyn w ws
    | 2 => decodeBitDyn .dataAlterable .bclrDyn w ws
    | _ => decodeBitDyn .dataAlterable .bsetDyn w ws
  else
    match (bitsAt w 9 3).toNat with
    | 0 => decodeImmEa .ori w ws
    | 1 => if w = 0x023C then decodeAndiToCcr ws else decodeImmEa .andi w ws
    | 2 => decodeImmEa .subi w ws
    | 3 => decodeImmEa .addi w ws
    | 4 =>
      match (bitsAt w 6 2).toNat with
      | 0 => decodeBitStatic .dataExceptImmediate .btstStatic w ws
      | 1 => decodeBitStatic .dataAlterable .bchgStatic w ws
      | 2 => decodeBitStatic .dataAlterable .bclrStatic w ws
      | _ => decodeBitStatic .dataAlterable .bsetStatic w ws
    | 5 => decodeImmEa .eori w ws
    | 6 => decodeImmEa .cmpi w ws
    | _ => .error .illegal

/-- MOVEA: destination mode 001, no byte size (R91). -/
def decodeMovea (sz : Size) (w : Word) (ws : List Word) : Except Reject (Parsed Instr) :=
  if sz = .byte then .error .illegal
  else do
    let (src, ws) ← takeEa .all sz w ws
    .ok (.movea sz src (regAt9 w), ws)

/-- Lines 0001, 0010 and 0011 (R91): the destination's register in bits 11 to 9, its mode in bits 8 to 6; the
source's extension words first (R82). -/
def decodeMove (w : Word) (ws : List Word) : Except Reject (Parsed Instr) := do
  let sz ← sizeOr (moveSizeOfBits (bitsAt w 12 2))
  if bitsAt w 6 3 = 1 then decodeMovea sz w ws
  else do
    let dm ← legalMode .dataAlterable sz (bitsAt w 6 3) (bitsAt w 9 3)
    let (src, ws) ← takeEa .all sz w ws
    let (dst, ws) ← takeOperand dm (regAt9 w) sz ws
    .ok (.move sz src dst, ws)

/-- Format SIZE_EA. -/
def decodeSizeEa (mk : Size → EA → Instr) (w : Word) (ws : List Word) : Except Reject (Parsed Instr) := do
  let sz ← sizeAt6 w
  let (ea, ws) ← takeEa .dataAlterable sz w ws
  .ok (mk sz ea, ws)

/-- LEA (R92): control modes. -/
def decodeLea (w : Word) (ws : List Word) : Except Reject (Parsed Instr) := do
  let (ea, ws) ← takeEa .control .long w ws
  .ok (.lea ea (regAt9 w), ws)

/-- STOP (R92): the operand word. -/
def decodeStop (ws : List Word) : Except Reject (Parsed Instr) := do
  let (imm, ws) ← takeWord ws
  .ok (.stop imm, ws)

/-- Line 0100, its part in scope (R92). -/
def decodeLine4 (w : Word) (ws : List Word) : Except Reject (Parsed Instr) :=
  if w = 0x4E72 then decodeStop ws
  else if w.getLsbD 8 && w.getLsbD 7 && w.getLsbD 6 then decodeLea w ws
  else if bitsAt w 8 4 = 0b0010 then decodeSizeEa .clr w ws
  else if bitsAt w 8 4 = 0b0110 then decodeSizeEa .notEa w ws
  else if bitsAt w 3 9 = 0b100010000 then .ok (.extW (regAt0 w), ws)
  else if bitsAt w 3 9 = 0b100011000 then .ok (.extL (regAt0 w), ws)
  else .error .illegal

/-- ADDQ and SUBQ to an address register: no byte size (R93). -/
def decodeQuickAn (sz : Size) (w : Word) (ws : List Word) : Except Reject (Parsed Instr) :=
  if sz = .byte then .error .illegal
  else if w.getLsbD 8 then .ok (.subqA (bitsAt w 9 3) sz (regAt0 w), ws)
  else .ok (.addqA (bitsAt w 9 3) sz (regAt0 w), ws)

/-- Line 0101 (R93). -/
def decodeLine5 (w : Word) (ws : List Word) : Except Reject (Parsed Instr) := do
  let sz ← sizeAt6 w
  if bitsAt w 3 3 = 1 then decodeQuickAn sz w ws
  else do
    let (ea, ws) ← takeEa .dataAlterable sz w ws
    if w.getLsbD 8 then .ok (.subq (bitsAt w 9 3) sz ea, ws)
    else .ok (.addq (bitsAt w 9 3) sz ea, ws)

/-- Line 0110 (R94): displacement 0 means that a displacement word follows. -/
def decodeLine6 (w : Word) (ws : List Word) : Except Reject (Parsed Instr) :=
  match condOfBits (bitsAt w 8 4) with
  | none => .error .illegal
  | some c =>
    if bitsAt w 0 8 = 0 then do
      let (d, ws) ← takeWord ws
      .ok (.bcc c (.word d), ws)
    else .ok (.bcc c (.short (bitsAt w 0 8)), ws)

/-- `op <ea>,Dn` with the size in bits 7 to 6 (format EA_DN). -/
def decodeToDn (cat : Cat) (mk : Size → EA → RegNum → Instr) (w : Word) (ws : List Word) : Except Reject (Parsed Instr) := do
  let sz ← sizeAt6 w
  let (ea, ws) ← takeEa cat sz w ws
  .ok (mk sz ea (regAt9 w), ws)

/-- `op Dn,<ea>` with the size in bits 7 to 6 (format EA_DN). -/
def decodeToEa (cat : Cat) (mk : Size → RegNum → EA → Instr) (w : Word) (ws : List Word) : Except Reject (Parsed Instr) := do
  let sz ← sizeAt6 w
  let (ea, ws) ← takeEa cat sz w ws
  .ok (mk sz (regAt9 w) ea, ws)

/-- MULU, MULS, DIVU, DIVS: a word source of a data mode (R95, R98). -/
def decodeMulDiv (mk : EA → RegNum → Instr) (w : Word) (ws : List Word) : Except Reject (Parsed Instr) := do
  let (ea, ws) ← takeEa .data .word w ws
  .ok (mk ea (regAt9 w), ws)

/-- Line 1000 (R95). -/
def decodeLine8 (w : Word) (ws : List Word) : Except Reject (Parsed Instr) :=
  if bitsAt w 6 2 = 3 then decodeMulDiv (if w.getLsbD 8 then .divs else .divu) w ws
  else if w.getLsbD 8 then decodeToEa .memoryAlterable .orToEa w ws
  else decodeToDn .data .orToDn w ws

/-- ADDA and SUBA: the size in bit 8, any source mode (R96, R99). -/
def decodeAddrOp (mk : Size → EA → RegNum → Instr) (w : Word) (ws : List Word) : Except Reject (Parsed Instr) := do
  let (ea, ws) ← takeEa .all (if w.getLsbD 8 then .long else .word) w ws
  .ok (mk (if w.getLsbD 8 then .long else .word) ea (regAt9 w), ws)

/-- ADDX and SUBX (R96, R99): bit 3 selects the form. -/
def decodeX (mk : Size → XForm → RegNum → RegNum → Instr) (w : Word) (ws : List Word) : Except Reject (Parsed Instr) := do
  let sz ← sizeAt6 w
  .ok (mk sz (if w.getLsbD 3 then .predec else .regs) (regAt0 w) (regAt9 w), ws)

/-- Lines 1001 and 1101 (R96, R99), which differ in the operation alone. -/
def decodeAddSub (toDn : Size → EA → RegNum → Instr) (toEa : Size → RegNum → EA → Instr)
    (toAn : Size → EA → RegNum → Instr) (extended : Size → XForm → RegNum → RegNum → Instr)
    (w : Word) (ws : List Word) : Except Reject (Parsed Instr) :=
  if bitsAt w 6 2 = 3 then decodeAddrOp toAn w ws
  else if !w.getLsbD 8 then decodeToDn .all toDn w ws
  else if bitsAt w 4 2 = 0 then decodeX extended w ws
  else decodeToEa .memoryAlterable toEa w ws

/-- Line 1011 (R97). -/
def decodeLineB (w : Word) (ws : List Word) : Except Reject (Parsed Instr) :=
  if w.getLsbD 8 then decodeToEa .dataAlterable .eor w ws else .error .illegal

/-- Line 1100 (R98). -/
def decodeLineC (w : Word) (ws : List Word) : Except Reject (Parsed Instr) :=
  if bitsAt w 6 2 = 3 then decodeMulDiv (if w.getLsbD 8 then .muls else .mulu) w ws
  else if w.getLsbD 8 then decodeToEa .memoryAlterable .andToEa w ws
  else decodeToDn .data .andToDn w ws

/-- The register form of the shift or rotate of type `tt` and direction bit `d` (R100). -/
def shiftRegOf (tt : BitVec 2) (d : Bool) : Size → ShiftCount → RegNum → Instr :=
  match tt.toNat, d with
  | 0, false => .asrReg
  | 0, true => .aslReg
  | 1, false => .lsrReg
  | 1, true => .lslReg
  | 2, false => .roxrReg
  | 2, true => .roxlReg
  | _, false => .rorReg
  | _, true => .rolReg

/-- The memory form of the shift or rotate of type `tt` and direction bit `d` (R100). -/
def shiftMemOf (tt : BitVec 2) (d : Bool) : EA → Instr :=
  match tt.toNat, d with
  | 0, false => .asrMem
  | 0, true => .aslMem
  | 1, false => .lsrMem
  | 1, true => .lslMem
  | 2, false => .roxrMem
  | 2, true => .roxlMem
  | _, false => .rorMem
  | _, true => .rolMem

/-- The register form (R100): bit 5 tells an immediate count from a register. -/
def decodeShiftReg (w : Word) (ws : List Word) : Except Reject (Parsed Instr) := do
  let sz ← sizeAt6 w
  .ok (shiftRegOf (bitsAt w 3 2) (w.getLsbD 8) sz
    (if w.getLsbD 5 then .reg (regAt9 w) else .imm (bitsAt w 9 3)) (regAt0 w), ws)

/-- The memory form (R100): bit 11 is 0. -/
def decodeShiftMem (w : Word) (ws : List Word) : Except Reject (Parsed Instr) :=
  if w.getLsbD 11 then .error .illegal
  else do
    let (ea, ws) ← takeEa .memoryAlterable .word w ws
    .ok (shiftMemOf (bitsAt w 9 2) (w.getLsbD 8) ea, ws)

/-- Line 1110 (R100). -/
def decodeLineE (w : Word) (ws : List Word) : Except Reject (Parsed Instr) :=
  if bitsAt w 6 2 = 3 then decodeShiftMem w ws else decodeShiftReg w ws

/-- The instruction in scope that an operation word and the words after it encode (R89). -/
def decodeInScope (w : Word) (ws : List Word) : Except Reject (Parsed Instr) :=
  match (bitsAt w 12 4).toNat with
  | 0 => decodeLine0 w ws
  | 1 | 2 | 3 => decodeMove w ws
  | 4 => decodeLine4 w ws
  | 5 => decodeLine5 w ws
  | 6 => decodeLine6 w ws
  | 7 => .error .illegal
  | 8 => decodeLine8 w ws
  | 9 => decodeAddSub .subToDn .subToEa .suba .subx w ws
  | 10 => .error .lineA
  | 11 => decodeLineB w ws
  | 12 => decodeLineC w ws
  | 13 => decodeAddSub .addToDn .addToEa .adda .addx w ws
  | 14 => decodeLineE w ws
  | _ => .error .lineF

/-! ### The instructions out of scope (R104) -/

/-- One row of R104's list. -/
structure ScopeRow where
  mask : Word
  value : Word
  /-- words of the pattern that the row does not cover -/
  except : Word → Bool
  mnemonic : String

/-- Bits 7 to 6 are 11. -/
def sizeField3 (w : Word) : Bool := bitsAt w 6 2 = 3

/-- Bits 5 to 3 are 000. -/
def modeField0 (w : Word) : Bool := bitsAt w 3 3 = 0

/-- No exception. -/
def noWord (_ : Word) : Bool := false

/-- R104's list, first half, as 95_test_vectors.md section 6 writes it for a machine to read. -/
def outOfScopeRows1 : List ScopeRow :=
  [⟨0xFFFF, 0x003C, noWord, "ORI to CCR"⟩, ⟨0xFFFF, 0x0A3C, noWord, "EORI to CCR"⟩,
   ⟨0xFFFF, 0x007C, noWord, "ORI to SR"⟩, ⟨0xFFFF, 0x027C, noWord, "ANDI to SR"⟩,
   ⟨0xFFFF, 0x0A7C, noWord, "EORI to SR"⟩, ⟨0xF138, 0x0108, noWord, "MOVEP"⟩,
   ⟨0xFF00, 0x4000, sizeField3, "NEGX"⟩, ⟨0xFFC0, 0x40C0, noWord, "MOVE from SR"⟩,
   ⟨0xFF00, 0x4400, sizeField3, "NEG"⟩, ⟨0xFFC0, 0x44C0, noWord, "MOVE to CCR"⟩,
   ⟨0xFFC0, 0x46C0, noWord, "MOVE to SR"⟩, ⟨0xFFC0, 0x4800, noWord, "NBCD"⟩,
   ⟨0xFFF8, 0x4840, noWord, "SWAP"⟩, ⟨0xFFC0, 0x4840, modeField0, "PEA"⟩,
   ⟨0xFB80, 0x4880, modeField0, "MOVEM"⟩, ⟨0xFF00, 0x4A00, sizeField3, "TST"⟩,
   ⟨0xFFC0, 0x4AC0, (· = 0x4AFC), "TAS"⟩, ⟨0xF1C0, 0x4180, noWord, "CHK"⟩,
   ⟨0xFFF0, 0x4E40, noWord, "TRAP"⟩, ⟨0xFFF8, 0x4E50, noWord, "LINK"⟩,
   ⟨0xFFF8, 0x4E58, noWord, "UNLK"⟩]

/-- R104's list, second half. -/
def outOfScopeRows2 : List ScopeRow :=
  [⟨0xFFF0, 0x4E60, noWord, "MOVE USP"⟩,
   ⟨0xFFFF, 0x4E70, noWord, "RESET"⟩, ⟨0xFFFF, 0x4E71, noWord, "NOP"⟩,
   ⟨0xFFFF, 0x4E73, noWord, "RTE"⟩, ⟨0xFFFF, 0x4E75, noWord, "RTS"⟩,
   ⟨0xFFFF, 0x4E76, noWord, "TRAPV"⟩, ⟨0xFFFF, 0x4E77, noWord, "RTR"⟩,
   ⟨0xFFC0, 0x4E80, noWord, "JSR"⟩, ⟨0xFFC0, 0x4EC0, noWord, "JMP"⟩,
   ⟨0xF0C0, 0x50C0, noWord, "Scc/DBcc"⟩, ⟨0xFF00, 0x6000, noWord, "BRA"⟩,
   ⟨0xFF00, 0x6100, noWord, "BSR"⟩, ⟨0xF100, 0x7000, noWord, "MOVEQ"⟩,
   ⟨0xF1F0, 0x8100, noWord, "SBCD"⟩, ⟨0xF100, 0xB000, sizeField3, "CMP"⟩,
   ⟨0xF0C0, 0xB0C0, noWord, "CMPA"⟩, ⟨0xF138, 0xB108, sizeField3, "CMPM"⟩,
   ⟨0xF1F0, 0xC100, noWord, "ABCD"⟩, ⟨0xF1F8, 0xC140, noWord, "EXG"⟩,
   ⟨0xF1F8, 0xC148, noWord, "EXG"⟩, ⟨0xF1F8, 0xC188, noWord, "EXG"⟩]

/-- The instruction out of scope whose pattern an operation word has (R104). `0x4AFC` is none: its defined
behaviour is that of an illegal word. -/
def outOfScope? (w : Word) : Option String :=
  ((outOfScopeRows1 ++ outOfScopeRows2).find? fun row => w &&& row.mask = row.value && !row.except w).map
    (·.mnemonic)

/-! ### The decoder (R102) -/

/-- An operation word that is in no row of the table is another MC68000 instruction or illegal (R102 step 4
and 5). -/
def classify (w : Word) (p : Except Reject (Parsed Instr)) : Except Reject (Parsed Instr) :=
  match p with
  | .error .illegal =>
    match outOfScope? w with
    | some m => .error (.outOfScope m)
    | none => .error .illegal
  | p => p

/-- The instruction at the head of a list of words, with the words that follow it, or why there is none. -/
def decode : List Word → Except Reject (Parsed Instr)
  | [] => .error .truncated
  | w :: ws => classify w (decodeInScope w ws)

/-- The words of a list of bytes, each big-endian (20_memory.md R53); an odd last byte is no word. -/
def wordsOfBytes : List Byte → List Word
  | hi :: lo :: bs => (hi ++ lo) :: wordsOfBytes bs
  | _ => []

/-- The bytes of a list of words, each big-endian (R53). -/
def bytesOfWords : List Word → List Byte
  | [] => []
  | w :: ws => bitsAt w 8 8 :: bitsAt w 0 8 :: bytesOfWords ws

/-- The instruction at the head of a list of bytes. -/
def decodeBytes (bs : List Byte) : Except Reject (Parsed Instr) := decode (wordsOfBytes bs)

/-- The most words an instruction has (R80). -/
def maxWords : Nat := 5

/-- `k` words of a number, its low 16 bits first: bit 0 is the least significant bit of the first word. -/
def wordsOfNat : Nat → Nat → List Word
  | 0, _ => []
  | k + 1, w => BitVec.ofNat 16 w :: wordsOfNat k (w / 65536)

/-- The instruction the decoder reads from the bits of a row of the opcode table, with words of zeros after
them. -/
def decodeTableWord (nbits w : Nat) : Option Instr :=
  match decodeBytes (bytesOfWords (wordsOfNat maxWords (w % 2 ^ nbits))) with
  | .ok (i, _) => some i
  | .error _ => none

/-! ### The encoder -/

/-- The words of immediate data of an operation size (R85). -/
def immWords (sz : Size) (v : Long) : List Word :=
  match sz with
  | .byte => [(v.setWidth 8).setWidth 16]
  | .word => [v.setWidth 16]
  | .long => [v.extractLsb' 16 16, v.extractLsb' 0 16]

/-- The extension words of an effective address at an operation size (R83). -/
def EA.words (sz : Size) : EA → List Word
  | .dn _ | .an _ | .ind _ | .postinc _ | .predec _ => []
  | .disp _ d => [d]
  | .index _ x => [x.toWord]
  | .absW a => [a]
  | .absL a => [a.extractLsb' 16 16, a.extractLsb' 0 16]
  | .pcDisp d => [d]
  | .pcIndex x => [x.toWord]
  | .imm v => immWords sz v

/-- The effective-address field, mode then register (R83). -/
def EA.field (ea : EA) : BitVec 6 := ea.modeBits ++ ea.regBits

/-- Format IMM_EA (R103): `0000 ooo0 ss eeeeee`. -/
def encodeImmEa (op : BitVec 3) (sz : Size) (imm : Long) (ea : EA) : List Word :=
  (0#4 ++ op ++ 0#1 ++ sz.toBits ++ ea.field) :: (immWords sz imm ++ ea.words sz)

/-- Format BIT_STATIC (R103): `0000 1000 tt eeeeee`. -/
def encodeBitStatic (tt : BitVec 2) (bit : Byte) (ea : EA) : List Word :=
  (0b00001000#8 ++ tt ++ ea.field) :: bit.setWidth 16 :: ea.words .byte

/-- Format BIT_DYN (R103): `0000 rrr 1 tt eeeeee`. -/
def encodeBitDyn (tt : BitVec 2) (r : RegNum) (ea : EA) : List Word :=
  (0#4 ++ r.toBits ++ 1#1 ++ tt ++ ea.field) :: ea.words .byte

/-- Format SIZE_EA (R103): `0100 oooo ss eeeeee`. -/
def encodeSizeEa (op : BitVec 4) (sz : Size) (ea : EA) : List Word :=
  (0b0100#4 ++ op ++ sz.toBits ++ ea.field) :: ea.words sz

/-- Format QUICK (R103): `0101 ddd o ss eeeeee`. -/
def encodeQuick (o : BitVec 1) (data : BitVec 3) (sz : Size) (ea : EA) : List Word :=
  (0b0101#4 ++ data ++ o ++ sz.toBits ++ ea.field) :: ea.words sz

/-- Format EA_DN (R103): the line, the register, the direction bit 8, bits 7 to 6 and the effective address. -/
def encodeEaDn (line : BitVec 4) (r : RegNum) (dir : BitVec 1) (ss : BitVec 2) (sz : Size) (ea : EA) :
    List Word :=
  (line ++ r.toBits ++ dir ++ ss ++ ea.field) :: ea.words sz

/-- Format XREG (R103): `1o01 xxx 1 ss 00 m yyy`. -/
def encodeX (line : BitVec 4) (sz : Size) (form : XForm) (ry rx : RegNum) : List Word :=
  [line ++ rx.toBits ++ 1#1 ++ sz.toBits ++ 0#2 ++ (match form with | .regs => 0#1 | .predec => 1#1) ++ ry.toBits]

/-- Format SHIFT_REG (R100): `1110 ccc d ss i tt rrr`. -/
def encodeShiftReg (tt : BitVec 2) (d : BitVec 1) (sz : Size) (count : ShiftCount) (r : RegNum) : List Word :=
  match count with
  | .imm c => [0b1110#4 ++ c ++ d ++ sz.toBits ++ 0#1 ++ tt ++ r.toBits]
  | .reg x => [0b1110#4 ++ x.toBits ++ d ++ sz.toBits ++ 1#1 ++ tt ++ r.toBits]

/-- Format SHIFT_MEM (R100): `1110 0tt d 11 eeeeee`. -/
def encodeShiftMem (tt : BitVec 2) (d : BitVec 1) (ea : EA) : List Word :=
  (0b11100#5 ++ tt ++ d ++ 0b11#2 ++ ea.field) :: ea.words .word

/-- Bit 8 of ADDA and SUBA: 0 for word, 1 for long (R86). -/
def Size.addrBit : Size → BitVec 1
  | .byte | .word => 0
  | .long => 1

/-- The words of a well-formed instruction (R88 to R100); the fields the hardware ignores are written as
zero (R106). -/
def encode : Instr → List Word
  | .ori sz imm ea => encodeImmEa 0 sz imm ea
  | .andi sz imm ea => encodeImmEa 1 sz imm ea
  | .subi sz imm ea => encodeImmEa 2 sz imm ea
  | .addi sz imm ea => encodeImmEa 3 sz imm ea
  | .eori sz imm ea => encodeImmEa 5 sz imm ea
  | .cmpi sz imm ea => encodeImmEa 6 sz imm ea
  | .andiToCcr imm => [0x023C, imm.setWidth 16]
  | .btstStatic n ea => encodeBitStatic 0 n ea
  | .bchgStatic n ea => encodeBitStatic 1 n ea
  | .bclrStatic n ea => encodeBitStatic 2 n ea
  | .bsetStatic n ea => encodeBitStatic 3 n ea
  | .btstDyn r ea => encodeBitDyn 0 r ea
  | .bchgDyn r ea => encodeBitDyn 1 r ea
  | .bclrDyn r ea => encodeBitDyn 2 r ea
  | .bsetDyn r ea => encodeBitDyn 3 r ea
  | .move sz src dst =>
    (0#2 ++ sz.toMoveBits ++ dst.regBits ++ dst.modeBits ++ src.field) :: (src.words sz ++ dst.words sz)
  | .movea sz src r => (0#2 ++ sz.toMoveBits ++ r.toBits ++ 1#3 ++ src.field) :: src.words sz
  | .clr sz ea => encodeSizeEa 0b0010 sz ea
  | .notEa sz ea => encodeSizeEa 0b0110 sz ea
  | .extW r => [0b0100100010000#13 ++ r.toBits]
  | .extL r => [0b0100100011000#13 ++ r.toBits]
  | .lea ea r => encodeEaDn 0b0100 r 1 3 .long ea
  | .stop imm => [0x4E72, imm]
  | .addq data sz ea => encodeQuick 0 data sz ea
  | .addqA data sz r => encodeQuick 0 data sz (.an r)
  | .subq data sz ea => encodeQuick 1 data sz ea
  | .subqA data sz r => encodeQuick 1 data sz (.an r)
  | .bcc c (.short d) => [0b0110#4 ++ c.toBits ++ d]
  | .bcc c (.word d) => [0b0110#4 ++ c.toBits ++ 0#8, d]
  | .orToDn sz ea r => encodeEaDn 8 r 0 sz.toBits sz ea
  | .orToEa sz r ea => encodeEaDn 8 r 1 sz.toBits sz ea
  | .divu ea r => encodeEaDn 8 r 0 3 .word ea
  | .divs ea r => encodeEaDn 8 r 1 3 .word ea
  | .subToDn sz ea r => encodeEaDn 9 r 0 sz.toBits sz ea
  | .subToEa sz r ea => encodeEaDn 9 r 1 sz.toBits sz ea
  | .suba sz ea r => encodeEaDn 9 r sz.addrBit 3 sz ea
  | .subx sz form ry rx => encodeX 9 sz form ry rx
  | .eor sz r ea => encodeEaDn 11 r 1 sz.toBits sz ea
  | .andToDn sz ea r => encodeEaDn 12 r 0 sz.toBits sz ea
  | .andToEa sz r ea => encodeEaDn 12 r 1 sz.toBits sz ea
  | .mulu ea r => encodeEaDn 12 r 0 3 .word ea
  | .muls ea r => encodeEaDn 12 r 1 3 .word ea
  | .addToDn sz ea r => encodeEaDn 13 r 0 sz.toBits sz ea
  | .addToEa sz r ea => encodeEaDn 13 r 1 sz.toBits sz ea
  | .adda sz ea r => encodeEaDn 13 r sz.addrBit 3 sz ea
  | .addx sz form ry rx => encodeX 13 sz form ry rx
  | .asrReg sz count r => encodeShiftReg 0 0 sz count r
  | .aslReg sz count r => encodeShiftReg 0 1 sz count r
  | .lsrReg sz count r => encodeShiftReg 1 0 sz count r
  | .lslReg sz count r => encodeShiftReg 1 1 sz count r
  | .roxrReg sz count r => encodeShiftReg 2 0 sz count r
  | .roxlReg sz count r => encodeShiftReg 2 1 sz count r
  | .rorReg sz count r => encodeShiftReg 3 0 sz count r
  | .rolReg sz count r => encodeShiftReg 3 1 sz count r
  | .asrMem ea => encodeShiftMem 0 0 ea
  | .aslMem ea => encodeShiftMem 0 1 ea
  | .lsrMem ea => encodeShiftMem 1 0 ea
  | .lslMem ea => encodeShiftMem 1 1 ea
  | .roxrMem ea => encodeShiftMem 2 0 ea
  | .roxlMem ea => encodeShiftMem 2 1 ea
  | .rorMem ea => encodeShiftMem 3 0 ea
  | .rolMem ea => encodeShiftMem 3 1 ea

/-- How many words an instruction has (R107). -/
def Instr.length (i : Instr) : Nat := (encode i).length

end Sys2Proof
end

