-- ==== Sys2Proof/Config.lean ====
section
/-! DEFINITION. What an implementation fixes (00_scope.md R7) and the free values: what the spec leaves
open after an instruction that goes on. A free value has no body, so nothing can be proved of it but what
holds of every value; it is taken at the machine's counter `State.draws` (log 29). -/

namespace Sys2Proof.Config

/-- `ADDR_BITS` (R7, R50): how many bits of an address reach memory. DESIGN CHOICE: the spec's default 24
(D5, log 13). -/
def addrBits : Nat := 24

/-- `ADDX_Z_LITERAL` (40_add_sub.md R127, D7): whether ADDX and SUBX set Z from the result alone. DESIGN
CHOICE: the spec's default, false, the hardware rule (log 26). -/
def addxZLiteral : Bool := false

/-- N after a divide that overflows or divides by zero (42_mul_div.md R163, U1; log 25). -/
opaque divideN : Nat → Bool

/-- Z after a divide that overflows or divides by zero (R163, U1; log 25). -/
opaque divideZ : Nat → Bool

/-- V after a divide by zero (R163, U1; log 25). -/
opaque divideV : Nat → Bool

/-- X, N, Z, V and C after the reset sequence, bits 4 to 0 (10_state.md R36, U2; log 10). -/
opaque resetFlags : Nat → BitVec 5

/-- Bits 15 to 5 of the first word of a group 0 stack frame (60_exceptions.md R263, U3; log 3). -/
opaque frameUndefinedBits : Nat → BitVec 11

/-- How far beyond 2 bytes after the instruction's first word the program counter of a group 0 stack frame
has advanced: R263 bounds it between 2 and 10 bytes beyond that word (U3; log 3). -/
opaque framePcAdvance : Nat → Fin 9

/-- The operation word of a group 0 stack frame when no instruction is being executed: R263 gives a value
only for an executing instruction (log 3). -/
opaque frameOpWord : Nat → BitVec 16

/-- The value of an address register read as data by an instruction that also steps it by postincrement or
predecrement (20_memory.md R75, D34, U9; log 23). -/
opaque steppedRegister : Nat → BitVec 32

/-- Where the bus takes the byte at `2 ^ addrBits` or above, when an operand straddles the top of the address
space: no source says what the bus does (20_memory.md R56, D5, U10; log 16). A value of `2 ^ addrBits` or more means that nothing
responds. -/
opaque beyondTop : Nat → Nat

/-- What a read of the bus is for. Within one step no two reads of one use are of the same address, so that each byte
read from a device has a free value of its own. -/
inductive ReadUse where
  /-- an instruction word -/
  | fetch
  /-- a source operand -/
  | source
  /-- a destination operand, read to be changed -/
  | destination
  /-- an exception vector, a reset vector or a frame -/
  | exception
  deriving DecidableEq, Repr

/-- The byte that an address which is not plain memory gives to a read: a device's answer and its side effects are not
in the spec (20_memory.md R51, R58; log 15). -/
opaque deviceByte : Nat → ReadUse → Nat → BitVec 8

/-- Whether the fetch of a prefetched word, counted by the first argument and at the address of the second,
sees a store made after the prefetch (20_memory.md R79, U8; log 27). -/
opaque prefetchSeesStore : Nat → BitVec 32 → Bool

end Sys2Proof.Config
end

