-- ==== Sys2Proof/Machine/State.lean ====
section
/-! DEFINITION. The state of the machine as plain data, the reasons a step can stop, and the state after reset
(10_state.md R20 to R38). -/

namespace Sys2Proof.Machine

/-- D0 to D7 (R20). -/
structure DataRegs where
  d0 : Long
  d1 : Long
  d2 : Long
  d3 : Long
  d4 : Long
  d5 : Long
  d6 : Long
  d7 : Long
  deriving DecidableEq, Repr

/-- A0 to A6 (R22); A7 is USP or SSP (R23). -/
structure AddrRegs where
  a0 : Long
  a1 : Long
  a2 : Long
  a3 : Long
  a4 : Long
  a5 : Long
  a6 : Long
  deriving DecidableEq, Repr

/-- The five condition codes (R25). -/
structure Ccr where
  x : Bool
  n : Bool
  z : Bool
  v : Bool
  c : Bool
  deriving DecidableEq, Repr

/-- The implemented bits of the status register (R26); the bits that are always 0 have no storage. -/
structure StatusReg where
  /-- trace enable, bit 15 -/
  t : Bool
  /-- supervisor state, bit 13 -/
  s : Bool
  /-- interrupt priority mask, bits 10 to 8 -/
  i : BitVec 3
  /-- condition codes, bits 4 to 0 -/
  ccr : Ccr
  deriving DecidableEq, Repr

/-- Memory (R34): the bytes that differ from what an unlisted address reads as, addresses rising. -/
abbrev Memory := List Host.Cell

/-- `size` addresses from `base`, and what MEM says of each of them (20_memory.md R51). -/
structure Region where
  base : Nat
  size : Nat
  /-- responds to reads -/
  readable : Bool
  /-- accepts writes -/
  writable : Bool
  /-- plain memory: a read returns the last value written and has no side effect -/
  plain : Bool
  deriving DecidableEq, Repr

/-- The reply to an interrupt acknowledge (60_exceptions.md R266): a vector number from the device, the
autovector of the level, or a bus error. -/
inductive Acknowledge where
  | vector (n : Byte)
  | autovector
  | spurious
  deriving DecidableEq, Repr

/-- What the outside presents at one instruction boundary: RESET asserted, the interrupt request level, and the
reply should the interrupt be acknowledged (R266, R267, 70_reset_and_hazards.md R290). -/
structure BusInput where
  reset : Bool
  level : BitVec 3
  ack : Acknowledge
  deriving DecidableEq, Repr

/-- Which class of access a read or write is, beside the privilege state (20_memory.md R52). -/
inductive Space where
  | data | program
  deriving DecidableEq, Repr

/-- Read or write. -/
inductive Direction where
  | read | write
  deriving DecidableEq, Repr

/-- The two group 0 exceptions an access can raise (60_exceptions.md R261, R262). -/
inductive AccessError where
  | bus | address
  deriving DecidableEq, Repr

/-- An access that was not made: the exception, the address, the direction and the space, as the group 0
stack frame records them (R263). -/
structure FailedAccess where
  error : AccessError
  addr : Long
  dir : Direction
  space : Space
  deriving DecidableEq, Repr

/-- An exception to be entered through a 6-byte frame (R256). -/
structure Entry where
  vector : Nat
  savedPc : Long
  /-- where the program counter of the group 0 frame is counted from if the entry fails (R263): the first word of the
  instruction, or, where no instruction runs (trace, interrupt), DESIGN CHOICE, the next one's (log 3) -/
  pc0 : Long
  /-- the new interrupt mask, for an interrupt -/
  mask : Option (BitVec 3)
  /-- a group 1 exception rather than a group 2 one (R254) -/
  group1 : Bool
  /-- the operation word a group 0 frame would record if the entry fails (R263) -/
  opWord : Word
  /-- a trace exception follows (R270) -/
  traced : Bool
  deriving DecidableEq, Repr

/-- A place an operand is read from and written to (00_scope.md R12). -/
inductive Loc where
  | dreg (r : RegNum)
  | areg (r : RegNum)
  | mem (a : Long) (space : Space)
  | imm (v : Long)
  deriving DecidableEq, Repr

/-- The machine. -/
structure State where
  /-- D0 to D7 -/
  d : DataRegs
  /-- A0 to A6 -/
  a : AddrRegs
  /-- user stack pointer: A7 when S = 0 -/
  usp : Long
  /-- supervisor stack pointer: A7 when S = 1 -/
  ssp : Long
  pc : Long
  sr : StatusReg
  mem : Memory
  /-- set by STOP (R35) -/
  stopped : Bool
  /-- set by a double bus fault (R35) -/
  halted : Bool
  /-- the words already fetched ahead, with their addresses; while an instruction runs, those after it (R35,
  20_memory.md R79) -/
  prefetch : List (Long × Word)
  /-- the level last seen on the interrupt inputs (R35) -/
  ipl : BitVec 3
  /-- level 7 has risen and is not yet taken (60_exceptions.md R266) -/
  nmi : Bool
  /-- the last instruction was traced and its trace exception is still to be taken (R254, R270) -/
  tracePending : Bool
  /-- the parameter MEM: what answers where (20_memory.md R51) -/
  busMap : List Region
  /-- the parameter IRQ and the RESET line, one sample for each boundary to come; silent when empty (00_scope.md R7) -/
  inputs : List BusInput
  /-- the operation word being executed (60_exceptions.md R263) -/
  ir : Word
  /-- the model's own: the counter at which free values are taken (log 29) -/
  draws : Nat
  deriving DecidableEq, Repr

/-- Why the machine stops. -/
inductive Fault where
  /-- raised by `step` at a halted processor to which no input is still to come (R264, U6: stuck). Safe: no
  further state is claimed. -/
  | halted
  deriving DecidableEq, Repr

/-- Why the model gives no meaning. -/
inductive Refusal where
  /-- raised by `exec` for an instruction with no meaning yet. Safe. -/
  | notModelled (mnemonic : String)
  /-- raised by `step` for a word of an MC68000 instruction that the spec leaves out of scope (30_encoding.md R104).
  Safe. -/
  | outOfScope (mnemonic : String)
  /-- raised by a meaning at an operand no encoding reaches (R74): `step` never executes one. Safe. -/
  | illFormedOperand
  /-- for a list of words that ends before the instruction does: `step` always gives enough words. Safe. -/
  | truncatedFetch
  deriving DecidableEq, Repr

/-- What a part of an instruction does: a value and the state after it; an access that was not made, with the
state as it stood then (60_exceptions.md R261); or a refusal. -/
inductive Eff (α : Type) where
  | done (v : α) (s : State)
  | abort (x : FailedAccess) (s : State)
  | refuse (r : Refusal)
  deriving Repr

/-- The machine right after reset (10_state.md R36, 70_reset_and_hazards.md R290) with nothing in memory:
supervisor state, trace off, mask 7; SSP and pc read from addresses 0 and 4. What R36 leaves unspecified is 0
(DESIGN CHOICE, log 8, 9, 10, 11). -/
def State.reset : State where
  d := ⟨0, 0, 0, 0, 0, 0, 0, 0⟩
  a := ⟨0, 0, 0, 0, 0, 0, 0⟩
  usp := 0
  ssp := 0
  pc := 0
  sr := { t := false, s := true, i := 7, ccr := ⟨false, false, false, false, false⟩ }
  mem := []
  stopped := false
  halted := false
  prefetch := []
  ipl := 0
  nmi := false
  tracePending := false
  busMap := [⟨0, 2 ^ Config.addrBits, true, true, true⟩]
  inputs := []
  ir := 0
  draws := 0

end Sys2Proof.Machine
end

