-- ==== Sys2Proof/Machine/Flags.lean ====
section
/-! DEFINITION. Every flag computation of the spec (00_scope.md R13, 10_state.md R27 to R31): the additions and
subtractions, the logic operations, the shifts and rotates, and the conditions of Bcc. -/

namespace Sys2Proof.Machine

/-! ### Addition and subtraction -/

/-- `add_n` of R13: the sum, the carry out of the top bit and the signed overflow. -/
def addN {n : Nat} (s d : BitVec n) (x : Bool) : BitVec n × Bool × Bool :=
  let full := s.toNat + d.toNat + x.toNat
  let r := BitVec.ofNat n full
  (r, decide (2 ^ n ≤ full), s.msb == d.msb && r.msb != d.msb)

/-- `sub_n` of R13, which computes `d - s - x`: the difference, the borrow and the signed overflow. -/
def subN {n : Nat} (s d : BitVec n) (x : Bool) : BitVec n × Bool × Bool :=
  let r := d - s - BitVec.ofNat n x.toNat
  (r, decide (d.toNat < s.toNat + x.toNat), s.msb != d.msb && r.msb != d.msb)

/-- An operation on the flags as they were, the source and the destination: the result and the new flags. -/
abbrev Alu (n : Nat) := Ccr → BitVec n → BitVec n → BitVec n × Ccr

/-- ADD, ADDQ and ADDI (40_add_sub.md R120). -/
def aluAdd {n : Nat} : Alu n := fun _ s d =>
  let (r, carry, ovf) := addN s d false
  (r, { x := carry, n := r.msb, z := r == 0, v := ovf, c := carry })

/-- SUB, SUBQ and SUBI (R126). -/
def aluSub {n : Nat} : Alu n := fun _ s d =>
  let (r, borrow, ovf) := subN s d false
  (r, { x := borrow, n := r.msb, z := r == 0, v := ovf, c := borrow })

/-- Z of ADDX and SUBX (R127): cleared by a result that is not zero, else kept; `ADDX_Z_LITERAL` takes it from
the result alone (D7, log 26). -/
def extendZ (old zero : Bool) : Bool := if Config.addxZLiteral then zero else old && zero

/-- ADDX (R127). -/
def aluAddx {n : Nat} : Alu n := fun f s d =>
  let (r, carry, ovf) := addN s d f.x
  (r, { x := carry, n := r.msb, z := extendZ f.z (r == 0), v := ovf, c := carry })

/-- SUBX (R132). -/
def aluSubx {n : Nat} : Alu n := fun f s d =>
  let (r, borrow, ovf) := subN s d f.x
  (r, { x := borrow, n := r.msb, z := extendZ f.z (r == 0), v := ovf, c := borrow })

/-- The flags of CMPI (47_example_support.md R234): those of `d - s`, X kept. -/
def cmpCcr {n : Nat} (f : Ccr) (s d : BitVec n) : Ccr :=
  let (r, borrow, ovf) := subN s d false
  { f with n := r.msb, z := r == 0, v := ovf, c := borrow }

/-! ### Logic -/

/-- The flag rule of the logic family (44_logic.md R180), of MOVE (47_example_support.md R232), EXT and the
multiplications: N and Z from the result, V and C cleared, X kept. -/
def logicCcr {n : Nat} (f : Ccr) (r : BitVec n) : Ccr := { f with n := r.msb, z := r == 0, v := false, c := false }

/-- AND and ANDI (R181, R182). -/
def aluAnd {n : Nat} : Alu n := fun f s d => (s &&& d, logicCcr f (s &&& d))

/-- OR and ORI (R183, R184). -/
def aluOr {n : Nat} : Alu n := fun f s d => (s ||| d, logicCcr f (s ||| d))

/-- EOR and EORI (R185, R186). -/
def aluEor {n : Nat} : Alu n := fun f s d => (s ^^^ d, logicCcr f (s ^^^ d))

/-- NOT (R187), which has no source. -/
def aluNot {n : Nat} (f : Ccr) (d : BitVec n) : BitVec n × Ccr := (~~~d, logicCcr f (~~~d))

/-- The flags of CLR (41_clr_ext.md R150). -/
def clrCcr (f : Ccr) : Ccr := { f with n := false, z := true, v := false, c := false }

/-- Each flag ANDed with its bit of the operand: ANDI to CCR (44_logic.md R188). -/
def andCcr (f : Ccr) (imm : Byte) : Ccr :=
  { x := f.x && imm.getLsbD 4
    n := f.n && imm.getLsbD 3
    z := f.z && imm.getLsbD 2
    v := f.v && imm.getLsbD 1
    c := f.c && imm.getLsbD 0 }

/-! ### Division -/

/-- The flags of a division whose quotient fits (42_mul_div.md R164, R165). -/
def divideCcr (f : Ccr) (negative zero : Bool) : Ccr := { f with n := negative, z := zero, v := false, c := false }

/-- The flags of a division that overflows (R163): V set, C cleared, N and Z free values (log 25). -/
def overflowCcr (f : Ccr) (draw : Nat) : Ccr :=
  { f with n := Config.divideN draw, z := Config.divideZ draw, v := true, c := false }

/-! ### Shifts and rotates -/

/-- The eight shifts and rotates (45_lsl_lsr_rotate.md R208). -/
inductive ShiftOp where
  | asr | asl | lsr | lsl | roxr | roxl | ror | rol
  deriving DecidableEq, Repr

/-- The operand and the flags a loop of R171, R172 and R201 to R206 works on. -/
structure Shifting (n : Nat) where
  v : BitVec n
  x : Bool
  c : Bool
  /-- the top bit has changed, ASL's V -/
  changed : Bool
  deriving DecidableEq, Repr

/-- A bit put at bit `n - 1`. -/
def atTop {n : Nat} (b : Bool) : BitVec n := BitVec.ofNat n b.toNat <<< (n - 1)

/-- A bit put at bit 0. -/
def atBottom {n : Nat} (b : Bool) : BitVec n := BitVec.ofNat n b.toNat

/-- One iteration of the loops of R171, R172 and R201 to R206. -/
def Shifting.step {n : Nat} (op : ShiftOp) (s : Shifting n) : Shifting n :=
  let low := s.v.getLsbD 0
  let high := s.v.msb
  match op with
  | .asl => { v := s.v <<< 1, x := high, c := high, changed := s.changed || (s.v <<< 1).msb != high }
  | .asr => { s with v := s.v >>> 1 ||| atTop high, x := low, c := low }
  | .lsl => { s with v := s.v <<< 1, x := high, c := high }
  | .lsr => { s with v := s.v >>> 1, x := low, c := low }
  | .rol => { s with v := s.v <<< 1 ||| atBottom high, c := high }
  | .ror => { s with v := s.v >>> 1 ||| atTop low, c := low }
  | .roxl => { s with v := s.v <<< 1 ||| atBottom s.x, x := high, c := high }
  | .roxr => { s with v := s.v >>> 1 ||| atTop s.x, x := low, c := low }

/-- The loop. -/
def Shifting.repeat {n : Nat} (op : ShiftOp) : Nat → Shifting n → Shifting n
  | 0, s => s
  | k + 1, s => Shifting.repeat op k (s.step op)

/-- C before the loop: X for ROXL and ROXR, else 0 (R208). -/
def ShiftOp.startC (op : ShiftOp) (x : Bool) : Bool :=
  match op with
  | .roxl | .roxr => x
  | .asr | .asl | .lsr | .lsl | .ror | .rol => false

/-- The result and the flags of a shift or rotate by a count (43_asl_asr.md R171, R172, 45_lsl_lsr_rotate.md R201
to R206, R208). -/
def shiftBy {n : Nat} (op : ShiftOp) (count : Nat) (f : Ccr) (v : BitVec n) : BitVec n × Ccr :=
  let s := Shifting.repeat op count { v, x := f.x, c := op.startC f.x, changed := false }
  (s.v, { x := s.x, n := s.v.msb, z := s.v == 0, v := s.changed, c := s.c })

/-! ### Conditions -/

/-- The table of 47_example_support.md R239. -/
def condHolds (f : Ccr) : Cond → Bool
  | .hi => !f.c && !f.z
  | .ls => f.c || f.z
  | .cc => !f.c
  | .cs => f.c
  | .ne => !f.z
  | .eq => f.z
  | .vc => !f.v
  | .vs => f.v
  | .pl => !f.n
  | .mi => f.n
  | .ge => f.n == f.v
  | .lt => f.n != f.v
  | .gt => !f.z && f.n == f.v
  | .le => f.z || f.n != f.v

end Sys2Proof.Machine
end

