-- ==== Sys2Proof/Machine/Ops.lean ====
section
/-! DEFINITION. The named operations over memory, registers and the status register, taking an exception and
returning from one (20_memory.md R50 to R57, 60_exceptions.md R251 to R269, 70_reset_and_hazards.md R290). -/

namespace Sys2Proof.Machine

/-- The three outcomes of a step or of a meaning. -/
abbrev Result := Host.Outcome State Fault Refusal

/-- First one part, then the next on its value and state; an access that fails or a refusal ends it. -/
def Eff.bind {α β : Type} (e : Eff α) (f : α → State → Eff β) : Eff β :=
  match e with
  | .done v s => f v s
  | .abort x s => .abort x s
  | .refuse r => .refuse r

/-! ### Registers -/

/-- The data register of a number (10_state.md R20). -/
def DataRegs.get (f : DataRegs) : RegNum → Long
  | .r0 => f.d0
  | .r1 => f.d1
  | .r2 => f.d2
  | .r3 => f.d3
  | .r4 => f.d4
  | .r5 => f.d5
  | .r6 => f.d6
  | .r7 => f.d7

/-- A data register replaced. -/
def DataRegs.set (f : DataRegs) (r : RegNum) (v : Long) : DataRegs :=
  match r with
  | .r0 => { f with d0 := v }
  | .r1 => { f with d1 := v }
  | .r2 => { f with d2 := v }
  | .r3 => { f with d3 := v }
  | .r4 => { f with d4 := v }
  | .r5 => { f with d5 := v }
  | .r6 => { f with d6 := v }
  | .r7 => { f with d7 := v }

/-- `D[r]` (R20). -/
def State.readD (s : State) (r : RegNum) : Long := s.d.get r

/-- `D[r] <- v`, all 32 bits. -/
def State.writeD (s : State) (r : RegNum) (v : Long) : State := { s with d := s.d.set r v }

/-- A7, the stack pointer of the privilege state (R23). -/
def State.sp (s : State) : Long := if s.sr.s then s.ssp else s.usp

/-- A7 replaced; the stack pointer of the other privilege state keeps its value (R23). -/
def State.setSp (s : State) (v : Long) : State := if s.sr.s then { s with ssp := v } else { s with usp := v }

/-- `A[r]` (R22, R23). -/
def State.readA (s : State) : RegNum → Long
  | .r0 => s.a.a0
  | .r1 => s.a.a1
  | .r2 => s.a.a2
  | .r3 => s.a.a3
  | .r4 => s.a.a4
  | .r5 => s.a.a5
  | .r6 => s.a.a6
  | .r7 => s.sp

/-- `A[r] <- v`, always all 32 bits (R22). -/
def State.writeA (s : State) (r : RegNum) (v : Long) : State :=
  match r with
  | .r0 => { s with a := { s.a with a0 := v } }
  | .r1 => { s with a := { s.a with a1 := v } }
  | .r2 => { s with a := { s.a with a2 := v } }
  | .r3 => { s with a := { s.a with a3 := v } }
  | .r4 => { s with a := { s.a with a4 := v } }
  | .r5 => { s with a := { s.a with a5 := v } }
  | .r6 => { s with a := { s.a with a6 := v } }
  | .r7 => s.setSp v

/-- The low `n` bits replaced, the bits above kept (R21). -/
def mergeLow {n : Nat} (old : Long) (v : BitVec n) : Long := ((old >>> n) <<< n) ||| v.setWidth 32

/-- The operand of size `n` in a data register (R21). -/
def State.lowD (s : State) (sz : Size) (r : RegNum) : BitVec sz.bits := (s.readD r).setWidth sz.bits

/-- `D[r][n-1:0] <- v` (R21). -/
def State.writeLowD (s : State) (sz : Size) (r : RegNum) (v : BitVec sz.bits) : State :=
  s.writeD r (mergeLow (s.readD r) v)

/-! ### The status register -/

/-- The CCR byte (R25): bits 4 to 0 are X, N, Z, V, C; bits 7 to 5 read as 0. -/
def Ccr.byte (f : Ccr) : Byte :=
  0#3 ++ BitVec.ofBool f.x ++ BitVec.ofBool f.n ++ BitVec.ofBool f.z ++ BitVec.ofBool f.v ++ BitVec.ofBool f.c

/-- The flags of a CCR byte; bits 7 to 5 are ignored (R25). -/
def Ccr.ofByte (b : Byte) : Ccr := ⟨b.getLsbD 4, b.getLsbD 3, b.getLsbD 2, b.getLsbD 1, b.getLsbD 0⟩

/-- The 16-bit status register (R26). -/
def StatusReg.word (sr : StatusReg) : Word :=
  BitVec.ofBool sr.t ++ 0#1 ++ BitVec.ofBool sr.s ++ 0#2 ++ sr.i ++ sr.ccr.byte

/-- A value written to the status register; the bits that are always 0 are ignored (R26). -/
def StatusReg.ofWord (w : Word) : StatusReg :=
  { t := w.getLsbD 15, s := w.getLsbD 13, i := w.extractLsb' 8 3, ccr := Ccr.ofByte (w.setWidth 8) }

/-- The condition codes replaced, T, S and the mask kept (R26). -/
def State.setCcr (s : State) (f : Ccr) : State := { s with sr := { s.sr with ccr := f } }

/-! ### Memory -/

/-- What an unlisted address reads as. DESIGN CHOICE: 0; the spec gives memory no contents at reset (log 11). -/
def unlistedByte : Byte := 0

/-- One byte of memory. -/
def Memory.read : Memory → Nat → Byte
  | [], _ => unlistedByte
  | (k, v) :: rest, a => if k = a then v else Memory.read rest a

/-- One byte of memory replaced, keeping the canonical form. -/
def Memory.write : Memory → Nat → Byte → Memory
  | [], a, b => if b = unlistedByte then [] else [(a, b)]
  | (k, v) :: rest, a, b =>
    if a < k then (if b = unlistedByte then (k, v) :: rest else (a, b) :: (k, v) :: rest)
    else if a = k then (if b = unlistedByte then rest else (a, b) :: rest)
    else (k, v) :: Memory.write rest a b

/-- The canonical form from an address on: addresses rise and lie in the address space, and no entry equals what
an unlisted address reads as. -/
def Memory.wfFrom : Nat → Memory → Bool
  | _, [] => true
  | lo, (k, v) :: rest => lo ≤ k && k < 2 ^ Config.addrBits && v ≠ unlistedByte && Memory.wfFrom (k + 1) rest

/-- The canonical form: two memories of this form that read alike are equal. -/
def Memory.wf (m : Memory) : Bool := Memory.wfFrom 0 m

/-- The low `ADDR_BITS` bits of an address, all that reaches memory (20_memory.md R50). -/
def busAddress (a : Long) : Nat := a.toNat % 2 ^ Config.addrBits

/-- Where the bus takes the byte at a place reached by counting up from an operand's address: beyond the top of
the address space it is the implementation's (log 16). -/
def place (k : Nat) : Nat := if k < 2 ^ Config.addrBits then k else Config.beyondTop k

/-- `nb` bytes from a place, the lowest the most significant (R53, R56). -/
def Memory.readBE (m : Memory) (a : Nat) : Nat → Long
  | 0 => 0
  | k + 1 => (Memory.readBE m a k <<< 8) ||| (m.read (place (a + k))).setWidth 32

/-- `nb` bytes replaced from a place, the lowest the most significant (R53, R57). -/
def Memory.writeBE (m : Memory) (a : Nat) : Nat → Long → Memory
  | 0, _ => m
  | k + 1, v => (Memory.writeBE m a k (v >>> 8)).write (place (a + k)) (v.setWidth 8)

/-- Whether a region holds a place. -/
def Region.holds (g : Region) (k : Nat) : Bool := g.base ≤ k && k < g.base + g.size

/-- The region at a place: the first that holds it; none outside the address space. -/
def State.regionAt (s : State) (k : Nat) : Option Region :=
  if k < 2 ^ Config.addrBits then s.busMap.find? fun g => g.holds k else none

/-- Whether MEM responds to a read, or accepts a write, of one byte (R51). -/
def State.respondsAt (s : State) (dir : Direction) (k : Nat) : Bool :=
  match s.regionAt k, dir with
  | none, _ => false
  | some g, .read => g.readable
  | some g, .write => g.writable

/-- Whether MEM responds to an access of `nb` bytes (R56, R57). -/
def State.responds (s : State) (dir : Direction) (a nb : Nat) : Bool :=
  (List.range nb).all fun j => s.respondsAt dir (place (a + j))

/-- Whether a place is plain memory (R51, R58). -/
def State.plainAt (s : State) (k : Nat) : Bool :=
  match s.regionAt k with
  | none => false
  | some g => g.plain

/-- Whether `nb` bytes are plain memory. -/
def State.plain (s : State) (a nb : Nat) : Bool := (List.range nb).all fun j => s.plainAt (place (a + j))

/-- The byte a read gives: from plain memory the last value written, from any other address a free value (R51, R58;
log 15). -/
def State.busByte (s : State) (use : Config.ReadUse) (k : Nat) : Byte :=
  if s.plainAt (place k) then s.mem.read (place k) else Config.deviceByte s.draws use k

/-- `nb` bytes as a read gives them, the lowest the most significant (R53, R56). -/
def State.busRead (s : State) (use : Config.ReadUse) (a : Nat) : Nat → Long
  | 0 => 0
  | k + 1 => (State.busRead s use a k <<< 8) ||| (s.busByte use (a + k)).setWidth 32

/-- A word or long-word access at an odd address (R54). -/
def misaligned (addr : Long) (nb : Nat) : Bool := 1 < nb && addr.getLsbD 0

/-- The checks of an access, the address before the bus (60_exceptions.md R255). -/
def State.access (s : State) (space : Space) (dir : Direction) (addr : Long) (nb : Nat) : Eff Unit :=
  if misaligned addr nb then .abort ⟨.address, addr, dir, space⟩ s
  else if s.responds dir (busAddress addr) nb then .done () s
  else .abort ⟨.bus, addr, dir, space⟩ s

/-- `MemRead` (R56), zero-extended to 32 bits. -/
def State.memRead (s : State) (use : Config.ReadUse) (space : Space) (addr : Long) (nb : Nat) : Eff Long :=
  (s.access space .read addr nb).bind fun _ s => .done (s.busRead use (busAddress addr) nb) s

/-- `MemWrite` (R57) of the low `8 * nb` bits; data space. What a device makes of a write is not in the spec, and its
reads are free whatever is written (log 15). -/
def State.memWrite (s : State) (addr : Long) (nb : Nat) (v : Long) : Eff Unit :=
  (s.access .data .write addr nb).bind fun _ s =>
    .done () { s with mem := s.mem.writeBE (busAddress addr) nb v }

/-! ### Taking an exception -/

/-- The function code of an access (20_memory.md R52). PRESUMED: the spec names the four classes, the family
numbers them (log 4). -/
def functionCode (supervisor : Bool) (space : Space) : BitVec 3 :=
  match supervisor, space with
  | false, .data => 1
  | false, .program => 2
  | true, .data => 5
  | true, .program => 6

/-- `A[7] <- A[7] - nb; MemWrite(A[7], nb, v)` (60_exceptions.md R256). -/
def State.push (s : State) (nb : Nat) (v : Long) : Eff Unit :=
  (s.setSp (s.sp - BitVec.ofNat 32 nb)).memWrite (s.sp - BitVec.ofNat 32 nb) nb v

/-- `MemRead(4 * vector, 4)` (R252): supervisor data space. -/
def State.readVector (s : State) (vector : Nat) : Eff Long := s.memRead .exception .data (BitVec.ofNat 32 (4 * vector)) 4

/-- `SR.S <- 1; SR.T <- 0`, the processor is no longer stopped (R256), and what was fetched ahead is dropped
(20_memory.md R79). -/
def State.supervisor (s : State) : State :=
  { s with sr := { s.sr with s := true, t := false }, stopped := false, prefetch := [] }

/-- The first word of a group 0 frame (R263). -/
def accessWord (x : FailedAccess) (busy supervisor : Bool) (draw : Nat) : Word :=
  Config.frameUndefinedBits draw ++ BitVec.ofBool (decide (x.dir = .read)) ++ BitVec.ofBool busy ++
    functionCode supervisor x.space

/-- The program counter of a group 0 frame (R263): 2 to 10 bytes beyond the instruction's first word. -/
def framePc (pc0 : Long) (draw : Nat) : Long := pc0 + 2 + BitVec.ofNat 32 (Config.framePcAdvance draw).val

/-- The five writes of a group 0 frame, highest address first, leaving the layout of R263. -/
def State.pushGroup0 (s : State) (x : FailedAccess) (pc0 : Long) (opWord : Word) (busy : Bool) : Eff Unit :=
  (s.supervisor.push 4 (framePc pc0 s.draws)).bind fun _ t =>
    (t.push 2 (s.sr.word.setWidth 32)).bind fun _ t =>
      (t.push 2 (opWord.setWidth 32)).bind fun _ t =>
        (t.push 4 x.addr).bind fun _ t =>
          t.push 2 ((accessWord x busy s.sr.s s.draws).setWidth 32)

/-- Vectors 2 and 3 (R251). -/
def AccessError.vector : AccessError → Nat
  | .bus => 2
  | .address => 3

/-- Entry of a bus or address error (R261, R262, R263), from the state as it stood when the access failed. A second
one meanwhile halts the processor (R264). `busy` says that a group 0 or 1 exception was being processed. -/
def enterGroup0 (x : FailedAccess) (pc0 : Long) (opWord : Word) (busy : Bool) (s : State) : Result :=
  match (s.pushGroup0 x pc0 opWord busy).bind fun _ t => t.readVector x.error.vector with
  | .done v t => .next { t with pc := v, tracePending := false }
  | .abort _ t => .next { t with halted := true, tracePending := false }
  | .refuse r => .refused r

/-- The two writes of the 6-byte frame (R256): the program counter, then SR as it was. -/
def State.pushFrame (s : State) (e : Entry) : Eff Unit :=
  let t := s.supervisor
  (State.push { t with sr := { t.sr with i := e.mask.getD t.sr.i } } 4 e.savedPc).bind fun _ t =>
    t.push 2 (s.sr.word.setWidth 32)

/-- TAKING AN EXCEPTION of group 1 or 2, or an interrupt (R256). An access that fails on the way is a group 0
exception of its own. -/
def enterException (e : Entry) (s : State) : Result :=
  match (s.pushFrame e).bind fun _ t => t.readVector e.vector with
  | .done v t => .next { t with pc := v, tracePending := e.traced }
  | .abort x t => enterGroup0 x e.pc0 e.opWord e.group1 t
  | .refuse r => .refused r

/-- A group 1 exception of the instruction at `pc` (R258, R259, R260): nothing is changed first. -/
def enterGroup1 (vector : Nat) (opWord : Word) (s : State) : Result :=
  enterException
    { vector, savedPc := s.pc, pc0 := s.pc, mask := none, group1 := true, opWord, traced := false } s

/-- PrivilegeViolation (R260). -/
def privilegeViolation (s : State) : Result := enterGroup1 8 s.ir s

/-- The flags after a divide by zero (42_mul_div.md R163): N, Z and V undefined, C 0, X unchanged. -/
def zeroDivideCcr (s : State) : Ccr :=
  { s.sr.ccr with
    n := Config.divideN s.draws
    z := Config.divideZ s.draws
    v := Config.divideV s.draws
    c := false }

/-- ZeroDivide (60_exceptions.md R257) of an instruction begun in `s0`, from the state after its source operand
was read; it is followed by the instruction's trace exception (R270). -/
def zeroDivide (s0 s : State) : Result :=
  enterException
    { vector := 5
      savedPc := s.pc
      pc0 := s0.pc
      mask := none
      group1 := false
      opWord := s0.ir
      traced := s0.sr.t }
    (s.setCcr (zeroDivideCcr s))

/-- What RTE does (R269): the 6-byte frame popped. No instruction in scope does it (log 37). -/
def returnFromException (s : State) : Result :=
  match (s.memRead .exception .data s.ssp 2).bind fun sr t =>
      (t.memRead .exception .data (t.ssp + 2) 4).bind fun pc t => .done (sr, pc) t with
  | .done (sr, pc) t => .next { t with sr := StatusReg.ofWord (sr.setWidth 16), pc, ssp := t.ssp + 6, prefetch := [] }
  | .abort x t => enterGroup0 x s.pc s.ir false t
  | .refuse r => .refused r

/-- The reset sequence (70_reset_and_hazards.md R290, 10_state.md R36): a read that fails halts the processor
(60_exceptions.md R264). The flags, which reset leaves undefined, are free values (log 10). -/
def resetSequence (s : State) : Result :=
  let t : State :=
    { s with
      sr := { t := false, s := true, i := 7, ccr := Ccr.ofByte ((Config.resetFlags s.draws).setWidth 8) }
      stopped := false
      halted := false
      tracePending := false
      prefetch := [] }
  match (t.memRead .exception .program 0 4).bind fun ssp t =>
      (State.memRead { t with ssp } .exception .program 4 4) with
  | .done pc t => .next { t with pc }
  | .abort _ t => .next { t with halted := true }
  | .refuse r => .refused r

/-! ### The course of an instruction -/

/-- An instruction that completes is followed by a trace exception if T was set when it started (60_exceptions.md R270). -/
def State.retire (s0 s : State) : State := { s with tracePending := s0.sr.t }

/-- The end of an instruction begun in `s0`, its first word at `s0.pc`: what follows its last part, or the entry of
the group 0 exception that ended it (R261, R262). -/
def finishWith {α : Type} (s0 : State) (e : Eff α) (k : α → State → Result) : Result :=
  match e with
  | .done v t => k v t
  | .abort x t => enterGroup0 x s0.pc s0.ir false t
  | .refuse r => .refused r

/-- The end of an instruction that completes after its last part. -/
def finish (s0 : State) (e : Eff Unit) : Result := finishWith s0 e fun _ t => .next (s0.retire t)

/-- The state after the operation word is fetched: `pc = pc0 + 2` (00_scope.md R14). -/
def State.pastOpWord (s : State) : State := { s with pc := s.pc + 2 }

/-- `k` extension words fetched (30_encoding.md R81): each must be at an even address that answers, and moves
`pc` past it. Their contents are in the decoded instruction. -/
def State.fetchExt (s : State) : Nat → Eff Unit
  | 0 => .done () s
  | k + 1 => (s.access .program .read s.pc 2).bind fun _ s => State.fetchExt { s with pc := s.pc + 2 } k

end Sys2Proof.Machine
end

