-- ==== Sys2Proof/Machine/Operands.lean ====
section
/-! DEFINITION. Every operand form (20_memory.md R62 to R75): the effective address, reading and writing a
location, and the shapes of instructions over them. Each shape starts after the operation word. -/

namespace Sys2Proof.Machine

/-! ### Effective addresses -/

/-- How many words of immediate data an operation size has (30_encoding.md R85). -/
def immExt : Size → Nat
  | .byte | .word => 1
  | .long => 2

/-- How many extension words an effective address has (R83). -/
def eaExt (sz : Size) : EA → Nat
  | .dn _ | .an _ | .ind _ | .postinc _ | .predec _ => 0
  | .disp _ _ | .index _ _ | .absW _ | .pcDisp _ | .pcIndex _ => 1
  | .absL _ => 2
  | .imm _ => immExt sz

/-- How far postincrement and predecrement step: a byte steps the stack pointer by 2 (20_memory.md R65, R66). -/
def stepBytes (sz : Size) (r : RegNum) : Long :=
  match r, sz with
  | .r7, .byte => 2
  | _, .byte => 1
  | _, .word => 2
  | _, .long => 4

/-- The index of an index mode (R68): a whole register, or its low word sign-extended. -/
def State.indexValue (s : State) (x : IndexExt) : Long :=
  let v := match x.reg with
    | .d r => s.readD r
    | .a r => s.readA r
  if x.long then v else (v.setWidth 16).signExtend 32

/-- The location of an effective address (R62 to R73), in the state where `pc` is the address of its first extension
word and no register side effect has been made. -/
def State.eaLoc (s : State) (sz : Size) : EA → Loc
  | .dn r => .dreg r
  | .an r => .areg r
  | .ind r => .mem (s.readA r) .data
  | .postinc r => .mem (s.readA r) .data
  | .predec r => .mem (s.readA r - stepBytes sz r) .data
  | .disp r d => .mem (s.readA r + d.signExtend 32) .data
  | .index r x => .mem (s.readA r + s.indexValue x + x.disp.signExtend 32) .data
  | .absW a => .mem (a.signExtend 32) .data
  | .absL a => .mem a .data
  | .pcDisp d => .mem (s.pc + d.signExtend 32) .program
  | .pcIndex x => .mem (s.pc + s.indexValue x + x.disp.signExtend 32) .program
  | .imm v => .imm v

/-- The register side effect of an effective address (R65, R66), made once. -/
def State.eaStep (s : State) (sz : Size) : EA → State
  | .postinc r => s.writeA r (s.readA r + stepBytes sz r)
  | .predec r => s.writeA r (s.readA r - stepBytes sz r)
  | .dn _ | .an _ | .ind _ | .disp _ _ | .index _ _ | .absW _ | .absL _ | .pcDisp _ | .pcIndex _ | .imm _ => s

/-- `EA(mode, reg, n)`: the extension words fetched, the register side effect made, the location. -/
def State.evalEa (s : State) (sz : Size) (ea : EA) : Eff Loc :=
  (s.fetchExt (eaExt sz ea)).bind fun _ t => .done (s.eaLoc sz ea) (t.eaStep sz ea)

/-! ### Locations -/

/-- `ReadLoc` (R74). -/
def State.readLoc (s : State) (use : Config.ReadUse) (sz : Size) : Loc → Eff (BitVec sz.bits)
  | .dreg r => .done (s.lowD sz r) s
  | .areg r => .done ((s.readA r).setWidth sz.bits) s
  | .mem a space => (s.memRead use space a sz.bytes).bind fun v t => .done (v.setWidth sz.bits) t
  | .imm v => .done (v.setWidth sz.bits) s

/-- `WriteLoc` (R74). No encoding writes an immediate (log 38). -/
def State.writeLoc (s : State) (sz : Size) (l : Loc) (v : BitVec sz.bits) : Eff Unit :=
  match l with
  | .dreg r => .done () (s.writeLowD sz r v)
  | .areg r => .done () (s.writeA r (v.signExtend 32))
  | .mem a _ => s.memWrite a sz.bytes (v.setWidth 32)
  | .imm _ => .refuse .illFormedOperand

/-- The source operand at an effective address. -/
def State.readEa (s : State) (sz : Size) (ea : EA) : Eff (BitVec sz.bits) :=
  (s.evalEa sz ea).bind fun l t => t.readLoc .source sz l

/-- Whether an effective address steps an address register. -/
def eaSteps (r : RegNum) : EA → Bool
  | .postinc q | .predec q => q = r
  | .dn _ | .an _ | .ind _ | .disp _ _ | .index _ _ | .absW _ | .absL _ | .pcDisp _ | .pcIndex _ | .imm _ => false

/-- An address register as the data operand of an instruction whose other operand is an effective address: a free
value if that effective address steps it (R75, D34, U9; log 23). -/
def State.dataA (s : State) (r : RegNum) (other : EA) : Long :=
  if eaSteps r other then Config.steppedRegister s.draws else s.readA r

/-! ### The shapes of instructions -/

/-- The destination read, changed and written back at one address, then the flags (R75, 44_logic.md R191). -/
def State.modifyEa (s : State) (sz : Size) (ea : EA) (f : Ccr → BitVec sz.bits → BitVec sz.bits × Ccr) : Eff Unit :=
  (s.evalEa sz ea).bind fun l t =>
    (t.readLoc .destination sz l).bind fun d t =>
      (t.writeLoc sz l (f t.sr.ccr d).1).bind fun _ u => .done () (u.setCcr (f t.sr.ccr d).2)

/-- `op #<data>,<ea>` of format IMM_EA: the immediate's words are fetched first (30_encoding.md R82). -/
def State.immToEa (s : State) (alu : ∀ {n : Nat}, Alu n) (sz : Size) (imm : Long) (ea : EA) : Eff Unit :=
  (s.fetchExt (immExt sz)).bind fun _ t => t.modifyEa sz ea fun f d => alu f (imm.setWidth sz.bits) d

/-- The value of the 3-bit data field of ADDQ, SUBQ and the immediate shifts: 0 stands for 8 (R85). -/
def quickValue (data : BitVec 3) : Nat := if data = 0 then 8 else data.toNat

/-- `op #<data>,<ea>` of format QUICK. -/
def State.quickToEa (s : State) (alu : ∀ {n : Nat}, Alu n) (data : BitVec 3) (sz : Size) (ea : EA) : Eff Unit :=
  s.modifyEa sz ea fun f d => alu f (BitVec.ofNat sz.bits (quickValue data)) d

/-- `op <ea>,Dn` of format EA_DN. -/
def State.eaToDn (s : State) (alu : ∀ {n : Nat}, Alu n) (sz : Size) (ea : EA) (r : RegNum) : Eff Unit :=
  (s.readEa sz ea).bind fun v t =>
    .done () ((t.writeLowD sz r (alu t.sr.ccr v (t.lowD sz r)).1).setCcr (alu t.sr.ccr v (t.lowD sz r)).2)

/-- `op Dn,<ea>` of format EA_DN. -/
def State.dnToEa (s : State) (alu : ∀ {n : Nat}, Alu n) (sz : Size) (r : RegNum) (ea : EA) : Eff Unit :=
  s.modifyEa sz ea fun f d => alu f (s.lowD sz r) d

/-- `op <ea>,An` of ADDA and SUBA: a word source is sign-extended, no flag is written (40_add_sub.md R124, R129). -/
def State.eaToAn (s : State) (op : Long → Long → Long) (sz : Size) (ea : EA) (r : RegNum) : Eff Unit :=
  (s.readEa sz ea).bind fun v t => .done () (t.writeA r (op (t.dataA r ea) (v.signExtend 32)))

/-- `op Dy,Dx` and `op -(Ay),-(Ax)` of format XREG: the source's register is decremented and the source read first
(R75, R127). -/
def State.extended (s : State) (alu : ∀ {n : Nat}, Alu n) (sz : Size) (form : XForm) (ry rx : RegNum) : Eff Unit :=
  match form with
  | .regs => s.modifyEa sz (.dn rx) fun f d => alu f (s.lowD sz ry) d
  | .predec => (s.readEa sz (.predec ry)).bind fun v t => t.modifyEa sz (.predec rx) fun f d => alu f v d

/-- The count of a register shift or rotate (43_asl_asr.md R170): the field's 1 to 8, or the register modulo 64. -/
def State.shiftCount (s : State) : ShiftCount → Nat
  | .imm c => quickValue c
  | .reg r => (s.readD r).toNat % 64

/-- A shift or rotate of a data register; the count is taken before the register changes (R170). -/
def State.shiftReg (s : State) (op : ShiftOp) (sz : Size) (count : ShiftCount) (r : RegNum) : Eff Unit :=
  s.modifyEa sz (.dn r) fun f d => shiftBy op (s.shiftCount count) f d

/-- A shift or rotate of a word in memory by one place (43_asl_asr.md R173, 45_lsl_lsr_rotate.md R207). -/
def State.shiftMem (s : State) (op : ShiftOp) (ea : EA) : Eff Unit := s.modifyEa .word ea fun f d => shiftBy op 1 f d

/-! ### Bit manipulation -/

/-- What a bit instruction makes of an operand and the mask of its bit (46_bit_manipulation.md R223 to R225). -/
inductive BitOp where
  | chg | clr | set
  deriving DecidableEq, Repr

/-- BCHG, BCLR, BSET (R223 to R225). -/
def BitOp.apply {n : Nat} (op : BitOp) (old mask : BitVec n) : BitVec n :=
  match op with
  | .chg => old ^^^ mask
  | .clr => old &&& ~~~mask
  | .set => old ||| mask

/-- Z is the complement of the bit as it was, the other flags stay (R221). -/
def bitCcr {n : Nat} (f : Ccr) (old : BitVec n) (b : Nat) : Ccr := { f with z := !old.getLsbD (b % n) }

/-- The size a bit instruction works at (R220): the whole data register, or one byte. -/
def bitSize : EA → Size
  | .dn _ => .long
  | .an _ | .ind _ | .postinc _ | .predec _ | .disp _ _ | .index _ _ | .absW _ | .absL _ | .pcDisp _ | .pcIndex _
  | .imm _ => .byte

/-- BTST of bit `b` modulo the operand's size (R220, R222). -/
def State.bitTest (s : State) (b : Nat) (ea : EA) : Eff Unit :=
  (s.readEa (bitSize ea) ea).bind fun v t => .done () (t.setCcr (bitCcr t.sr.ccr v b))

/-- BCHG, BCLR, BSET of bit `b` modulo the operand's size (R220, R223 to R225). -/
def State.bitChange (s : State) (op : BitOp) (b : Nat) (ea : EA) : Eff Unit :=
  s.modifyEa (bitSize ea) ea fun f old =>
    (op.apply old (BitVec.twoPow (bitSize ea).bits (b % (bitSize ea).bits)), bitCcr f old b)

end Sys2Proof.Machine
end

