-- ==== Sys2Proof/Machine/AddSub.lean ====
section
/-! DEFINITION. The add and subtract family (40_add_sub.md R120 to R133) and CMPI (47_example_support.md R234). -/

namespace Sys2Proof.Machine

/-- SUBI `#<data>,<ea>` (R131). -/
def execSubi (sz : Size) (imm : Long) (ea : EA) (s : State) : Result :=
  finish s (s.pastOpWord.immToEa aluSub sz imm ea)

/-- ADDI `#<data>,<ea>` (R125). -/
def execAddi (sz : Size) (imm : Long) (ea : EA) (s : State) : Result :=
  finish s (s.pastOpWord.immToEa aluAdd sz imm ea)

/-- CMPI `#<data>,<ea>` (R234): the flags of the subtraction but X, nothing written. -/
def execCmpi (sz : Size) (imm : Long) (ea : EA) (s : State) : Result :=
  finish s ((s.pastOpWord.fetchExt (immExt sz)).bind fun _ t =>
    (t.readEa sz ea).bind fun d t => .done () (t.setCcr (cmpCcr t.sr.ccr (imm.setWidth sz.bits) d)))

/-- ADDQ to a data register or memory (R122). -/
def execAddq (data : BitVec 3) (sz : Size) (ea : EA) (s : State) : Result :=
  finish s (s.pastOpWord.quickToEa aluAdd data sz ea)

/-- ADDQ to an address register: the whole register for both sizes, no flag (R123). -/
def execAddqA (data : BitVec 3) (_sz : Size) (r : RegNum) (s : State) : Result :=
  finish s (.done () (s.pastOpWord.writeA r (s.readA r + BitVec.ofNat 32 (quickValue data))))

/-- SUBQ to a data register or memory (R130). -/
def execSubq (data : BitVec 3) (sz : Size) (ea : EA) (s : State) : Result :=
  finish s (s.pastOpWord.quickToEa aluSub data sz ea)

/-- SUBQ to an address register: the whole register for both sizes, no flag (R130). -/
def execSubqA (data : BitVec 3) (_sz : Size) (r : RegNum) (s : State) : Result :=
  finish s (.done () (s.pastOpWord.writeA r (s.readA r - BitVec.ofNat 32 (quickValue data))))

/-- SUB `<ea>,Dn` (R128). -/
def execSubToDn (sz : Size) (ea : EA) (r : RegNum) (s : State) : Result :=
  finish s (s.pastOpWord.eaToDn aluSub sz ea r)

/-- SUB `Dn,<ea>` (R128). -/
def execSubToEa (sz : Size) (r : RegNum) (ea : EA) (s : State) : Result :=
  finish s (s.pastOpWord.dnToEa aluSub sz r ea)

/-- SUBA `<ea>,An` (R129). -/
def execSuba (sz : Size) (ea : EA) (r : RegNum) (s : State) : Result :=
  finish s (s.pastOpWord.eaToAn (· - ·) sz ea r)

/-- SUBX (R132). -/
def execSubx (sz : Size) (form : XForm) (ry rx : RegNum) (s : State) : Result :=
  finish s (s.pastOpWord.extended aluSubx sz form ry rx)

/-- ADD `<ea>,Dn` (R121). -/
def execAddToDn (sz : Size) (ea : EA) (r : RegNum) (s : State) : Result :=
  finish s (s.pastOpWord.eaToDn aluAdd sz ea r)

/-- ADD `Dn,<ea>` (R121). -/
def execAddToEa (sz : Size) (r : RegNum) (ea : EA) (s : State) : Result :=
  finish s (s.pastOpWord.dnToEa aluAdd sz r ea)

/-- ADDA `<ea>,An` (R124). -/
def execAdda (sz : Size) (ea : EA) (r : RegNum) (s : State) : Result :=
  finish s (s.pastOpWord.eaToAn (· + ·) sz ea r)

/-- ADDX (R127). -/
def execAddx (sz : Size) (form : XForm) (ry rx : RegNum) (s : State) : Result :=
  finish s (s.pastOpWord.extended aluAddx sz form ry rx)

end Sys2Proof.Machine
end

