-- ==== Sys2Proof/Machine/Bit.lean ====
section
/-! DEFINITION. Bit manipulation (46_bit_manipulation.md R220 to R227). -/

namespace Sys2Proof.Machine

/-- BTST `#<data>,<ea>` (R222): the bit-number word is fetched first (30_encoding.md R82). -/
def execBtstStatic (bit : Byte) (ea : EA) (s : State) : Result :=
  finish s ((s.pastOpWord.fetchExt 1).bind fun _ t => t.bitTest bit.toNat ea)

/-- BCHG `#<data>,<ea>` (R225): the bit-number word is fetched first (30_encoding.md R82). -/
def execBchgStatic (bit : Byte) (ea : EA) (s : State) : Result :=
  finish s ((s.pastOpWord.fetchExt 1).bind fun _ t => t.bitChange .chg bit.toNat ea)

/-- BCLR `#<data>,<ea>` (R224): the bit-number word is fetched first (30_encoding.md R82). -/
def execBclrStatic (bit : Byte) (ea : EA) (s : State) : Result :=
  finish s ((s.pastOpWord.fetchExt 1).bind fun _ t => t.bitChange .clr bit.toNat ea)

/-- BSET `#<data>,<ea>` (R223): the bit-number word is fetched first (30_encoding.md R82). -/
def execBsetStatic (bit : Byte) (ea : EA) (s : State) : Result :=
  finish s ((s.pastOpWord.fetchExt 1).bind fun _ t => t.bitChange .set bit.toNat ea)

/-- BTST `Dn,<ea>` (R222). -/
def execBtstDyn (r : RegNum) (ea : EA) (s : State) : Result := finish s (s.pastOpWord.bitTest (s.readD r).toNat ea)

/-- BCHG `Dn,<ea>` (R225). -/
def execBchgDyn (r : RegNum) (ea : EA) (s : State) : Result :=
  finish s (s.pastOpWord.bitChange .chg (s.readD r).toNat ea)

/-- BCLR `Dn,<ea>` (R224). -/
def execBclrDyn (r : RegNum) (ea : EA) (s : State) : Result :=
  finish s (s.pastOpWord.bitChange .clr (s.readD r).toNat ea)

/-- BSET `Dn,<ea>` (R223). -/
def execBsetDyn (r : RegNum) (ea : EA) (s : State) : Result :=
  finish s (s.pastOpWord.bitChange .set (s.readD r).toNat ea)

end Sys2Proof.Machine
end

