-- ==== Sys2Proof/Machine/ClrExt.lean ====
section
/-! DEFINITION. CLR and EXT (41_clr_ext.md R150 to R154). -/

namespace Sys2Proof.Machine

/-- A location read and the value discarded, as CLR does to memory (R150). -/
def State.discardRead (s : State) (sz : Size) (l : Loc) : Eff Unit :=
  match l with
  | .mem _ _ => (s.readLoc .destination sz l).bind fun _ t => .done () t
  | .dreg _ | .areg _ | .imm _ => .done () s

/-- CLR (R150). -/
def execClr (sz : Size) (ea : EA) (s : State) : Result :=
  finish s ((s.pastOpWord.evalEa sz ea).bind fun l t =>
    (t.discardRead sz l).bind fun _ t =>
      (t.writeLoc sz l 0).bind fun _ t => .done () (t.setCcr (clrCcr t.sr.ccr)))

/-- A data register replaced, low `n` bits, with the flags of R151 and R152: N and Z from the result, V and C cleared. -/
def State.putD (s : State) (sz : Size) (r : RegNum) (v : BitVec sz.bits) : State :=
  (s.writeLowD sz r v).setCcr (logicCcr s.sr.ccr v)

/-- EXT.W (R151). -/
def execExtW (r : RegNum) (s : State) : Result :=
  finish s (.done () (s.pastOpWord.putD .word r ((s.lowD .byte r).signExtend 16)))

/-- EXT.L (R152). -/
def execExtL (r : RegNum) (s : State) : Result :=
  finish s (.done () (s.pastOpWord.putD .long r ((s.lowD .word r).signExtend 32)))

end Sys2Proof.Machine
end

