-- ==== Sys2Proof/Machine/Logic.lean ====
section
/-! DEFINITION. The logic instructions (44_logic.md R180 to R191). -/

namespace Sys2Proof.Machine

/-- ORI `#<data>,<ea>` (R184). -/
def execOri (sz : Size) (imm : Long) (ea : EA) (s : State) : Result :=
  finish s (s.pastOpWord.immToEa aluOr sz imm ea)

/-- ANDI `#<data>,<ea>` (R182). -/
def execAndi (sz : Size) (imm : Long) (ea : EA) (s : State) : Result :=
  finish s (s.pastOpWord.immToEa aluAnd sz imm ea)

/-- EORI `#<data>,<ea>` (R186). -/
def execEori (sz : Size) (imm : Long) (ea : EA) (s : State) : Result :=
  finish s (s.pastOpWord.immToEa aluEor sz imm ea)

/-- ANDI `#<data>,CCR` (R188): the upper byte of SR stays. -/
def execAndiToCcr (imm : Byte) (s : State) : Result :=
  finish s ((s.pastOpWord.fetchExt 1).bind fun _ t => .done () (t.setCcr (andCcr t.sr.ccr imm)))

/-- NOT (R187). -/
def execNotEa (sz : Size) (ea : EA) (s : State) : Result := finish s (s.pastOpWord.modifyEa sz ea aluNot)

/-- OR `<ea>,Dn` (R183). -/
def execOrToDn (sz : Size) (ea : EA) (r : RegNum) (s : State) : Result :=
  finish s (s.pastOpWord.eaToDn aluOr sz ea r)

/-- OR `Dn,<ea>` (R183). -/
def execOrToEa (sz : Size) (r : RegNum) (ea : EA) (s : State) : Result :=
  finish s (s.pastOpWord.dnToEa aluOr sz r ea)

/-- EOR `Dn,<ea>` (R185). -/
def execEor (sz : Size) (r : RegNum) (ea : EA) (s : State) : Result :=
  finish s (s.pastOpWord.dnToEa aluEor sz r ea)

/-- AND `<ea>,Dn` (R181). -/
def execAndToDn (sz : Size) (ea : EA) (r : RegNum) (s : State) : Result :=
  finish s (s.pastOpWord.eaToDn aluAnd sz ea r)

/-- AND `Dn,<ea>` (R181). -/
def execAndToEa (sz : Size) (r : RegNum) (ea : EA) (s : State) : Result :=
  finish s (s.pastOpWord.dnToEa aluAnd sz r ea)

end Sys2Proof.Machine
end

