-- ==== Sys2Proof/Machine/Move.lean ====
section
/-! DEFINITION. The instructions the source's programs use beside (47_example_support.md R230 to R243): LEA, MOVE, MOVEA, Bcc,
STOP. -/

namespace Sys2Proof.Machine

/-- The source operand of MOVE: an address register that the destination steps is a free value (20_memory.md R75, D34;
log 23). -/
def State.moveSource (s : State) (sz : Size) (src dst : EA) : Eff (BitVec sz.bits) :=
  match src with
  | .an r => .done ((s.dataA r dst).setWidth sz.bits) s
  | _ => s.readEa sz src

/-- MOVE (R232): the destination is written last. -/
def execMove (sz : Size) (src dst : EA) (s : State) : Result :=
  finish s ((s.pastOpWord.moveSource sz src dst).bind fun v t =>
    (t.evalEa sz dst).bind fun l t =>
      (t.writeLoc sz l v).bind fun _ t => .done () (t.setCcr (logicCcr t.sr.ccr v)))

/-- MOVEA (R233): a word is sign-extended, no flag is written. -/
def execMovea (sz : Size) (src : EA) (r : RegNum) (s : State) : Result :=
  finish s ((s.pastOpWord.readEa sz src).bind fun v t => .done () (t.writeA r (v.signExtend 32)))

/-- The address register of LEA loaded with the address of a location (R231); a control mode is always in memory (log 38). -/
def State.loadAddress (s : State) (r : RegNum) : Loc → Eff Unit
  | .mem a _ => .done () (s.writeA r a)
  | .dreg _ | .areg _ | .imm _ => .refuse .illFormedOperand

/-- LEA (R231): no access is made at the address. -/
def execLea (ea : EA) (r : RegNum) (s : State) : Result :=
  finish s ((s.pastOpWord.evalEa .long ea).bind fun l t => t.loadAddress r l)

/-- The displacement of Bcc, sign-extended (R238). -/
def branchOffset : BranchDisp → Long
  | .short d => d.signExtend 32
  | .word d => d.signExtend 32

/-- How many extension words Bcc has (R238). -/
def branchExt : BranchDisp → Nat
  | .short _ => 0
  | .word _ => 1

/-- Bcc (R238): the displacement counts from the operation word's address plus 2; its word is fetched whether or not the
branch is taken. A branch that is taken refills the prefetch queue from memory (20_memory.md R79). -/
def execBcc (c : Cond) (disp : BranchDisp) (s : State) : Result :=
  finish s ((s.pastOpWord.fetchExt (branchExt disp)).bind fun _ t =>
    .done () (if condHolds s.sr.ccr c then { t with pc := s.pc + 2 + branchOffset disp, prefetch := [] } else t))

/-- STOP (R240, 60_exceptions.md R268): with T set when it starts, its trace exception is taken instead of stopping. An
operand that clears S or sets T is loaded like any other (log 21). -/
def execStop (imm : Word) (s : State) : Result :=
  if s.sr.s then
    finish s ((s.pastOpWord.fetchExt 1).bind fun _ t =>
      .done () { t with sr := StatusReg.ofWord imm, stopped := !s.sr.t })
  else privilegeViolation s

end Sys2Proof.Machine
end

