-- ==== Sys2Proof/Machine/MulDiv.lean ====
section
/-! DEFINITION. Multiplication and division (42_mul_div.md R160 to R167). -/

namespace Sys2Proof.Machine

/-- A whole data register replaced by a product, with its flags (R160, R162; V is always cleared, R161). -/
def State.putProduct (s : State) (r : RegNum) (v : Long) : State :=
  (s.writeD r v).setCcr (logicCcr s.sr.ccr v)

/-- MULU (R160). -/
def execMulu (ea : EA) (r : RegNum) (s : State) : Result :=
  finish s ((s.pastOpWord.readEa .word ea).bind fun v t =>
    .done () (t.putProduct r (BitVec.ofNat 32 (v.toNat * (t.lowD .word r).toNat))))

/-- MULS (R162). -/
def execMuls (ea : EA) (r : RegNum) (s : State) : Result :=
  finish s ((s.pastOpWord.readEa .word ea).bind fun v t =>
    .done () (t.putProduct r (BitVec.ofInt 32 (v.toInt * (t.lowD .word r).toInt))))

/-- The end of a division begun in `s0` by a divisor that is not 0 (R163 to R165): a quotient that does not fit sets V
and leaves the register; else the remainder is the high word and the quotient the low word. -/
def finishDivide (s0 t : State) (r : RegNum) (fits : Bool) (quotient remainder : Int) : Result :=
  if fits then
    .next (s0.retire ((t.writeD r (BitVec.ofInt 16 remainder ++ BitVec.ofInt 16 quotient)).setCcr
      (divideCcr t.sr.ccr (BitVec.ofInt 16 quotient).msb (quotient == 0))))
  else .next (s0.retire (t.setCcr (overflowCcr t.sr.ccr t.draws)))

/-- DIVU (R164). -/
def execDivu (ea : EA) (r : RegNum) (s : State) : Result :=
  finishWith s (s.pastOpWord.readEa .word ea) fun v t =>
    if v = 0 then zeroDivide s t
    else
      let q := (t.readD r).toNat / v.toNat
      finishDivide s t r (q ≤ 0xFFFF) q ((t.readD r).toNat % v.toNat : Nat)

/-- DIVS (R165): the quotient is rounded toward zero. -/
def execDivs (ea : EA) (r : RegNum) (s : State) : Result :=
  finishWith s (s.pastOpWord.readEa .word ea) fun v t =>
    if v = 0 then zeroDivide s t
    else
      let q := (t.readD r).toInt.tdiv v.toInt
      finishDivide s t r (-32768 ≤ q && q ≤ 32767) q ((t.readD r).toInt - q * v.toInt)

end Sys2Proof.Machine
end

