-- ==== Sys2Proof/Machine/Shift.lean ====
section
/-! DEFINITION. Shifts and rotates (43_asl_asr.md R170 to R176, 45_lsl_lsr_rotate.md R200 to R211). -/

namespace Sys2Proof.Machine

/-- ASR of a data register (43_asl_asr.md R172). -/
def execAsrReg (sz : Size) (count : ShiftCount) (r : RegNum) (s : State) : Result :=
  finish s (s.pastOpWord.shiftReg .asr sz count r)

/-- ASL of a data register (43_asl_asr.md R171). -/
def execAslReg (sz : Size) (count : ShiftCount) (r : RegNum) (s : State) : Result :=
  finish s (s.pastOpWord.shiftReg .asl sz count r)

/-- LSR of a data register (R202). -/
def execLsrReg (sz : Size) (count : ShiftCount) (r : RegNum) (s : State) : Result :=
  finish s (s.pastOpWord.shiftReg .lsr sz count r)

/-- LSL of a data register (R201). -/
def execLslReg (sz : Size) (count : ShiftCount) (r : RegNum) (s : State) : Result :=
  finish s (s.pastOpWord.shiftReg .lsl sz count r)

/-- ROXR of a data register (R206). -/
def execRoxrReg (sz : Size) (count : ShiftCount) (r : RegNum) (s : State) : Result :=
  finish s (s.pastOpWord.shiftReg .roxr sz count r)

/-- ROXL of a data register (R205). -/
def execRoxlReg (sz : Size) (count : ShiftCount) (r : RegNum) (s : State) : Result :=
  finish s (s.pastOpWord.shiftReg .roxl sz count r)

/-- ROR of a data register (R204). -/
def execRorReg (sz : Size) (count : ShiftCount) (r : RegNum) (s : State) : Result :=
  finish s (s.pastOpWord.shiftReg .ror sz count r)

/-- ROL of a data register (R203). -/
def execRolReg (sz : Size) (count : ShiftCount) (r : RegNum) (s : State) : Result :=
  finish s (s.pastOpWord.shiftReg .rol sz count r)

/-- ASR of a word in memory by one place (43_asl_asr.md R173). -/
def execAsrMem (ea : EA) (s : State) : Result := finish s (s.pastOpWord.shiftMem .asr ea)

/-- ASL of a word in memory by one place (43_asl_asr.md R173). -/
def execAslMem (ea : EA) (s : State) : Result := finish s (s.pastOpWord.shiftMem .asl ea)

/-- LSR of a word in memory by one place (R207). -/
def execLsrMem (ea : EA) (s : State) : Result := finish s (s.pastOpWord.shiftMem .lsr ea)

/-- LSL of a word in memory by one place (R207). -/
def execLslMem (ea : EA) (s : State) : Result := finish s (s.pastOpWord.shiftMem .lsl ea)

/-- ROXR of a word in memory by one place (R207). -/
def execRoxrMem (ea : EA) (s : State) : Result := finish s (s.pastOpWord.shiftMem .roxr ea)

/-- ROXL of a word in memory by one place (R207). -/
def execRoxlMem (ea : EA) (s : State) : Result := finish s (s.pastOpWord.shiftMem .roxl ea)

/-- ROR of a word in memory by one place (R207). -/
def execRorMem (ea : EA) (s : State) : Result := finish s (s.pastOpWord.shiftMem .ror ea)

/-- ROL of a word in memory by one place (R207). -/
def execRolMem (ea : EA) (s : State) : Result := finish s (s.pastOpWord.shiftMem .rol ea)

end Sys2Proof.Machine
end

