-- ==== Sys2Proof/Machine/Dispatch.lean ====
section
/-! DEFINITION. The meaning of each instruction, one arm for each row of spec/opcode_table.json. -/

namespace Sys2Proof.Machine

/-- What an instruction does (00_scope.md R14), its operation word at `s.pc`. -/
def exec (i : Instr) (s : State) : Host.Outcome State Fault Refusal :=
  match i with
  | .ori sz imm ea => Sys2Proof.Machine.execOri sz imm ea s
  | .andi sz imm ea => Sys2Proof.Machine.execAndi sz imm ea s
  | .subi sz imm ea => Sys2Proof.Machine.execSubi sz imm ea s
  | .addi sz imm ea => Sys2Proof.Machine.execAddi sz imm ea s
  | .eori sz imm ea => Sys2Proof.Machine.execEori sz imm ea s
  | .cmpi sz imm ea => Sys2Proof.Machine.execCmpi sz imm ea s
  | .andiToCcr imm => Sys2Proof.Machine.execAndiToCcr imm s
  | .btstStatic bit ea => Sys2Proof.Machine.execBtstStatic bit ea s
  | .bchgStatic bit ea => Sys2Proof.Machine.execBchgStatic bit ea s
  | .bclrStatic bit ea => Sys2Proof.Machine.execBclrStatic bit ea s
  | .bsetStatic bit ea => Sys2Proof.Machine.execBsetStatic bit ea s
  | .btstDyn r ea => Sys2Proof.Machine.execBtstDyn r ea s
  | .bchgDyn r ea => Sys2Proof.Machine.execBchgDyn r ea s
  | .bclrDyn r ea => Sys2Proof.Machine.execBclrDyn r ea s
  | .bsetDyn r ea => Sys2Proof.Machine.execBsetDyn r ea s
  | .move sz src dst => Sys2Proof.Machine.execMove sz src dst s
  | .movea sz src r => Sys2Proof.Machine.execMovea sz src r s
  | .clr sz ea => Sys2Proof.Machine.execClr sz ea s
  | .notEa sz ea => Sys2Proof.Machine.execNotEa sz ea s
  | .extW r => Sys2Proof.Machine.execExtW r s
  | .extL r => Sys2Proof.Machine.execExtL r s
  | .lea ea r => Sys2Proof.Machine.execLea ea r s
  | .stop imm => Sys2Proof.Machine.execStop imm s
  | .addq data sz ea => Sys2Proof.Machine.execAddq data sz ea s
  | .addqA data sz r => Sys2Proof.Machine.execAddqA data sz r s
  | .subq data sz ea => Sys2Proof.Machine.execSubq data sz ea s
  | .subqA data sz r => Sys2Proof.Machine.execSubqA data sz r s
  | .bcc c disp => Sys2Proof.Machine.execBcc c disp s
  | .orToDn sz ea r => Sys2Proof.Machine.execOrToDn sz ea r s
  | .orToEa sz r ea => Sys2Proof.Machine.execOrToEa sz r ea s
  | .divu ea r => Sys2Proof.Machine.execDivu ea r s
  | .divs ea r => Sys2Proof.Machine.execDivs ea r s
  | .subToDn sz ea r => Sys2Proof.Machine.execSubToDn sz ea r s
  | .subToEa sz r ea => Sys2Proof.Machine.execSubToEa sz r ea s
  | .suba sz ea r => Sys2Proof.Machine.execSuba sz ea r s
  | .subx sz form ry rx => Sys2Proof.Machine.execSubx sz form ry rx s
  | .eor sz r ea => Sys2Proof.Machine.execEor sz r ea s
  | .andToDn sz ea r => Sys2Proof.Machine.execAndToDn sz ea r s
  | .andToEa sz r ea => Sys2Proof.Machine.execAndToEa sz r ea s
  | .mulu ea r => Sys2Proof.Machine.execMulu ea r s
  | .muls ea r => Sys2Proof.Machine.execMuls ea r s
  | .addToDn sz ea r => Sys2Proof.Machine.execAddToDn sz ea r s
  | .addToEa sz r ea => Sys2Proof.Machine.execAddToEa sz r ea s
  | .adda sz ea r => Sys2Proof.Machine.execAdda sz ea r s
  | .addx sz form ry rx => Sys2Proof.Machine.execAddx sz form ry rx s
  | .asrReg sz count r => Sys2Proof.Machine.execAsrReg sz count r s
  | .aslReg sz count r => Sys2Proof.Machine.execAslReg sz count r s
  | .lsrReg sz count r => Sys2Proof.Machine.execLsrReg sz count r s
  | .lslReg sz count r => Sys2Proof.Machine.execLslReg sz count r s
  | .roxrReg sz count r => Sys2Proof.Machine.execRoxrReg sz count r s
  | .roxlReg sz count r => Sys2Proof.Machine.execRoxlReg sz count r s
  | .rorReg sz count r => Sys2Proof.Machine.execRorReg sz count r s
  | .rolReg sz count r => Sys2Proof.Machine.execRolReg sz count r s
  | .asrMem ea => Sys2Proof.Machine.execAsrMem ea s
  | .aslMem ea => Sys2Proof.Machine.execAslMem ea s
  | .lsrMem ea => Sys2Proof.Machine.execLsrMem ea s
  | .lslMem ea => Sys2Proof.Machine.execLslMem ea s
  | .roxrMem ea => Sys2Proof.Machine.execRoxrMem ea s
  | .roxlMem ea => Sys2Proof.Machine.execRoxlMem ea s
  | .rorMem ea => Sys2Proof.Machine.execRorMem ea s
  | .rolMem ea => Sys2Proof.Machine.execRolMem ea s

end Sys2Proof.Machine
end

