-- ==== Sys2Proof/Machine/Fetch.lean ====
section
/-! DEFINITION. Fetching an instruction and running it: the words already fetched ahead (20_memory.md R79), the operation
word (30_encoding.md R81), and what a word that is no instruction in scope leads to (R102, R105). -/

namespace Sys2Proof.Machine

/-- The word that a fetch from the bus gives (R53, R81). -/
def State.wordAt (s : State) (p : Long) : Word := (s.busRead .fetch (busAddress p) 2).setWidth 16

/-- The word held for an address in the prefetch queue (10_state.md R35). -/
def heldAt (q : List (Long × Word)) (p : Long) : Option Word := (q.find? fun e => e.1 == p).map (·.2)

/-- The word a fetch gives (20_memory.md R79): where the word fetched ahead is no longer the one in memory, it may be
either (log 27). -/
def State.fetchedWord (s : State) (p : Long) : Word :=
  match heldAt s.prefetch p with
  | none => s.wordAt p
  | some w => if w = s.wordAt p then w else if Config.prefetchSeesStore s.draws p then s.wordAt p else w

/-- As many words as the longest instruction has, from an address on (R80). -/
def State.wordsFrom (s : State) (p : Long) : Nat → List Word
  | 0 => []
  | k + 1 => s.fetchedWord p :: State.wordsFrom s (p + 2) k

/-- The words fetched ahead while an instruction runs: the two after it, as they are before it (R79; log 27). An
instruction that transfers control and every exception drop them. -/
def State.ahead (s : State) (i : Instr) : List (Long × Word) :=
  let p := s.pc + BitVec.ofNat 32 (2 * i.length)
  [(p, s.fetchedWord p), (p + 2, s.fetchedWord (p + 2))]

/-- The counter of the free values moves on with every instruction and every exception (log 29). -/
def State.drawn (s t : State) : State := { t with draws := s.draws + 1 }

/-- A result with its next state changed. -/
def mapNext (f : State → State) (r : Result) : Result :=
  match r with
  | .next t => .next (f t)
  | .fault x => .fault x
  | .refused x => .refused x

/-- What the words at `pc` lead to (R102): an instruction in scope runs; an illegal word, one of line A or of line F is
an exception (60_exceptions.md R258, R259); an instruction out of scope is refused by name (R104). -/
def State.runWords (s : State) (w : Word) (ws : List Word) : Result :=
  match decode (w :: ws) with
  | .ok (i, _) => mapNext s.drawn (exec i { s with ir := w, prefetch := s.ahead i })
  | .error .illegal => mapNext s.drawn (enterGroup1 4 w s)
  | .error .lineA => mapNext s.drawn (enterGroup1 10 w s)
  | .error .lineF => mapNext s.drawn (enterGroup1 11 w s)
  | .error (.outOfScope m) => .refused (.outOfScope m)
  | .error .truncated => .refused .truncatedFetch

/-- One instruction, its operation word fetched first (60_exceptions.md R255). -/
def State.runInstruction (s : State) : Result :=
  match s.access .program .read s.pc 2 with
  | .done _ _ => s.runWords (s.fetchedWord s.pc) (s.wordsFrom (s.pc + 2) (maxWords - 1))
  | .abort x t => mapNext s.drawn (enterGroup0 x s.pc (Config.frameOpWord s.draws) false t)
  | .refuse r => .refused r

/-- Bytes stored from an address on. -/
def Memory.writeBytes (m : Memory) (a : Nat) : List Byte → Memory
  | [] => m
  | b :: bs => Memory.writeBytes (m.write a b) (a + 1) bs

end Sys2Proof.Machine
end

