-- ==== Sys2Proof/Machine/Boundary.lean ====
section
/-! DEFINITION. What happens at an instruction boundary (60_exceptions.md R254, R266, R268, R270, 70_reset_and_hazards.md
R290): reset, trace, interrupt, the stopped and halted states, or one instruction. -/

namespace Sys2Proof.Machine

/-- The inputs when nothing is presented (00_scope.md R7): no reset, request level 0. -/
def silentInput : BusInput := { reset := false, level := 0, ack := .spurious }

/-- The inputs at this boundary. -/
def State.presented (s : State) : BusInput := s.inputs.head?.getD silentInput

/-- The inputs sampled (R266): the level is latched, and a rise to level 7 is kept until it is taken (log 17, 18). -/
def State.sampled (s : State) : State :=
  { s with
    inputs := s.inputs.tail
    ipl := s.presented.level
    nmi := s.presented.level == 7 && (s.nmi || s.ipl != 7) }

/-- Whether an interrupt is taken (R266): the level is above the mask, or has risen to 7. -/
def State.interruptTaken (s : State) : Bool := s.sr.i < s.ipl || s.ipl == 7 && s.nmi

/-- The vector of an interrupt (R266). -/
def acknowledgedVector (ack : Acknowledge) (level : BitVec 3) : Nat :=
  match ack with
  | .vector n => n.toNat
  | .autovector => 24 + level.toNat
  | .spurious => 24

/-- An interrupt (R266): the mask becomes its level. DESIGN CHOICE: if the entry fails, the program counter of the group 0
frame is counted from the interrupted one (log 3). -/
def enterInterrupt (ack : Acknowledge) (s : State) : Result :=
  enterException
    { vector := acknowledgedVector ack s.ipl
      savedPc := s.pc
      pc0 := s.pc
      mask := some s.ipl
      group1 := true
      opWord := Config.frameOpWord s.draws
      traced := false }
    { s with nmi := false }

/-- Trace (R270). DESIGN CHOICE: if the entry fails, the program counter of the group 0 frame is counted from the next
instruction (log 3). -/
def enterTrace (s : State) : Result :=
  enterException
    { vector := 9
      savedPc := s.pc
      pc0 := s.pc
      mask := none
      group1 := true
      opWord := Config.frameOpWord s.draws
      traced := false }
    s

/-- One step from a state whose inputs are sampled: trace before interrupt, both before the next instruction (R254);
while stopped nothing but an interrupt or reset happens (R268). DESIGN CHOICE: a stopped processor with no input to come
answers itself for ever, the end of the run in R299's sense (log 40). -/
def State.proceed (ack : Acknowledge) (s : State) : Result :=
  if s.tracePending then mapNext s.drawn (enterTrace s)
  else if s.interruptTaken then mapNext s.drawn (enterInterrupt ack s)
  else if s.stopped then .next s
  else s.runInstruction

/-- One step: reset above everything (R254, R290); a halted processor waits for it (R264), and is the end of the run when
no input is still to come (log 7). -/
def State.advance (s : State) : Result :=
  if s.presented.reset then mapNext s.sampled.drawn (resetSequence s.sampled)
  else if s.halted then (if s.inputs = [] then .fault .halted else .next s.sampled)
  else s.sampled.proceed s.presented.ack

end Sys2Proof.Machine
end

