-- ==== Sys2Proof/Machine/Launch.lean ====
section
/-! DEFINITION. The state in which the programs of the spec start (10_state.md R37, 70_reset_and_hazards.md R292). -/

namespace Sys2Proof.Machine

/-- Memory with bytes placed in it, each list from its address on. -/
def Memory.load (image : List (Nat × List Byte)) : Memory := image.foldl (fun m p => m.writeBytes p.1 p.2) []

/-- The launch state (R37): pc 0x400, SR 0x2700, the stack pointer given (R37 asks for an even one), program and data in
memory; the registers, inputs of the program or unwritten, have any value given. The rest is as after reset. -/
def State.launch (d : DataRegs) (a : AddrRegs) (usp ssp : Long) (image : List (Nat × List Byte)) : State :=
  { State.reset with d, a, usp, ssp, pc := 0x400, sr := StatusReg.ofWord 0x2700, mem := Memory.load image }

end Sys2Proof.Machine
end

