-- ==== Sys2Proof/Machine/Step.lean ====
section
/-! DEFINITION. One step of the machine, and a program placed where it fetches. -/

namespace Sys2Proof.Machine

/-- One step: one whole instruction or one whole exception-processing sequence (00_scope.md R18). -/
def step (s : State) : Host.Outcome State Fault Refusal := s.advance

/-- An instruction stored at `pc`, its words in order and each big-endian, with zeros after its `nbits` bits, the inputs
silent and nothing pending, so that the next step runs it (log 12). -/
def State.withFetchWord (s : State) (nbits w : Nat) : State :=
  { s with
    mem := s.mem.writeBytes (busAddress s.pc) (bytesOfWords (wordsOfNat maxWords (w % 2 ^ nbits)))
    prefetch := []
    stopped := false
    halted := false
    tracePending := false
    inputs := [] }

end Sys2Proof.Machine
end

