-- ==== Sys2Proof/OpcodeWords.lean ====
section
/-! DEFINITION. Which operation words are in scope, refused or illegal (30_encoding.md R102, R104, R105),
from opcode_table.json and R104's list alone, without the decoder.
Words are read as numbers. -/

namespace Sys2Proof

/-- The `len` bits of a word from bit `lo` up. -/
def fieldAt (lo len w : Nat) : Nat := w / 2 ^ lo % 2 ^ len

/-- The addressing mode of a mode and a register field, in the order of R83: 0 to 6 by the mode field, 7 to 11 the
forms of mode 111; 12 and above are no mode. -/
def modeNumber (mode reg : Nat) : Nat := if mode = 7 then 7 + reg else mode

/-- R87: the twelve modes. -/
def modesAll : List Nat := [0, 1, 2, 3, 4, 5, 6, 7, 8, 9, 10, 11]

/-- R87: all but An. -/
def modesData : List Nat := [0, 2, 3, 4, 5, 6, 7, 8, 9, 10, 11]

/-- R102: data but immediate. -/
def modesDataExceptImmediate : List Nat := [0, 2, 3, 4, 5, 6, 7, 8, 9, 10]

/-- R87: control. -/
def modesControl : List Nat := [2, 5, 6, 7, 8, 9, 10]

/-- R87: data alterable. -/
def modesDataAlterable : List Nat := [0, 2, 3, 4, 5, 6, 7, 8]

/-- R87: memory alterable. -/
def modesMemoryAlterable : List Nat := [2, 3, 4, 5, 6, 7, 8]

/-! ### The conditions of `valid` (R102) -/

/-- No condition. -/
def anyWord (_ : Nat) : Bool := true

/-- The size field, bits 7 to 6, is a size not below `least`. -/
def sizeIn (least w : Nat) : Bool := least ≤ fieldAt 6 2 w && fieldAt 6 2 w ≤ 2

/-- The effective address is in a category. -/
def eaIn (modes : List Nat) (w : Nat) : Bool := modes.contains (modeNumber (fieldAt 3 3 w) (fieldAt 0 3 w))

/-- A size and a category. -/
def sized (modes : List Nat) (w : Nat) : Bool := sizeIn 0 w && eaIn modes w

/-- A size and any mode, but no byte in An. -/
def sizedAll (w : Nat) : Bool := sized modesAll w && !(fieldAt 6 2 w == 0 && fieldAt 3 3 w == 1)

/-- MOVE: the size in bits 13 to 12, 1 for byte; the destination's register field above its mode field. -/
def moveWord (w : Nat) : Bool :=
  1 ≤ fieldAt 12 2 w && eaIn modesAll w && !(fieldAt 12 2 w == 1 && fieldAt 3 3 w == 1) &&
    modesDataAlterable.contains (modeNumber (fieldAt 6 3 w) (fieldAt 9 3 w))

/-- MOVEA: word or long. -/
def moveaWord (w : Nat) : Bool := 2 ≤ fieldAt 12 2 w && eaIn modesAll w

/-- Bcc: a condition from 2 up. -/
def bccWord (w : Nat) : Bool := 2 ≤ fieldAt 8 4 w

/-! ### The patterns -/

/-- The words whose bits under `mask` are `value` and which meet a condition. -/
structure WordPattern where
  mask : Nat
  value : Nat
  valid : Nat → Bool
  name : String

/-- The name of the first pattern that a word has. -/
def nameIn (rows : List WordPattern) (w : Nat) : Option String :=
  (rows.find? fun p => w &&& p.mask == p.value && p.valid w).map (·.name)

/-- opcode_table.json, lines 0000 to 0011. -/
def tableRows0 : List WordPattern :=
  [⟨0xFF00, 0x0000, sized modesDataAlterable, "ORI"⟩, ⟨0xFF00, 0x0200, sized modesDataAlterable, "ANDI"⟩,
   ⟨0xFF00, 0x0400, sized modesDataAlterable, "SUBI"⟩, ⟨0xFF00, 0x0600, sized modesDataAlterable, "ADDI"⟩,
   ⟨0xFF00, 0x0A00, sized modesDataAlterable, "EORI"⟩, ⟨0xFF00, 0x0C00, sized modesDataAlterable, "CMPI"⟩,
   ⟨0xFFFF, 0x023C, anyWord, "ANDI_to_CCR"⟩, ⟨0xFFC0, 0x0800, eaIn modesDataExceptImmediate, "BTST"⟩,
   ⟨0xFFC0, 0x0840, eaIn modesDataAlterable, "BCHG"⟩, ⟨0xFFC0, 0x0880, eaIn modesDataAlterable, "BCLR"⟩,
   ⟨0xFFC0, 0x08C0, eaIn modesDataAlterable, "BSET"⟩, ⟨0xF1C0, 0x0100, eaIn modesData, "BTST"⟩,
   ⟨0xF1C0, 0x0140, eaIn modesDataAlterable, "BCHG"⟩, ⟨0xF1C0, 0x0180, eaIn modesDataAlterable, "BCLR"⟩,
   ⟨0xF1C0, 0x01C0, eaIn modesDataAlterable, "BSET"⟩, ⟨0xC000, 0x0000, moveWord, "MOVE"⟩,
   ⟨0xC1C0, 0x0040, moveaWord, "MOVEA"⟩]

/-- opcode_table.json, lines 0100 to 0110. -/
def tableRows4 : List WordPattern :=
  [⟨0xFF00, 0x4200, sized modesDataAlterable, "CLR"⟩, ⟨0xFF00, 0x4600, sized modesDataAlterable, "NOT"⟩,
   ⟨0xFFF8, 0x4880, anyWord, "EXT.W"⟩, ⟨0xFFF8, 0x48C0, anyWord, "EXT.L"⟩,
   ⟨0xF1C0, 0x41C0, eaIn modesControl, "LEA"⟩, ⟨0xFFFF, 0x4E72, anyWord, "STOP"⟩,
   ⟨0xF100, 0x5000, sized modesDataAlterable, "ADDQ"⟩, ⟨0xF138, 0x5008, sizeIn 1, "ADDQ"⟩,
   ⟨0xF100, 0x5100, sized modesDataAlterable, "SUBQ"⟩, ⟨0xF138, 0x5108, sizeIn 1, "SUBQ"⟩,
   ⟨0xF000, 0x6000, bccWord, "Bcc"⟩]

/-- opcode_table.json, lines 1000 to 1101. -/
def tableRows8 : List WordPattern :=
  [⟨0xF100, 0x8000, sized modesData, "OR"⟩, ⟨0xF100, 0x8100, sized modesMemoryAlterable, "OR"⟩,
   ⟨0xF1C0, 0x80C0, eaIn modesData, "DIVU"⟩, ⟨0xF1C0, 0x81C0, eaIn modesData, "DIVS"⟩,
   ⟨0xF100, 0x9000, sizedAll, "SUB"⟩, ⟨0xF100, 0x9100, sized modesMemoryAlterable, "SUB"⟩,
   ⟨0xF0C0, 0x90C0, eaIn modesAll, "SUBA"⟩, ⟨0xF130, 0x9100, sizeIn 0, "SUBX"⟩,
   ⟨0xF100, 0xB100, sized modesDataAlterable, "EOR"⟩, ⟨0xF100, 0xC000, sized modesData, "AND"⟩,
   ⟨0xF100, 0xC100, sized modesMemoryAlterable, "AND"⟩, ⟨0xF1C0, 0xC0C0, eaIn modesData, "MULU"⟩,
   ⟨0xF1C0, 0xC1C0, eaIn modesData, "MULS"⟩, ⟨0xF100, 0xD000, sizedAll, "ADD"⟩,
   ⟨0xF100, 0xD100, sized modesMemoryAlterable, "ADD"⟩, ⟨0xF0C0, 0xD0C0, eaIn modesAll, "ADDA"⟩,
   ⟨0xF130, 0xD100, sizeIn 0, "ADDX"⟩]

/-- opcode_table.json, line 1110. -/
def tableRowsE : List WordPattern :=
  [⟨0xF118, 0xE000, sizeIn 0, "ASR"⟩, ⟨0xF118, 0xE100, sizeIn 0, "ASL"⟩, ⟨0xF118, 0xE008, sizeIn 0, "LSR"⟩,
   ⟨0xF118, 0xE108, sizeIn 0, "LSL"⟩, ⟨0xF118, 0xE010, sizeIn 0, "ROXR"⟩, ⟨0xF118, 0xE110, sizeIn 0, "ROXL"⟩,
   ⟨0xF118, 0xE018, sizeIn 0, "ROR"⟩, ⟨0xF118, 0xE118, sizeIn 0, "ROL"⟩,
   ⟨0xFFC0, 0xE0C0, eaIn modesMemoryAlterable, "ASR"⟩, ⟨0xFFC0, 0xE1C0, eaIn modesMemoryAlterable, "ASL"⟩,
   ⟨0xFFC0, 0xE2C0, eaIn modesMemoryAlterable, "LSR"⟩, ⟨0xFFC0, 0xE3C0, eaIn modesMemoryAlterable, "LSL"⟩,
   ⟨0xFFC0, 0xE4C0, eaIn modesMemoryAlterable, "ROXR"⟩, ⟨0xFFC0, 0xE5C0, eaIn modesMemoryAlterable, "ROXL"⟩,
   ⟨0xFFC0, 0xE6C0, eaIn modesMemoryAlterable, "ROR"⟩, ⟨0xFFC0, 0xE7C0, eaIn modesMemoryAlterable, "ROL"⟩]

/-- Bits 5 to 3 are not 000. -/
def notMode0 (w : Nat) : Bool := fieldAt 3 3 w != 0

/-- The word is not 0x4AFC, which R104 lets a model take as illegal (log 33). -/
def notIllegal (w : Nat) : Bool := w != 0x4AFC

/-- R104's list, lines 0000 to 0101. -/
def refusedRows0 : List WordPattern :=
  [⟨0xFFFF, 0x003C, anyWord, "ORI to CCR"⟩, ⟨0xFFFF, 0x0A3C, anyWord, "EORI to CCR"⟩,
   ⟨0xFFFF, 0x007C, anyWord, "ORI to SR"⟩, ⟨0xFFFF, 0x027C, anyWord, "ANDI to SR"⟩,
   ⟨0xFFFF, 0x0A7C, anyWord, "EORI to SR"⟩, ⟨0xF138, 0x0108, anyWord, "MOVEP"⟩,
   ⟨0xFF00, 0x4000, sizeIn 0, "NEGX"⟩, ⟨0xFFC0, 0x40C0, anyWord, "MOVE from SR"⟩,
   ⟨0xFF00, 0x4400, sizeIn 0, "NEG"⟩, ⟨0xFFC0, 0x44C0, anyWord, "MOVE to CCR"⟩,
   ⟨0xFFC0, 0x46C0, anyWord, "MOVE to SR"⟩, ⟨0xFFC0, 0x4800, anyWord, "NBCD"⟩,
   ⟨0xFFF8, 0x4840, anyWord, "SWAP"⟩, ⟨0xFFC0, 0x4840, notMode0, "PEA"⟩, ⟨0xFB80, 0x4880, notMode0, "MOVEM"⟩,
   ⟨0xFF00, 0x4A00, sizeIn 0, "TST"⟩, ⟨0xFFC0, 0x4AC0, notIllegal, "TAS"⟩, ⟨0xF1C0, 0x4180, anyWord, "CHK"⟩,
   ⟨0xFFF0, 0x4E40, anyWord, "TRAP"⟩, ⟨0xFFF8, 0x4E50, anyWord, "LINK"⟩, ⟨0xFFF8, 0x4E58, anyWord, "UNLK"⟩,
   ⟨0xFFF0, 0x4E60, anyWord, "MOVE USP"⟩, ⟨0xFFFF, 0x4E70, anyWord, "RESET"⟩, ⟨0xFFFF, 0x4E71, anyWord, "NOP"⟩,
   ⟨0xFFFF, 0x4E73, anyWord, "RTE"⟩, ⟨0xFFFF, 0x4E75, anyWord, "RTS"⟩, ⟨0xFFFF, 0x4E76, anyWord, "TRAPV"⟩,
   ⟨0xFFFF, 0x4E77, anyWord, "RTR"⟩, ⟨0xFFC0, 0x4E80, anyWord, "JSR"⟩, ⟨0xFFC0, 0x4EC0, anyWord, "JMP"⟩,
   ⟨0xF0C0, 0x50C0, anyWord, "Scc/DBcc"⟩]

/-- R104's list, lines 0110 to 1100. -/
def refusedRows6 : List WordPattern :=
  [⟨0xFF00, 0x6000, anyWord, "BRA"⟩, ⟨0xFF00, 0x6100, anyWord, "BSR"⟩, ⟨0xF100, 0x7000, anyWord, "MOVEQ"⟩,
   ⟨0xF1F0, 0x8100, anyWord, "SBCD"⟩, ⟨0xF100, 0xB000, sizeIn 0, "CMP"⟩, ⟨0xF0C0, 0xB0C0, anyWord, "CMPA"⟩,
   ⟨0xF138, 0xB108, sizeIn 0, "CMPM"⟩, ⟨0xF1F0, 0xC100, anyWord, "ABCD"⟩, ⟨0xF1F8, 0xC140, anyWord, "EXG"⟩,
   ⟨0xF1F8, 0xC148, anyWord, "EXG"⟩, ⟨0xF1F8, 0xC188, anyWord, "EXG"⟩]

/-- The mnemonic of opcode_table.json for an operation word (R102 steps 1 and 2). -/
def tableName (w : Word) : Option String :=
  nameIn (match w.toNat / 4096 with
    | 0 | 1 | 2 | 3 => tableRows0
    | 4 | 5 | 6 => tableRows4
    | 14 => tableRowsE
    | _ => tableRows8) w.toNat

/-- The instruction out of scope whose pattern an operation word has (R102 step 4). -/
def refusedName (w : Word) : Option String := nameIn (if w.toNat < 0x6000 then refusedRows0 else refusedRows6) w.toNat

end Sys2Proof
end

