-- ==== Sys2Proof/Safety.lean ====
section
/-! DEFINITION. The terms claims are stated in: which accesses are made, what an operand is worth, what a store
changes, and what an exception leaves. -/

namespace Sys2Proof.Machine

/-! ### Accesses that are made -/

/-- An access that raises nothing (20_memory.md R51, R54). -/
def State.accessible (s : State) (dir : Direction) (addr : Long) (nb : Nat) : Bool :=
  !misaligned addr nb && s.responds dir (busAddress addr) nb

/-- The next `k` words of the instruction stream can be fetched (30_encoding.md R81). -/
def State.fetchable (s : State) : Nat → Bool
  | 0 => true
  | k + 1 => s.accessible .read s.pc 2 && State.fetchable { s with pc := s.pc + 2 } k

/-- A location can be read. -/
def State.readable (s : State) (sz : Size) : Loc → Bool
  | .mem a _ => s.accessible .read a sz.bytes
  | .dreg _ | .areg _ | .imm _ => true

/-- A location can be written. -/
def State.writable (s : State) (sz : Size) : Loc → Bool
  | .mem a _ => s.accessible .write a sz.bytes
  | .dreg _ | .areg _ => true
  | .imm _ => false

/-! ### Operands -/

/-- The value that a read of a location gives (20_memory.md R74). -/
def State.valueAt (s : State) (use : Config.ReadUse) (sz : Size) : Loc → BitVec sz.bits
  | .dreg r => s.lowD sz r
  | .areg r => (s.readA r).setWidth sz.bits
  | .mem a _ => (s.busRead use (busAddress a) sz.bytes).setWidth sz.bits
  | .imm v => v.setWidth sz.bits

/-- A location replaced (R74): in a data register the low bits, in an address register all bits. -/
def State.put (s : State) (sz : Size) (l : Loc) (v : BitVec sz.bits) : State :=
  match l with
  | .dreg r => s.writeLowD sz r v
  | .areg r => s.writeA r (v.signExtend 32)
  | .mem a _ => { s with mem := s.mem.writeBE (busAddress a) sz.bytes (v.setWidth 32) }
  | .imm _ => s

/-- The places of the bytes a location holds in memory. -/
def storedAt (sz : Size) (l : Loc) (k : Nat) : Bool :=
  match l with
  | .mem a _ => (List.range sz.bytes).any fun j => place (busAddress a + j) == k
  | .dreg _ | .areg _ | .imm _ => false

/-- Every byte of memory reads as before but those of a location. -/
def SameMemoryBut (sz : Size) (l : Loc) (s t : State) : Prop :=
  ∀ k, storedAt sz l k = false → t.mem.read k = s.mem.read k

/-- Every byte of memory reads as before. -/
def SameMemory (s t : State) : Prop := ∀ k, t.mem.read k = s.mem.read k

/-- An instruction answers the next state `t`, and every byte of memory reads as before. -/
def Completes (i : Instr) (s t : State) : Prop := exec i s = .next t ∧ SameMemory s t

/-- The state after `k` extension words. -/
def State.afterExt (s : State) (k : Nat) : State := { s with pc := s.pc + BitVec.ofNat 32 (2 * k) }

/-- The state after an effective address is evaluated: its extension words passed, its register stepped. -/
def State.afterEa (s : State) (sz : Size) (ea : EA) : State := (s.afterExt (eaExt sz ea)).eaStep sz ea

/-- At its first extension word: an effective address can be evaluated and its operand read. -/
def State.canRead (s : State) (sz : Size) (ea : EA) : Bool :=
  s.fetchable (eaExt sz ea) && s.readable sz (s.eaLoc sz ea)

/-- The operand can be read and written back too. -/
def State.canModify (s : State) (sz : Size) (ea : EA) : Bool := s.canRead sz ea && s.writable sz (s.eaLoc sz ea)

/-- The operand of an effective address as a source. -/
def State.operand (s : State) (sz : Size) (ea : EA) : BitVec sz.bits :=
  (s.afterEa sz ea).valueAt .source sz (s.eaLoc sz ea)

/-- The operand of an effective address as a destination, before it is changed. -/
def State.target (s : State) (sz : Size) (ea : EA) : BitVec sz.bits :=
  (s.afterEa sz ea).valueAt .destination sz (s.eaLoc sz ea)

/-- The effective address evaluated and its operand replaced. -/
def State.stored (s : State) (sz : Size) (ea : EA) (v : BitVec sz.bits) : State :=
  (s.afterEa sz ea).put sz (s.eaLoc sz ea) v

/-! ### Instructions of one shape

`res` is the result and `flags` the new flags, of the flags before, the source and the destination. -/

/-- `op <ea>,Dn` completes, writes the low bits of Dn and the flags, steps the address register of the mode, and
changes no memory. -/
def CompletesToDn (mk : Size → EA → RegNum → Instr) (res : ∀ {n : Nat}, BitVec n → BitVec n → BitVec n)
    (flags : ∀ {n : Nat}, Ccr → BitVec n → BitVec n → Ccr) : Prop :=
  ∀ (sz : Size) (ea : EA) (r : RegNum) (s : State), s.pastOpWord.canRead sz ea = true →
    let v := s.pastOpWord.operand sz ea
    let d := s.lowD sz r
    let t := s.retire (((s.pastOpWord.afterEa sz ea).writeLowD sz r (res v d)).setCcr (flags s.sr.ccr v d))
    exec (mk sz ea r) s = .next t ∧ SameMemory s t

/-- `op Dn,<ea>` completes, writes its destination and the flags, steps the address register of the mode, and changes
no other byte of memory. -/
def CompletesToEa (mk : Size → RegNum → EA → Instr) (res : ∀ {n : Nat}, BitVec n → BitVec n → BitVec n)
    (flags : ∀ {n : Nat}, Ccr → BitVec n → BitVec n → Ccr) : Prop :=
  ∀ (sz : Size) (r : RegNum) (ea : EA) (s : State), s.pastOpWord.canModify sz ea = true →
    let v := s.lowD sz r
    let d := s.pastOpWord.target sz ea
    let t := s.retire ((s.pastOpWord.stored sz ea (res v d)).setCcr (flags s.sr.ccr v d))
    exec (mk sz r ea) s = .next t ∧ SameMemoryBut sz (s.pastOpWord.eaLoc sz ea) s t

/-- `op #<data>,<ea>` completes likewise; the immediate's words come first. -/
def CompletesImm (mk : Size → Long → EA → Instr) (res : ∀ {n : Nat}, BitVec n → BitVec n → BitVec n)
    (flags : ∀ {n : Nat}, Ccr → BitVec n → BitVec n → Ccr) : Prop :=
  ∀ (sz : Size) (imm : Long) (ea : EA) (s : State),
    s.pastOpWord.fetchable (immExt sz) = true → (s.pastOpWord.afterExt (immExt sz)).canModify sz ea = true →
    let b := s.pastOpWord.afterExt (immExt sz)
    let v := imm.setWidth sz.bits
    let d := b.target sz ea
    let t := s.retire ((b.stored sz ea (res v d)).setCcr (flags s.sr.ccr v d))
    exec (mk sz imm ea) s = .next t ∧ SameMemoryBut sz (b.eaLoc sz ea) s t

/-- ADDQ or SUBQ to data completes likewise; the field 0 stands for 8. -/
def CompletesQuick (mk : BitVec 3 → Size → EA → Instr) (res : ∀ {n : Nat}, BitVec n → BitVec n → BitVec n)
    (flags : ∀ {n : Nat}, Ccr → BitVec n → BitVec n → Ccr) : Prop :=
  ∀ (data : BitVec 3) (sz : Size) (ea : EA) (s : State), s.pastOpWord.canModify sz ea = true →
    let v := BitVec.ofNat sz.bits (if data = 0 then 8 else data.toNat)
    let d := s.pastOpWord.target sz ea
    let t := s.retire ((s.pastOpWord.stored sz ea (res v d)).setCcr (flags s.sr.ccr v d))
    exec (mk data sz ea) s = .next t ∧ SameMemoryBut sz (s.pastOpWord.eaLoc sz ea) s t

/-- A shift or rotate of a data register completes by the loop of `op`, on the low bits of the register. -/
def CompletesShiftReg (mk : Size → ShiftCount → RegNum → Instr) (op : ShiftOp) : Prop :=
  ∀ (sz : Size) (count : ShiftCount) (r : RegNum) (s : State),
    let k := match count with
      | .imm c => if c = 0 then 8 else c.toNat
      | .reg x => (s.readD x).toNat % 64
    let out := shiftBy op k s.sr.ccr (s.lowD sz r)
    let t := s.retire ((s.pastOpWord.writeLowD sz r out.1).setCcr out.2)
    exec (mk sz count r) s = .next t ∧ SameMemory s t

/-- A shift or rotate of a word in memory completes by one place. -/
def CompletesShiftMem (mk : EA → Instr) (op : ShiftOp) : Prop :=
  ∀ (ea : EA) (s : State), s.pastOpWord.canModify .word ea = true →
    let out := shiftBy op 1 s.sr.ccr (s.pastOpWord.target .word ea)
    let t := s.retire ((s.pastOpWord.stored .word ea out.1).setCcr out.2)
    exec (mk ea) s = .next t ∧ SameMemoryBut .word (s.pastOpWord.eaLoc .word ea) s t

/-- BSET, BCLR or BCHG, its bit-number word (if any) passed in `b`: the operand of 32 or 8 bits changes in the bit
`n` modulo its size by `change`, and Z is the complement of the bit as it was. -/
def CompletesBit (i : Instr) (s b : State) (n : Nat) (ea : EA)
    (change : ∀ {w : Nat}, BitVec w → BitVec w → BitVec w) : Prop :=
  b.canModify (bitSize ea) ea = true →
    let k := n % (bitSize ea).bits
    let old := b.target (bitSize ea) ea
    let new := change old (BitVec.twoPow (bitSize ea).bits k)
    let t := s.retire ((b.stored (bitSize ea) ea new).setCcr { s.sr.ccr with z := !old.getLsbD k })
    exec i s = .next t ∧ SameMemoryBut (bitSize ea) (b.eaLoc (bitSize ea) ea) s t

/-! ### Accesses that fail

In each, `s` is the state in which the instruction starts, and `b` the state in which the part begins that fails. -/

/-- An instruction whose access of `nb` bytes at `a`, made in `b`, fails ends in the address error or bus error of that
access (60_exceptions.md R255, R261), with nothing but what `b` holds changed first. -/
def EndsInFault (i : Instr) (s b : State) (dir : Direction) (space : Space) (a : Long) (nb : Nat) : Prop :=
  (misaligned a nb = true → exec i s = enterGroup0 ⟨.address, a, dir, space⟩ s.pc s.ir false b) ∧
  (misaligned a nb = false → b.responds dir (busAddress a) nb = false →
    exec i s = enterGroup0 ⟨.bus, a, dir, space⟩ s.pc s.ir false b)

/-- Each of the next `n` extension words, the words before it fetched, ends the instruction where its fetch fails. -/
def FaultsOnFetch (i : Instr) (n : Nat) (s b : State) : Prop :=
  ∀ k, k < n → b.fetchable k = true →
    EndsInFault i s (b.afterExt k) .read .program (b.pc + BitVec.ofNat 32 (2 * k)) 2

/-- The fetch of the extension words of `ea`, and then the read of its operand, ends the instruction where it fails, the
address register of the mode stepped by then. -/
def FaultsOnRead (i : Instr) (sz : Size) (ea : EA) (s b : State) : Prop :=
  FaultsOnFetch i (eaExt sz ea) s b ∧
  ∀ (a : Long) (space : Space), b.fetchable (eaExt sz ea) = true → b.eaLoc sz ea = .mem a space →
    EndsInFault i s (b.afterEa sz ea) .read space a sz.bytes

/-- The operand read, its write ends the instruction where it fails. -/
def FaultsOnWrite (i : Instr) (sz : Size) (ea : EA) (s b : State) : Prop :=
  ∀ (a : Long) (space : Space), b.canRead sz ea = true → b.eaLoc sz ea = .mem a space →
    EndsInFault i s (b.afterEa sz ea) .write .data a sz.bytes

/-- A destination that is read and written back. -/
def FaultsOnModify (i : Instr) (sz : Size) (ea : EA) (s b : State) : Prop :=
  FaultsOnRead i sz ea s b ∧ FaultsOnWrite i sz ea s b

/-- A destination that is written only, as MOVE does (20_memory.md R75). -/
def FaultsOnStore (i : Instr) (sz : Size) (ea : EA) (s b : State) : Prop :=
  FaultsOnFetch i (eaExt sz ea) s b ∧
  ∀ (a : Long) (space : Space), b.fetchable (eaExt sz ea) = true → b.eaLoc sz ea = .mem a space →
    EndsInFault i s (b.afterEa sz ea) .write .data a sz.bytes

/-! ### Flags, said by the integers -/

/-- An integer that no signed number of `n` bits is (00_scope.md R13). -/
def outOfRange (n : Nat) (v : Int) : Bool := decide (v < -2 ^ (n - 1)) || decide (2 ^ (n - 1) ≤ v)

/-- The flags of `s + d + x` (40_add_sub.md R120). -/
def sumFlags {n : Nat} (s d : BitVec n) (x : Bool) : Ccr :=
  let r := s + d + BitVec.ofNat n x.toNat
  { x := decide (2 ^ n ≤ s.toNat + d.toNat + x.toNat)
    n := r.msb
    z := r == 0
    v := outOfRange n (s.toInt + d.toInt + x.toNat)
    c := decide (2 ^ n ≤ s.toNat + d.toNat + x.toNat) }

/-- The flags of `d - s - x` (R126). -/
def differenceFlags {n : Nat} (s d : BitVec n) (x : Bool) : Ccr :=
  let r := d - s - BitVec.ofNat n x.toNat
  { x := decide (d.toNat < s.toNat + x.toNat)
    n := r.msb
    z := r == 0
    v := outOfRange n (d.toInt - s.toInt - x.toNat)
    c := decide (d.toNat < s.toNat + x.toNat) }

/-! ### Exceptions -/

/-- The supervisor stack has room for a frame of `nb` bytes (70_reset_and_hazards.md R293): SSP is even and points
just above `nb` bytes of writable memory. -/
def State.stackRoom (s : State) (nb : Nat) : Bool :=
  !s.ssp.getLsbD 0 && decide (busAddress (s.ssp - BitVec.ofNat 32 nb) + nb ≤ 2 ^ Config.addrBits) &&
    s.responds .write (busAddress (s.ssp - BitVec.ofNat 32 nb)) nb

/-- An exception vector can be read (R252, R293). -/
def State.vectorReady (s : State) (vector : Nat) : Bool :=
  decide (vector < 256) && s.responds .read (4 * vector) 4

/-- Every byte of memory reads as before but `nb` bytes from SSP up. -/
def SameMemoryAbove (nb : Nat) (s t : State) : Prop :=
  ∀ k, ¬ (busAddress t.ssp ≤ k ∧ k < busAddress t.ssp + nb) → t.mem.read k = s.mem.read k

/-- The registers that taking an exception keeps (60_exceptions.md R256). -/
def SameRegisters (s t : State) : Prop :=
  t.d = s.d ∧ t.a = s.a ∧ t.usp = s.usp ∧ t.sr.ccr = s.sr.ccr

/-- What an exception of group 1 or 2, or an interrupt, leaves (R256): supervisor state, trace off, the 6-byte frame on
the supervisor stack, nothing held that was fetched ahead, the rest as it was, the program counter read from the
vector, as memory gives it where the vector is in plain memory. -/
def Entered (vector : Nat) (savedPc : Long) (mask : BitVec 3) (s t : State) : Prop :=
  SameRegisters s t ∧ t.sr.s = true ∧ t.sr.t = false ∧ t.sr.i = mask ∧ t.stopped = false ∧
    t.ssp = s.ssp - 6 ∧
    t.mem.readBE (busAddress t.ssp) 2 = s.sr.word.setWidth 32 ∧
    t.mem.readBE (busAddress t.ssp + 2) 4 = savedPc ∧
    SameMemoryAbove 6 s t ∧ t.prefetch = [] ∧
    (s.plain (4 * vector) 4 = true → t.pc = t.mem.readBE (4 * vector) 4)

/-- What a bus error or address error leaves (R263): the 14-byte frame. Bits 15 to 5 of its first word and how far the
program counter has advanced, 2 to 10 bytes, are any. -/
def EnteredGroup0 (x : FailedAccess) (pc0 : Long) (opWord : Word) (busy : Bool) (s t : State) : Prop :=
  SameRegisters s t ∧ t.sr.s = true ∧ t.sr.t = false ∧ t.sr.i = s.sr.i ∧ t.stopped = false ∧
    t.ssp = s.ssp - 14 ∧
    (t.mem.readBE (busAddress t.ssp) 2).getLsbD 4 = decide (x.dir = .read) ∧
    (t.mem.readBE (busAddress t.ssp) 2).getLsbD 3 = busy ∧
    (t.mem.readBE (busAddress t.ssp) 2).extractLsb' 0 3 = functionCode s.sr.s x.space ∧
    t.mem.readBE (busAddress t.ssp + 2) 4 = x.addr ∧
    t.mem.readBE (busAddress t.ssp + 6) 2 = opWord.setWidth 32 ∧
    t.mem.readBE (busAddress t.ssp + 8) 2 = s.sr.word.setWidth 32 ∧
    (∃ k : Nat, 2 ≤ k ∧ k ≤ 10 ∧ t.mem.readBE (busAddress t.ssp + 10) 4 = pc0 + BitVec.ofNat 32 k) ∧
    SameMemoryAbove 14 s t ∧ t.prefetch = [] ∧
    (s.plain (4 * x.error.vector) 4 = true → t.pc = t.mem.readBE (4 * x.error.vector) 4)

/-! ### Running -/

/-- Nothing stands before the next instruction: no reset, trace or interrupt, neither halted nor stopped. -/
def State.atInstruction (s : State) : Bool :=
  !s.presented.reset && !s.halted && !s.tracePending && !s.sampled.interruptTaken && !s.stopped

/-- The machine's own invariant: memory is in its canonical form, at most two words are fetched ahead, a halted or
stopped processor has no trace to take and is not both, and an edge of level 7 is kept only while level 7 lasts. -/
def State.Inv (s : State) : Prop :=
  s.mem.wf = true ∧ s.prefetch.length ≤ 2 ∧ (s.halted = true → s.stopped = false ∧ s.tracePending = false) ∧
    (s.stopped = true → s.tracePending = false) ∧ (s.nmi = true → s.ipl = 7)

end Sys2Proof.Machine
end

