-- ==== Sys2Proof/Certificates/Slice0/Obligations.lean ====
section
/-! DEFINITION. The statements for the provers. -/

open Sys2Proof Sys2Proof.Machine

/-! ### Encoding -/

/-- Decoding an encoded instruction gives it back and leaves the words after it (30_encoding.md sections 2 to 5). -/
def Obligations.DecodeInvertsEncode : Prop :=
  ∀ (i : Instr) (rest : List Word), i.wellFormed = true → decode (encode i ++ rest) = .ok (i, rest)

/-- What the decoder reads is a well-formed instruction, and it takes as many words as that instruction has. -/
def Obligations.DecodedInstructionsAreWellFormed : Prop :=
  ∀ (i : Instr) (ws rest : List Word), decode ws = .ok (i, rest) →
    i.wellFormed = true ∧ ∃ taken, ws = taken ++ rest ∧ taken.length = i.length

/-- Words of 95_test_vectors.md decode to the instructions written beside them. -/
def Obligations.WordsOfTheSpecDecode : Prop :=
  decode [0x0640, 0x1234] = .ok (.addi .word 0x1234 (.dn .r0), []) ∧
  decode [0xD1A1] = .ok (.addToEa .long .r0 (.predec .r1), []) ∧
  decode [0x8458] = .ok (.orToDn .word (.postinc .r0) .r2, []) ∧
  decode [0x3030, 0x1800] = .ok (.move .word (.index .r0 ⟨.d .r1, true, 0⟩) (.dn .r0), []) ∧
  decode [0x0838, 0x0003, 0x2000] = .ok (.btstStatic 3 (.absW 0x2000), []) ∧
  decode [0xE2AA] = .ok (.lsrReg .long (.reg .r1) .r2, []) ∧
  decode [0x66F2] = .ok (.bcc .ne (.short 0xF2), []) ∧
  decode [0x4E72, 0x2700] = .ok (.stop 0x2700, []) ∧
  decode [0x81FC, 0xFFF9] = .ok (.divs (.imm 0xFFF9) .r0, [])

/-- Where the words at the program counter decode to an instruction, a step with nothing before it is that
instruction's meaning. The step samples its inputs first, records the operation word, holds the two words after the
instruction as fetched ahead (log 27), and moves the counter of free values on (log 29). -/
def Obligations.StepRunsDecodedInstruction : Prop :=
  ∀ (s : State) (i : Instr) (rest : List Word),
    s.atInstruction = true → s.accessible .read s.pc 2 = true →
    decode (s.sampled.fetchedWord s.pc :: s.sampled.wordsFrom (s.pc + 2) 4) = .ok (i, rest) →
    step s = mapNext s.sampled.drawn
      (exec i { s.sampled with ir := s.sampled.fetchedWord s.pc, prefetch := s.sampled.ahead i })

/-! ### Memory -/

/-- A store of up to 4 bytes reads back from plain memory, for data and for instruction words, the byte at the lowest
address the most significant; every other byte stays; an access every byte of which responds is made. That the
canonical form is kept is about the model's own representation of memory (log 11). -/
def Obligations.MemoryReadsWhatWasWritten : Prop :=
  ∀ (s : State) (addr : Long) (nb : Nat) (v : Long), s.mem.wf = true → nb ≤ 4 →
    s.accessible .write addr nb = true → busAddress addr + nb ≤ 2 ^ 24 →
    ∃ t, s.memWrite addr nb v = .done () t ∧ t = { s with mem := t.mem } ∧ t.mem.wf = true ∧
      (∀ j < nb, t.mem.read (busAddress addr + j) = v.extractLsb' (8 * (nb - 1 - j)) 8) ∧
      (∀ k, ¬ (busAddress addr ≤ k ∧ k < busAddress addr + nb) → t.mem.read k = s.mem.read k) ∧
      (s.accessible .read addr nb = true → ∀ use space, ∃ r, t.memRead use space addr nb = .done r t ∧
        (s.plain (busAddress addr) nb = true → r = v &&& BitVec.ofNat 32 (2 ^ (8 * nb) - 1))) ∧
      (nb = 2 → s.plain (busAddress addr) 2 = true → t.wordAt addr = v.setWidth 16)

/-- Two memories in the canonical form that read alike at every address are equal. -/
def Obligations.CanonicalMemoriesAreEqual : Prop :=
  ∀ m m' : Memory, m.wf = true → m'.wf = true → (∀ k, m.read k = m'.read k) → m = m'

/-- A word or long word at an odd address, and an instruction word there, is an address error whatever the memory, and
nothing is changed; a byte may be at any address, and a word or long word at any even one (R54). -/
def Obligations.AlignmentRule : Prop :=
  ∀ (s : State) (use : Config.ReadUse) (space : Space) (addr v : Long),
    (addr.getLsbD 0 = true →
      (∀ nb, nb = 2 ∨ nb = 4 →
        s.memRead use space addr nb = .abort ⟨.address, addr, .read, space⟩ s ∧
        s.memWrite addr nb v = .abort ⟨.address, addr, .write, .data⟩ s)) ∧
    (s.pc.getLsbD 0 = true → s.fetchExt 1 = .abort ⟨.address, s.pc, .read, .program⟩ s) ∧
    (∀ nb x t, nb = 1 ∨ addr.getLsbD 0 = false →
      (s.memRead use space addr nb = .abort x t → x.error = .bus) ∧
      (s.memWrite addr nb v = .abort x t → x.error = .bus))

/-! ### Addition and subtraction -/

/-- ADD to a data register and to memory, ADDI and ADDQ complete with the sum at the operation size and the flags of
the exact sum. -/
def Obligations.AddCompletes : Prop :=
  CompletesToDn .addToDn (· + ·) (fun _ s d => sumFlags s d false) ∧
  CompletesToEa .addToEa (· + ·) (fun _ s d => sumFlags s d false) ∧
  CompletesImm .addi (· + ·) (fun _ s d => sumFlags s d false) ∧
  CompletesQuick .addq (· + ·) (fun _ s d => sumFlags s d false)

/-- SUB from a data register and from memory, SUBI and SUBQ complete with destination minus source and the flags of
the exact difference, C and X the borrow. -/
def Obligations.SubtractCompletes : Prop :=
  CompletesToDn .subToDn (fun s d => d - s) (fun _ s d => differenceFlags s d false) ∧
  CompletesToEa .subToEa (fun s d => d - s) (fun _ s d => differenceFlags s d false) ∧
  CompletesImm .subi (fun s d => d - s) (fun _ s d => differenceFlags s d false) ∧
  CompletesQuick .subq (fun s d => d - s) (fun _ s d => differenceFlags s d false)

/-- CMPI completes with the flags of the difference, X kept, and writes nothing but the address register its mode
steps. -/
def Obligations.CompareCompletes : Prop :=
  ∀ (sz : Size) (imm : Long) (ea : EA) (s : State),
    s.pastOpWord.fetchable (immExt sz) = true → (s.pastOpWord.afterExt (immExt sz)).canRead sz ea = true →
    let b := s.pastOpWord.afterExt (immExt sz)
    let t := s.retire ((b.afterEa sz ea).setCcr
      { differenceFlags (imm.setWidth sz.bits) (b.operand sz ea) false with x := s.sr.ccr.x })
    exec (.cmpi sz imm ea) s = .next t ∧ SameMemory s t

/-- ADDA and SUBA complete on all 32 bits with a word source sign-extended, and write no flag. Where the source's mode
steps the destination register itself, the register's own value as an operand is any (log 23). ADDQ and SUBQ to an
address register always complete likewise, for both sizes. -/
def Obligations.AddressArithmeticCompletes : Prop :=
  (∀ (sz : Size) (ea : EA) (r : RegNum) (s : State), s.pastOpWord.canRead sz ea = true →
    let v := (s.pastOpWord.operand sz ea).signExtend 32
    ∃ old : Long, (eaSteps r ea = false → old = s.readA r) ∧
      Completes (.adda sz ea r) s (s.retire ((s.pastOpWord.afterEa sz ea).writeA r (old + v))) ∧
      Completes (.suba sz ea r) s (s.retire ((s.pastOpWord.afterEa sz ea).writeA r (old - v)))) ∧
  (∀ (data : BitVec 3) (sz : Size) (r : RegNum) (s : State),
    let q := BitVec.ofNat 32 (if data = 0 then 8 else data.toNat)
    Completes (.addqA data sz r) s (s.retire (s.pastOpWord.writeA r (s.readA r + q))) ∧
    Completes (.subqA data sz r) s (s.retire (s.pastOpWord.writeA r (s.readA r - q))))

/-- ADDX and SUBX between data registers always complete: X enters the sum or difference, and Z is cleared by a result
that is not zero and kept otherwise (the default of ADDX_Z_LITERAL, log 26). -/
def Obligations.ExtendedRegistersComplete : Prop :=
  ∀ (sz : Size) (ry rx : RegNum) (s : State),
    let v := s.lowD sz ry
    let d := s.lowD sz rx
    let x := s.sr.ccr.x
    let sum := v + d + BitVec.ofNat sz.bits x.toNat
    let difference := d - v - BitVec.ofNat sz.bits x.toNat
    Completes (.addx sz .regs ry rx) s (s.retire ((s.pastOpWord.writeLowD sz rx sum).setCcr
      { sumFlags v d x with z := s.sr.ccr.z && sum == 0 })) ∧
    Completes (.subx sz .regs ry rx) s (s.retire ((s.pastOpWord.writeLowD sz rx difference).setCcr
      { differenceFlags v d x with z := s.sr.ccr.z && difference == 0 }))

/-- ADDX and SUBX in memory complete: the source's register is decremented and the source read first, then the
destination's; no other byte changes (Z as for the registers, log 26). -/
def Obligations.ExtendedMemoryCompletes : Prop :=
  ∀ (sz : Size) (ry rx : RegNum) (s : State), s.pastOpWord.canRead sz (.predec ry) = true →
    (s.pastOpWord.afterEa sz (.predec ry)).canModify sz (.predec rx) = true →
    let b := s.pastOpWord.afterEa sz (.predec ry)
    let v := s.pastOpWord.operand sz (.predec ry)
    let d := b.target sz (.predec rx)
    let x := s.sr.ccr.x
    let sum := v + d + BitVec.ofNat sz.bits x.toNat
    let difference := d - v - BitVec.ofNat sz.bits x.toNat
    let t := s.retire ((b.stored sz (.predec rx) sum).setCcr
      { sumFlags v d x with z := s.sr.ccr.z && sum == 0 })
    let u := s.retire ((b.stored sz (.predec rx) difference).setCcr
      { differenceFlags v d x with z := s.sr.ccr.z && difference == 0 })
    exec (.addx sz .predec ry rx) s = .next t ∧ SameMemoryBut sz (b.eaLoc sz (.predec rx)) s t ∧
    exec (.subx sz .predec ry rx) s = .next u ∧ SameMemoryBut sz (b.eaLoc sz (.predec rx)) s u

/-- A 64-bit addition by ADD.L and ADDX.L: the register pair holds the sum, C and X its carry, and Z ends set exactly
when the 64-bit sum is zero. That Z describes the whole sum rests on the sticky Z (log 26). -/
def Obligations.SixtyFourBitAddition : Prop :=
  ∀ (s : State) (alo ahi blo bhi : RegNum), ahi ≠ blo → blo ≠ bhi →
    ∃ t u, exec (.addToDn .long (.dn alo) blo) s = .next t ∧ exec (.addx .long .regs ahi bhi) t = .next u ∧
      (u.readD bhi ++ u.readD blo : BitVec 64) = (s.readD ahi ++ s.readD alo) + (s.readD bhi ++ s.readD blo) ∧
      u.sr.ccr.c = decide (2 ^ 64 ≤ (s.readD ahi ++ s.readD alo).toNat + (s.readD bhi ++ s.readD blo).toNat) ∧
      u.sr.ccr.x = u.sr.ccr.c ∧
      u.sr.ccr.z = decide (u.readD bhi ++ u.readD blo = (0 : BitVec 64)) ∧
      (∀ r, r ≠ blo → r ≠ bhi → u.readD r = s.readD r)

/-! ### Logic -/

/-- AND, OR and EOR in all their forms with ANDI, ORI, EORI and NOT complete bit by bit at the operation size: N and Z
from the result, V and C cleared, X kept. -/
def Obligations.LogicCompletes : Prop :=
  CompletesToDn .andToDn (· &&& ·) (fun f s d => logicCcr f (s &&& d)) ∧
  CompletesToEa .andToEa (· &&& ·) (fun f s d => logicCcr f (s &&& d)) ∧
  CompletesImm .andi (· &&& ·) (fun f s d => logicCcr f (s &&& d)) ∧
  CompletesToDn .orToDn (· ||| ·) (fun f s d => logicCcr f (s ||| d)) ∧
  CompletesToEa .orToEa (· ||| ·) (fun f s d => logicCcr f (s ||| d)) ∧
  CompletesImm .ori (· ||| ·) (fun f s d => logicCcr f (s ||| d)) ∧
  CompletesToEa .eor (· ^^^ ·) (fun f s d => logicCcr f (s ^^^ d)) ∧
  CompletesImm .eori (· ^^^ ·) (fun f s d => logicCcr f (s ^^^ d)) ∧
  (∀ (sz : Size) (ea : EA) (s : State), s.pastOpWord.canModify sz ea = true →
    let new := ~~~ s.pastOpWord.target sz ea
    let t := s.retire ((s.pastOpWord.stored sz ea new).setCcr (logicCcr s.sr.ccr new))
    exec (.notEa sz ea) s = .next t ∧ SameMemoryBut sz (s.pastOpWord.eaLoc sz ea) s t)

/-- ANDI to CCR completes with SR ANDed with the operand under an upper byte of ones: it can only clear flags, and
nothing else changes. -/
def Obligations.AndToCcrCompletes : Prop :=
  ∀ (imm : Byte) (s : State), s.pastOpWord.fetchable 1 = true →
    ∃ sr : StatusReg, sr.word = s.sr.word &&& (0xFF#8 ++ imm) ∧ sr.t = s.sr.t ∧ sr.s = s.sr.s ∧ sr.i = s.sr.i ∧
      exec (.andiToCcr imm) s = .next { s with pc := s.pc + 4, sr := sr, tracePending := s.sr.t }

/-- NOT of a data register twice, and EOR with the same other register twice, restore the register; V and C end clear
and X is what it was. -/
def Obligations.NotAndEorUndoThemselves : Prop :=
  (∀ (sz : Size) (r : RegNum) (s : State), ∃ t u, exec (.notEa sz (.dn r)) s = .next t ∧
    exec (.notEa sz (.dn r)) t = .next u ∧ u.d = s.d ∧
    u.sr.ccr.x = s.sr.ccr.x ∧ u.sr.ccr.v = false ∧ u.sr.ccr.c = false) ∧
  (∀ (sz : Size) (q r : RegNum) (s : State), q ≠ r → ∃ t u, exec (.eor sz q (.dn r)) s = .next t ∧
    exec (.eor sz q (.dn r)) t = .next u ∧ u.d = s.d ∧
    u.sr.ccr.x = s.sr.ccr.x ∧ u.sr.ccr.v = false ∧ u.sr.ccr.c = false)

/-! ### CLR, EXT, multiplication and division -/

/-- CLR completes with its operand zero, Z set, N, V and C cleared and X kept. -/
def Obligations.ClearCompletes : Prop :=
  ∀ (sz : Size) (ea : EA) (s : State), s.pastOpWord.canModify sz ea = true →
    let t := s.retire ((s.pastOpWord.stored sz ea 0).setCcr
      { x := s.sr.ccr.x, n := false, z := true, v := false, c := false })
    exec (.clr sz ea) s = .next t ∧ SameMemoryBut sz (s.pastOpWord.eaLoc sz ea) s t

/-- EXT.W and EXT.L always complete; the signed value of the result is that of the operand, EXT.W keeps bits 31 to
16. -/
def Obligations.SignExtendCompletes : Prop :=
  ∀ (r : RegNum) (s : State),
    (∃ v : BitVec 16, v.toInt = (s.lowD .byte r).toInt ∧
      Completes (.extW r) s (s.retire ((s.pastOpWord.writeLowD .word r v).setCcr (logicCcr s.sr.ccr v)))) ∧
    (∃ v : BitVec 32, v.toInt = (s.lowD .word r).toInt ∧
      Completes (.extL r) s (s.retire ((s.pastOpWord.writeD r v).setCcr (logicCcr s.sr.ccr v))))

/-- MULU and MULS complete with the exact product in all 32 bits, N and Z from it, V and C cleared and X kept. -/
def Obligations.MultiplyCompletes : Prop :=
  ∀ (ea : EA) (r : RegNum) (s : State), s.pastOpWord.canRead .word ea = true →
    let m := s.pastOpWord.operand .word ea
    (∃ v : Long, v.toNat = m.toNat * (s.lowD .word r).toNat ∧
      Completes (.mulu ea r) s (s.retire (((s.pastOpWord.afterEa .word ea).writeD r v).setCcr (logicCcr s.sr.ccr v)))) ∧
    (∃ v : Long, v.toInt = m.toInt * (s.lowD .word r).toInt ∧
      Completes (.muls ea r) s (s.retire (((s.pastOpWord.afterEa .word ea).writeD r v).setCcr (logicCcr s.sr.ccr v))))

/-- DIVU completes where the divisor is not 0 and above the upper word of the dividend: quotient in the low word,
remainder in the high word, dividend = quotient * divisor + remainder. -/
def Obligations.UnsignedDivideCompletes : Prop :=
  ∀ (ea : EA) (r : RegNum) (s : State), s.pastOpWord.canRead .word ea = true →
    let m := s.pastOpWord.operand .word ea
    ((s.readD r).extractLsb' 16 16).toNat < m.toNat →
    ∃ q rem : BitVec 16, (s.readD r).toNat = q.toNat * m.toNat + rem.toNat ∧ rem.toNat < m.toNat ∧
      Completes (.divu ea r) s (s.retire (((s.pastOpWord.afterEa .word ea).writeD r (rem ++ q)).setCcr
        { x := s.sr.ccr.x, n := q.msb, z := q == 0, v := false, c := false }))

/-- DIVS completes where the divisor is not 0 and the quotient rounded toward zero lies in 16 bits: the remainder is
smaller than the divisor and zero or of the dividend's sign. -/
def Obligations.SignedDivideCompletes : Prop :=
  ∀ (ea : EA) (r : RegNum) (s : State), s.pastOpWord.canRead .word ea = true →
    let m := s.pastOpWord.operand .word ea
    m ≠ 0 → outOfRange 16 ((s.readD r).toInt.tdiv m.toInt) = false →
    ∃ q rem : BitVec 16, (s.readD r).toInt = q.toInt * m.toInt + rem.toInt ∧ rem.toInt.natAbs < m.toInt.natAbs ∧
      (rem = 0 ∨ (rem.toInt < 0 ↔ (s.readD r).toInt < 0)) ∧
      Completes (.divs ea r) s (s.retire (((s.pastOpWord.afterEa .word ea).writeD r (rem ++ q)).setCcr
        { x := s.sr.ccr.x, n := decide (q.toInt < 0), z := q == 0, v := false, c := false }))

/-- A division that overflows completes with V set, C cleared, X and the register kept; N and Z are any. N and Z are
free values (log 25). -/
def Obligations.DivideOverflow : Prop :=
  ∀ (ea : EA) (r : RegNum) (s : State), s.pastOpWord.canRead .word ea = true →
    let m := s.pastOpWord.operand .word ea
    m ≠ 0 →
    (m.toNat ≤ ((s.readD r).extractLsb' 16 16).toNat → ∃ n z,
      Completes (.divu ea r) s (s.retire ((s.pastOpWord.afterEa .word ea).setCcr
        { x := s.sr.ccr.x, n := n, z := z, v := true, c := false }))) ∧
    (outOfRange 16 ((s.readD r).toInt.tdiv m.toInt) = true → ∃ n z,
      Completes (.divs ea r) s (s.retire ((s.pastOpWord.afterEa .word ea).setCcr
        { x := s.sr.ccr.x, n := n, z := z, v := true, c := false })))

/-- A division by zero is exception 5 after its source operand was read: the address of the next instruction is
saved, C is cleared, X and the registers are kept, N, Z and V are any (free values, log 25); a trace exception follows
if T was set (log 20). That the exception is entered through the 6-byte frame of R256 is the model's choice of the
spec's two models (log 1). -/
def Obligations.DivideByZero : Prop :=
  ∀ (ea : EA) (r : RegNum) (s : State), s.pastOpWord.canRead .word ea = true →
    s.pastOpWord.operand .word ea = 0 → s.mem.wf = true →
    let b := s.pastOpWord.afterEa .word ea
    b.stackRoom 6 = true → b.vectorReady 5 = true →
    ∃ n z v : Bool, ∃ t,
      exec (.divu ea r) s = .next t ∧ exec (.divs ea r) s = .next t ∧
      Entered 5 (s.pc + 2 + BitVec.ofNat 32 (2 * eaExt .word ea)) s.sr.i
        (b.setCcr { x := s.sr.ccr.x, n := n, z := z, v := v, c := false }) t ∧
      t.tracePending = s.sr.t

/-! ### Shifts and rotates -/

/-- The eight shifts and rotates of a data register always complete, whatever the count; a register count is taken
modulo 64. Those of a word in memory complete by one place. -/
def Obligations.ShiftCompletes : Prop :=
  CompletesShiftReg .asrReg .asr ∧ CompletesShiftReg .aslReg .asl ∧ CompletesShiftReg .lsrReg .lsr ∧
  CompletesShiftReg .lslReg .lsl ∧ CompletesShiftReg .roxrReg .roxr ∧ CompletesShiftReg .roxlReg .roxl ∧
  CompletesShiftReg .rorReg .ror ∧ CompletesShiftReg .rolReg .rol ∧
  CompletesShiftMem .asrMem .asr ∧ CompletesShiftMem .aslMem .asl ∧ CompletesShiftMem .lsrMem .lsr ∧
  CompletesShiftMem .lslMem .lsl ∧ CompletesShiftMem .roxrMem .roxr ∧ CompletesShiftMem .roxlMem .roxl ∧
  CompletesShiftMem .rorMem .ror ∧ CompletesShiftMem .rolMem .rol

/-- ASL and LSL by any count: the result is the operand shifted, C the last bit out, X likewise but for a count of 0; V
of ASL says that the signed operand times 2 to the count is out of range, V of LSL is clear. -/
def Obligations.ShiftLeftClosedForm : Prop :=
  ∀ (sz : Size) (k : Nat) (f : Ccr) (v : BitVec sz.bits),
    let c := decide (1 ≤ k) && v.getLsbD (sz.bits - k) && decide (k ≤ sz.bits)
    let x := if k = 0 then f.x else c
    shiftBy .asl k f v = (v <<< k, ⟨x, (v <<< k).msb, v <<< k == 0,
      outOfRange sz.bits (v.toInt * 2 ^ k), c⟩) ∧
    shiftBy .lsl k f v = (v <<< k, { x := x, n := (v <<< k).msb, z := v <<< k == 0, v := false, c := c })

/-- ASR and LSR by any count: the operand divided by 2 to the count, rounded toward minus infinity, signed for ASR and
unsigned for LSR; C is the last bit out, V clear. -/
def Obligations.ShiftRightClosedForm : Prop :=
  ∀ (sz : Size) (k : Nat) (f : Ccr) (v : BitVec sz.bits),
    let ca := decide (1 ≤ k) && (if k ≤ sz.bits then v.getLsbD (k - 1) else v.msb)
    let cl := decide (1 ≤ k) && v.getLsbD (k - 1)
    (∃ r : BitVec sz.bits, r.toInt = v.toInt / 2 ^ k ∧
      shiftBy .asr k f v = (r, { x := if k = 0 then f.x else ca, n := r.msb, z := r == 0, v := false, c := ca })) ∧
    (∃ r : BitVec sz.bits, r.toNat = v.toNat / 2 ^ k ∧
      shiftBy .lsr k f v = (r, { x := if k = 0 then f.x else cl, n := r.msb, z := r == 0, v := false, c := cl }))

/-- ROL and ROR by any count: the operand rotated by the count modulo its size; C is the bit that last moved to the
other end, clear for a count of 0; X is kept. -/
def Obligations.RotateClosedForm : Prop :=
  ∀ (sz : Size) (k : Nat) (f : Ccr) (v : BitVec sz.bits),
    (let r := v.rotateLeft k
     shiftBy .rol k f v =
      (r, { x := f.x, n := r.msb, z := r == 0, v := false, c := decide (1 ≤ k) && r.getLsbD 0 })) ∧
    (let r := v.rotateRight k
     shiftBy .ror k f v = (r, { x := f.x, n := r.msb, z := r == 0, v := false, c := decide (1 ≤ k) && r.msb }))

/-- ROXL and ROXR by any count: X with the operand below it, one bit more than the operand, rotated by the count; C is
X afterwards, also for a count of 0. -/
def Obligations.RotateExtendedClosedForm : Prop :=
  ∀ (sz : Size) (k : Nat) (f : Ccr) (v : BitVec sz.bits),
    (let w := (BitVec.ofBool f.x ++ v).rotateLeft k
     let r := w.setWidth sz.bits
     shiftBy .roxl k f v = (r, { x := w.msb, n := r.msb, z := r == 0, v := false, c := w.msb })) ∧
    (let w := (BitVec.ofBool f.x ++ v).rotateRight k
     let r := w.setWidth sz.bits
     shiftBy .roxr k f v = (r, { x := w.msb, n := r.msb, z := r == 0, v := false, c := w.msb }))

/-! ### Bits -/

/-- BTST in both forms completes and changes nothing but Z, the address register its mode steps and the program
counter; BCHG, BCLR and BSET invert, clear or set one bit. Z is the complement of the bit as it was, the other flags
stay; the operand is a data register's 32 bits or one byte, the bit number taken modulo its size (R220, R221). -/
def Obligations.BitInstructionsComplete : Prop :=
  (∀ (ea : EA) (s : State),
    (∀ bit : Byte, s.pastOpWord.fetchable 1 = true → (s.pastOpWord.afterExt 1).canRead (bitSize ea) ea = true →
      let b := s.pastOpWord.afterExt 1
      let old := b.operand (bitSize ea) ea
      Completes (.btstStatic bit ea) s (s.retire ((b.afterEa (bitSize ea) ea).setCcr
        { s.sr.ccr with z := !old.getLsbD (bit.toNat % (bitSize ea).bits) }))) ∧
    (∀ r : RegNum, s.pastOpWord.canRead (bitSize ea) ea = true →
      let b := s.pastOpWord
      let old := b.operand (bitSize ea) ea
      Completes (.btstDyn r ea) s (s.retire ((b.afterEa (bitSize ea) ea).setCcr
        { s.sr.ccr with z := !old.getLsbD ((s.readD r).toNat % (bitSize ea).bits) })))) ∧
  (∀ (ea : EA) (s : State),
    (∀ bit : Byte, s.pastOpWord.fetchable 1 = true →
      CompletesBit (.bchgStatic bit ea) s (s.pastOpWord.afterExt 1) bit.toNat ea (· ^^^ ·) ∧
      CompletesBit (.bclrStatic bit ea) s (s.pastOpWord.afterExt 1) bit.toNat ea (fun old m => old &&& ~~~m) ∧
      CompletesBit (.bsetStatic bit ea) s (s.pastOpWord.afterExt 1) bit.toNat ea (· ||| ·)) ∧
    (∀ r : RegNum,
      CompletesBit (.bchgDyn r ea) s s.pastOpWord (s.readD r).toNat ea (· ^^^ ·) ∧
      CompletesBit (.bclrDyn r ea) s s.pastOpWord (s.readD r).toNat ea (fun old m => old &&& ~~~m) ∧
      CompletesBit (.bsetDyn r ea) s s.pastOpWord (s.readD r).toNat ea (· ||| ·)))

/-! ### MOVE, LEA, Bcc, STOP -/

/-- MOVE completes: the source is read, then the destination's address is evaluated and the destination written. Where
the destination steps the address register that is the source, the value moved is any (log 23). -/
def Obligations.MoveCompletes : Prop :=
  ∀ (sz : Size) (src dst : EA) (s : State), s.pastOpWord.canRead sz src = true →
    let b := s.pastOpWord.afterEa sz src
    b.fetchable (eaExt sz dst) = true → b.writable sz (b.eaLoc sz dst) = true →
    ∃ v, ((∀ r, src = .an r → eaSteps r dst = false) → v = s.pastOpWord.operand sz src) ∧
      exec (.move sz src dst) s = .next (s.retire ((b.stored sz dst v).setCcr (logicCcr s.sr.ccr v))) ∧
      SameMemoryBut sz (b.eaLoc sz dst) s (s.retire ((b.stored sz dst v).setCcr (logicCcr s.sr.ccr v)))

/-- MOVEA completes with a word sign-extended and writes no flag; a source that steps the destination register is read
first, so the value loaded stands (log 24). -/
def Obligations.MoveToAddressRegisterCompletes : Prop :=
  ∀ (sz : Size) (src : EA) (r : RegNum) (s : State), s.pastOpWord.canRead sz src = true →
    ∃ t, exec (.movea sz src r) s = .next t ∧
      t = s.retire ((s.pastOpWord.afterEa sz src).writeA r ((s.pastOpWord.operand sz src).signExtend 32)) ∧
      t.readA r = (s.pastOpWord.operand sz src).signExtend 32 ∧ SameMemory s t

/-- LEA completes once its extension words are fetched, with the 32-bit address of its control mode, and neither reads
memory there nor writes a flag. -/
def Obligations.LoadAddressCompletes : Prop :=
  ∀ (q r : RegNum) (d : Word) (a : Long) (x : IndexExt) (s : State),
    let loaded := fun (ea : EA) (v : Long) =>
      Completes (.lea ea r) s (s.retire ((s.pastOpWord.afterExt (eaExt .long ea)).writeA r v))
    let index := fun (x : IndexExt) =>
      let v := match x.reg with
        | .d n => s.readD n
        | .a n => s.readA n
      (if x.long then v else (v.setWidth 16).signExtend 32) + x.disp.signExtend 32
    loaded (.ind q) (s.readA q) ∧
    (s.pastOpWord.fetchable 1 = true →
      loaded (.disp q d) (s.readA q + d.signExtend 32) ∧
      loaded (.index q x) (s.readA q + index x) ∧
      loaded (.absW d) (d.signExtend 32) ∧
      loaded (.pcDisp d) (s.pc + 2 + d.signExtend 32) ∧
      loaded (.pcIndex x) (s.pc + 2 + index x)) ∧
    (s.pastOpWord.fetchable 2 = true → loaded (.absL a) a)

/-- Bcc completes once its displacement word, if any, is fetched: to the operation word's address plus 2 plus the
displacement where its condition holds, else to the next instruction; a branch that is taken drops what was fetched
ahead, nothing else changes. -/
def Obligations.BranchCompletes : Prop :=
  ∀ (c : Cond) (s : State),
    (∀ d : Byte, exec (.bcc c (.short d)) s = .next { s with
      pc := if condHolds s.sr.ccr c then s.pc + 2 + d.signExtend 32 else s.pc + 2
      prefetch := if condHolds s.sr.ccr c then [] else s.prefetch
      tracePending := s.sr.t }) ∧
    (∀ d : Word, s.pastOpWord.fetchable 1 = true → exec (.bcc c (.word d)) s = .next { s with
      pc := if condHolds s.sr.ccr c then s.pc + 2 + d.signExtend 32 else s.pc + 4
      prefetch := if condHolds s.sr.ccr c then [] else s.prefetch
      tracePending := s.sr.t })

/-- The fourteen conditions as R239's table has them; and after CMPI of `d` with the immediate `v` they compare `d` with
`v`: HI, LS, CC and CS as unsigned numbers, GE, LT, GT and LE as signed ones, EQ and NE for equality; VC and VS say
whether the signed difference is in range, PL and MI the top bit of the difference. -/
def Obligations.ConditionsCompare : Prop :=
  (∀ (x n z v c : Bool), let f : Ccr := ⟨x, n, z, v, c⟩
    (condHolds f .hi = true ↔ c = false ∧ z = false) ∧ (condHolds f .ls = true ↔ c = true ∨ z = true) ∧
    (condHolds f .cc = true ↔ c = false) ∧ (condHolds f .cs = true ↔ c = true) ∧
    (condHolds f .ne = true ↔ z = false) ∧ (condHolds f .eq = true ↔ z = true) ∧
    (condHolds f .vc = true ↔ v = false) ∧ (condHolds f .vs = true ↔ v = true) ∧
    (condHolds f .pl = true ↔ n = false) ∧ (condHolds f .mi = true ↔ n = true) ∧
    (condHolds f .ge = true ↔ n = v) ∧ (condHolds f .lt = true ↔ n ≠ v) ∧
    (condHolds f .gt = true ↔ z = false ∧ n = v) ∧ (condHolds f .le = true ↔ z = true ∨ n ≠ v)) ∧
  ∀ (sz : Size) (f : Ccr) (v d : BitVec sz.bits),
    let g := cmpCcr f v d
    (condHolds g .hi = true ↔ v.toNat < d.toNat) ∧ (condHolds g .ls = true ↔ d.toNat ≤ v.toNat) ∧
    (condHolds g .cc = true ↔ v.toNat ≤ d.toNat) ∧ (condHolds g .cs = true ↔ d.toNat < v.toNat) ∧
    (condHolds g .eq = true ↔ d = v) ∧ (condHolds g .ne = true ↔ d ≠ v) ∧
    (condHolds g .ge = true ↔ v.toInt ≤ d.toInt) ∧ (condHolds g .lt = true ↔ d.toInt < v.toInt) ∧
    (condHolds g .gt = true ↔ v.toInt < d.toInt) ∧ (condHolds g .le = true ↔ d.toInt ≤ v.toInt) ∧
    (condHolds g .vc = true ↔ outOfRange sz.bits (d.toInt - v.toInt) = false) ∧
    (condHolds g .vs = true ↔ outOfRange sz.bits (d.toInt - v.toInt) = true) ∧
    (condHolds g .pl = true ↔ (d - v).msb = false) ∧ (condHolds g .mi = true ↔ (d - v).msb = true)

/-- STOP in supervisor state completes: SR is its operand ANDed with 0xA71F, and the processor stops, or takes its
trace exception instead where T was set (log 22). An operand that clears S or sets T is loaded like any other: the
model's choice (log 21). -/
def Obligations.StopCompletes : Prop :=
  ∀ (imm : Word) (s : State), s.sr.s = true → s.pastOpWord.fetchable 1 = true →
    ∃ sr : StatusReg, sr.word = imm &&& 0xA71F ∧
      exec (.stop imm) s = .next { s with
        pc := s.pc + 4, sr := sr, stopped := !s.sr.t, tracePending := s.sr.t }

/-- STOP in user state is exception 8 with nothing changed first and its own address saved. That the violation is
entered, through the 6-byte frame of R256, and does not end the run is the model's choice of the spec's two models
(log 1). -/
def Obligations.StopIsPrivileged : Prop :=
  ∀ (imm : Word) (s : State), s.sr.s = false → s.mem.wf = true → s.stackRoom 6 = true →
    s.vectorReady 8 = true →
    ∃ t, exec (.stop imm) s = .next t ∧ Entered 8 s.pc s.sr.i s t ∧ t.tracePending = false

/-! ### Exceptions -/

/-- Taking an exception of group 1 or 2, where the supervisor stack has room and the vector can be read, leaves the
6-byte frame and enters the handler. That it is modelled as the real entry, and not as the end of the run, is the
model's choice among the spec's two (log 1). -/
def Obligations.ExceptionEntry : Prop :=
  ∀ (e : Entry) (s : State), s.mem.wf = true → s.stackRoom 6 = true → s.vectorReady e.vector = true →
    ∃ t, enterException e s = .next t ∧ Entered e.vector e.savedPc (e.mask.getD s.sr.i) s t ∧
      t.tracePending = e.traced ∧ t.halted = s.halted ∧ t.mem.wf = true

/-- A bus error or address error, where the supervisor stack has room and the vector can be read, leaves the 14-byte
frame of R263 and enters the handler. That it is entered at all is the model's choice: R263, D4 and D6 have both of the
spec's own models end the run there (log 2). The frame's parts that the spec leaves undefined are any (log 3); the
numbers of the function code are the model's (log 4). -/
def Obligations.GroupZeroEntry : Prop :=
  ∀ (x : FailedAccess) (pc0 : Long) (opWord : Word) (busy : Bool) (s : State), s.mem.wf = true →
    s.stackRoom 14 = true → s.vectorReady x.error.vector = true →
    ∃ t, enterGroup0 x pc0 opWord busy s = .next t ∧ EnteredGroup0 x pc0 opWord busy s t ∧
      t.tracePending = false ∧ t.halted = s.halted ∧ t.mem.wf = true

/-- A bus error or address error halts the processor where its frame cannot be written, because the supervisor stack
pointer is odd or points at no writable memory, or its vector cannot be read; a reset halts it where a read of the
reset sequence fails, and so does the first fetch at an odd program counter while the stack is odd. A halted processor
does nothing until a reset. That a halted processor with no input to come ends the run is the model's choice (log 7);
so is that the first error is entered at all (log 2). -/
def Obligations.DoubleBusFaultHalts : Prop :=
  (∀ (x : FailedAccess) (pc0 : Long) (opWord : Word) (busy : Bool) (s : State),
    let halts := ∃ t, enterGroup0 x pc0 opWord busy s = .next t ∧ t.halted = true ∧ t.d = s.d ∧ t.a = s.a ∧
      t.usp = s.usp ∧ (s.ssp.getLsbD 0 = true → t.mem = s.mem)
    (s.ssp.getLsbD 0 = true → halts) ∧
    (busAddress (s.ssp - 14) + 14 ≤ 2 ^ 24 → s.responds .write (busAddress (s.ssp - 14)) 14 = false → halts) ∧
    (s.responds .read (4 * x.error.vector) 4 = false → halts)) ∧
  (∀ s : State, s.presented.reset = true → s.responds .read 0 8 = false →
    ∃ t, step s = .next t ∧ t.halted = true ∧ t.mem = s.mem) ∧
  (∀ s : State, s.atInstruction = true → s.pc.getLsbD 0 = true → s.ssp.getLsbD 0 = true →
    ∃ t, step s = .next t ∧ t.halted = true) ∧
  (∀ s : State, s.halted = true → s.presented.reset = false →
    step s = if s.inputs = [] then .fault .halted else .next s.sampled)

/-- The return from an exception undoes its entry, where the frame lies in plain memory that can be read: SR, the program
counter and both stack pointers are restored. No instruction in scope does it (log 37); the entry is the model's choice
of the spec's two models (log 1). -/
def Obligations.ReturnUndoesEntry : Prop :=
  ∀ (e : Entry) (s t : State), s.mem.wf = true → s.stackRoom 6 = true → s.vectorReady e.vector = true →
    s.responds .read (busAddress (s.ssp - 6)) 6 = true → s.plain (busAddress (s.ssp - 6)) 6 = true →
    enterException e s = .next t →
    ∃ u, returnFromException t = .next u ∧ u.sr = s.sr ∧ u.pc = e.savedPc ∧ u.ssp = s.ssp ∧ u.usp = s.usp ∧
      u.d = s.d ∧ u.a = s.a ∧ u.mem = t.mem

/-- Where a fetch of an extension word, the read of an operand or the write of one fails, every instruction that makes
the access ends in its address error or bus error: the register side effects made by then stay, nothing else is
changed, and no later access is made. That the error is entered, and does not end the run, is the model's choice
(log 2). -/
def Obligations.OperandFaults : Prop :=
  (∀ (sz : Size) (ea : EA) (r : RegNum) (s : State), let b := s.pastOpWord
    FaultsOnRead (.addToDn sz ea r) sz ea s b ∧ FaultsOnRead (.subToDn sz ea r) sz ea s b ∧
    FaultsOnRead (.andToDn sz ea r) sz ea s b ∧ FaultsOnRead (.orToDn sz ea r) sz ea s b ∧
    FaultsOnRead (.adda sz ea r) sz ea s b ∧ FaultsOnRead (.suba sz ea r) sz ea s b ∧
    FaultsOnRead (.movea sz ea r) sz ea s b ∧
    FaultsOnRead (.mulu ea r) .word ea s b ∧ FaultsOnRead (.muls ea r) .word ea s b ∧
    FaultsOnRead (.divu ea r) .word ea s b ∧ FaultsOnRead (.divs ea r) .word ea s b ∧
    FaultsOnRead (.btstDyn r ea) (bitSize ea) ea s b ∧ FaultsOnFetch (.lea ea r) (eaExt .long ea) s b) ∧
  (∀ (sz : Size) (ea : EA) (r : RegNum) (data : BitVec 3) (s : State), let b := s.pastOpWord
    FaultsOnModify (.addToEa sz r ea) sz ea s b ∧ FaultsOnModify (.subToEa sz r ea) sz ea s b ∧
    FaultsOnModify (.andToEa sz r ea) sz ea s b ∧ FaultsOnModify (.orToEa sz r ea) sz ea s b ∧
    FaultsOnModify (.eor sz r ea) sz ea s b ∧ FaultsOnModify (.notEa sz ea) sz ea s b ∧
    FaultsOnModify (.clr sz ea) sz ea s b ∧
    FaultsOnModify (.addq data sz ea) sz ea s b ∧ FaultsOnModify (.subq data sz ea) sz ea s b ∧
    FaultsOnModify (.bchgDyn r ea) (bitSize ea) ea s b ∧ FaultsOnModify (.bclrDyn r ea) (bitSize ea) ea s b ∧
    FaultsOnModify (.bsetDyn r ea) (bitSize ea) ea s b ∧
    FaultsOnModify (.asrMem ea) .word ea s b ∧ FaultsOnModify (.aslMem ea) .word ea s b ∧
    FaultsOnModify (.lsrMem ea) .word ea s b ∧ FaultsOnModify (.lslMem ea) .word ea s b ∧
    FaultsOnModify (.roxrMem ea) .word ea s b ∧ FaultsOnModify (.roxlMem ea) .word ea s b ∧
    FaultsOnModify (.rorMem ea) .word ea s b ∧ FaultsOnModify (.rolMem ea) .word ea s b) ∧
  (∀ (sz : Size) (imm : Long) (ea : EA) (s : State), let n := immExt sz
    let b := s.pastOpWord.afterExt n
    (FaultsOnFetch (.addi sz imm ea) n s s.pastOpWord ∧ FaultsOnFetch (.subi sz imm ea) n s s.pastOpWord ∧
      FaultsOnFetch (.andi sz imm ea) n s s.pastOpWord ∧ FaultsOnFetch (.ori sz imm ea) n s s.pastOpWord ∧
      FaultsOnFetch (.eori sz imm ea) n s s.pastOpWord ∧ FaultsOnFetch (.cmpi sz imm ea) n s s.pastOpWord) ∧
    (s.pastOpWord.fetchable n = true →
      FaultsOnModify (.addi sz imm ea) sz ea s b ∧ FaultsOnModify (.subi sz imm ea) sz ea s b ∧
      FaultsOnModify (.andi sz imm ea) sz ea s b ∧ FaultsOnModify (.ori sz imm ea) sz ea s b ∧
      FaultsOnModify (.eori sz imm ea) sz ea s b ∧ FaultsOnRead (.cmpi sz imm ea) sz ea s b)) ∧
  (∀ (bit : Byte) (ea : EA) (s : State), let b := s.pastOpWord.afterExt 1
    (FaultsOnFetch (.btstStatic bit ea) 1 s s.pastOpWord ∧ FaultsOnFetch (.bchgStatic bit ea) 1 s s.pastOpWord ∧
      FaultsOnFetch (.bclrStatic bit ea) 1 s s.pastOpWord ∧ FaultsOnFetch (.bsetStatic bit ea) 1 s s.pastOpWord) ∧
    (s.pastOpWord.fetchable 1 = true →
      FaultsOnRead (.btstStatic bit ea) (bitSize ea) ea s b ∧ FaultsOnModify (.bchgStatic bit ea) (bitSize ea) ea s b ∧
      FaultsOnModify (.bclrStatic bit ea) (bitSize ea) ea s b ∧
      FaultsOnModify (.bsetStatic bit ea) (bitSize ea) ea s b)) ∧
  (∀ (sz : Size) (ry rx : RegNum) (s : State), let b := s.pastOpWord.afterEa sz (.predec ry)
    FaultsOnRead (.addx sz .predec ry rx) sz (.predec ry) s s.pastOpWord ∧
    FaultsOnRead (.subx sz .predec ry rx) sz (.predec ry) s s.pastOpWord ∧
    (s.pastOpWord.canRead sz (.predec ry) = true →
      FaultsOnModify (.addx sz .predec ry rx) sz (.predec rx) s b ∧
      FaultsOnModify (.subx sz .predec ry rx) sz (.predec rx) s b)) ∧
  (∀ (sz : Size) (src dst : EA) (s : State), FaultsOnRead (.move sz src dst) sz src s s.pastOpWord ∧
    (s.pastOpWord.canRead sz src = true →
      FaultsOnStore (.move sz src dst) sz dst s (s.pastOpWord.afterEa sz src))) ∧
  (∀ (imm : Byte) (data : Word) (c : Cond) (d : Word) (s : State),
    FaultsOnFetch (.andiToCcr imm) 1 s s.pastOpWord ∧ FaultsOnFetch (.bcc c (.word d)) 1 s s.pastOpWord ∧
    (s.sr.s = true → FaultsOnFetch (.stop data) 1 s s.pastOpWord))

/-- Every operation word whose bits 15 to 12 are 1010 is exception 10 and every one whose bits 15 to 12 are 1111 is
exception 11: its own address is saved and nothing is changed first (R259). That the exception is entered through the
6-byte frame of R256 is the model's choice of the spec's two models (log 1). -/
def Obligations.LinesAAndFTrap : Prop :=
  ∀ (s : State) (vector : Nat), s.atInstruction = true → s.accessible .read s.pc 2 = true →
    (vector = 10 ∧ (s.sampled.fetchedWord s.pc).extractLsb' 12 4 = 0b1010 ∨
      vector = 11 ∧ (s.sampled.fetchedWord s.pc).extractLsb' 12 4 = 0b1111) →
    s.mem.wf = true → s.stackRoom 6 = true → s.vectorReady vector = true →
    ∃ t, step s = .next t ∧ Entered vector s.pc s.sr.i s t ∧ t.tracePending = false

/-- An operation word that is no instruction is exception 4, its own address saved and nothing changed first (R258);
a word of an instruction out of scope is refused by name and raises nothing (log 33). Which words are which,
OperationWordClasses says. That the exception is entered through the 6-byte frame of R256 is the model's choice of the
spec's two models (log 1). -/
def Obligations.IllegalWordsTrap : Prop :=
  ∀ s : State, s.atInstruction = true → s.accessible .read s.pc 2 = true →
    let words := s.sampled.fetchedWord s.pc :: s.sampled.wordsFrom (s.pc + 2) 4
    (decode words = .error .illegal → s.mem.wf = true → s.stackRoom 6 = true → s.vectorReady 4 = true →
      ∃ t, step s = .next t ∧ Entered 4 s.pc s.sr.i s t ∧ t.tracePending = false) ∧
    (∀ name, decode words = .error (.outOfScope name) → step s = .refused (.outOfScope name))

/-- An instruction fetch at an odd address is an address error of a read in program space. That it is entered is the
model's choice (log 2), and that bit 3 of the frame is clear also at the first fetch of a handler is DEDUCED (log 5);
the frame's free parts as in GroupZeroEntry (log 3, 4). -/
def Obligations.OddProgramCounter : Prop :=
  ∀ s : State, s.atInstruction = true → s.pc.getLsbD 0 = true → s.mem.wf = true → s.stackRoom 14 = true →
    s.vectorReady 3 = true →
    ∃ t opWord, step s = .next t ∧
      EnteredGroup0 ⟨.address, s.pc, .read, .program⟩ s.pc opWord false s t

/-- After a traced instruction comes exception 9, before an interrupt, with the address of the next instruction saved;
its handler is not traced. That the pending trace is a state and a step of its own is DEDUCED (log 20); that it is
entered through the 6-byte frame of R256 is the model's choice (log 1), where D31 has the spec assume T = 0. -/
def Obligations.TraceComesFirst : Prop :=
  ∀ s : State, s.presented.reset = false → s.halted = false → s.tracePending = true → s.mem.wf = true →
    s.stackRoom 6 = true → s.vectorReady 9 = true →
    ∃ t, step s = .next t ∧ Entered 9 s.pc s.sr.i s t ∧ t.tracePending = false

/-- An interrupt above the mask, or a rise to level 7, is taken at the boundary, also from the stopped state: the mask
becomes its level, and its vector is the device's, the level's autovector or the spurious one. How the inputs reach the
machine is the model's choice (log 17, 18, 39), and so is that the interrupt is entered through the 6-byte frame of
R256 (log 1). -/
def Obligations.InterruptIsTaken : Prop :=
  ∀ s : State, s.presented.reset = false → s.halted = false → s.tracePending = false →
    (s.sr.i < s.presented.level ∨ s.presented.level = 7 ∧ s.ipl ≠ 7) → s.mem.wf = true → s.stackRoom 6 = true →
    let vector := match s.presented.ack with
      | .vector n => n.toNat
      | .autovector => 24 + s.presented.level.toNat
      | .spurious => 24
    s.vectorReady vector = true →
    ∃ t, step s = .next t ∧ Entered vector s.pc s.presented.level s t ∧ t.nmi = false

/-- A stopped processor whose request level is not above the mask and has not risen to 7 changes nothing but what it
samples. The samples of the inputs are the model's (log 17, 18), and so is that it goes on so where no input is to come
(log 40). -/
def Obligations.StoppedWaits : Prop :=
  ∀ s : State, s.presented.reset = false → s.halted = false → s.tracePending = false → s.stopped = true →
    s.presented.level ≤ s.sr.i → (s.presented.level = 7 → s.ipl = 7 ∧ s.nmi = false) →
    ∃ nmi, step s = .next { s with inputs := s.inputs.tail, ipl := s.presented.level, nmi := nmi }

/-- A reset, from any state, where addresses 0 to 7 can be read: supervisor state, trace off, mask 7, not stopped, not
halted, SSP and the program counter from addresses 0 and 4, as memory has them where it is plain; the other registers
and memory stay. The flags are free (log 10). That the RESET line is part of each sample of the inputs, and that a step
whose sample asserts it does the reset sequence and nothing else, is the model's choice (log 19). Where memory holds
`ssp` at 0 and 0x400 at 4, that step leads to the launch state of R37 but for the flags (R292). -/
def Obligations.ResetSequence : Prop :=
  (∀ s : State, s.presented.reset = true → s.responds .read 0 8 = true →
    ∃ t, step s = .next t ∧ t.sr.s = true ∧ t.sr.t = false ∧ t.sr.i = 7 ∧ t.stopped = false ∧ t.halted = false ∧
      t.tracePending = false ∧ t.prefetch = [] ∧
      (s.plain 0 8 = true → t.ssp = s.mem.readBE 0 4 ∧ t.pc = s.mem.readBE 4 4) ∧
      t.d = s.d ∧ t.a = s.a ∧ t.usp = s.usp ∧ t.mem = s.mem) ∧
  (∀ (d : DataRegs) (a : AddrRegs) (usp ssp : Long) (image : List (Nat × List Byte)) (ack : Acknowledge),
    (Memory.load image).readBE 0 4 = ssp → (Memory.load image).readBE 4 4 = 0x400 →
    ∃ t n, step { State.reset with d, a, usp, mem := Memory.load image, inputs := [⟨true, 0, ack⟩] } = .next t ∧
      t.setCcr ⟨false, false, false, false, false⟩ = { State.launch d a usp ssp image with draws := n })

/-- The state after reset: supervisor state, trace off, mask 7, not stopped, not halted, nothing fetched ahead, and SSP
and the program counter as memory gives them; memory in its canonical form. That SSP and pc are those of a memory with
nothing listed is the model's choice (log 11). The launch state of R37: pc 0x400, SR 0x2700, the registers and stack
pointers given, the bytes of a list where it places them; it keeps the invariant where they lie in the address
space. -/
def Obligations.ResetState : Prop :=
  (State.reset.sr.s = true ∧ State.reset.sr.t = false ∧ State.reset.sr.i = 7 ∧ State.reset.stopped = false ∧
    State.reset.halted = false ∧ State.reset.prefetch = [] ∧
    State.reset.ssp = State.reset.mem.readBE 0 4 ∧ State.reset.pc = State.reset.mem.readBE 4 4 ∧ State.reset.Inv) ∧
  (∀ (d : DataRegs) (a : AddrRegs) (usp ssp : Long) (base : Nat) (bytes : List Byte), base + bytes.length ≤ 2 ^ 24 →
    let s := State.launch d a usp ssp [(base, bytes)]
    s.pc = 0x400 ∧ s.sr.word = 0x2700 ∧ s.d = d ∧ s.a = a ∧ s.usp = usp ∧ s.ssp = ssp ∧ s.Inv ∧
      (∀ (k : Nat) (h : k < bytes.length), s.mem.read (base + k) = bytes[k]) ∧
      (∀ k, k < base ∨ base + bytes.length ≤ k → s.mem.read k = unlistedByte))

/-! ### The whole machine -/

/-- Every step keeps the machine's invariant. The invariant: memory canonical, at most two words fetched ahead, a
halted or stopped processor has no trace to take and is not both, a level-7 edge is kept only while level 7 lasts. The
fields tracePending and nmi and the canonical form are the model's (log 18, 20). -/
def Obligations.StepKeepsInvariant : Prop := ∀ s t : State, s.Inv → step s = .next t → t.Inv

/-- No step changes what answers at an address, and each step takes one sample of the inputs. One sample a step is the
model's choice (log 17). -/
def Obligations.MemoryMapIsFixed : Prop :=
  ∀ s t : State, step s = .next t → t.busMap = s.busMap ∧ t.inputs = s.inputs.tail

/-- From user state a step leaves either user state with SSP, T and the mask unchanged, or supervisor state with
trace off. That an exception leads to supervisor state, and does not end the run, is the model's choice (log 1, 2). -/
def Obligations.UserStateIsConfined : Prop :=
  ∀ s t : State, s.sr.s = false → step s = .next t →
    (t.sr.s = false ∧ t.ssp = s.ssp ∧ t.sr.t = s.sr.t ∧ t.sr.i = s.sr.i) ∨ (t.sr.s = true ∧ t.sr.t = false)

/-- The one instruction that leaves supervisor state is STOP with bit 13 of its operand clear. That such a STOP runs
is the model's choice (log 21). -/
def Obligations.OnlyStopLeavesSupervisorState : Prop :=
  ∀ (i : Instr) (s t : State), exec i s = .next t → s.sr.s = true → t.sr.s = false →
    ∃ imm : Word, i = .stop imm ∧ imm.getLsbD 13 = false

/-- No instruction reaches the user stack pointer from supervisor state, and from user state an instruction that stays
there does not reach the supervisor stack pointer: it is kept, and a run from a state that differs in it alone ends in
a state that differs in it alone. -/
def Obligations.InactiveStackPointerIsKept : Prop :=
  (∀ (i : Instr) (s t : State), exec i s = .next t →
    (s.sr.s = true → t.usp = s.usp) ∧ (s.sr.s = false → t.sr.s = false → t.ssp = s.ssp)) ∧
  (∀ (i : Instr) (s : State) (v : Long), s.sr.s = true →
    exec i { s with usp := v } = mapNext (fun t => { t with usp := v }) (exec i s)) ∧
  (∀ (i : Instr) (s t : State) (v : Long), s.sr.s = false → exec i s = .next t → t.sr.s = false →
    exec i { s with ssp := v } = .next { t with ssp := v })

/-- MOVEA, LEA, Bcc, ADDA, SUBA and ADDQ and SUBQ to an address register write no flag, whether they complete or end in
an exception. -/
def Obligations.AddressInstructionsKeepFlags : Prop :=
  ∀ (sz : Size) (ea : EA) (r : RegNum) (data : BitVec 3) (c : Cond) (disp : BranchDisp) (i : Instr) (s t : State),
    i ∈ [Instr.movea sz ea r, .lea ea r, .bcc c disp, .adda sz ea r, .suba sz ea r, .addqA data sz r,
      .subqA data sz r] →
    exec i s = .next t → t.sr.ccr = s.sr.ccr

/-- CLR, EXT, the multiplications, divisions and logic instructions, ROL, ROR, the bit instructions, MOVE and CMPI do
not affect X. -/
def Obligations.FlagXIsNotAffected : Prop :=
  ∀ (sz : Size) (ea dst : EA) (q r : RegNum) (imm : Long) (bit : Byte) (count : ShiftCount) (i : Instr)
    (s t : State),
    i ∈ [Instr.clr sz ea, .extW r, .extL r, .muls ea r, .mulu ea r, .divs ea r, .divu ea r, .andToDn sz ea r,
      .andToEa sz r ea, .andi sz imm ea, .orToDn sz ea r, .orToEa sz r ea, .ori sz imm ea, .eor sz r ea,
      .eori sz imm ea, .notEa sz ea, .rolReg sz count r, .rorReg sz count r, .rolMem ea, .rorMem ea,
      .btstStatic bit ea, .bsetStatic bit ea, .bclrStatic bit ea, .bchgStatic bit ea, .btstDyn q ea, .bsetDyn q ea,
      .bclrDyn q ea, .bchgDyn q ea, .move sz ea dst, .cmpi sz imm ea] →
    exec i s = .next t → t.sr.ccr.x = s.sr.ccr.x

/-- A value written to SR is ANDed with 0xA71F, and the value read back writes the same. -/
def Obligations.StatusRegisterLayout : Prop :=
  (∀ w : Word, (StatusReg.ofWord w).word = w &&& 0xA71F) ∧ (∀ sr : StatusReg, StatusReg.ofWord sr.word = sr)

/-- A fetch gives the word in memory or the word fetched ahead for that address, and the word in memory where none is
held (the choice is free, log 27). No instruction changes what is held but to drop it all, as a branch that is taken
and every exception do. -/
def Obligations.PrefetchRule : Prop :=
  (∀ (s : State) (p : Long), s.fetchedWord p = s.wordAt p ∨ heldAt s.prefetch p = some (s.fetchedWord p)) ∧
  (∀ (s : State) (p : Long), heldAt s.prefetch p = none → s.fetchedWord p = s.wordAt p) ∧
  (∀ (i : Instr) (s t : State), exec i s = .next t → t.prefetch = s.prefetch ∨ t.prefetch = []) ∧
  (∀ (c : Cond) (disp : BranchDisp) (s t : State), exec (.bcc c disp) s = .next t → condHolds s.sr.ccr c = true →
    t.prefetch = []) ∧
  (∀ (e : Entry) (s t : State), enterException e s = .next t → t.prefetch = []) ∧
  (∀ (x : FailedAccess) (pc0 : Long) (opWord : Word) (busy : Bool) (s t : State),
    enterGroup0 x pc0 opWord busy s = .next t → t.prefetch = [])

/-- Which operation words are in scope, out of scope and illegal, whatever four words follow: a word with a row of
opcode_table.json whose conditions hold is an instruction; any other is refused by the name of R104's list where it has
one of its patterns, else of line A or line F by bits 15 to 12, else illegal. 0x4AFC is illegal (log 33). -/
def Obligations.OperationWordClasses : Prop :=
  ∀ w a b c d : Word,
    (tableName w ≠ none → ∃ i rest, decode [w, a, b, c, d] = .ok (i, rest)) ∧
    (tableName w = none → decode [w, a, b, c, d] = .error (
      match refusedName w with
      | some m => .outOfScope m
      | none =>
        if w.extractLsb' 12 4 = 0b1010 then .lineA else if w.extractLsb' 12 4 = 0b1111 then .lineF else .illegal))
end

