-- ==== Sys2Proof/Laws/State.lean ====
section
/-! SUPPORT. What each named update of the state leaves in each field, and the registers read back. -/

namespace Sys2Proof.Machine

@[simp] theorem State.setCcr_d (s : State) (f : Ccr) : (s.setCcr f).d = s.d := rfl
@[simp] theorem State.setCcr_a (s : State) (f : Ccr) : (s.setCcr f).a = s.a := rfl
@[simp] theorem State.setCcr_usp (s : State) (f : Ccr) : (s.setCcr f).usp = s.usp := rfl
@[simp] theorem State.setCcr_ssp (s : State) (f : Ccr) : (s.setCcr f).ssp = s.ssp := rfl
@[simp] theorem State.setCcr_pc (s : State) (f : Ccr) : (s.setCcr f).pc = s.pc := rfl
@[simp] theorem State.setCcr_sr (s : State) (f : Ccr) : (s.setCcr f).sr = { s.sr with ccr := f } := rfl
@[simp] theorem State.setCcr_mem (s : State) (f : Ccr) : (s.setCcr f).mem = s.mem := rfl
@[simp] theorem State.setCcr_stopped (s : State) (f : Ccr) : (s.setCcr f).stopped = s.stopped := rfl
@[simp] theorem State.setCcr_halted (s : State) (f : Ccr) : (s.setCcr f).halted = s.halted := rfl
@[simp] theorem State.setCcr_prefetch (s : State) (f : Ccr) : (s.setCcr f).prefetch = s.prefetch := rfl
@[simp] theorem State.setCcr_ipl (s : State) (f : Ccr) : (s.setCcr f).ipl = s.ipl := rfl
@[simp] theorem State.setCcr_nmi (s : State) (f : Ccr) : (s.setCcr f).nmi = s.nmi := rfl
@[simp] theorem State.setCcr_tracePending (s : State) (f : Ccr) : (s.setCcr f).tracePending = s.tracePending := rfl
@[simp] theorem State.setCcr_busMap (s : State) (f : Ccr) : (s.setCcr f).busMap = s.busMap := rfl
@[simp] theorem State.setCcr_inputs (s : State) (f : Ccr) : (s.setCcr f).inputs = s.inputs := rfl
@[simp] theorem State.setCcr_ir (s : State) (f : Ccr) : (s.setCcr f).ir = s.ir := rfl
@[simp] theorem State.setCcr_draws (s : State) (f : Ccr) : (s.setCcr f).draws = s.draws := rfl

@[simp] theorem State.writeD_d (s : State) (r : RegNum) (v : Long) : (s.writeD r v).d = s.d.set r v := rfl
@[simp] theorem State.writeD_a (s : State) (r : RegNum) (v : Long) : (s.writeD r v).a = s.a := rfl
@[simp] theorem State.writeD_usp (s : State) (r : RegNum) (v : Long) : (s.writeD r v).usp = s.usp := rfl
@[simp] theorem State.writeD_ssp (s : State) (r : RegNum) (v : Long) : (s.writeD r v).ssp = s.ssp := rfl
@[simp] theorem State.writeD_pc (s : State) (r : RegNum) (v : Long) : (s.writeD r v).pc = s.pc := rfl
@[simp] theorem State.writeD_sr (s : State) (r : RegNum) (v : Long) : (s.writeD r v).sr = s.sr := rfl
@[simp] theorem State.writeD_mem (s : State) (r : RegNum) (v : Long) : (s.writeD r v).mem = s.mem := rfl
@[simp] theorem State.writeD_stopped (s : State) (r : RegNum) (v : Long) : (s.writeD r v).stopped = s.stopped := rfl
@[simp] theorem State.writeD_halted (s : State) (r : RegNum) (v : Long) : (s.writeD r v).halted = s.halted := rfl
@[simp] theorem State.writeD_prefetch (s : State) (r : RegNum) (v : Long) :
    (s.writeD r v).prefetch = s.prefetch := rfl
@[simp] theorem State.writeD_ipl (s : State) (r : RegNum) (v : Long) : (s.writeD r v).ipl = s.ipl := rfl
@[simp] theorem State.writeD_nmi (s : State) (r : RegNum) (v : Long) : (s.writeD r v).nmi = s.nmi := rfl
@[simp] theorem State.writeD_tracePending (s : State) (r : RegNum) (v : Long) :
    (s.writeD r v).tracePending = s.tracePending := rfl
@[simp] theorem State.writeD_busMap (s : State) (r : RegNum) (v : Long) : (s.writeD r v).busMap = s.busMap := rfl
@[simp] theorem State.writeD_inputs (s : State) (r : RegNum) (v : Long) : (s.writeD r v).inputs = s.inputs := rfl
@[simp] theorem State.writeD_ir (s : State) (r : RegNum) (v : Long) : (s.writeD r v).ir = s.ir := rfl
@[simp] theorem State.writeD_draws (s : State) (r : RegNum) (v : Long) : (s.writeD r v).draws = s.draws := rfl

@[simp] theorem State.writeLowD_d (s : State) (sz : Size) (r : RegNum) (v : BitVec sz.bits) :
    (s.writeLowD sz r v).d = s.d.set r (mergeLow (s.readD r) v) := rfl
@[simp] theorem State.writeLowD_a (s : State) (sz : Size) (r : RegNum) (v : BitVec sz.bits) :
    (s.writeLowD sz r v).a = s.a := rfl
@[simp] theorem State.writeLowD_usp (s : State) (sz : Size) (r : RegNum) (v : BitVec sz.bits) :
    (s.writeLowD sz r v).usp = s.usp := rfl
@[simp] theorem State.writeLowD_ssp (s : State) (sz : Size) (r : RegNum) (v : BitVec sz.bits) :
    (s.writeLowD sz r v).ssp = s.ssp := rfl
@[simp] theorem State.writeLowD_pc (s : State) (sz : Size) (r : RegNum) (v : BitVec sz.bits) :
    (s.writeLowD sz r v).pc = s.pc := rfl
@[simp] theorem State.writeLowD_sr (s : State) (sz : Size) (r : RegNum) (v : BitVec sz.bits) :
    (s.writeLowD sz r v).sr = s.sr := rfl
@[simp] theorem State.writeLowD_mem (s : State) (sz : Size) (r : RegNum) (v : BitVec sz.bits) :
    (s.writeLowD sz r v).mem = s.mem := rfl
@[simp] theorem State.writeLowD_stopped (s : State) (sz : Size) (r : RegNum) (v : BitVec sz.bits) :
    (s.writeLowD sz r v).stopped = s.stopped := rfl
@[simp] theorem State.writeLowD_halted (s : State) (sz : Size) (r : RegNum) (v : BitVec sz.bits) :
    (s.writeLowD sz r v).halted = s.halted := rfl
@[simp] theorem State.writeLowD_prefetch (s : State) (sz : Size) (r : RegNum) (v : BitVec sz.bits) :
    (s.writeLowD sz r v).prefetch = s.prefetch := rfl
@[simp] theorem State.writeLowD_ipl (s : State) (sz : Size) (r : RegNum) (v : BitVec sz.bits) :
    (s.writeLowD sz r v).ipl = s.ipl := rfl
@[simp] theorem State.writeLowD_nmi (s : State) (sz : Size) (r : RegNum) (v : BitVec sz.bits) :
    (s.writeLowD sz r v).nmi = s.nmi := rfl
@[simp] theorem State.writeLowD_tracePending (s : State) (sz : Size) (r : RegNum) (v : BitVec sz.bits) :
    (s.writeLowD sz r v).tracePending = s.tracePending := rfl
@[simp] theorem State.writeLowD_busMap (s : State) (sz : Size) (r : RegNum) (v : BitVec sz.bits) :
    (s.writeLowD sz r v).busMap = s.busMap := rfl
@[simp] theorem State.writeLowD_inputs (s : State) (sz : Size) (r : RegNum) (v : BitVec sz.bits) :
    (s.writeLowD sz r v).inputs = s.inputs := rfl
@[simp] theorem State.writeLowD_ir (s : State) (sz : Size) (r : RegNum) (v : BitVec sz.bits) :
    (s.writeLowD sz r v).ir = s.ir := rfl
@[simp] theorem State.writeLowD_draws (s : State) (sz : Size) (r : RegNum) (v : BitVec sz.bits) :
    (s.writeLowD sz r v).draws = s.draws := rfl

@[simp] theorem State.pastOpWord_d (s : State) : s.pastOpWord.d = s.d := rfl
@[simp] theorem State.pastOpWord_a (s : State) : s.pastOpWord.a = s.a := rfl
@[simp] theorem State.pastOpWord_usp (s : State) : s.pastOpWord.usp = s.usp := rfl
@[simp] theorem State.pastOpWord_ssp (s : State) : s.pastOpWord.ssp = s.ssp := rfl
@[simp] theorem State.pastOpWord_pc (s : State) : s.pastOpWord.pc = s.pc + 2 := rfl
@[simp] theorem State.pastOpWord_sr (s : State) : s.pastOpWord.sr = s.sr := rfl
@[simp] theorem State.pastOpWord_mem (s : State) : s.pastOpWord.mem = s.mem := rfl
@[simp] theorem State.pastOpWord_stopped (s : State) : s.pastOpWord.stopped = s.stopped := rfl
@[simp] theorem State.pastOpWord_halted (s : State) : s.pastOpWord.halted = s.halted := rfl
@[simp] theorem State.pastOpWord_prefetch (s : State) : s.pastOpWord.prefetch = s.prefetch := rfl
@[simp] theorem State.pastOpWord_ipl (s : State) : s.pastOpWord.ipl = s.ipl := rfl
@[simp] theorem State.pastOpWord_nmi (s : State) : s.pastOpWord.nmi = s.nmi := rfl
@[simp] theorem State.pastOpWord_tracePending (s : State) : s.pastOpWord.tracePending = s.tracePending := rfl
@[simp] theorem State.pastOpWord_busMap (s : State) : s.pastOpWord.busMap = s.busMap := rfl
@[simp] theorem State.pastOpWord_inputs (s : State) : s.pastOpWord.inputs = s.inputs := rfl
@[simp] theorem State.pastOpWord_ir (s : State) : s.pastOpWord.ir = s.ir := rfl
@[simp] theorem State.pastOpWord_draws (s : State) : s.pastOpWord.draws = s.draws := rfl

@[simp] theorem State.retire_d (s0 s : State) : (s0.retire s).d = s.d := rfl
@[simp] theorem State.retire_a (s0 s : State) : (s0.retire s).a = s.a := rfl
@[simp] theorem State.retire_usp (s0 s : State) : (s0.retire s).usp = s.usp := rfl
@[simp] theorem State.retire_ssp (s0 s : State) : (s0.retire s).ssp = s.ssp := rfl
@[simp] theorem State.retire_pc (s0 s : State) : (s0.retire s).pc = s.pc := rfl
@[simp] theorem State.retire_sr (s0 s : State) : (s0.retire s).sr = s.sr := rfl
@[simp] theorem State.retire_mem (s0 s : State) : (s0.retire s).mem = s.mem := rfl
@[simp] theorem State.retire_stopped (s0 s : State) : (s0.retire s).stopped = s.stopped := rfl
@[simp] theorem State.retire_halted (s0 s : State) : (s0.retire s).halted = s.halted := rfl
@[simp] theorem State.retire_prefetch (s0 s : State) : (s0.retire s).prefetch = s.prefetch := rfl
@[simp] theorem State.retire_ipl (s0 s : State) : (s0.retire s).ipl = s.ipl := rfl
@[simp] theorem State.retire_nmi (s0 s : State) : (s0.retire s).nmi = s.nmi := rfl
@[simp] theorem State.retire_tracePending (s0 s : State) : (s0.retire s).tracePending = s0.sr.t := rfl
@[simp] theorem State.retire_busMap (s0 s : State) : (s0.retire s).busMap = s.busMap := rfl
@[simp] theorem State.retire_inputs (s0 s : State) : (s0.retire s).inputs = s.inputs := rfl
@[simp] theorem State.retire_ir (s0 s : State) : (s0.retire s).ir = s.ir := rfl
@[simp] theorem State.retire_draws (s0 s : State) : (s0.retire s).draws = s.draws := rfl

@[simp] theorem State.supervisor_d (s : State) : s.supervisor.d = s.d := rfl
@[simp] theorem State.supervisor_a (s : State) : s.supervisor.a = s.a := rfl
@[simp] theorem State.supervisor_usp (s : State) : s.supervisor.usp = s.usp := rfl
@[simp] theorem State.supervisor_ssp (s : State) : s.supervisor.ssp = s.ssp := rfl
@[simp] theorem State.supervisor_pc (s : State) : s.supervisor.pc = s.pc := rfl
@[simp] theorem State.supervisor_sr (s : State) : s.supervisor.sr = { s.sr with s := true, t := false } := rfl
@[simp] theorem State.supervisor_mem (s : State) : s.supervisor.mem = s.mem := rfl
@[simp] theorem State.supervisor_stopped (s : State) : s.supervisor.stopped = false := rfl
@[simp] theorem State.supervisor_halted (s : State) : s.supervisor.halted = s.halted := rfl
@[simp] theorem State.supervisor_prefetch (s : State) : s.supervisor.prefetch = [] := rfl
@[simp] theorem State.supervisor_ipl (s : State) : s.supervisor.ipl = s.ipl := rfl
@[simp] theorem State.supervisor_nmi (s : State) : s.supervisor.nmi = s.nmi := rfl
@[simp] theorem State.supervisor_tracePending (s : State) : s.supervisor.tracePending = s.tracePending := rfl
@[simp] theorem State.supervisor_busMap (s : State) : s.supervisor.busMap = s.busMap := rfl
@[simp] theorem State.supervisor_inputs (s : State) : s.supervisor.inputs = s.inputs := rfl
@[simp] theorem State.supervisor_ir (s : State) : s.supervisor.ir = s.ir := rfl
@[simp] theorem State.supervisor_draws (s : State) : s.supervisor.draws = s.draws := rfl

@[simp] theorem State.afterExt_d (s : State) (k : Nat) : (s.afterExt k).d = s.d := rfl
@[simp] theorem State.afterExt_a (s : State) (k : Nat) : (s.afterExt k).a = s.a := rfl
@[simp] theorem State.afterExt_usp (s : State) (k : Nat) : (s.afterExt k).usp = s.usp := rfl
@[simp] theorem State.afterExt_ssp (s : State) (k : Nat) : (s.afterExt k).ssp = s.ssp := rfl
@[simp] theorem State.afterExt_pc (s : State) (k : Nat) : (s.afterExt k).pc = s.pc + BitVec.ofNat 32 (2 * k) := rfl
@[simp] theorem State.afterExt_sr (s : State) (k : Nat) : (s.afterExt k).sr = s.sr := rfl
@[simp] theorem State.afterExt_mem (s : State) (k : Nat) : (s.afterExt k).mem = s.mem := rfl
@[simp] theorem State.afterExt_stopped (s : State) (k : Nat) : (s.afterExt k).stopped = s.stopped := rfl
@[simp] theorem State.afterExt_halted (s : State) (k : Nat) : (s.afterExt k).halted = s.halted := rfl
@[simp] theorem State.afterExt_prefetch (s : State) (k : Nat) : (s.afterExt k).prefetch = s.prefetch := rfl
@[simp] theorem State.afterExt_ipl (s : State) (k : Nat) : (s.afterExt k).ipl = s.ipl := rfl
@[simp] theorem State.afterExt_nmi (s : State) (k : Nat) : (s.afterExt k).nmi = s.nmi := rfl
@[simp] theorem State.afterExt_tracePending (s : State) (k : Nat) :
    (s.afterExt k).tracePending = s.tracePending := rfl
@[simp] theorem State.afterExt_busMap (s : State) (k : Nat) : (s.afterExt k).busMap = s.busMap := rfl
@[simp] theorem State.afterExt_inputs (s : State) (k : Nat) : (s.afterExt k).inputs = s.inputs := rfl
@[simp] theorem State.afterExt_ir (s : State) (k : Nat) : (s.afterExt k).ir = s.ir := rfl
@[simp] theorem State.afterExt_draws (s : State) (k : Nat) : (s.afterExt k).draws = s.draws := rfl

@[simp] theorem State.sampled_d (s : State) : s.sampled.d = s.d := rfl
@[simp] theorem State.sampled_a (s : State) : s.sampled.a = s.a := rfl
@[simp] theorem State.sampled_usp (s : State) : s.sampled.usp = s.usp := rfl
@[simp] theorem State.sampled_ssp (s : State) : s.sampled.ssp = s.ssp := rfl
@[simp] theorem State.sampled_pc (s : State) : s.sampled.pc = s.pc := rfl
@[simp] theorem State.sampled_sr (s : State) : s.sampled.sr = s.sr := rfl
@[simp] theorem State.sampled_mem (s : State) : s.sampled.mem = s.mem := rfl
@[simp] theorem State.sampled_stopped (s : State) : s.sampled.stopped = s.stopped := rfl
@[simp] theorem State.sampled_halted (s : State) : s.sampled.halted = s.halted := rfl
@[simp] theorem State.sampled_prefetch (s : State) : s.sampled.prefetch = s.prefetch := rfl
@[simp] theorem State.sampled_ipl (s : State) : s.sampled.ipl = s.presented.level := rfl
@[simp] theorem State.sampled_nmi (s : State) :
    s.sampled.nmi = (s.presented.level == 7 && (s.nmi || s.ipl != 7)) := rfl
@[simp] theorem State.sampled_tracePending (s : State) : s.sampled.tracePending = s.tracePending := rfl
@[simp] theorem State.sampled_busMap (s : State) : s.sampled.busMap = s.busMap := rfl
@[simp] theorem State.sampled_inputs (s : State) : s.sampled.inputs = s.inputs.tail := rfl
@[simp] theorem State.sampled_ir (s : State) : s.sampled.ir = s.ir := rfl
@[simp] theorem State.sampled_draws (s : State) : s.sampled.draws = s.draws := rfl

@[simp] theorem State.drawn_d (s t : State) : (s.drawn t).d = t.d := rfl
@[simp] theorem State.drawn_a (s t : State) : (s.drawn t).a = t.a := rfl
@[simp] theorem State.drawn_usp (s t : State) : (s.drawn t).usp = t.usp := rfl
@[simp] theorem State.drawn_ssp (s t : State) : (s.drawn t).ssp = t.ssp := rfl
@[simp] theorem State.drawn_pc (s t : State) : (s.drawn t).pc = t.pc := rfl
@[simp] theorem State.drawn_sr (s t : State) : (s.drawn t).sr = t.sr := rfl
@[simp] theorem State.drawn_mem (s t : State) : (s.drawn t).mem = t.mem := rfl
@[simp] theorem State.drawn_stopped (s t : State) : (s.drawn t).stopped = t.stopped := rfl
@[simp] theorem State.drawn_halted (s t : State) : (s.drawn t).halted = t.halted := rfl
@[simp] theorem State.drawn_prefetch (s t : State) : (s.drawn t).prefetch = t.prefetch := rfl
@[simp] theorem State.drawn_ipl (s t : State) : (s.drawn t).ipl = t.ipl := rfl
@[simp] theorem State.drawn_nmi (s t : State) : (s.drawn t).nmi = t.nmi := rfl
@[simp] theorem State.drawn_tracePending (s t : State) : (s.drawn t).tracePending = t.tracePending := rfl
@[simp] theorem State.drawn_busMap (s t : State) : (s.drawn t).busMap = t.busMap := rfl
@[simp] theorem State.drawn_inputs (s t : State) : (s.drawn t).inputs = t.inputs := rfl
@[simp] theorem State.drawn_ir (s t : State) : (s.drawn t).ir = t.ir := rfl
@[simp] theorem State.drawn_draws (s t : State) : (s.drawn t).draws = s.draws + 1 := rfl

@[simp] theorem State.launch_d (d : DataRegs) (a : AddrRegs) (usp ssp : Long) (image : List (Nat × List Byte)) :
    (State.launch d a usp ssp image).d = d := rfl
@[simp] theorem State.launch_a (d : DataRegs) (a : AddrRegs) (usp ssp : Long) (image : List (Nat × List Byte)) :
    (State.launch d a usp ssp image).a = a := rfl
@[simp] theorem State.launch_usp (d : DataRegs) (a : AddrRegs) (usp ssp : Long) (image : List (Nat × List Byte)) :
    (State.launch d a usp ssp image).usp = usp := rfl
@[simp] theorem State.launch_ssp (d : DataRegs) (a : AddrRegs) (usp ssp : Long) (image : List (Nat × List Byte)) :
    (State.launch d a usp ssp image).ssp = ssp := rfl
@[simp] theorem State.launch_pc (d : DataRegs) (a : AddrRegs) (usp ssp : Long) (image : List (Nat × List Byte)) :
    (State.launch d a usp ssp image).pc = 0x400 := rfl
@[simp] theorem State.launch_sr (d : DataRegs) (a : AddrRegs) (usp ssp : Long) (image : List (Nat × List Byte)) :
    (State.launch d a usp ssp image).sr = StatusReg.ofWord 0x2700 := rfl
@[simp] theorem State.launch_mem (d : DataRegs) (a : AddrRegs) (usp ssp : Long) (image : List (Nat × List Byte)) :
    (State.launch d a usp ssp image).mem = Memory.load image := rfl
@[simp] theorem State.launch_stopped (d : DataRegs) (a : AddrRegs) (usp ssp : Long) (image : List (Nat × List Byte)) :
    (State.launch d a usp ssp image).stopped = false := rfl
@[simp] theorem State.launch_halted (d : DataRegs) (a : AddrRegs) (usp ssp : Long) (image : List (Nat × List Byte)) :
    (State.launch d a usp ssp image).halted = false := rfl
@[simp] theorem State.launch_prefetch (d : DataRegs) (a : AddrRegs) (usp ssp : Long) (image : List (Nat × List Byte)) :
    (State.launch d a usp ssp image).prefetch = [] := rfl
@[simp] theorem State.launch_ipl (d : DataRegs) (a : AddrRegs) (usp ssp : Long) (image : List (Nat × List Byte)) :
    (State.launch d a usp ssp image).ipl = 0 := rfl
@[simp] theorem State.launch_nmi (d : DataRegs) (a : AddrRegs) (usp ssp : Long) (image : List (Nat × List Byte)) :
    (State.launch d a usp ssp image).nmi = false := rfl
@[simp] theorem State.launch_tracePending (d : DataRegs) (a : AddrRegs) (usp ssp : Long) (image : List (Nat × List Byte)) :
    (State.launch d a usp ssp image).tracePending = false := rfl
@[simp] theorem State.launch_busMap (d : DataRegs) (a : AddrRegs) (usp ssp : Long) (image : List (Nat × List Byte)) :
    (State.launch d a usp ssp image).busMap = State.reset.busMap := rfl
@[simp] theorem State.launch_inputs (d : DataRegs) (a : AddrRegs) (usp ssp : Long) (image : List (Nat × List Byte)) :
    (State.launch d a usp ssp image).inputs = [] := rfl
@[simp] theorem State.launch_ir (d : DataRegs) (a : AddrRegs) (usp ssp : Long) (image : List (Nat × List Byte)) :
    (State.launch d a usp ssp image).ir = 0 := rfl
@[simp] theorem State.launch_draws (d : DataRegs) (a : AddrRegs) (usp ssp : Long) (image : List (Nat × List Byte)) :
    (State.launch d a usp ssp image).draws = 0 := rfl

@[simp] theorem State.setSp_d (s : State) (v : Long) : (s.setSp v).d = s.d := by
  unfold State.setSp; split <;> rfl
@[simp] theorem State.setSp_a (s : State) (v : Long) : (s.setSp v).a = s.a := by
  unfold State.setSp; split <;> rfl
@[simp] theorem State.setSp_pc (s : State) (v : Long) : (s.setSp v).pc = s.pc := by
  unfold State.setSp; split <;> rfl
@[simp] theorem State.setSp_sr (s : State) (v : Long) : (s.setSp v).sr = s.sr := by
  unfold State.setSp; split <;> rfl
@[simp] theorem State.setSp_mem (s : State) (v : Long) : (s.setSp v).mem = s.mem := by
  unfold State.setSp; split <;> rfl
@[simp] theorem State.setSp_stopped (s : State) (v : Long) : (s.setSp v).stopped = s.stopped := by
  unfold State.setSp; split <;> rfl
@[simp] theorem State.setSp_halted (s : State) (v : Long) : (s.setSp v).halted = s.halted := by
  unfold State.setSp; split <;> rfl
@[simp] theorem State.setSp_prefetch (s : State) (v : Long) : (s.setSp v).prefetch = s.prefetch := by
  unfold State.setSp; split <;> rfl
@[simp] theorem State.setSp_ipl (s : State) (v : Long) : (s.setSp v).ipl = s.ipl := by
  unfold State.setSp; split <;> rfl
@[simp] theorem State.setSp_nmi (s : State) (v : Long) : (s.setSp v).nmi = s.nmi := by
  unfold State.setSp; split <;> rfl
@[simp] theorem State.setSp_tracePending (s : State) (v : Long) : (s.setSp v).tracePending = s.tracePending := by
  unfold State.setSp; split <;> rfl
@[simp] theorem State.setSp_busMap (s : State) (v : Long) : (s.setSp v).busMap = s.busMap := by
  unfold State.setSp; split <;> rfl
@[simp] theorem State.setSp_inputs (s : State) (v : Long) : (s.setSp v).inputs = s.inputs := by
  unfold State.setSp; split <;> rfl
@[simp] theorem State.setSp_ir (s : State) (v : Long) : (s.setSp v).ir = s.ir := by
  unfold State.setSp; split <;> rfl
@[simp] theorem State.setSp_draws (s : State) (v : Long) : (s.setSp v).draws = s.draws := by
  unfold State.setSp; split <;> rfl

@[simp] theorem State.writeA_d (s : State) (r : RegNum) (v : Long) : (s.writeA r v).d = s.d := by
  cases r <;> simp [State.writeA]
@[simp] theorem State.writeA_pc (s : State) (r : RegNum) (v : Long) : (s.writeA r v).pc = s.pc := by
  cases r <;> simp [State.writeA]
@[simp] theorem State.writeA_sr (s : State) (r : RegNum) (v : Long) : (s.writeA r v).sr = s.sr := by
  cases r <;> simp [State.writeA]
@[simp] theorem State.writeA_mem (s : State) (r : RegNum) (v : Long) : (s.writeA r v).mem = s.mem := by
  cases r <;> simp [State.writeA]
@[simp] theorem State.writeA_stopped (s : State) (r : RegNum) (v : Long) : (s.writeA r v).stopped = s.stopped := by
  cases r <;> simp [State.writeA]
@[simp] theorem State.writeA_halted (s : State) (r : RegNum) (v : Long) : (s.writeA r v).halted = s.halted := by
  cases r <;> simp [State.writeA]
@[simp] theorem State.writeA_prefetch (s : State) (r : RegNum) (v : Long) : (s.writeA r v).prefetch = s.prefetch := by
  cases r <;> simp [State.writeA]
@[simp] theorem State.writeA_ipl (s : State) (r : RegNum) (v : Long) : (s.writeA r v).ipl = s.ipl := by
  cases r <;> simp [State.writeA]
@[simp] theorem State.writeA_nmi (s : State) (r : RegNum) (v : Long) : (s.writeA r v).nmi = s.nmi := by
  cases r <;> simp [State.writeA]
@[simp] theorem State.writeA_tracePending (s : State) (r : RegNum) (v : Long) : (s.writeA r v).tracePending = s.tracePending := by
  cases r <;> simp [State.writeA]
@[simp] theorem State.writeA_busMap (s : State) (r : RegNum) (v : Long) : (s.writeA r v).busMap = s.busMap := by
  cases r <;> simp [State.writeA]
@[simp] theorem State.writeA_inputs (s : State) (r : RegNum) (v : Long) : (s.writeA r v).inputs = s.inputs := by
  cases r <;> simp [State.writeA]
@[simp] theorem State.writeA_ir (s : State) (r : RegNum) (v : Long) : (s.writeA r v).ir = s.ir := by
  cases r <;> simp [State.writeA]
@[simp] theorem State.writeA_draws (s : State) (r : RegNum) (v : Long) : (s.writeA r v).draws = s.draws := by
  cases r <;> simp [State.writeA]

@[simp] theorem State.eaStep_d (s : State) (sz : Size) (ea : EA) : (s.eaStep sz ea).d = s.d := by
  cases ea <;> simp [State.eaStep]
@[simp] theorem State.eaStep_pc (s : State) (sz : Size) (ea : EA) : (s.eaStep sz ea).pc = s.pc := by
  cases ea <;> simp [State.eaStep]
@[simp] theorem State.eaStep_sr (s : State) (sz : Size) (ea : EA) : (s.eaStep sz ea).sr = s.sr := by
  cases ea <;> simp [State.eaStep]
@[simp] theorem State.eaStep_mem (s : State) (sz : Size) (ea : EA) : (s.eaStep sz ea).mem = s.mem := by
  cases ea <;> simp [State.eaStep]
@[simp] theorem State.eaStep_stopped (s : State) (sz : Size) (ea : EA) : (s.eaStep sz ea).stopped = s.stopped := by
  cases ea <;> simp [State.eaStep]
@[simp] theorem State.eaStep_halted (s : State) (sz : Size) (ea : EA) : (s.eaStep sz ea).halted = s.halted := by
  cases ea <;> simp [State.eaStep]
@[simp] theorem State.eaStep_prefetch (s : State) (sz : Size) (ea : EA) : (s.eaStep sz ea).prefetch = s.prefetch := by
  cases ea <;> simp [State.eaStep]
@[simp] theorem State.eaStep_ipl (s : State) (sz : Size) (ea : EA) : (s.eaStep sz ea).ipl = s.ipl := by
  cases ea <;> simp [State.eaStep]
@[simp] theorem State.eaStep_nmi (s : State) (sz : Size) (ea : EA) : (s.eaStep sz ea).nmi = s.nmi := by
  cases ea <;> simp [State.eaStep]
@[simp] theorem State.eaStep_tracePending (s : State) (sz : Size) (ea : EA) : (s.eaStep sz ea).tracePending = s.tracePending := by
  cases ea <;> simp [State.eaStep]
@[simp] theorem State.eaStep_busMap (s : State) (sz : Size) (ea : EA) : (s.eaStep sz ea).busMap = s.busMap := by
  cases ea <;> simp [State.eaStep]
@[simp] theorem State.eaStep_inputs (s : State) (sz : Size) (ea : EA) : (s.eaStep sz ea).inputs = s.inputs := by
  cases ea <;> simp [State.eaStep]
@[simp] theorem State.eaStep_ir (s : State) (sz : Size) (ea : EA) : (s.eaStep sz ea).ir = s.ir := by
  cases ea <;> simp [State.eaStep]
@[simp] theorem State.eaStep_draws (s : State) (sz : Size) (ea : EA) : (s.eaStep sz ea).draws = s.draws := by
  cases ea <;> simp [State.eaStep]

@[simp] theorem State.afterEa_d (s : State) (sz : Size) (ea : EA) :
    (s.afterEa sz ea).d = s.d := by
  simp [State.afterEa]
@[simp] theorem State.afterEa_pc (s : State) (sz : Size) (ea : EA) :
    (s.afterEa sz ea).pc = s.pc + BitVec.ofNat 32 (2 * eaExt sz ea) := by
  simp [State.afterEa]
@[simp] theorem State.afterEa_sr (s : State) (sz : Size) (ea : EA) :
    (s.afterEa sz ea).sr = s.sr := by
  simp [State.afterEa]
@[simp] theorem State.afterEa_mem (s : State) (sz : Size) (ea : EA) :
    (s.afterEa sz ea).mem = s.mem := by
  simp [State.afterEa]
@[simp] theorem State.afterEa_stopped (s : State) (sz : Size) (ea : EA) :
    (s.afterEa sz ea).stopped = s.stopped := by
  simp [State.afterEa]
@[simp] theorem State.afterEa_halted (s : State) (sz : Size) (ea : EA) :
    (s.afterEa sz ea).halted = s.halted := by
  simp [State.afterEa]
@[simp] theorem State.afterEa_prefetch (s : State) (sz : Size) (ea : EA) :
    (s.afterEa sz ea).prefetch = s.prefetch := by
  simp [State.afterEa]
@[simp] theorem State.afterEa_ipl (s : State) (sz : Size) (ea : EA) :
    (s.afterEa sz ea).ipl = s.ipl := by
  simp [State.afterEa]
@[simp] theorem State.afterEa_nmi (s : State) (sz : Size) (ea : EA) :
    (s.afterEa sz ea).nmi = s.nmi := by
  simp [State.afterEa]
@[simp] theorem State.afterEa_tracePending (s : State) (sz : Size) (ea : EA) :
    (s.afterEa sz ea).tracePending = s.tracePending := by
  simp [State.afterEa]
@[simp] theorem State.afterEa_busMap (s : State) (sz : Size) (ea : EA) :
    (s.afterEa sz ea).busMap = s.busMap := by
  simp [State.afterEa]
@[simp] theorem State.afterEa_inputs (s : State) (sz : Size) (ea : EA) :
    (s.afterEa sz ea).inputs = s.inputs := by
  simp [State.afterEa]
@[simp] theorem State.afterEa_ir (s : State) (sz : Size) (ea : EA) :
    (s.afterEa sz ea).ir = s.ir := by
  simp [State.afterEa]
@[simp] theorem State.afterEa_draws (s : State) (sz : Size) (ea : EA) :
    (s.afterEa sz ea).draws = s.draws := by
  simp [State.afterEa]

@[simp] theorem mapNext_next (f : State → State) (t : State) : mapNext f (.next t) = .next (f t) := rfl
@[simp] theorem mapNext_fault (f : State → State) (x : Fault) : mapNext f (.fault x) = .fault x := rfl
@[simp] theorem mapNext_refused (f : State → State) (r : Refusal) : mapNext f (.refused r) = .refused r := rfl

theorem mapNext_eq_next {f : State → State} {r : Result} {t : State} (h : mapNext f r = .next t) :
    ∃ u, r = .next u ∧ t = f u := by
  cases r <;> cases h
  exact ⟨_, rfl, rfl⟩

theorem State.setSp_ssp (s : State) (v : Long) : (s.setSp v).ssp = if s.sr.s then v else s.ssp := by
  unfold State.setSp; split <;> simp [*]

theorem State.setSp_usp (s : State) (v : Long) : (s.setSp v).usp = if s.sr.s then s.usp else v := by
  unfold State.setSp; split <;> simp [*]

@[simp] theorem DataRegs.get_set_same (f : DataRegs) (r : RegNum) (v : Long) : (f.set r v).get r = v := by
  cases r <;> rfl

theorem DataRegs.get_set_other (f : DataRegs) (r q : RegNum) (v : Long) (h : q ≠ r) :
    (f.set r v).get q = f.get q := by
  cases r <;> cases q <;> first | exact absurd rfl h | rfl

@[simp] theorem State.readD_writeD_same (s : State) (r : RegNum) (v : Long) : (s.writeD r v).readD r = v := by
  simp [State.readD]

@[simp] theorem State.readA_writeA_same (s : State) (r : RegNum) (v : Long) : (s.writeA r v).readA r = v := by
  cases r <;> simp [State.writeA, State.readA]
  unfold State.sp State.setSp; split <;> simp [*]

theorem State.readA_writeA_other (s : State) (r q : RegNum) (v : Long) (h : q ≠ r) :
    (s.writeA r v).readA q = s.readA q := by
  cases r <;> cases q <;> first
    | exact absurd rfl h
    | rfl
    | (simp only [State.writeA, State.readA, State.setSp]; split <;> rfl)

@[simp] theorem State.readD_writeA (s : State) (r q : RegNum) (v : Long) : (s.writeA r v).readD q = s.readD q := by
  simp [State.readD]

@[simp] theorem State.readA_writeD (s : State) (r q : RegNum) (v : Long) : (s.writeD r v).readA q = s.readA q := by
  cases q <;> rfl

@[simp] theorem State.readD_eaStep (s : State) (sz : Size) (ea : EA) (r : RegNum) :
    (s.eaStep sz ea).readD r = s.readD r := by
  simp [State.readD]

end Sys2Proof.Machine
end

