-- ==== Sys2Proof/Laws/Memory.lean ====
section
/-! SUPPORT. Memory: reading after writing, and the canonical form that every write keeps. -/

namespace Sys2Proof.Machine

@[simp] theorem Memory.read_nil (a : Nat) : Memory.read [] a = unlistedByte := rfl

theorem Memory.read_cons (k : Nat) (v : Byte) (m : Memory) (a : Nat) :
    Memory.read ((k, v) :: m) a = if k = a then v else m.read a := rfl

theorem Memory.wfFrom_cons {lo k : Nat} {v : Byte} {m : Memory} :
    Memory.wfFrom lo ((k, v) :: m) = true ↔
      lo ≤ k ∧ k < 2 ^ Config.addrBits ∧ v ≠ unlistedByte ∧ Memory.wfFrom (k + 1) m = true := by
  simp [Memory.wfFrom, and_assoc]

theorem Memory.wfFrom_mono {m : Memory} {lo hi : Nat} (h : Memory.wfFrom hi m = true) (hl : lo ≤ hi) :
    Memory.wfFrom lo m = true := by
  cases m with
  | nil => rfl
  | cons e m =>
    obtain ⟨k, v⟩ := e
    rw [Memory.wfFrom_cons] at h ⊢
    exact ⟨by omega, h.2⟩

/-- Below its least address a canonical memory lists nothing. -/
theorem Memory.read_below {m : Memory} {lo a : Nat} (h : Memory.wfFrom lo m = true) (ha : a < lo) :
    m.read a = unlistedByte := by
  induction m generalizing lo with
  | nil => rfl
  | cons e m ih =>
    obtain ⟨k, v⟩ := e
    rw [Memory.wfFrom_cons] at h
    rw [Memory.read_cons, if_neg (by omega)]
    exact ih h.2.2.2 (by omega)

/-- A write leaves every other address alone. -/
theorem Memory.read_write_other (m : Memory) (a c : Nat) (b : Byte) (h : c ≠ a) :
    (m.write a b).read c = m.read c := by
  induction m with
  | nil =>
    simp only [Memory.write]
    split
    · rfl
    · rw [Memory.read_cons, if_neg (Ne.symm h)]
  | cons e m ih =>
    obtain ⟨k, v⟩ := e
    simp only [Memory.write]
    split
    · split
      · rfl
      · rw [Memory.read_cons, if_neg (Ne.symm h)]
    · split
      · rename_i hk
        subst hk
        split
        · rw [Memory.read_cons, if_neg (Ne.symm h)]
        · rw [Memory.read_cons, Memory.read_cons, if_neg (Ne.symm h)]
          simp [Ne.symm h]
      · rw [Memory.read_cons, Memory.read_cons, ih]

/-- A write keeps the canonical form. -/
theorem Memory.wfFrom_write {m : Memory} {lo a : Nat} (b : Byte) (h : Memory.wfFrom lo m = true) (hlo : lo ≤ a)
    (ha : a < 2 ^ Config.addrBits) : Memory.wfFrom lo (m.write a b) = true := by
  induction m generalizing lo with
  | nil =>
    simp only [Memory.write]
    split
    · rfl
    · rw [Memory.wfFrom_cons]
      exact ⟨hlo, ha, by assumption, rfl⟩
  | cons e m ih =>
    obtain ⟨k, v⟩ := e
    have h' := h
    rw [Memory.wfFrom_cons] at h
    simp only [Memory.write]
    split
    · split
      · exact h'
      · rw [Memory.wfFrom_cons, Memory.wfFrom_cons]
        exact ⟨hlo, ha, by assumption, by omega, h.2⟩
    · split
      · rename_i hk
        subst hk
        split
        · exact Memory.wfFrom_mono h.2.2.2 (by omega)
        · rw [Memory.wfFrom_cons]
          exact ⟨hlo, ha, by assumption, h.2.2.2⟩
      · rw [Memory.wfFrom_cons]
        exact ⟨h.1, h.2.1, h.2.2.1, ih h.2.2.2 (by omega)⟩

theorem Memory.wf_write {m : Memory} {a : Nat} (b : Byte) (h : m.wf = true) (ha : a < 2 ^ Config.addrBits) :
    (m.write a b).wf = true :=
  Memory.wfFrom_write b h (Nat.zero_le a) ha

/-- In a canonical memory a read after a write gives the value written. -/
theorem Memory.read_write_same_from {m : Memory} {lo : Nat} (a : Nat) (b : Byte) (h : Memory.wfFrom lo m = true) :
    (m.write a b).read a = b := by
  induction m generalizing lo with
  | nil =>
    simp only [Memory.write]
    split
    · rename_i hb
      exact hb.symm
    · rw [Memory.read_cons, if_pos rfl]
  | cons e m ih =>
    obtain ⟨k, v⟩ := e
    rw [Memory.wfFrom_cons] at h
    simp only [Memory.write]
    split
    · split
      · rename_i hk hb
        rw [Memory.read_cons, if_neg (by omega), Memory.read_below h.2.2.2 (by omega)]
        exact hb.symm
      · rw [Memory.read_cons, if_pos rfl]
    · split
      · rename_i hk
        subst hk
        split
        · rename_i hb
          rw [Memory.read_below h.2.2.2 (by omega)]
          exact hb.symm
        · rw [Memory.read_cons, if_pos rfl]
      · rename_i hk
        rw [Memory.read_cons, if_neg (fun e => hk e.symm)]
        exact ih h.2.2.2

theorem Memory.read_write_same {m : Memory} (a : Nat) (b : Byte) (h : m.wf = true) : (m.write a b).read a = b :=
  Memory.read_write_same_from a b h

theorem Memory.read_write {m : Memory} (a c : Nat) (b : Byte) (h : m.wf = true) :
    (m.write a b).read c = if c = a then b else m.read c := by
  split
  · rename_i hc
    rw [hc]
    exact Memory.read_write_same a b h
  · rename_i hc
    exact Memory.read_write_other m a c b hc

/-! ### Words and long words -/

theorem place_of_lt {k : Nat} (h : k < 2 ^ Config.addrBits) : place k = k := if_pos h

/-- A store changes the bytes of its places alone. -/
theorem Memory.read_writeBE_other (m : Memory) (a nb c : Nat) (v : Long) (h : ∀ j < nb, place (a + j) ≠ c) :
    (m.writeBE a nb v).read c = m.read c := by
  induction nb generalizing v with
  | zero => rfl
  | succ k ih =>
    rw [Memory.writeBE, Memory.read_write_other _ _ _ _ (fun e => h k (by omega) e.symm)]
    exact ih _ fun j hj => h j (by omega)

theorem Memory.wf_writeBE {m : Memory} (a nb : Nat) (v : Long) (h : m.wf = true)
    (hp : ∀ j < nb, place (a + j) < 2 ^ Config.addrBits) : (m.writeBE a nb v).wf = true := by
  induction nb generalizing v with
  | zero => exact h
  | succ k ih => exact Memory.wf_write _ (ih _ fun j hj => hp j (by omega)) (hp k (by omega))

theorem Memory.readBE_congr {m m' : Memory} {a nb : Nat} (h : ∀ j < nb, m.read (place (a + j)) = m'.read (place (a + j))) :
    m.readBE a nb = m'.readBE a nb := by
  induction nb with
  | zero => rfl
  | succ k ih => rw [Memory.readBE, Memory.readBE, ih fun j hj => h j (by omega), h k (by omega)]

theorem getLsbD_ofNat_mask (m i : Nat) :
    (BitVec.ofNat 32 (2 ^ m - 1)).getLsbD i = (decide (i < 32) && decide (i < m)) := by
  rw [BitVec.getLsbD_ofNat, Nat.testBit_two_pow_sub_one]

/-- The low bytes of a long word, put together from its high part and its last byte. -/
theorem shift_or_byte (v : Long) (k : Nat) :
    ((v >>> 8 &&& BitVec.ofNat 32 (2 ^ (8 * k) - 1)) <<< 8) ||| (v.setWidth 8).setWidth 32 =
      v &&& BitVec.ofNat 32 (2 ^ (8 * (k + 1)) - 1) := by
  apply BitVec.eq_of_getLsbD_eq
  intro i hi
  simp only [BitVec.getLsbD_or, BitVec.getLsbD_and, BitVec.getLsbD_shiftLeft, BitVec.getLsbD_ushiftRight,
    BitVec.getLsbD_setWidth, getLsbD_ofNat_mask]
  by_cases h8 : i < 8
  · simp [h8, hi, show i < 8 * (k + 1) by omega]
  · rw [show 8 + (i - 8) = i by omega]
    by_cases hk : i - 8 < 8 * k
    · simp [h8, hi, hk, show i < 8 * (k + 1) by omega, show i - 8 < 32 by omega]
    · simp [h8, hk, show ¬ i < 8 * (k + 1) by omega]

/-- A read of what was stored, where the operand does not reach beyond the top of the address space. -/
theorem Memory.readBE_writeBE {m : Memory} (a nb : Nat) (v : Long) (h : m.wf = true) (hn : nb ≤ 4)
    (ha : a + nb ≤ 2 ^ Config.addrBits) :
    (m.writeBE a nb v).readBE a nb = v &&& BitVec.ofNat 32 (2 ^ (8 * nb) - 1) := by
  have hp : ∀ j < nb, place (a + j) = a + j := fun j hj => place_of_lt (by omega)
  induction nb generalizing v with
  | zero => simp [Memory.readBE]
  | succ k ih =>
    have hpk := hp k (by omega)
    have hw : (m.writeBE a k (v >>> 8)).wf = true :=
      Memory.wf_writeBE _ _ _ h fun j hj => by rw [hp j (by omega)]; omega
    have hr : ((m.writeBE a k (v >>> 8)).write (place (a + k)) (v.setWidth 8)).readBE a k =
        (m.writeBE a k (v >>> 8)).readBE a k :=
      Memory.readBE_congr fun j hj => Memory.read_write_other _ _ _ _ (by rw [hp j (by omega), hpk]; omega)
    rw [Memory.readBE, Memory.writeBE, hr, ih (v >>> 8) (by omega) (by omega) fun j hj => hp j (by omega),
      Memory.read_write_same _ _ hw]
    exact shift_or_byte v k

/-! ### Bytes placed in memory -/

theorem Memory.wf_writeBytes {m : Memory} {a : Nat} {bs : List Byte} (h : m.wf = true)
    (ha : a + bs.length ≤ 2 ^ Config.addrBits) : (m.writeBytes a bs).wf = true := by
  induction bs generalizing m a with
  | nil => exact h
  | cons b bs ih =>
    simp only [List.length_cons] at ha
    exact ih (Memory.wf_write b h (by omega)) (by omega)

/-- A list of bytes stored leaves every other byte. -/
theorem Memory.read_writeBytes_other {m : Memory} {a c : Nat} {bs : List Byte} (h : c < a ∨ a + bs.length ≤ c) :
    (m.writeBytes a bs).read c = m.read c := by
  induction bs generalizing m a with
  | nil => rfl
  | cons b bs ih =>
    simp only [List.length_cons] at h
    rw [Memory.writeBytes, ih (by omega), Memory.read_write_other _ _ _ _ (by omega)]

theorem Memory.wf_load {image : List (Nat × List Byte)}
    (h : ∀ p ∈ image, p.1 + p.2.length ≤ 2 ^ Config.addrBits) : (Memory.load image).wf = true := by
  have : ∀ m : Memory, m.wf = true → (image.foldl (fun m p => m.writeBytes p.1 p.2) m).wf = true := by
    induction image with
    | nil => exact fun m hm => hm
    | cons p ps ih =>
      exact fun m hm => ih (fun q hq => h q (List.mem_cons_of_mem p hq)) _
        (Memory.wf_writeBytes hm (h p (List.mem_cons_self ..)))
  exact this [] rfl

end Sys2Proof.Machine
end

