-- ==== Sys2Proof/Laws/Access.lean ====
section
/-! SUPPORT. What each shared operation can do: the access checks, the operands, the instruction shapes. -/

namespace Sys2Proof.Machine

@[simp] theorem Eff.bind_done {α β : Type} (v : α) (s : State) (f : α → State → Eff β) :
    (Eff.done v s).bind f = f v s := rfl

@[simp] theorem Eff.bind_abort {α β : Type} (x : FailedAccess) (s : State) (f : α → State → Eff β) :
    (Eff.abort x s).bind f = .abort x s := rfl

@[simp] theorem Eff.bind_refuse {α β : Type} (r : Refusal) (f : α → State → Eff β) :
    (Eff.refuse r).bind f = .refuse r := rfl

theorem Eff.bind_eq_done {α β : Type} {e : Eff α} {f : α → State → Eff β} {v : β} {s : State}
    (h : e.bind f = .done v s) : ∃ w t, e = .done w t ∧ f w t = .done v s := by
  cases e with
  | done w t => exact ⟨w, t, rfl, h⟩
  | abort x t => cases h
  | refuse r => cases h

@[simp] theorem finishWith_done {α : Type} (s0 : State) (v : α) (t : State) (k : α → State → Result) :
    finishWith s0 (.done v t) k = k v t := rfl

@[simp] theorem finishWith_abort {α : Type} (s0 : State) (x : FailedAccess) (t : State) (k : α → State → Result) :
    finishWith s0 (.abort x t) k = enterGroup0 x s0.pc s0.ir false t := rfl

@[simp] theorem finish_done (s0 : State) (t : State) : finish s0 (.done () t) = .next (s0.retire t) := rfl

@[simp] theorem finish_abort (s0 : State) (x : FailedAccess) (t : State) :
    finish s0 (.abort x t) = enterGroup0 x s0.pc s0.ir false t := rfl

/-! ### Accesses -/

/-- What responds at an address, and whether it is plain memory, depends on the memory map alone. -/
theorem State.respondsAt_congr {s t : State} (h : t.busMap = s.busMap) (dir : Direction) (k : Nat) :
    t.respondsAt dir k = s.respondsAt dir k := by
  simp only [State.respondsAt, State.regionAt, h]

theorem State.responds_congr {s t : State} (h : t.busMap = s.busMap) (dir : Direction) (a nb : Nat) :
    t.responds dir a nb = s.responds dir a nb := by
  simp only [State.responds, State.respondsAt_congr h]

theorem State.plainAt_congr {s t : State} (h : t.busMap = s.busMap) (k : Nat) : t.plainAt k = s.plainAt k := by
  simp only [State.plainAt, State.regionAt, h]

theorem State.plain_congr {s t : State} (h : t.busMap = s.busMap) (a nb : Nat) : t.plain a nb = s.plain a nb := by
  simp only [State.plain, State.plainAt_congr h]

/-- What a read gives depends on the memory map, memory and the counter of the free values alone. -/
theorem State.busRead_congr {s t : State} (hb : t.busMap = s.busMap) (hm : t.mem = s.mem) (hd : t.draws = s.draws)
    (use : Config.ReadUse) (a nb : Nat) : t.busRead use a nb = s.busRead use a nb := by
  induction nb with
  | zero => rfl
  | succ k ih => simp only [State.busRead, ih, State.busByte, State.plainAt_congr hb, hm, hd]

/-- Plain memory gives what it holds (R51). -/
theorem State.busRead_plain {s : State} {a nb : Nat} (h : s.plain a nb = true) (use : Config.ReadUse) :
    s.busRead use a nb = s.mem.readBE a nb := by
  induction nb with
  | zero => rfl
  | succ k ih =>
    simp only [State.plain, List.all_eq_true, List.mem_range] at h ih
    rw [State.busRead, Memory.readBE, ih fun j hj => h j (by omega), State.busByte, if_pos (h k (by omega))]

theorem State.accessible_congr {s t : State} (h : t.busMap = s.busMap) (dir : Direction) (addr : Long) (nb : Nat) :
    t.accessible dir addr nb = s.accessible dir addr nb := by
  simp only [State.accessible, State.responds_congr h]

theorem State.readable_congr {s t : State} (h : t.busMap = s.busMap) (sz : Size) (l : Loc) :
    t.readable sz l = s.readable sz l := by
  cases l <;> simp [State.readable, State.accessible_congr h]

theorem State.writable_congr {s t : State} (h : t.busMap = s.busMap) (sz : Size) (l : Loc) :
    t.writable sz l = s.writable sz l := by
  cases l <;> simp [State.writable, State.accessible_congr h]

theorem State.access_done {s : State} {space : Space} {dir : Direction} {addr : Long} {nb : Nat}
    (h : s.accessible dir addr nb = true) : s.access space dir addr nb = .done () s := by
  simp only [State.accessible, Bool.and_eq_true, Bool.not_eq_true'] at h
  simp [State.access, h.1, h.2]

/-- An access is made exactly when it is accessible, and changes nothing. -/
theorem State.access_eq_done {s t : State} {space : Space} {dir : Direction} {addr : Long} {nb : Nat} {u : Unit}
    (h : s.access space dir addr nb = .done u t) : s.accessible dir addr nb = true ∧ t = s := by
  unfold State.access at h
  split at h
  · cases h
  · split at h
    · rename_i hm hr
      cases h
      simp [State.accessible, hr, Bool.eq_false_iff.mpr hm]
    · cases h

/-- An access to an odd address is an address error (R54). -/
theorem State.access_misaligned {s : State} {space : Space} {dir : Direction} {addr : Long} {nb : Nat}
    (h : misaligned addr nb = true) : s.access space dir addr nb = .abort ⟨.address, addr, dir, space⟩ s := by
  simp [State.access, h]

/-- An access to an even address some byte of which does not respond is a bus error (R51). -/
theorem State.access_silent {s : State} {space : Space} {dir : Direction} {addr : Long} {nb : Nat}
    (h : misaligned addr nb = false) (hr : s.responds dir (busAddress addr) nb = false) :
    s.access space dir addr nb = .abort ⟨.bus, addr, dir, space⟩ s := by
  simp [State.access, h, hr]

/-- An access that fails leaves the state as it was. -/
theorem State.access_eq_abort {s t : State} {space : Space} {dir : Direction} {addr : Long} {nb : Nat}
    {x : FailedAccess} (h : s.access space dir addr nb = .abort x t) :
    t = s ∧ x.addr = addr ∧ x.dir = dir ∧ x.space = space := by
  unfold State.access at h
  split at h
  · cases h
    exact ⟨rfl, rfl, rfl, rfl⟩
  · split at h
    · cases h
    · cases h
      exact ⟨rfl, rfl, rfl, rfl⟩

/-- No access is refused. -/
theorem State.access_ne_refuse (s : State) (space : Space) (dir : Direction) (addr : Long) (nb : Nat) (r : Refusal) :
    s.access space dir addr nb ≠ .refuse r := by
  unfold State.access
  split
  · nofun
  · split <;> nofun

theorem State.memRead_done {s : State} {use : Config.ReadUse} {space : Space} {addr : Long} {nb : Nat}
    (h : s.accessible .read addr nb = true) :
    s.memRead use space addr nb = .done (s.busRead use (busAddress addr) nb) s := by
  simp [State.memRead, State.access_done h]

theorem State.memRead_eq_done {s t : State} {use : Config.ReadUse} {space : Space} {addr : Long} {nb : Nat} {v : Long}
    (h : s.memRead use space addr nb = .done v t) : t = s ∧ v = s.busRead use (busAddress addr) nb := by
  obtain ⟨_, u, ha, hd⟩ := Eff.bind_eq_done h
  obtain ⟨_, rfl⟩ := State.access_eq_done ha
  cases hd
  exact ⟨rfl, rfl⟩

theorem State.memWrite_done {s : State} {addr : Long} {nb : Nat} {v : Long}
    (h : s.accessible .write addr nb = true) :
    s.memWrite addr nb v = .done () { s with mem := s.mem.writeBE (busAddress addr) nb v } := by
  simp [State.memWrite, State.access_done h]

theorem State.memWrite_eq_done {s t : State} {addr : Long} {nb : Nat} {v : Long} {u : Unit}
    (h : s.memWrite addr nb v = .done u t) :
    s.accessible .write addr nb = true ∧ t = { s with mem := s.mem.writeBE (busAddress addr) nb v } := by
  obtain ⟨_, w, ha, hd⟩ := Eff.bind_eq_done h
  obtain ⟨hacc, rfl⟩ := State.access_eq_done ha
  cases hd
  exact ⟨hacc, rfl⟩

/-- Every byte of an access that responds lies in the address space. -/
theorem State.place_lt_of_responds {s : State} {dir : Direction} {a nb : Nat} (h : s.responds dir a nb = true) :
    ∀ j < nb, place (a + j) < 2 ^ Config.addrBits := by
  intro j hj
  simp only [State.responds, List.all_eq_true, List.mem_range] at h
  by_contra hp
  simpa [State.respondsAt, State.regionAt, hp] using h j hj

theorem State.memWrite_wf {s t : State} {addr : Long} {nb : Nat} {v : Long} {u : Unit} (hw : s.mem.wf = true)
    (h : s.memWrite addr nb v = .done u t) : t.mem.wf = true := by
  obtain ⟨hacc, rfl⟩ := State.memWrite_eq_done h
  simp only [State.accessible, Bool.and_eq_true] at hacc
  exact Memory.wf_writeBE _ _ _ hw (State.place_lt_of_responds hacc.2)

/-- A store changes the bytes of its location alone. -/
theorem sameMemoryBut_put (s : State) (sz : Size) (l : Loc) (v : BitVec sz.bits) : SameMemoryBut sz l s (s.put sz l v) := by
  intro k hk
  cases l with
  | dreg r => simp [State.put]
  | areg r => simp [State.put]
  | imm w => rfl
  | mem a space =>
    simp only [State.put]
    apply Memory.read_writeBE_other
    simpa [storedAt] using hk

/-! ### The instruction stream and operands -/

theorem State.fetchExt_done {s : State} {k : Nat} (h : s.fetchable k = true) :
    s.fetchExt k = .done () (s.afterExt k) := by
  induction k generalizing s with
  | zero => simp [State.fetchExt, State.afterExt]
  | succ k ih =>
    simp only [State.fetchable, Bool.and_eq_true] at h
    simp only [State.fetchExt, State.access_done h.1, Eff.bind_done, ih h.2, State.afterExt, BitVec.add_assoc]
    congr 3
    apply BitVec.eq_of_toNat_eq
    simp
    omega

theorem State.fetchExt_eq_done {s t : State} {k : Nat} {u : Unit} (h : s.fetchExt k = .done u t) :
    s.fetchable k = true ∧ t = s.afterExt k := by
  have hf : s.fetchable k = true := by
    induction k generalizing s with
    | zero => rfl
    | succ k ih =>
      obtain ⟨_, w, ha, hd⟩ := Eff.bind_eq_done h
      obtain ⟨hacc, rfl⟩ := State.access_eq_done ha
      rw [State.fetchable, hacc, Bool.true_and]
      exact ih hd
  rw [State.fetchExt_done hf] at h
  cases h
  exact ⟨hf, rfl⟩

theorem State.fetchable_congr {s t : State} (hb : t.busMap = s.busMap) (hp : t.pc = s.pc) (k : Nat) :
    t.fetchable k = s.fetchable k := by
  induction k generalizing s t with
  | zero => rfl
  | succ k ih =>
    simp only [State.fetchable, hp]
    rw [State.accessible_congr hb, ih (s := { s with pc := s.pc + 2 }) (t := { t with pc := s.pc + 2 }) hb rfl]

theorem State.evalEa_done {s : State} {sz : Size} {ea : EA} (h : s.fetchable (eaExt sz ea) = true) :
    s.evalEa sz ea = .done (s.eaLoc sz ea) (s.afterEa sz ea) := by
  simp [State.evalEa, State.fetchExt_done h, State.afterEa]

theorem State.evalEa_eq_done {s t : State} {sz : Size} {ea : EA} {l : Loc} (h : s.evalEa sz ea = .done l t) :
    s.fetchable (eaExt sz ea) = true ∧ l = s.eaLoc sz ea ∧ t = s.afterEa sz ea := by
  obtain ⟨_, w, ha, hd⟩ := Eff.bind_eq_done h
  obtain ⟨hf, rfl⟩ := State.fetchExt_eq_done ha
  cases hd
  exact ⟨hf, rfl, rfl⟩

theorem State.readLoc_done {s : State} {use : Config.ReadUse} {sz : Size} {l : Loc} (h : s.readable sz l = true) :
    s.readLoc use sz l = .done (s.valueAt use sz l) s := by
  cases l with
  | mem a space => simp [State.readLoc, State.memRead_done h, State.valueAt]
  | dreg r => rfl
  | areg r => rfl
  | imm v => rfl

theorem State.readLoc_eq_done {s t : State} {use : Config.ReadUse} {sz : Size} {l : Loc} {v : BitVec sz.bits}
    (h : s.readLoc use sz l = .done v t) : t = s ∧ v = s.valueAt use sz l := by
  cases l with
  | mem a space =>
    obtain ⟨_, w, ha, hd⟩ := Eff.bind_eq_done h
    obtain ⟨rfl, rfl⟩ := State.memRead_eq_done ha
    cases hd
    exact ⟨rfl, rfl⟩
  | dreg r => cases h; exact ⟨rfl, rfl⟩
  | areg r => cases h; exact ⟨rfl, rfl⟩
  | imm v => cases h; exact ⟨rfl, rfl⟩

theorem State.writeLoc_done {s : State} {sz : Size} {l : Loc} {v : BitVec sz.bits} (h : s.writable sz l = true) :
    s.writeLoc sz l v = .done () (s.put sz l v) := by
  cases l with
  | mem a space => exact State.memWrite_done h
  | dreg r => rfl
  | areg r => rfl
  | imm v => cases h

theorem State.writeLoc_eq_done {s t : State} {sz : Size} {l : Loc} {v : BitVec sz.bits} {u : Unit}
    (h : s.writeLoc sz l v = .done u t) : s.writable sz l = true ∧ t = s.put sz l v := by
  cases l with
  | mem a space =>
    obtain ⟨hacc, rfl⟩ := State.memWrite_eq_done h
    exact ⟨hacc, rfl⟩
  | dreg r => cases h; exact ⟨rfl, rfl⟩
  | areg r => cases h; exact ⟨rfl, rfl⟩
  | imm v => cases h

theorem State.readEa_done {s : State} {sz : Size} {ea : EA} (hf : s.fetchable (eaExt sz ea) = true)
    (hr : s.readable sz (s.eaLoc sz ea) = true) :
    s.readEa sz ea = .done (s.operand sz ea) (s.afterEa sz ea) := by
  have hr' : (s.afterEa sz ea).readable sz (s.eaLoc sz ea) = true := by
    rw [State.readable_congr (State.afterEa_busMap s sz ea)]; exact hr
  simp [State.readEa, State.evalEa_done hf, State.readLoc_done hr', State.operand]

theorem State.readEa_eq_done {s t : State} {sz : Size} {ea : EA} {v : BitVec sz.bits} (h : s.readEa sz ea = .done v t) :
    t = s.afterEa sz ea ∧ v = s.operand sz ea := by
  obtain ⟨l, w, ha, hd⟩ := Eff.bind_eq_done h
  obtain ⟨_, rfl, rfl⟩ := State.evalEa_eq_done ha
  exact State.readLoc_eq_done hd

theorem State.modifyEa_done {s : State} {sz : Size} {ea : EA} {f : Ccr → BitVec sz.bits → BitVec sz.bits × Ccr}
    (hf : s.fetchable (eaExt sz ea) = true) (hr : s.readable sz (s.eaLoc sz ea) = true)
    (hw : s.writable sz (s.eaLoc sz ea) = true) :
    s.modifyEa sz ea f =
      .done () ((s.stored sz ea (f s.sr.ccr (s.target sz ea)).1).setCcr (f s.sr.ccr (s.target sz ea)).2) := by
  have hb := State.afterEa_busMap s sz ea
  have hr' : (s.afterEa sz ea).readable sz (s.eaLoc sz ea) = true := by rw [State.readable_congr hb]; exact hr
  have hw' : (s.afterEa sz ea).writable sz (s.eaLoc sz ea) = true := by rw [State.writable_congr hb]; exact hw
  simp [State.modifyEa, State.evalEa_done hf, State.readLoc_done hr', State.writeLoc_done hw', State.target, State.stored]

theorem State.modifyEa_eq_done {s t : State} {sz : Size} {ea : EA} {f : Ccr → BitVec sz.bits → BitVec sz.bits × Ccr}
    {u : Unit} (h : s.modifyEa sz ea f = .done u t) :
    s.writable sz (s.eaLoc sz ea) = true ∧
      t = (s.stored sz ea (f s.sr.ccr (s.target sz ea)).1).setCcr (f s.sr.ccr (s.target sz ea)).2 := by
  obtain ⟨l, w, ha, hd⟩ := Eff.bind_eq_done h
  obtain ⟨_, rfl, rfl⟩ := State.evalEa_eq_done ha
  obtain ⟨d, w, hb, hd⟩ := Eff.bind_eq_done hd
  obtain ⟨rfl, rfl⟩ := State.readLoc_eq_done hb
  obtain ⟨_, w, hc, hd⟩ := Eff.bind_eq_done hd
  obtain ⟨hwr, rfl⟩ := State.writeLoc_eq_done hc
  cases hd
  rw [State.writable_congr (State.afterEa_busMap s sz ea)] at hwr
  exact ⟨hwr, by simp [State.target, State.stored]⟩

end Sys2Proof.Machine
end

