-- ==== Sys2Proof/Laws/Exceptions.lean ====
section
/-! SUPPORT. What the parts of an instruction and the taking of an exception can do to the state, said once. -/

namespace Sys2Proof.Machine

/-! ### What the parts of an instruction keep -/

/-- A property of the state that a part of an instruction leaves, whether it is done or its access fails. -/
def Eff.Leaves {α : Type} (P : State → Prop) (e : Eff α) : Prop :=
  match e with
  | .done _ t => P t
  | .abort _ t => P t
  | .refuse _ => True

theorem Eff.leaves_bind {α β : Type} {P Q : State → Prop} {e : Eff α} {f : α → State → Eff β} (h : e.Leaves P)
    (hd : ∀ v t, P t → (f v t).Leaves Q) (ha : ∀ t, P t → Q t) : (e.bind f).Leaves Q := by
  cases e with
  | done v t => exact hd v t h
  | abort x t => exact ha t h
  | refuse r => trivial

theorem Eff.leaves_bind_same {α β : Type} {P : State → Prop} {e : Eff α} {f : α → State → Eff β} (h : e.Leaves P)
    (hd : ∀ v t, P t → (f v t).Leaves P) : (e.bind f).Leaves P :=
  Eff.leaves_bind h hd fun _ ht => ht

/-- What no part of an instruction changes: everything but the registers, the stack pointer of the privilege state, the
program counter, the condition codes and memory, whose canonical form is kept. -/
structure PartOf (s t : State) : Prop where
  busMap : t.busMap = s.busMap
  inputs : t.inputs = s.inputs
  ipl : t.ipl = s.ipl
  nmi : t.nmi = s.nmi
  prefetch : t.prefetch = s.prefetch
  draws : t.draws = s.draws
  ir : t.ir = s.ir
  stopped : t.stopped = s.stopped
  halted : t.halted = s.halted
  tracePending : t.tracePending = s.tracePending
  srT : t.sr.t = s.sr.t
  srS : t.sr.s = s.sr.s
  srI : t.sr.i = s.sr.i
  usp : s.sr.s = true → t.usp = s.usp
  ssp : s.sr.s = false → t.ssp = s.ssp
  wf : s.mem.wf = true → t.mem.wf = true

theorem PartOf.refl (s : State) : PartOf s s := by
  constructor <;> simp

theorem PartOf.trans {s t u : State} (h : PartOf s t) (k : PartOf t u) : PartOf s u where
  busMap := k.busMap.trans h.busMap
  inputs := k.inputs.trans h.inputs
  ipl := k.ipl.trans h.ipl
  nmi := k.nmi.trans h.nmi
  prefetch := k.prefetch.trans h.prefetch
  draws := k.draws.trans h.draws
  ir := k.ir.trans h.ir
  stopped := k.stopped.trans h.stopped
  halted := k.halted.trans h.halted
  tracePending := k.tracePending.trans h.tracePending
  srT := k.srT.trans h.srT
  srS := k.srS.trans h.srS
  srI := k.srI.trans h.srI
  usp := fun e => (k.usp (h.srS.trans e)).trans (h.usp e)
  ssp := fun e => (k.ssp (h.srS.trans e)).trans (h.ssp e)
  wf := fun e => k.wf (h.wf e)

theorem PartOf.setCcr (s : State) (f : Ccr) : PartOf s (s.setCcr f) := by
  constructor <;> simp

theorem PartOf.writeD (s : State) (r : RegNum) (v : Long) : PartOf s (s.writeD r v) := by
  constructor <;> simp

theorem PartOf.writeLowD (s : State) (sz : Size) (r : RegNum) (v : BitVec sz.bits) : PartOf s (s.writeLowD sz r v) :=
  PartOf.writeD s r _

theorem PartOf.setPc (s : State) (p : Long) : PartOf s { s with pc := p } := by
  constructor <;> simp

theorem PartOf.pastOpWord (s : State) : PartOf s s.pastOpWord := PartOf.setPc s _

theorem PartOf.afterExt (s : State) (k : Nat) : PartOf s (s.afterExt k) := PartOf.setPc s _

theorem PartOf.writeA (s : State) (r : RegNum) (v : Long) : PartOf s (s.writeA r v) := by
  constructor <;> try simp
  · intro h
    cases r <;> simp [State.writeA, State.setSp_usp, h]
  · intro h
    cases r <;> simp [State.writeA, State.setSp_ssp, h]

theorem PartOf.eaStep (s : State) (sz : Size) (ea : EA) : PartOf s (s.eaStep sz ea) := by
  cases ea <;> first | exact PartOf.refl s | exact PartOf.writeA s _ _

theorem PartOf.access (s : State) (space : Space) (dir : Direction) (addr : Long) (nb : Nat) :
    (s.access space dir addr nb).Leaves (PartOf s) := by
  unfold State.access
  split
  · exact PartOf.refl s
  · split
    · exact PartOf.refl s
    · exact PartOf.refl s

theorem PartOf.memRead (s : State) (use : Config.ReadUse) (space : Space) (addr : Long) (nb : Nat) :
    (s.memRead use space addr nb).Leaves (PartOf s) :=
  Eff.leaves_bind_same (PartOf.access s space .read addr nb) fun _ _ h => h

theorem PartOf.memWrite (s : State) (addr : Long) (nb : Nat) (v : Long) : (s.memWrite addr nb v).Leaves (PartOf s) := by
  cases h : s.memWrite addr nb v with
  | refuse r => trivial
  | done u t =>
    have hw : s.mem.wf = true → t.mem.wf = true := fun hw => State.memWrite_wf hw h
    obtain ⟨_, rfl⟩ := State.memWrite_eq_done h
    constructor <;> first | exact hw | simp
  | abort x t =>
    cases ha : s.access .data .write addr nb with
    | done u w => simp [State.memWrite, ha] at h
    | refuse r => simp [State.memWrite, ha] at h
    | abort y w =>
      obtain ⟨rfl, _⟩ := State.access_eq_abort ha
      simp only [State.memWrite, ha, Eff.bind_abort, Eff.abort.injEq] at h
      rw [← h.2]
      exact PartOf.refl w

theorem PartOf.fetchExt (s : State) (k : Nat) : (s.fetchExt k).Leaves (PartOf s) := by
  induction k generalizing s with
  | zero => exact PartOf.refl s
  | succ k ih =>
    refine Eff.leaves_bind_same (PartOf.access s .program .read s.pc 2) fun _ t h => ?_
    have hi := ih { t with pc := t.pc + 2 }
    revert hi
    cases State.fetchExt { t with pc := t.pc + 2 } k with
    | done u w => exact fun hi => h.trans ((PartOf.setPc t _).trans hi)
    | abort x w => exact fun hi => h.trans ((PartOf.setPc t _).trans hi)
    | refuse r => exact fun _ => trivial

/-- A part that follows another. -/
theorem PartOf.after {α : Type} {s t : State} {e : Eff α} (h : PartOf s t) (he : e.Leaves (PartOf t)) :
    e.Leaves (PartOf s) := by
  cases e with
  | done u w => exact h.trans he
  | abort x w => exact h.trans he
  | refuse r => trivial

theorem PartOf.bind {α β : Type} {s : State} {e : Eff α} {f : α → State → Eff β} (h : e.Leaves (PartOf s))
    (hf : ∀ v t, (f v t).Leaves (PartOf t)) : (e.bind f).Leaves (PartOf s) :=
  Eff.leaves_bind_same h fun v t ht => PartOf.after ht (hf v t)

theorem PartOf.evalEa (s : State) (sz : Size) (ea : EA) : (s.evalEa sz ea).Leaves (PartOf s) :=
  PartOf.bind (PartOf.fetchExt s _) fun _ t => PartOf.eaStep t sz ea

theorem PartOf.readLoc (s : State) (use : Config.ReadUse) (sz : Size) (l : Loc) : (s.readLoc use sz l).Leaves (PartOf s) := by
  cases l with
  | mem a space => exact PartOf.bind (PartOf.memRead s use space a _) fun _ t => PartOf.refl t
  | dreg r => exact PartOf.refl s
  | areg r => exact PartOf.refl s
  | imm v => exact PartOf.refl s

theorem PartOf.writeLoc (s : State) (sz : Size) (l : Loc) (v : BitVec sz.bits) :
    (s.writeLoc sz l v).Leaves (PartOf s) := by
  cases l with
  | mem a space => exact PartOf.memWrite s a _ _
  | dreg r => exact PartOf.writeLowD s sz r v
  | areg r => exact PartOf.writeA s r _
  | imm v => trivial

theorem PartOf.readEa (s : State) (sz : Size) (ea : EA) : (s.readEa sz ea).Leaves (PartOf s) :=
  PartOf.bind (PartOf.evalEa s sz ea) fun l t => PartOf.readLoc t _ sz l

theorem PartOf.modifyEa (s : State) (sz : Size) (ea : EA) (f : Ccr → BitVec sz.bits → BitVec sz.bits × Ccr) :
    (s.modifyEa sz ea f).Leaves (PartOf s) :=
  PartOf.bind (PartOf.evalEa s sz ea) fun l t => PartOf.bind (PartOf.readLoc t _ sz l) fun _ u =>
    PartOf.bind (PartOf.writeLoc u sz l _) fun _ w => PartOf.setCcr w _

theorem PartOf.immToEa (s : State) (alu : ∀ {n : Nat}, Alu n) (sz : Size) (imm : Long) (ea : EA) :
    (s.immToEa alu sz imm ea).Leaves (PartOf s) :=
  PartOf.bind (PartOf.fetchExt s _) fun _ t => PartOf.modifyEa t sz ea _

theorem PartOf.quickToEa (s : State) (alu : ∀ {n : Nat}, Alu n) (data : BitVec 3) (sz : Size) (ea : EA) :
    (s.quickToEa alu data sz ea).Leaves (PartOf s) :=
  PartOf.modifyEa s sz ea _

theorem PartOf.eaToDn (s : State) (alu : ∀ {n : Nat}, Alu n) (sz : Size) (ea : EA) (r : RegNum) :
    (s.eaToDn alu sz ea r).Leaves (PartOf s) :=
  PartOf.bind (PartOf.readEa s sz ea) fun _ t => (PartOf.writeLowD t sz r _).trans (PartOf.setCcr _ _)

theorem PartOf.dnToEa (s : State) (alu : ∀ {n : Nat}, Alu n) (sz : Size) (r : RegNum) (ea : EA) :
    (s.dnToEa alu sz r ea).Leaves (PartOf s) :=
  PartOf.modifyEa s sz ea _

theorem PartOf.eaToAn (s : State) (op : Long → Long → Long) (sz : Size) (ea : EA) (r : RegNum) :
    (s.eaToAn op sz ea r).Leaves (PartOf s) :=
  PartOf.bind (PartOf.readEa s sz ea) fun _ t => PartOf.writeA t r _

theorem PartOf.extended (s : State) (alu : ∀ {n : Nat}, Alu n) (sz : Size) (form : XForm) (ry rx : RegNum) :
    (s.extended alu sz form ry rx).Leaves (PartOf s) := by
  unfold State.extended
  cases form with
  | regs => exact PartOf.modifyEa s sz _ _
  | predec => exact PartOf.bind (PartOf.readEa s sz _) fun _ t => PartOf.modifyEa t sz _ _

theorem PartOf.shiftReg (s : State) (op : ShiftOp) (sz : Size) (count : ShiftCount) (r : RegNum) :
    (s.shiftReg op sz count r).Leaves (PartOf s) := by
  unfold State.shiftReg
  exact PartOf.modifyEa s sz _ _

theorem PartOf.shiftMem (s : State) (op : ShiftOp) (ea : EA) : (s.shiftMem op ea).Leaves (PartOf s) := by
  unfold State.shiftMem
  exact PartOf.modifyEa s .word ea _

theorem PartOf.bitTest (s : State) (b : Nat) (ea : EA) : (s.bitTest b ea).Leaves (PartOf s) :=
  PartOf.bind (PartOf.readEa s _ ea) fun _ t => PartOf.setCcr t _

theorem PartOf.bitChange (s : State) (op : BitOp) (b : Nat) (ea : EA) : (s.bitChange op b ea).Leaves (PartOf s) :=
  PartOf.modifyEa s _ ea _

/-! ### Exceptions -/

/-- What taking an exception leaves in every field but the stack, the program counter and whether the processor
halted. -/
structure Taken (s t : State) : Prop where
  d : t.d = s.d
  a : t.a = s.a
  usp : t.usp = s.usp
  ccr : t.sr.ccr = s.sr.ccr
  srS : t.sr.s = true
  srT : t.sr.t = false
  stopped : t.stopped = false
  busMap : t.busMap = s.busMap
  inputs : t.inputs = s.inputs
  ipl : t.ipl = s.ipl
  nmi : t.nmi = s.nmi
  prefetch : t.prefetch = []
  draws : t.draws = s.draws
  wf : s.mem.wf = true → t.mem.wf = true

/-- `nb` bytes pushed in supervisor state. -/
structure Pushed (s t : State) : Prop where
  d : t.d = s.d
  a : t.a = s.a
  usp : t.usp = s.usp
  sr : t.sr = s.sr
  part : PartOf s t

theorem Pushed.refl (s : State) : Pushed s s := ⟨rfl, rfl, rfl, rfl, PartOf.refl s⟩

theorem Pushed.trans {s t u : State} (h : Pushed s t) (k : Pushed t u) : Pushed s u :=
  ⟨k.d.trans h.d, k.a.trans h.a, k.usp.trans h.usp, k.sr.trans h.sr, h.part.trans k.part⟩

theorem Pushed.setSp {s : State} (v : Long) (h : s.sr.s = true) : Pushed s (s.setSp v) :=
  ⟨by simp, by simp, by simp [State.setSp_usp, h], by simp, PartOf.writeA s .r7 v⟩

theorem Pushed.memRead (s : State) (use : Config.ReadUse) (space : Space) (addr : Long) (nb : Nat) :
    (s.memRead use space addr nb).Leaves (Pushed s) := by
  cases h : s.memRead use space addr nb with
  | refuse r => trivial
  | done v t =>
    obtain ⟨rfl, _⟩ := State.memRead_eq_done h
    exact Pushed.refl t
  | abort x t =>
    cases ha : s.access space .read addr nb with
    | done u w => simp [State.memRead, ha] at h
    | refuse r => simp [State.memRead, ha] at h
    | abort y w =>
      obtain ⟨rfl, _⟩ := State.access_eq_abort ha
      simp only [State.memRead, ha, Eff.bind_abort, Eff.abort.injEq] at h
      rw [← h.2]
      exact Pushed.refl w

/-- A push in supervisor state changes SSP and memory alone. -/
theorem Pushed.push {s : State} (nb : Nat) (v : Long) (h : s.sr.s = true) : (s.push nb v).Leaves (Pushed s) := by
  have hs : Pushed s (s.setSp (s.sp - BitVec.ofNat 32 nb)) := Pushed.setSp _ h
  have hp := PartOf.memWrite (s.setSp (s.sp - BitVec.ofNat 32 nb)) (s.sp - BitVec.ofNat 32 nb) nb v
  cases hm : s.push nb v with
  | refuse r => trivial
  | done u t =>
    have hm' := hm
    unfold State.push at hm'
    rw [hm'] at hp
    obtain ⟨_, rfl⟩ := State.memWrite_eq_done hm'
    exact hs.trans ⟨rfl, rfl, rfl, rfl, hp⟩
  | abort x t =>
    unfold State.push at hm
    cases ha : (s.setSp (s.sp - BitVec.ofNat 32 nb)).access .data .write (s.sp - BitVec.ofNat 32 nb) nb with
    | done u w => simp [State.memWrite, ha] at hm
    | refuse r => simp [State.memWrite, ha] at hm
    | abort y w =>
      obtain ⟨rfl, _⟩ := State.access_eq_abort ha
      simp only [State.memWrite, ha, Eff.bind_abort, Eff.abort.injEq] at hm
      rw [← hm.2]
      exact hs

theorem Pushed.bind {α β : Type} {s : State} {e : Eff α} {f : α → State → Eff β} (hs : s.sr.s = true)
    (h : e.Leaves (Pushed s)) (hf : ∀ v t, t.sr.s = true → (f v t).Leaves (Pushed t)) : (e.bind f).Leaves (Pushed s) := by
  refine Eff.leaves_bind_same h fun v t ht => ?_
  have hk := hf v t (by rw [ht.sr, hs])
  revert hk
  cases f v t with
  | done w u => exact ht.trans
  | abort x u => exact ht.trans
  | refuse r => exact fun _ => trivial

/-- The writes of a group 0 frame and the read of its vector. -/
theorem Pushed.group0 (s : State) (x : FailedAccess) (pc0 : Long) (opWord : Word) (busy : Bool) (vector : Nat) :
    ((s.pushGroup0 x pc0 opWord busy).bind fun _ t => t.readVector vector).Leaves (Pushed s.supervisor) := by
  have h0 : s.supervisor.sr.s = true := rfl
  refine Pushed.bind h0 ?_ fun _ t _ => Pushed.memRead t _ _ _ _
  refine Pushed.bind h0 (Pushed.push _ _ h0) fun _ t ht => ?_
  refine Pushed.bind ht (Pushed.push _ _ ht) fun _ t ht => ?_
  refine Pushed.bind ht (Pushed.push _ _ ht) fun _ t ht => ?_
  exact Pushed.bind ht (Pushed.push _ _ ht) fun _ t ht => Pushed.push _ _ ht

/-- Everything a bus error or address error can do. -/
theorem enterGroup0_next {x : FailedAccess} {pc0 : Long} {opWord : Word} {busy : Bool} {s t : State}
    (h : enterGroup0 x pc0 opWord busy s = .next t) :
    Taken s t ∧ t.sr.i = s.sr.i ∧ t.tracePending = false ∧ (t.halted = true ∨ t.halted = s.halted) := by
  have hp := Pushed.group0 s x pc0 opWord busy x.error.vector
  unfold enterGroup0 at h
  revert hp h
  cases (s.pushGroup0 x pc0 opWord busy).bind fun _ t => t.readVector x.error.vector with
  | refuse r => intro h; cases h
  | done v u =>
    intro h hp
    cases h
    have hsr := hp.sr
    refine ⟨⟨hp.d, hp.a, hp.usp, ?_, ?_, ?_, hp.part.stopped, hp.part.busMap, hp.part.inputs, hp.part.ipl, hp.part.nmi,
      hp.part.prefetch, hp.part.draws, hp.part.wf⟩, ?_, rfl, Or.inr hp.part.halted⟩ <;> simp [hsr]
  | abort y u =>
    intro h hp
    cases h
    have hsr := hp.sr
    refine ⟨⟨hp.d, hp.a, hp.usp, ?_, ?_, ?_, hp.part.stopped, hp.part.busMap, hp.part.inputs, hp.part.ipl, hp.part.nmi,
      hp.part.prefetch, hp.part.draws, hp.part.wf⟩, ?_, rfl, Or.inl rfl⟩ <;> simp [hsr]

/-- The writes of a 6-byte frame and the read of its vector. -/
theorem Pushed.frame (s : State) (e : Entry) (vector : Nat) :
    ((s.pushFrame e).bind fun _ t => t.readVector vector).Leaves
      (Pushed { s.supervisor with sr := { s.supervisor.sr with i := e.mask.getD s.sr.i } }) := by
  refine Pushed.bind rfl ?_ fun _ t _ => Pushed.memRead t _ _ _ _
  exact Pushed.bind rfl (Pushed.push _ _ rfl) fun _ t ht => Pushed.push _ _ ht

/-- Everything an exception of group 1 or 2, or an interrupt, can do. -/
theorem enterException_next {e : Entry} {s t : State} (h : enterException e s = .next t) :
    Taken s t ∧ t.sr.i = e.mask.getD s.sr.i ∧ (t.tracePending = e.traced ∨ t.tracePending = false) ∧
      (t.halted = true ∧ t.tracePending = false ∨ t.halted = s.halted) := by
  have hp := Pushed.frame s e e.vector
  unfold enterException at h
  revert hp h
  cases (s.pushFrame e).bind fun _ t => t.readVector e.vector with
  | refuse r => intro h; cases h
  | done v u =>
    intro h hp
    cases h
    have hsr := hp.sr
    refine ⟨⟨hp.d, hp.a, hp.usp, ?_, ?_, ?_, hp.part.stopped, hp.part.busMap, hp.part.inputs, hp.part.ipl, hp.part.nmi,
      hp.part.prefetch, hp.part.draws, hp.part.wf⟩, ?_, Or.inl rfl, Or.inr hp.part.halted⟩ <;> simp [hsr]
  | abort y u =>
    intro h hp
    have hsr := hp.sr
    obtain ⟨k, hi, htr, hh⟩ := enterGroup0_next h
    refine ⟨⟨k.d.trans hp.d, k.a.trans hp.a, k.usp.trans hp.usp, ?_, k.srS, k.srT, k.stopped,
      k.busMap.trans hp.part.busMap, k.inputs.trans hp.part.inputs, k.ipl.trans hp.part.ipl, k.nmi.trans hp.part.nmi,
      k.prefetch, k.draws.trans hp.part.draws, fun w => k.wf (hp.part.wf w)⟩, ?_, Or.inr htr, ?_⟩
    · rw [k.ccr, hsr]; rfl
    · rw [hi, hsr]
    · rcases hh with hh | hh
      · exact Or.inl ⟨hh, htr⟩
      · exact Or.inr (hh.trans hp.part.halted)

/-- The end of an instruction: it completes after its last part, or ends in the exception of an access that failed. -/
theorem finish_next {s0 t : State} {e : Eff Unit} (h : finish s0 e = .next t) :
    (∃ u, e = .done () u ∧ t = s0.retire u) ∨
      ∃ x u, e = .abort x u ∧ enterGroup0 x s0.pc s0.ir false u = .next t := by
  cases e with
  | done v u => cases h; exact Or.inl ⟨u, rfl, rfl⟩
  | abort x u => exact Or.inr ⟨x, u, rfl, h⟩
  | refuse r => cases h

end Sys2Proof.Machine
end

