-- ==== Sys2Proof/Laws/Failing.lean ====
section
/-! SUPPORT. Where the parts of an instruction fail: the address error or bus error of the first access that is not made,
with the state as it stood then (60_exceptions.md R255, R261). -/

namespace Sys2Proof.Machine

/-- A part of an instruction that, in state `b`, makes an access of `nb` bytes at `a`, and ends there if it fails. -/
def Eff.FailsAt {α : Type} (e : Eff α) (b : State) (dir : Direction) (space : Space) (a : Long) (nb : Nat) : Prop :=
  (misaligned a nb = true → e = .abort ⟨.address, a, dir, space⟩ b) ∧
  (misaligned a nb = false → b.responds dir (busAddress a) nb = false → e = .abort ⟨.bus, a, dir, space⟩ b)

theorem Eff.FailsAt.bind {α β : Type} {e : Eff α} {f : α → State → Eff β} {b : State} {dir : Direction} {space : Space}
    {a : Long} {nb : Nat} (h : e.FailsAt b dir space a nb) : (e.bind f).FailsAt b dir space a nb :=
  ⟨fun h1 => by rw [h.1 h1]; rfl, fun h1 h2 => by rw [h.2 h1 h2]; rfl⟩

/-- The instruction of which it is a part ends there too. -/
theorem Eff.FailsAt.finishWith {α : Type} {i : Instr} {s b : State} {dir : Direction} {space : Space} {a : Long}
    {nb : Nat} {e : Eff α} {k : α → State → Result} (h : e.FailsAt b dir space a nb)
    (hi : exec i s = Machine.finishWith s e k) : EndsInFault i s b dir space a nb :=
  ⟨fun h1 => by rw [hi, h.1 h1]; rfl, fun h1 h2 => by rw [hi, h.2 h1 h2]; rfl⟩

theorem State.access_failsAt (s : State) (space : Space) (dir : Direction) (addr : Long) (nb : Nat) :
    (s.access space dir addr nb).FailsAt s dir space addr nb :=
  ⟨State.access_misaligned, State.access_silent⟩

theorem State.memRead_failsAt (s : State) (use : Config.ReadUse) (space : Space) (addr : Long) (nb : Nat) :
    (s.memRead use space addr nb).FailsAt s .read space addr nb :=
  (s.access_failsAt space .read addr nb).bind

theorem State.memWrite_failsAt (s : State) (addr : Long) (nb : Nat) (v : Long) :
    (s.memWrite addr nb v).FailsAt s .write .data addr nb :=
  (s.access_failsAt .data .write addr nb).bind

/-- The words before it fetched, an extension word's fetch fails at its address. -/
theorem State.fetchExt_failsAt {s : State} {k n : Nat} (hk : k < n) (hf : s.fetchable k = true) :
    (s.fetchExt n).FailsAt (s.afterExt k) .read .program (s.pc + BitVec.ofNat 32 (2 * k)) 2 := by
  induction k generalizing s n with
  | zero =>
    obtain ⟨n, rfl⟩ : ∃ m, n = m + 1 := ⟨n - 1, by omega⟩
    have := (s.access_failsAt .program .read s.pc 2).bind (f := fun _ s => State.fetchExt { s with pc := s.pc + 2 } n)
    simpa [State.fetchExt, State.afterExt] using this
  | succ k ih =>
    obtain ⟨n, rfl⟩ : ∃ m, n = m + 1 := ⟨n - 1, by omega⟩
    simp only [State.fetchable, Bool.and_eq_true] at hf
    have := ih (s := { s with pc := s.pc + 2 }) (n := n) (by omega) hf.2
    have e : s.pc + 2 + BitVec.ofNat 32 (2 * k) = s.pc + BitVec.ofNat 32 (2 * (k + 1)) := by
      rw [BitVec.add_assoc]
      congr 1
      apply BitVec.eq_of_toNat_eq
      simp
      omega
    rw [State.fetchExt, State.access_done hf.1]
    simp only [State.afterExt, e] at this ⊢
    exact this

theorem State.evalEa_failsAt {s : State} {sz : Size} {ea : EA} {k : Nat} (hk : k < eaExt sz ea)
    (hf : s.fetchable k = true) :
    (s.evalEa sz ea).FailsAt (s.afterExt k) .read .program (s.pc + BitVec.ofNat 32 (2 * k)) 2 :=
  (State.fetchExt_failsAt hk hf).bind

theorem State.readLoc_failsAt (s : State) (use : Config.ReadUse) (sz : Size) (a : Long) (space : Space) :
    (s.readLoc use sz (.mem a space)).FailsAt s .read space a sz.bytes :=
  (s.memRead_failsAt use space a sz.bytes).bind

theorem State.writeLoc_failsAt (s : State) (sz : Size) (a : Long) (space : Space) (v : BitVec sz.bits) :
    (s.writeLoc sz (.mem a space) v).FailsAt s .write .data a sz.bytes :=
  s.memWrite_failsAt a sz.bytes _

/-- The extension words fetched, the read of the operand fails with the address register of the mode stepped. -/
theorem State.readEa_failsAt {s : State} {sz : Size} {ea : EA} {a : Long} {space : Space}
    (hf : s.fetchable (eaExt sz ea) = true) (hl : s.eaLoc sz ea = .mem a space) :
    (s.readEa sz ea).FailsAt (s.afterEa sz ea) .read space a sz.bytes := by
  rw [State.readEa, State.evalEa_done hf, Eff.bind_done, hl]
  exact State.readLoc_failsAt _ _ _ _ _

/-- A destination's read fails likewise, and where it is made its write. -/
theorem State.modifyEa_failsAt {s : State} {sz : Size} {ea : EA} {a : Long} {space : Space}
    {f : Ccr → BitVec sz.bits → BitVec sz.bits × Ccr} (hl : s.eaLoc sz ea = .mem a space) :
    (s.fetchable (eaExt sz ea) = true → (s.modifyEa sz ea f).FailsAt (s.afterEa sz ea) .read space a sz.bytes) ∧
    (s.canRead sz ea = true → (s.modifyEa sz ea f).FailsAt (s.afterEa sz ea) .write .data a sz.bytes) := by
  constructor
  · intro hf
    rw [State.modifyEa, State.evalEa_done hf, Eff.bind_done, hl]
    exact (State.readLoc_failsAt _ _ _ _ _).bind
  · intro hc
    simp only [State.canRead, Bool.and_eq_true] at hc
    have hr : (s.afterEa sz ea).readable sz (s.eaLoc sz ea) = true := by
      rw [State.readable_congr (State.afterEa_busMap s sz ea)]
      exact hc.2
    rw [State.modifyEa, State.evalEa_done hc.1, Eff.bind_done, State.readLoc_done hr, Eff.bind_done, hl]
    exact (State.writeLoc_failsAt _ _ _ _ _).bind

end Sys2Proof.Machine
end

