-- ==== Sys2Proof/Laws/PerInstr.lean ====
section
/-! SUPPORT. Statements made of every instruction, one lemma for each constructor: an instruction has one to five words
(30_encoding.md R80). -/

namespace Sys2Proof.Laws

theorem length_immWords (sz : Size) (v : Long) : (immWords sz v).length ≤ 2 := by
  cases sz <;> simp [immWords]

theorem length_eaWords (sz : Size) (ea : EA) : (ea.words sz).length ≤ 2 := by
  cases ea <;> simp [EA.words, length_immWords]

/-- The words of an instruction are one to five. -/
def EncodedLength.Statement (i : Instr) : Prop := 1 ≤ i.length ∧ i.length ≤ maxWords

/-- An operation word and the words of one effective address. -/
theorem length_oneEa (w : Word) (sz : Size) (ea : EA) :
    1 ≤ (w :: ea.words sz).length ∧ (w :: ea.words sz).length ≤ maxWords :=
  ⟨Nat.succ_le_succ (Nat.zero_le _), Nat.succ_le_succ (Nat.le_trans (length_eaWords sz ea) (by decide))⟩

/-- An operation word and up to two pairs of words. -/
theorem length_twoParts (w : Word) {xs ys : List Word} (hx : xs.length ≤ 2) (hy : ys.length ≤ 2) :
    1 ≤ (w :: (xs ++ ys)).length ∧ (w :: (xs ++ ys)).length ≤ maxWords := by
  simp only [List.length_cons, List.length_append, maxWords]
  omega

/-- A shift or rotate of a register is one word. -/
theorem length_shiftReg (tt : BitVec 2) (d : BitVec 1) (sz : Size) (count : ShiftCount) (r : RegNum) :
    1 ≤ (encodeShiftReg tt d sz count r).length ∧ (encodeShiftReg tt d sz count r).length ≤ maxWords := by
  cases count <;> exact ⟨by simp [encodeShiftReg], by simp [encodeShiftReg, maxWords]⟩

/-- One and two words. -/
theorem length_one (w : Word) : 1 ≤ [w].length ∧ [w].length ≤ maxWords := by simp [maxWords]
theorem length_two (w v : Word) : 1 ≤ [w, v].length ∧ [w, v].length ≤ maxWords := by simp [maxWords]

theorem EncodedLength.ori (sz : Size) (imm : Long) (ea : EA) :
    EncodedLength.Statement (.ori sz imm ea) :=
  length_twoParts _ (length_immWords sz imm) (length_eaWords sz ea)

theorem EncodedLength.andi (sz : Size) (imm : Long) (ea : EA) :
    EncodedLength.Statement (.andi sz imm ea) :=
  length_twoParts _ (length_immWords sz imm) (length_eaWords sz ea)

theorem EncodedLength.subi (sz : Size) (imm : Long) (ea : EA) :
    EncodedLength.Statement (.subi sz imm ea) :=
  length_twoParts _ (length_immWords sz imm) (length_eaWords sz ea)

theorem EncodedLength.addi (sz : Size) (imm : Long) (ea : EA) :
    EncodedLength.Statement (.addi sz imm ea) :=
  length_twoParts _ (length_immWords sz imm) (length_eaWords sz ea)

theorem EncodedLength.eori (sz : Size) (imm : Long) (ea : EA) :
    EncodedLength.Statement (.eori sz imm ea) :=
  length_twoParts _ (length_immWords sz imm) (length_eaWords sz ea)

theorem EncodedLength.cmpi (sz : Size) (imm : Long) (ea : EA) :
    EncodedLength.Statement (.cmpi sz imm ea) :=
  length_twoParts _ (length_immWords sz imm) (length_eaWords sz ea)

theorem EncodedLength.andiToCcr (imm : Byte) :
    EncodedLength.Statement (.andiToCcr imm) :=
  length_two _ _

theorem EncodedLength.btstStatic (bit : Byte) (ea : EA) :
    EncodedLength.Statement (.btstStatic bit ea) :=
  length_twoParts (xs := [_]) _ (Nat.le_succ 1) (length_eaWords .byte ea)

theorem EncodedLength.bchgStatic (bit : Byte) (ea : EA) :
    EncodedLength.Statement (.bchgStatic bit ea) :=
  length_twoParts (xs := [_]) _ (Nat.le_succ 1) (length_eaWords .byte ea)

theorem EncodedLength.bclrStatic (bit : Byte) (ea : EA) :
    EncodedLength.Statement (.bclrStatic bit ea) :=
  length_twoParts (xs := [_]) _ (Nat.le_succ 1) (length_eaWords .byte ea)

theorem EncodedLength.bsetStatic (bit : Byte) (ea : EA) :
    EncodedLength.Statement (.bsetStatic bit ea) :=
  length_twoParts (xs := [_]) _ (Nat.le_succ 1) (length_eaWords .byte ea)

theorem EncodedLength.btstDyn (r : RegNum) (ea : EA) :
    EncodedLength.Statement (.btstDyn r ea) :=
  length_oneEa _ .byte ea

theorem EncodedLength.bchgDyn (r : RegNum) (ea : EA) :
    EncodedLength.Statement (.bchgDyn r ea) :=
  length_oneEa _ .byte ea

theorem EncodedLength.bclrDyn (r : RegNum) (ea : EA) :
    EncodedLength.Statement (.bclrDyn r ea) :=
  length_oneEa _ .byte ea

theorem EncodedLength.bsetDyn (r : RegNum) (ea : EA) :
    EncodedLength.Statement (.bsetDyn r ea) :=
  length_oneEa _ .byte ea

theorem EncodedLength.move (sz : Size) (src dst : EA) :
    EncodedLength.Statement (.move sz src dst) :=
  length_twoParts _ (length_eaWords sz src) (length_eaWords sz dst)

theorem EncodedLength.movea (sz : Size) (src : EA) (r : RegNum) :
    EncodedLength.Statement (.movea sz src r) :=
  length_oneEa _ sz src

theorem EncodedLength.clr (sz : Size) (ea : EA) :
    EncodedLength.Statement (.clr sz ea) :=
  length_oneEa _ sz ea

theorem EncodedLength.notEa (sz : Size) (ea : EA) :
    EncodedLength.Statement (.notEa sz ea) :=
  length_oneEa _ sz ea

theorem EncodedLength.extW (r : RegNum) :
    EncodedLength.Statement (.extW r) :=
  length_one _

theorem EncodedLength.extL (r : RegNum) :
    EncodedLength.Statement (.extL r) :=
  length_one _

theorem EncodedLength.lea (ea : EA) (r : RegNum) :
    EncodedLength.Statement (.lea ea r) :=
  length_oneEa _ .long ea

theorem EncodedLength.stop (imm : Word) :
    EncodedLength.Statement (.stop imm) :=
  length_two _ _

theorem EncodedLength.addq (data : BitVec 3) (sz : Size) (ea : EA) :
    EncodedLength.Statement (.addq data sz ea) :=
  length_oneEa _ sz ea

theorem EncodedLength.addqA (data : BitVec 3) (sz : Size) (r : RegNum) :
    EncodedLength.Statement (.addqA data sz r) :=
  length_one _

theorem EncodedLength.subq (data : BitVec 3) (sz : Size) (ea : EA) :
    EncodedLength.Statement (.subq data sz ea) :=
  length_oneEa _ sz ea

theorem EncodedLength.subqA (data : BitVec 3) (sz : Size) (r : RegNum) :
    EncodedLength.Statement (.subqA data sz r) :=
  length_one _

theorem EncodedLength.bcc (c : Cond) (disp : BranchDisp) :
    EncodedLength.Statement (.bcc c disp) := by
  cases disp
  · exact length_one _
  · exact length_two _ _

theorem EncodedLength.orToDn (sz : Size) (ea : EA) (r : RegNum) :
    EncodedLength.Statement (.orToDn sz ea r) :=
  length_oneEa _ sz ea

theorem EncodedLength.orToEa (sz : Size) (r : RegNum) (ea : EA) :
    EncodedLength.Statement (.orToEa sz r ea) :=
  length_oneEa _ sz ea

theorem EncodedLength.divu (ea : EA) (r : RegNum) :
    EncodedLength.Statement (.divu ea r) :=
  length_oneEa _ .word ea

theorem EncodedLength.divs (ea : EA) (r : RegNum) :
    EncodedLength.Statement (.divs ea r) :=
  length_oneEa _ .word ea

theorem EncodedLength.subToDn (sz : Size) (ea : EA) (r : RegNum) :
    EncodedLength.Statement (.subToDn sz ea r) :=
  length_oneEa _ sz ea

theorem EncodedLength.subToEa (sz : Size) (r : RegNum) (ea : EA) :
    EncodedLength.Statement (.subToEa sz r ea) :=
  length_oneEa _ sz ea

theorem EncodedLength.suba (sz : Size) (ea : EA) (r : RegNum) :
    EncodedLength.Statement (.suba sz ea r) :=
  length_oneEa _ sz ea

theorem EncodedLength.subx (sz : Size) (form : XForm) (ry rx : RegNum) :
    EncodedLength.Statement (.subx sz form ry rx) :=
  length_one _

theorem EncodedLength.eor (sz : Size) (r : RegNum) (ea : EA) :
    EncodedLength.Statement (.eor sz r ea) :=
  length_oneEa _ sz ea

theorem EncodedLength.andToDn (sz : Size) (ea : EA) (r : RegNum) :
    EncodedLength.Statement (.andToDn sz ea r) :=
  length_oneEa _ sz ea

theorem EncodedLength.andToEa (sz : Size) (r : RegNum) (ea : EA) :
    EncodedLength.Statement (.andToEa sz r ea) :=
  length_oneEa _ sz ea

theorem EncodedLength.mulu (ea : EA) (r : RegNum) :
    EncodedLength.Statement (.mulu ea r) :=
  length_oneEa _ .word ea

theorem EncodedLength.muls (ea : EA) (r : RegNum) :
    EncodedLength.Statement (.muls ea r) :=
  length_oneEa _ .word ea

theorem EncodedLength.addToDn (sz : Size) (ea : EA) (r : RegNum) :
    EncodedLength.Statement (.addToDn sz ea r) :=
  length_oneEa _ sz ea

theorem EncodedLength.addToEa (sz : Size) (r : RegNum) (ea : EA) :
    EncodedLength.Statement (.addToEa sz r ea) :=
  length_oneEa _ sz ea

theorem EncodedLength.adda (sz : Size) (ea : EA) (r : RegNum) :
    EncodedLength.Statement (.adda sz ea r) :=
  length_oneEa _ sz ea

theorem EncodedLength.addx (sz : Size) (form : XForm) (ry rx : RegNum) :
    EncodedLength.Statement (.addx sz form ry rx) :=
  length_one _

theorem EncodedLength.asrReg (sz : Size) (count : ShiftCount) (r : RegNum) :
    EncodedLength.Statement (.asrReg sz count r) :=
  length_shiftReg _ _ sz count r

theorem EncodedLength.aslReg (sz : Size) (count : ShiftCount) (r : RegNum) :
    EncodedLength.Statement (.aslReg sz count r) :=
  length_shiftReg _ _ sz count r

theorem EncodedLength.lsrReg (sz : Size) (count : ShiftCount) (r : RegNum) :
    EncodedLength.Statement (.lsrReg sz count r) :=
  length_shiftReg _ _ sz count r

theorem EncodedLength.lslReg (sz : Size) (count : ShiftCount) (r : RegNum) :
    EncodedLength.Statement (.lslReg sz count r) :=
  length_shiftReg _ _ sz count r

theorem EncodedLength.roxrReg (sz : Size) (count : ShiftCount) (r : RegNum) :
    EncodedLength.Statement (.roxrReg sz count r) :=
  length_shiftReg _ _ sz count r

theorem EncodedLength.roxlReg (sz : Size) (count : ShiftCount) (r : RegNum) :
    EncodedLength.Statement (.roxlReg sz count r) :=
  length_shiftReg _ _ sz count r

theorem EncodedLength.rorReg (sz : Size) (count : ShiftCount) (r : RegNum) :
    EncodedLength.Statement (.rorReg sz count r) :=
  length_shiftReg _ _ sz count r

theorem EncodedLength.rolReg (sz : Size) (count : ShiftCount) (r : RegNum) :
    EncodedLength.Statement (.rolReg sz count r) :=
  length_shiftReg _ _ sz count r

theorem EncodedLength.asrMem (ea : EA) :
    EncodedLength.Statement (.asrMem ea) :=
  length_oneEa _ .word ea

theorem EncodedLength.aslMem (ea : EA) :
    EncodedLength.Statement (.aslMem ea) :=
  length_oneEa _ .word ea

theorem EncodedLength.lsrMem (ea : EA) :
    EncodedLength.Statement (.lsrMem ea) :=
  length_oneEa _ .word ea

theorem EncodedLength.lslMem (ea : EA) :
    EncodedLength.Statement (.lslMem ea) :=
  length_oneEa _ .word ea

theorem EncodedLength.roxrMem (ea : EA) :
    EncodedLength.Statement (.roxrMem ea) :=
  length_oneEa _ .word ea

theorem EncodedLength.roxlMem (ea : EA) :
    EncodedLength.Statement (.roxlMem ea) :=
  length_oneEa _ .word ea

theorem EncodedLength.rorMem (ea : EA) :
    EncodedLength.Statement (.rorMem ea) :=
  length_oneEa _ .word ea

theorem EncodedLength.rolMem (ea : EA) :
    EncodedLength.Statement (.rolMem ea) :=
  length_oneEa _ .word ea

end Sys2Proof.Laws
end

