-- ==== Sys2Proof/Tests/Slice0.lean ====
section
/-! SUPPORT. Tests of the model: ill-formed instructions refused, words of the spec decoded, steps with the results that
95_test_vectors.md lists, and for each statement with hypotheses a state that meets them. -/

namespace Sys2Proof.Tests

open Sys2Proof.Machine

/-! ### Helpers -/

/-- Bytes of memory from 0x2000 on. -/
def at2000 (bs : List Byte) : List (Nat × Byte) := (List.range bs.length).map fun j => (0x2000 + j, bs.getD j 0)

/-- 95_test_vectors.md's start: supervisor state, mask 7, `pc` 0x400, with these data registers, address registers,
bytes of memory and flags. -/
def start (ds as : List (RegNum × Long)) (bytes : List (Nat × Byte)) (ccr : Byte) : State :=
  let s := { State.launch State.reset.d State.reset.a 0 0x3000 [] with sr := StatusReg.ofWord (0x27#8 ++ ccr) }
  let s := ds.foldl (fun s p => s.writeD p.1 p.2) s
  let s := as.foldl (fun s p => s.writeA p.1 p.2) s
  { s with mem := bytes.foldl (fun m p => m.write p.1 p.2) [] }

/-- The words of an instruction stored at `pc`. -/
def place (ws : List Word) (s : State) : State :=
  { s with mem := s.mem.writeBytes (busAddress s.pc) (bytesOfWords ws) }

/-- A step over the words at `pc` gives a next state with a property. -/
def runs (ws : List Word) (s : State) (check : State → Bool) : Bool :=
  match step (place ws s) with
  | .next t => check t
  | .fault _ | .refused _ => false

/-- `n` bytes of memory from an address. -/
def bytesAt (s : State) (a n : Nat) : List Byte := (List.range n).map fun j => s.mem.read (a + j)

/-! ### WellFormed: an ill-formed term for each check (30_encoding.md R85 to R94, 20_memory.md R63) -/

theorem test_refuses_immediate_wider_than_size : (Instr.addi .byte 0x100 (.dn .r0)).wellFormed = false := by decide
theorem test_refuses_source_wider_than_size : (Instr.addToDn .word (.imm 0x10000) .r0).wellFormed = false := by decide
theorem test_refuses_address_register_byte : (Instr.addToDn .byte (.an .r0) .r0).wellFormed = false := by decide
theorem test_refuses_immediate_destination : (Instr.ori .byte 0 (.imm 0)).wellFormed = false := by decide
theorem test_refuses_pc_destination : (Instr.clr .word (.pcDisp 0)).wellFormed = false := by decide
theorem test_refuses_address_register_data : (Instr.andToDn .word (.an .r0) .r0).wellFormed = false := by decide
theorem test_refuses_register_memory_form : (Instr.addToEa .word .r0 (.dn .r1)).wellFormed = false := by decide
theorem test_refuses_register_memory_shift : (Instr.aslMem (.dn .r0)).wellFormed = false := by decide
theorem test_refuses_static_bit_of_immediate : (Instr.btstStatic 0 (.imm 0)).wellFormed = false := by decide
theorem test_refuses_bit_change_of_immediate : (Instr.bsetDyn .r0 (.imm 0)).wellFormed = false := by decide
theorem test_refuses_postincrement_control : (Instr.lea (.postinc .r0) .r0).wellFormed = false := by decide
theorem test_refuses_move_to_address_register : (Instr.move .word (.dn .r0) (.an .r0)).wellFormed = false := by decide
theorem test_refuses_byte_movea : (Instr.movea .byte (.dn .r0) .r0).wellFormed = false := by decide
theorem test_refuses_byte_adda : (Instr.adda .byte (.dn .r0) .r0).wellFormed = false := by decide
theorem test_refuses_byte_suba : (Instr.suba .byte (.dn .r0) .r0).wellFormed = false := by decide
theorem test_refuses_byte_addq_address : (Instr.addqA 1 .byte .r0).wellFormed = false := by decide
theorem test_refuses_byte_subq_address : (Instr.subqA 1 .byte .r0).wellFormed = false := by decide
theorem test_refuses_short_displacement_zero : (Instr.bcc .ne (.short 0)).wellFormed = false := by decide
theorem test_accepts_immediate_at_the_bound : (Instr.addi .byte 0xFF (.dn .r0)).wellFormed = true := by decide

/-! ### Decoding: a word of each row, from 30_encoding.md and 95_test_vectors.md -/

theorem test_decode_ori : decode [0x0043, 0x00F0] = .ok (.ori .word 0x00F0 (.dn .r3), []) := by decide
theorem test_decode_andi : decode [0x0280, 0xFFFF, 0x0000] = .ok (.andi .long 0xFFFF0000 (.dn .r0), []) := by decide
theorem test_decode_subi : decode [0x0480, 0x0000, 0x0001] = .ok (.subi .long 1 (.dn .r0), []) := by decide
theorem test_decode_addi : decode [0x0668, 0x0001, 0x0002] = .ok (.addi .word 1 (.disp .r0 2), []) := by decide
theorem test_decode_eori : decode [0x0A00, 0x0080] = .ok (.eori .byte 0x80 (.dn .r0), []) := by decide
theorem test_decode_cmpi : decode [0x0C50, 0xFFFF] = .ok (.cmpi .word 0xFFFF (.ind .r0), []) := by decide
theorem test_decode_andiToCcr : decode [0x023C, 0xFF00] = .ok (.andiToCcr 0, []) := by decide
theorem test_decode_btstStatic : decode [0x0838, 0x0003, 0x2000] = .ok (.btstStatic 3 (.absW 0x2000), []) := by decide
theorem test_decode_bchgStatic : decode [0x0878, 0x0009, 0x2000] = .ok (.bchgStatic 9 (.absW 0x2000), []) := by decide
theorem test_decode_bclrStatic : decode [0x0880, 0x0007] = .ok (.bclrStatic 7 (.dn .r0), []) := by decide
theorem test_decode_bsetStatic : decode [0x08C2, 0x001F] = .ok (.bsetStatic 31 (.dn .r2), []) := by decide
theorem test_decode_btstDyn : decode [0x013C, 0x0081] = .ok (.btstDyn .r0 (.imm 0x81), []) := by decide
theorem test_decode_bchgDyn : decode [0x0340] = .ok (.bchgDyn .r1 (.dn .r0), []) := by decide
theorem test_decode_bclrDyn : decode [0x0390] = .ok (.bclrDyn .r1 (.ind .r0), []) := by decide
theorem test_decode_bsetDyn : decode [0x03E7] = .ok (.bsetDyn .r1 (.predec .r7), []) := by decide
theorem test_decode_move : decode [0x1140, 0x0001] = .ok (.move .byte (.dn .r0) (.disp .r0 1), []) := by decide
theorem test_decode_movea : decode [0x347C, 0x7FFF] = .ok (.movea .word (.imm 0x7FFF) .r2, []) := by decide
theorem test_decode_clr : decode [0x4258] = .ok (.clr .word (.postinc .r0), []) := by decide
theorem test_decode_notEa : decode [0x4681] = .ok (.notEa .long (.dn .r1), []) := by decide
theorem test_decode_extW : decode [0x4881] = .ok (.extW .r1, []) := by decide
theorem test_decode_extL : decode [0x48C1] = .ok (.extL .r1, []) := by decide
theorem test_decode_lea : decode [0x43F9, 0x0001, 0x2345] = .ok (.lea (.absL 0x12345) .r1, []) := by decide
theorem test_decode_stop : decode [0x4E72, 0x2700] = .ok (.stop 0x2700, []) := by decide
theorem test_decode_addq : decode [0x5687] = .ok (.addq 3 .long (.dn .r7), []) := by decide
theorem test_decode_addqA : decode [0x508F] = .ok (.addqA 0 .long .r7, []) := by decide
theorem test_decode_subq : decode [0x5990] = .ok (.subq 4 .long (.ind .r0), []) := by decide
theorem test_decode_subqA : decode [0x5348] = .ok (.subqA 1 .word .r0, []) := by decide
theorem test_decode_bcc : decode [0x6600, 0x8000] = .ok (.bcc .ne (.word 0x8000), []) := by decide
theorem test_decode_orToDn : decode [0x8499] = .ok (.orToDn .long (.postinc .r1) .r2, []) := by decide
theorem test_decode_orToEa : decode [0x8110] = .ok (.orToEa .byte .r0 (.ind .r0), []) := by decide
theorem test_decode_divu : decode [0x80C1] = .ok (.divu (.dn .r1) .r0, []) := by decide
theorem test_decode_divs : decode [0x81FC, 0xFFF9] = .ok (.divs (.imm 0xFFF9) .r0, []) := by decide
theorem test_decode_subToDn : decode [0x9049] = .ok (.subToDn .word (.an .r1) .r0, []) := by decide
theorem test_decode_subToEa : decode [0x9150] = .ok (.subToEa .word .r0 (.ind .r0), []) := by decide
theorem test_decode_suba : decode [0x91C8] = .ok (.suba .long (.an .r0) .r0, []) := by decide
theorem test_decode_subx : decode [0x9348] = .ok (.subx .word .predec .r0 .r1, []) := by decide
theorem test_decode_eor : decode [0xB318] = .ok (.eor .byte .r1 (.postinc .r0), []) := by decide
theorem test_decode_andToDn : decode [0xC260] = .ok (.andToDn .word (.predec .r0) .r1, []) := by decide
theorem test_decode_andToEa : decode [0xC190] = .ok (.andToEa .long .r0 (.ind .r0), []) := by decide
theorem test_decode_mulu : decode [0xC0D0] = .ok (.mulu (.ind .r0) .r0, []) := by decide
theorem test_decode_muls : decode [0xC1FC, 0x0040] = .ok (.muls (.imm 0x40) .r0, []) := by decide
theorem test_decode_addToDn : decode [0xD068, 0x0002] = .ok (.addToDn .word (.disp .r0 2) .r0, []) := by decide
theorem test_decode_addToEa : decode [0xD1A0] = .ok (.addToEa .long .r0 (.predec .r0), []) := by decide
theorem test_decode_adda : decode [0xD3C0] = .ok (.adda .long (.dn .r0) .r1, []) := by decide
theorem test_decode_addx : decode [0xD781] = .ok (.addx .long .regs .r1 .r3, []) := by decide
theorem test_decode_asrReg : decode [0xE2A2] = .ok (.asrReg .long (.reg .r1) .r2, []) := by decide
theorem test_decode_aslReg : decode [0xE700] = .ok (.aslReg .byte (.imm 3) .r0, []) := by decide
theorem test_decode_lsrReg : decode [0xEE08] = .ok (.lsrReg .byte (.imm 7) .r0, []) := by decide
theorem test_decode_lslReg : decode [0xE948] = .ok (.lslReg .word (.imm 4) .r0, []) := by decide
theorem test_decode_roxrReg : decode [0xE890] = .ok (.roxrReg .long (.imm 4) .r0, []) := by decide
theorem test_decode_roxlReg : decode [0xE370] = .ok (.roxlReg .word (.reg .r1) .r0, []) := by decide
theorem test_decode_rorReg : decode [0xE439] = .ok (.rorReg .byte (.reg .r2) .r1, []) := by decide
theorem test_decode_rolReg : decode [0xE19B] = .ok (.rolReg .long (.imm 0) .r3, []) := by decide
theorem test_decode_asrMem : decode [0xE0D8] = .ok (.asrMem (.postinc .r0), []) := by decide
theorem test_decode_aslMem : decode [0xE1F8, 0x2000] = .ok (.aslMem (.absW 0x2000), []) := by decide
theorem test_decode_lsrMem : decode [0xE2D9] = .ok (.lsrMem (.postinc .r1), []) := by decide
theorem test_decode_lslMem : decode [0xE3D0] = .ok (.lslMem (.ind .r0), []) := by decide
theorem test_decode_roxrMem : decode [0xE4F8, 0x2000] = .ok (.roxrMem (.absW 0x2000), []) := by decide
theorem test_decode_roxlMem : decode [0xE5D0] = .ok (.roxlMem (.ind .r0), []) := by decide
theorem test_decode_rorMem : decode [0xE6E0] = .ok (.rorMem (.predec .r0), []) := by decide
theorem test_decode_rolMem : decode [0xE7D0] = .ok (.rolMem (.ind .r0), []) := by decide
theorem test_decode_rejects_byte_of_address_register : decode [0x0008] = .error .illegal := by decide
theorem test_decode_rejects_size_three : decode [0x00C0] = .error .illegal := by decide
theorem test_decode_illegal_instruction : decode [0x4AFC] = .error .illegal := by decide
theorem test_decode_names_out_of_scope : decode [0x4E71] = .error (.outOfScope "NOP") := by decide
theorem test_decode_line_a : decode [0xA123] = .error .lineA := by decide
theorem test_decode_line_f : decode [0xFFFF] = .error .lineF := by decide

/-! ### Steps: rows of 95_test_vectors.md section 2 -/

theorem test_ori_1 : runs [0x0043, 0x00F0] (start [(.r3, 0x12340F0F)] [] [] 0b00000)
    (fun t => t.readD .r3 == 0x12340FFF && t.sr.ccr.byte == 0b00000) = true := by decide
theorem test_ori_2 : runs [0x0000, 0x0000] (start [(.r0, 0x12345600)] [] [] 0b11011)
    (fun t => t.readD .r0 == 0x12345600 && t.sr.ccr.byte == 0b10100) = true := by decide
theorem test_andi_1 : runs [0x0250, 0x00FF] (start [] [(.r0, 0x2000)] (at2000 [0x12, 0x34]) 0b00000)
    (fun t => bytesAt t 0x2000 2 == [0, 0x34] && t.sr.ccr.byte == 0b00000) = true := by decide
theorem test_andi_2 : runs [0x0280, 0xFFFF, 0x0000] (start [(.r0, 0x80001234)] [] [] 0b00000)
    (fun t => t.readD .r0 == 0x80000000 && t.sr.ccr.byte == 0b01000) = true := by decide
theorem test_subi_1 : runs [0x0400, 0x0010] (start [(.r0, 0x10)] [] [] 0b00000)
    (fun t => t.readD .r0 == 0 && t.sr.ccr.byte == 0b00100) = true := by decide
theorem test_subi_2 : runs [0x0480, 0x0000, 0x0001] (start [(.r0, 0)] [] [] 0b00000)
    (fun t => t.readD .r0 == 0xFFFFFFFF && t.sr.ccr.byte == 0b11001) = true := by decide
theorem test_addi_1 : runs [0x0668, 0x0001, 0x0002] (start [] [(.r0, 0x2000)] (at2000 [0, 0, 0xFF, 0xFF]) 0b00000)
    (fun t => bytesAt t 0x2000 4 == [0, 0, 0, 0] && t.sr.ccr.byte == 0b10101) = true := by decide
theorem test_addi_2 : runs [0x0680, 0x8000, 0x0000] (start [(.r0, 0x80000000)] [] [] 0b00000)
    (fun t => t.readD .r0 == 0 && t.sr.ccr.byte == 0b10111) = true := by decide
theorem test_eori_1 : runs [0x0A00, 0x0080] (start [(.r0, 0x35)] [] [] 0b00000)
    (fun t => t.readD .r0 == 0xB5 && t.sr.ccr.byte == 0b01000) = true := by decide
theorem test_eori_2 : runs [0x0A00, 0x0080] (start [(.r0, 0x80)] [] [] 0b10000)
    (fun t => t.readD .r0 == 0 && t.sr.ccr.byte == 0b10100) = true := by decide
theorem test_cmpi_1 : runs [0x0C50, 0xFFFF] (start [] [(.r0, 0x2000)] (at2000 [0x7F, 0xFF]) 0b00000)
    (fun t => bytesAt t 0x2000 2 == [0x7F, 0xFF] && t.sr.ccr.byte == 0b01011) = true := by decide
theorem test_cmpi_2 : runs [0x0C02, 0x0006] (start [(.r2, 0xCCCCCC01)] [] [] 0b10000)
    (fun t => t.readD .r2 == 0xCCCCCC01 && t.sr.ccr.byte == 0b11001) = true := by decide
theorem test_andiToCcr_1 : runs [0x023C, 0x0005] (start [] [] [] 0b11111)
    (fun t => t.sr.ccr.byte == 0b00101) = true := by decide
theorem test_andiToCcr_2 : runs [0x023C, 0xFF00] (start [] [] [] 0b11111)
    (fun t => t.sr.ccr.byte == 0b00000) = true := by decide
theorem test_btstStatic_1 : runs [0x0838, 0x0003, 0x2000] (start [] [] (at2000 [8]) 0b00100)
    (fun t => bytesAt t 0x2000 1 == [8] && t.sr.ccr.byte == 0b00000) = true := by decide
theorem test_btstStatic_2 : runs [0x0800, 0x0000] (start [(.r0, 0xFFFFFFFE)] [] [] 0b00000)
    (fun t => t.readD .r0 == 0xFFFFFFFE && t.sr.ccr.byte == 0b00100) = true := by decide
theorem test_bchgStatic_1 : runs [0x0840, 0x0007] (start [(.r0, 0x35)] [] [] 0b00000)
    (fun t => t.readD .r0 == 0xB5 && t.sr.ccr.byte == 0b00100) = true := by decide
theorem test_bchgStatic_2 : runs [0x0878, 0x0009, 0x2000] (start [] [] (at2000 [2]) 0b00000)
    (fun t => bytesAt t 0x2000 1 == [0] && t.sr.ccr.byte == 0b00000) = true := by decide
theorem test_bclrStatic_1 : runs [0x0880, 0x0007] (start [(.r0, 0xB5)] [] [] 0b11011)
    (fun t => t.readD .r0 == 0x35 && t.sr.ccr.byte == 0b11011) = true := by decide
theorem test_bclrStatic_2 : runs [0x0880, 0x0007] (start [(.r0, 0x12345635)] [] [] 0b00000)
    (fun t => t.readD .r0 == 0x12345635 && t.sr.ccr.byte == 0b00100) = true := by decide
theorem test_bsetStatic_1 : runs [0x08C2, 0x001F] (start [(.r2, 0)] [] [] 0b00000)
    (fun t => t.readD .r2 == 0x80000000 && t.sr.ccr.byte == 0b00100) = true := by decide
theorem test_bsetStatic_2 : runs [0x08D0, 0x0003] (start [] [(.r0, 0x2000)] (at2000 [8]) 0b00100)
    (fun t => bytesAt t 0x2000 1 == [8] && t.sr.ccr.byte == 0b00000) = true := by decide
theorem test_btstDyn_1 : runs [0x0310] (start [(.r1, 0xF)] [(.r0, 0x2001)] (at2000 [0xFF, 0x7F]) 0b00000)
    (fun t => bytesAt t 0x2000 2 == [0xFF, 0x7F] && t.sr.ccr.byte == 0b00100) = true := by decide
theorem test_btstDyn_2 : runs [0x013C, 0x0081] (start [(.r0, 7)] [] [] 0b00000)
    (fun t => t.readD .r0 == 7 && t.sr.ccr.byte == 0b00000) = true := by decide
theorem test_bchgDyn_1 : runs [0x0340] (start [(.r0, 0), (.r1, 0x1F)] [] [] 0b00000)
    (fun t => t.readD .r0 == 0x80000000 && t.sr.ccr.byte == 0b00100) = true := by decide
theorem test_bclrDyn_1 : runs [0x0390] (start [(.r1, 0)] [(.r0, 0x2000)] (at2000 [0xFF]) 0b00000)
    (fun t => bytesAt t 0x2000 1 == [0xFE] && t.sr.ccr.byte == 0b00000) = true := by decide
theorem test_bsetDyn_1 : runs [0x01C0] (start [(.r0, 4)] [] [] 0b00000)
    (fun t => t.readD .r0 == 0x14 && t.sr.ccr.byte == 0b00100) = true := by decide
theorem test_bsetDyn_2 : runs [0x03E7] (start [(.r1, 1)] [(.r7, 0x2002)] (at2000 [0, 0]) 0b00000)
    (fun t => t.readA .r7 == 0x2000 && bytesAt t 0x2000 2 == [2, 0] && t.sr.ccr.byte == 0b00100) = true := by decide
theorem test_move_1 : runs [0x30D8] (start [] [(.r0, 0x2000)] (at2000 [0x80, 1, 0, 0]) 0b00000)
    (fun t => t.readA .r0 == 0x2004 && bytesAt t 0x2000 4 == [0x80, 1, 0x80, 1] && t.sr.ccr.byte == 0b01000) = true := by decide
theorem test_move_2 :
    runs [0x3030, 0x1800] (start [(.r0, 0), (.r1, 0x10002)] [(.r0, 0xFFFF2000)] (at2000 [0, 0, 0xCA, 0xFE]) 0b00000)
    (fun t => t.readD .r0 == 0xCAFE && t.sr.ccr.byte == 0b01000) = true := by decide
theorem test_movea_1 : runs [0x3240] (start [(.r0, 0x8000)] [(.r1, 0)] [] 0b00000)
    (fun t => t.readA .r1 == 0xFFFF8000 && t.sr.ccr.byte == 0b00000) = true := by decide
theorem test_movea_2 : runs [0x2240] (start [(.r0, 0x80000000)] [(.r1, 0)] [] 0b10101)
    (fun t => t.readA .r1 == 0x80000000 && t.sr.ccr.byte == 0b10101) = true := by decide
theorem test_clr_1 : runs [0x4258] (start [] [(.r0, 0x2000)] (at2000 [0x12, 0x34, 0x56, 0x78]) 0b00000)
    (fun t => t.readA .r0 == 0x2002 && bytesAt t 0x2000 4 == [0, 0, 0x56, 0x78] && t.sr.ccr.byte == 0b00100) = true := by decide
theorem test_clr_2 : runs [0x4201] (start [(.r1, 0xBBBBBBBB)] [] [] 0b11111)
    (fun t => t.readD .r1 == 0xBBBBBB00 && t.sr.ccr.byte == 0b10100) = true := by decide
theorem test_notEa_1 : runs [0x4601] (start [(.r1, 0x123456F0)] [] [] 0b00000)
    (fun t => t.readD .r1 == 0x1234560F && t.sr.ccr.byte == 0b00000) = true := by decide
theorem test_notEa_2 : runs [0x4681] (start [(.r1, 0xFFFFFFFF)] [] [] 0b11011)
    (fun t => t.readD .r1 == 0 && t.sr.ccr.byte == 0b10100) = true := by decide
theorem test_extW_1 : runs [0x4880] (start [(.r0, 0x1234567F)] [] [] 0b11111)
    (fun t => t.readD .r0 == 0x1234007F && t.sr.ccr.byte == 0b10000) = true := by decide
theorem test_extW_2 : runs [0x4880] (start [(.r0, 0xC3)] [] [] 0b00000)
    (fun t => t.readD .r0 == 0xFFC3 && t.sr.ccr.byte == 0b01000) = true := by decide
theorem test_extL_1 : runs [0x48C1] (start [(.r1, 0xE1FC)] [] [] 0b00000)
    (fun t => t.readD .r1 == 0xFFFFE1FC && t.sr.ccr.byte == 0b01000) = true := by decide
theorem test_extL_2 : runs [0x48C1] (start [(.r1, 0xFFFF0000)] [] [] 0b10000)
    (fun t => t.readD .r1 == 0 && t.sr.ccr.byte == 0b10100) = true := by decide
theorem test_lea_1 : runs [0x41F8, 0x8000] (start [] [(.r0, 0)] [] 0b00000)
    (fun t => t.readA .r0 == 0xFFFF8000 && t.sr.ccr.byte == 0b00000) = true := by decide
theorem test_lea_2 : runs [0x47FA, 0x0004] (start [] [(.r3, 0)] [] 0b00000)
    (fun t => t.readA .r3 == 0x406 && t.sr.ccr.byte == 0b00000) = true := by decide
theorem test_stop_1 : runs [0x4E72, 0x2700] (start [] [] [] 0b11111)
    (fun t => t.stopped && t.pc == 0x404 && t.sr.ccr.byte == 0b00000) = true := by decide
theorem test_addq_1 : runs [0x5001] (start [(.r1, 0x7C)] [] [] 0b00000)
    (fun t => t.readD .r1 == 0x84 && t.sr.ccr.byte == 0b01010) = true := by decide
theorem test_addq_2 : runs [0x5227] (start [] [(.r7, 0x2002)] (at2000 [0x7F, 0]) 0b00000)
    (fun t => t.readA .r7 == 0x2000 && bytesAt t 0x2000 2 == [0x80, 0] && t.sr.ccr.byte == 0b01010) = true := by decide
theorem test_addqA_1 : runs [0x5248] (start [] [(.r0, 0xFFFF)] [] 0b11111)
    (fun t => t.readA .r0 == 0x10000 && t.sr.ccr.byte == 0b11111) = true := by decide
theorem test_addqA_2 : runs [0x508F] (start [] [(.r7, 0x2FF8)] [] 0b00000)
    (fun t => t.readA .r7 == 0x3000 && t.sr.ccr.byte == 0b00000) = true := by decide
theorem test_subq_1 : runs [0x5990] (start [] [(.r0, 0x2000)] (at2000 [0x80, 0, 0, 3]) 0b00000)
    (fun t => bytesAt t 0x2000 4 == [0x7F, 0xFF, 0xFF, 0xFF] && t.sr.ccr.byte == 0b00010) = true := by decide
theorem test_subq_2 : runs [0x5140] (start [(.r0, 5)] [] [] 0b00000)
    (fun t => t.readD .r0 == 0xFFFD && t.sr.ccr.byte == 0b11001) = true := by decide
theorem test_subqA_1 : runs [0x5348] (start [] [(.r0, 0x10000)] [] 0b11111)
    (fun t => t.readA .r0 == 0xFFFF && t.sr.ccr.byte == 0b11111) = true := by decide
theorem test_orToDn_1 : runs [0x8499] (start [(.r2, 0xFF00)] [(.r1, 0x2000)] (at2000 [0x12, 0x34, 0, 0xFF]) 0b00000)
    (fun t => t.readD .r2 == 0x1234FFFF && t.readA .r1 == 0x2004 && t.sr.ccr.byte == 0b00000) = true := by decide
theorem test_orToDn_2 : runs [0x8041] (start [(.r0, 0), (.r1, 0xFFFF0000)] [] [] 0b11011)
    (fun t => t.readD .r0 == 0 && t.sr.ccr.byte == 0b10100) = true := by decide
theorem test_orToEa_1 : runs [0x8110] (start [(.r0, 0x80)] [(.r0, 0x2000)] (at2000 [1]) 0b00000)
    (fun t => bytesAt t 0x2000 1 == [0x81] && t.sr.ccr.byte == 0b01000) = true := by decide
theorem test_divu_1 : runs [0x80C1] (start [(.r0, 0xFFFEFFFF), (.r1, 0xFFFF)] [] [] 0b00000)
    (fun t => t.readD .r0 == 0xFFFEFFFF && t.sr.ccr.byte == 0b01000) = true := by decide
theorem test_divu_2 : runs [0x80FC, 0x0007] (start [(.r0, 0xC350)] [] [] 0b11111)
    (fun t => t.readD .r0 == 0x61BE6 && t.sr.ccr.byte == 0b10000) = true := by decide
theorem test_divs_1 : runs [0x81FC, 0xFFF9] (start [(.r0, 0xFFFFFF9C)] [] [] 0b00000)
    (fun t => t.readD .r0 == 0xFFFE000E && t.sr.ccr.byte == 0b00000) = true := by decide
theorem test_divs_2 : runs [0x81FC, 0x0001] (start [(.r0, 0xFFFF8000)] [] [] 0b00000)
    (fun t => t.readD .r0 == 0x8000 && t.sr.ccr.byte == 0b01000) = true := by decide
theorem test_subToDn_1 : runs [0x9041] (start [(.r0, 0x7FFF), (.r1, 0xFFFF)] [] [] 0b00000)
    (fun t => t.readD .r0 == 0x8000 && t.sr.ccr.byte == 0b11011) = true := by decide
theorem test_subToDn_2 : runs [0x9049] (start [(.r0, 0)] [(.r1, 0x10001)] [] 0b00000)
    (fun t => t.readD .r0 == 0xFFFF && t.sr.ccr.byte == 0b11001) = true := by decide
theorem test_subToEa_1 : runs [0x9150] (start [(.r0, 1)] [(.r0, 0x2000)] (at2000 [0, 0]) 0b00000)
    (fun t => bytesAt t 0x2000 2 == [0xFF, 0xFF] && t.sr.ccr.byte == 0b11001) = true := by decide
theorem test_suba_1 : runs [0x90FC, 0x8000] (start [] [(.r0, 0)] [] 0b00000)
    (fun t => t.readA .r0 == 0x8000 && t.sr.ccr.byte == 0b00000) = true := by decide
theorem test_suba_2 : runs [0x91C8] (start [] [(.r0, 0x12345678)] [] 0b00000)
    (fun t => t.readA .r0 == 0 && t.sr.ccr.byte == 0b00000) = true := by decide
theorem test_subx_1 : runs [0x9348] (start [] [(.r0, 0x2002), (.r1, 0x2004)] (at2000 [0, 1, 0, 1]) 0b10100)
    (fun t => t.readA .r0 == 0x2000 && t.readA .r1 == 0x2002 && bytesAt t 0x2000 4 == [0, 1, 0xFF, 0xFF] && t.sr.ccr.byte == 0b11001) = true := by decide
theorem test_subx_2 : runs [0x9300] (start [(.r0, 0), (.r1, 1)] [] [] 0b10100)
    (fun t => t.readD .r1 == 0 && t.sr.ccr.byte == 0b00100) = true := by decide
theorem test_eor_1 : runs [0xB318] (start [(.r1, 0xFF)] [(.r0, 0x2000)] (at2000 [0xF]) 0b00000)
    (fun t => t.readA .r0 == 0x2001 && bytesAt t 0x2000 1 == [0xF0] && t.sr.ccr.byte == 0b01000) = true := by decide
theorem test_eor_2 : runs [0xB180] (start [(.r0, 0xDEADBEEF)] [] [] 0b11011)
    (fun t => t.readD .r0 == 0 && t.sr.ccr.byte == 0b10100) = true := by decide
theorem test_andToDn_1 : runs [0xC260] (start [(.r1, 0xFFFFFFFF)] [(.r0, 0x2002)] (at2000 [0xF, 0xF0]) 0b00000)
    (fun t => t.readD .r1 == 0xFFFF0FF0 && t.readA .r0 == 0x2000 && t.sr.ccr.byte == 0b00000) = true := by decide
theorem test_andToDn_2 : runs [0xC001] (start [(.r0, 0x123456F0), (.r1, 0x3C)] [] [] 0b11111)
    (fun t => t.readD .r0 == 0x12345630 && t.sr.ccr.byte == 0b10000) = true := by decide
theorem test_andToEa_1 :
    runs [0xC190] (start [(.r0, 0xFF00FF00)] [(.r0, 0x2000)] (at2000 [0x12, 0x34, 0x56, 0x78]) 0b00000)
    (fun t => bytesAt t 0x2000 4 == [0x12, 0, 0x56, 0] && t.sr.ccr.byte == 0b00000) = true := by decide
theorem test_mulu_1 : runs [0xC0C1] (start [(.r0, 0xFFFF), (.r1, 0xAAAAFFFF)] [] [] 0b00000)
    (fun t => t.readD .r0 == 0xFFFE0001 && t.sr.ccr.byte == 0b01000) = true := by decide
theorem test_mulu_2 : runs [0xC0D0] (start [(.r0, 3)] [(.r0, 0x2000)] (at2000 [0, 5]) 0b00000)
    (fun t => t.readD .r0 == 0xF && t.sr.ccr.byte == 0b00000) = true := by decide
theorem test_muls_1 : runs [0xC1C1] (start [(.r0, 0x8000), (.r1, 0x7FFF)] [] [] 0b00000)
    (fun t => t.readD .r0 == 0xC0008000 && t.sr.ccr.byte == 0b01000) = true := by decide
theorem test_muls_2 : runs [0xC1FC, 0x0040] (start [(.r0, 0x1234FFFF)] [] [] 0b00000)
    (fun t => t.readD .r0 == 0xFFFFFFC0 && t.sr.ccr.byte == 0b01000) = true := by decide
theorem test_addToDn_1 : runs [0xD041] (start [(.r0, 0x12348000), (.r1, 0x8000)] [] [] 0b00000)
    (fun t => t.readD .r0 == 0x12340000 && t.sr.ccr.byte == 0b10111) = true := by decide
theorem test_addToDn_2 : runs [0xD010] (start [(.r0, 1)] [(.r0, 0x2001)] (at2000 [0x12, 0x34, 0x56, 0x78]) 0b00000)
    (fun t => t.readD .r0 == 0x35 && t.sr.ccr.byte == 0b00000) = true := by decide
theorem test_addToEa_1 : runs [0xD1A0] (start [(.r0, 1)] [(.r0, 0x2004)] (at2000 [0, 0, 0xFF, 0xFF]) 0b00000)
    (fun t => t.readA .r0 == 0x2000 && bytesAt t 0x2000 4 == [0, 1, 0, 0] && t.sr.ccr.byte == 0b00000) = true := by decide
theorem test_addToEa_2 : runs [0xD110] (start [(.r0, 1)] [(.r0, 0x2000)] (at2000 [0xFF, 0x55]) 0b00000)
    (fun t => bytesAt t 0x2000 2 == [0, 0x55] && t.sr.ccr.byte == 0b10101) = true := by decide
theorem test_adda_1 : runs [0xD0C8] (start [] [(.r0, 0x18000)] [] 0b00000)
    (fun t => t.readA .r0 == 0x10000 && t.sr.ccr.byte == 0b00000) = true := by decide
theorem test_adda_2 : runs [0xD0FC, 0xFFFE] (start [] [(.r0, 0x1000)] [] 0b11111)
    (fun t => t.readA .r0 == 0xFFE && t.sr.ccr.byte == 0b11111) = true := by decide
theorem test_addx_1 : runs [0xDF0F] (start [] [(.r7, 0x2004)] (at2000 [0x10, 0xEE, 0x20, 0xEE]) 0b10000)
    (fun t => t.readA .r7 == 0x2000 && bytesAt t 0x2000 4 == [0x31, 0xEE, 0x20, 0xEE] && t.sr.ccr.byte == 0b00000) = true := by decide
theorem test_addx_2 : runs [0xD300] (start [(.r0, 0xFF), (.r1, 0)] [] [] 0b10100)
    (fun t => t.readD .r1 == 0 && t.sr.ccr.byte == 0b10101) = true := by decide
theorem test_asrReg_1 : runs [0xE2A2] (start [(.r1, 0x40), (.r2, 0x80000001)] [] [] 0b10001)
    (fun t => t.readD .r2 == 0x80000001 && t.sr.ccr.byte == 0b11000) = true := by decide
theorem test_asrReg_2 : runs [0xE240] (start [(.r0, 0xAAAA8001)] [] [] 0b00000)
    (fun t => t.readD .r0 == 0xAAAAC000 && t.sr.ccr.byte == 0b11001) = true := by decide
theorem test_aslReg_1 : runs [0xE500] (start [(.r0, 0x60)] [] [] 0b00000)
    (fun t => t.readD .r0 == 0x80 && t.sr.ccr.byte == 0b11011) = true := by decide
theorem test_aslReg_2 : runs [0xE3A2] (start [(.r1, 0xFFFFFF44), (.r2, 1)] [] [] 0b00000)
    (fun t => t.readD .r2 == 0x10 && t.sr.ccr.byte == 0b00000) = true := by decide
theorem test_lsrReg_1 : runs [0xE008] (start [(.r0, 0x80)] [] [] 0b00000)
    (fun t => t.readD .r0 == 0 && t.sr.ccr.byte == 0b10101) = true := by decide
theorem test_lsrReg_2 : runs [0xE22A] (start [(.r1, 0), (.r2, 0x5A)] [] [] 0b10001)
    (fun t => t.readD .r2 == 0x5A && t.sr.ccr.byte == 0b10000) = true := by decide
theorem test_lslReg_1 : runs [0xE948] (start [(.r0, 0xABCD1234)] [] [] 0b00000)
    (fun t => t.readD .r0 == 0xABCD2340 && t.sr.ccr.byte == 0b10001) = true := by decide
theorem test_lslReg_2 : runs [0xE3AA] (start [(.r1, 0x21), (.r2, 1)] [] [] 0b00000)
    (fun t => t.readD .r2 == 0 && t.sr.ccr.byte == 0b00100) = true := by decide
theorem test_roxrReg_1 : runs [0xE890] (start [(.r0, 0x12345678)] [] [] 0b10000)
    (fun t => t.readD .r0 == 0x11234567 && t.sr.ccr.byte == 0b10001) = true := by decide
theorem test_roxrReg_2 : runs [0xE230] (start [(.r0, 0x81), (.r1, 0)] [] [] 0b10000)
    (fun t => t.readD .r0 == 0x81 && t.sr.ccr.byte == 0b11001) = true := by decide
theorem test_roxlReg_1 : runs [0xE330] (start [(.r0, 0x81), (.r1, 9)] [] [] 0b00000)
    (fun t => t.readD .r0 == 0x81 && t.sr.ccr.byte == 0b01000) = true := by decide
theorem test_roxlReg_2 : runs [0xE990] (start [(.r0, 0x12345678)] [] [] 0b10000)
    (fun t => t.readD .r0 == 0x23456788 && t.sr.ccr.byte == 0b10001) = true := by decide
theorem test_rorReg_1 : runs [0xE439] (start [(.r1, 0x81), (.r2, 9)] [] [] 0b00000)
    (fun t => t.readD .r1 == 0xC0 && t.sr.ccr.byte == 0b01001) = true := by decide
theorem test_rorReg_2 : runs [0xE259] (start [(.r1, 0xFFFF0001)] [] [] 0b00000)
    (fun t => t.readD .r1 == 0xFFFF8000 && t.sr.ccr.byte == 0b01001) = true := by decide
theorem test_rolReg_1 : runs [0xE19B] (start [(.r3, 0x12345678)] [] [] 0b10000)
    (fun t => t.readD .r3 == 0x34567812 && t.sr.ccr.byte == 0b10000) = true := by decide
theorem test_rolReg_2 : runs [0xE33B] (start [(.r1, 0), (.r3, 0x81)] [] [] 0b10001)
    (fun t => t.readD .r3 == 0x81 && t.sr.ccr.byte == 0b11000) = true := by decide
theorem test_asrMem_1 : runs [0xE0D8] (start [] [(.r0, 0x2000)] (at2000 [0x80, 1]) 0b00000)
    (fun t => t.readA .r0 == 0x2002 && bytesAt t 0x2000 2 == [0xC0, 0] && t.sr.ccr.byte == 0b11001) = true := by decide
theorem test_aslMem_1 : runs [0xE1F8, 0x2000] (start [] [] (at2000 [0xAD, 0x80]) 0b00000)
    (fun t => bytesAt t 0x2000 2 == [0x5B, 0] && t.sr.ccr.byte == 0b10011) = true := by decide
theorem test_lsrMem_1 : runs [0xE2D9] (start [] [(.r1, 0x2000)] (at2000 [0x80, 1]) 0b00000)
    (fun t => t.readA .r1 == 0x2002 && bytesAt t 0x2000 2 == [0x40, 0] && t.sr.ccr.byte == 0b10001) = true := by decide
theorem test_lslMem_1 : runs [0xE3D0] (start [] [(.r0, 0x2000)] (at2000 [0xC0, 0]) 0b00000)
    (fun t => bytesAt t 0x2000 2 == [0x80, 0] && t.sr.ccr.byte == 0b11001) = true := by decide
theorem test_roxrMem_1 : runs [0xE4F8, 0x2000] (start [] [] (at2000 [0, 1]) 0b00000)
    (fun t => bytesAt t 0x2000 2 == [0, 0] && t.sr.ccr.byte == 0b10101) = true := by decide
theorem test_roxlMem_1 : runs [0xE5D0] (start [] [(.r0, 0x2000)] (at2000 [0x80, 0]) 0b10000)
    (fun t => bytesAt t 0x2000 2 == [0, 1] && t.sr.ccr.byte == 0b10001) = true := by decide
theorem test_rorMem_1 : runs [0xE6E0] (start [] [(.r0, 0x2002)] (at2000 [0, 1]) 0b00000)
    (fun t => t.readA .r0 == 0x2000 && bytesAt t 0x2000 2 == [0x80, 0] && t.sr.ccr.byte == 0b01001) = true := by decide
theorem test_rolMem_1 : runs [0xE7D0] (start [] [(.r0, 0x2000)] (at2000 [0x80, 0]) 0b10000)
    (fun t => bytesAt t 0x2000 2 == [0, 1] && t.sr.ccr.byte == 0b10001) = true := by decide
theorem test_bcc_1 : runs [0x6600, 0x8000] (start [] [] [] 0) (fun t => t.pc == 0xFFFF8402) = true := by decide
theorem test_bcc_2 : runs [0x6E06] (start [] [] [] 0b01010) (fun t => t.pc == 0x408) = true := by decide

/-! ### Exceptions: 95_test_vectors.md sections 2 and 3 -/

theorem test_divu_by_zero : runs [0x80C1] (start [(.r0, 0x64), (.r1, 0xFFFF0000)] [] [] 0b11111)
    (fun t => t.ssp == 0x2FFA && t.sr.s && t.readD .r0 == 0x64 && t.sr.ccr.x && !t.sr.ccr.c) = true := by decide
theorem test_divs_overflow : runs [0x81FC, 0xFFFF] (start [(.r0, 0xFFFF8000)] [] [] 0)
    (fun t => t.readD .r0 == 0xFFFF8000 && t.sr.ccr.v && !t.sr.ccr.c) = true := by decide
theorem test_word_at_odd_address : runs [0xD050] (start [(.r0, 1)] [(.r0, 0x2001)] [] 0)
    (fun t => t.ssp == 0x2FF2 && t.sr.s && t.readD .r0 == 1 && t.sr.ccr.byte == 0) = true := by decide
theorem test_illegal_word : runs [0x4AFC] (start [] [] [(0x12, 8)] 0)
    (fun t => t.pc == 0x800 && bytesAt t 0x2FFA 6 == [0x27, 0, 0, 0, 4, 0]) = true := by decide
theorem test_line_a : runs [0xA000] (start [] [] [(0x2A, 8)] 0) (fun t => t.pc == 0x800) = true := by decide
theorem test_line_f : runs [0xF000] (start [] [] [(0x2E, 8)] 0) (fun t => t.pc == 0x800) = true := by decide
theorem test_stop_in_user_state :
    runs [0x4E72, 0x2700] { start [] [] [(0x22, 8)] 0 with sr := StatusReg.ofWord 0 }
      (fun t => t.pc == 0x800 && t.sr.s && !t.stopped && bytesAt t 0x2FFC 4 == [0, 0, 4, 0]) = true := by decide
theorem test_trace_after_a_traced_instruction :
    runs [] { start [] [] [(0x26, 8)] 0 with tracePending := true } (fun t => t.pc == 0x800) = true := by decide
theorem test_interrupt_above_the_mask :
    runs [] { start [] [] [(0x6E, 8)] 0 with
        sr := StatusReg.ofWord 0x2200, inputs := [⟨false, 3, .autovector⟩] }
      (fun t => t.pc == 0x800 && t.sr.i == 3) = true := by decide
theorem test_no_interrupt_at_the_mask :
    runs [0x4201] { start [] [] [] 0 with sr := StatusReg.ofWord 0x2300, inputs := [⟨false, 3, .autovector⟩] }
      (fun t => t.pc == 0x402) = true := by decide
theorem test_reset :
    runs [] { start [] [] [(1, 0x12), (5, 0x34)] 0 with halted := true, inputs := [⟨true, 0, .spurious⟩] }
      (fun t => t.ssp == 0x120000 && t.pc == 0x340000 && t.sr.s && t.sr.i == 7 && !t.halted) = true := by decide

/-! ### Witnesses: states and operands that meet the hypotheses of the statements -/

/-- A supervisor state with even addresses in A0 and A1, the last at the top of the address space. -/
def calm : State := start [(.r0, 0x00050003), (.r1, 4)] [(.r0, 0x2000), (.r1, 0xFFFFFC)] [(0x2001, 5)] 0b10000

/-- `calm` in user state. -/
def calmUser : State := { calm with sr := StatusReg.ofWord 0x0010, usp := 0x4000 }

/-- `calm` with nothing that answers. -/
def silent : State := { calm with busMap := [] }

theorem witness_DecodeInvertsEncode :
    (Instr.move .byte (.imm 0xFF) (.absL 0xFFFFFFFF)).wellFormed = true ∧ (Instr.addqA 0 .word .r7).wellFormed = true ∧
    (Instr.bcc .le (.short 0xFF)).wellFormed = true := by decide

theorem witness_DecodedInstructionsAreWellFormed :
    decode [0x4E72, 0x2700, 0x1234] = .ok (.stop 0x2700, [0x1234]) := by decide

theorem witness_StepRunsDecodedInstruction :
    let s := place [0xD290] calm
    s.atInstruction = true ∧ s.accessible .read s.pc 2 = true ∧
    decode (s.sampled.fetchedWord s.pc :: s.sampled.wordsFrom (s.pc + 2) 4) =
      .ok (.addToDn .long (.ind .r0) .r1, [0, 0, 0, 0]) := by decide

theorem witness_MemoryReadsWhatWasWritten :
    calm.mem.wf = true ∧ 4 ≤ 4 ∧ calm.accessible .write 0xFFFFFC 4 = true ∧ busAddress 0xFFFFFC + 4 ≤ 2 ^ 24 ∧
    calm.accessible .read 0xFFFFFC 4 = true ∧ calm.plain (busAddress 0xFFFFFC) 4 = true ∧
    calm.accessible .write 0xFFFFFE 2 = true ∧ calm.plain (busAddress 0xFFFFFE) 2 = true := by decide

theorem witness_CanonicalMemoriesAreEqual :
    Memory.wf [(0, 7), (0xFFFFFF, 1)] = true ∧
    ∀ k, Memory.read [(0, 7), (0xFFFFFF, 1)] k = Memory.read [(0, 7), (0xFFFFFF, 1)] k :=
  ⟨by decide, fun _ => rfl⟩

theorem witness_AlignmentRule_odd :
    (0x2001 : Long).getLsbD 0 = true ∧ ({ calm with pc := 0x401 } : State).pc.getLsbD 0 = true := by decide

theorem witness_AlignmentRule_even :
    (0x2002 : Long).getLsbD 0 = false ∧
    (∃ x t, silent.memRead .source .data 0x2002 4 = .abort x t) ∧ (∃ x t, silent.memWrite 0x2001 1 0 = .abort x t) :=
  ⟨by decide, ⟨_, _, rfl⟩, ⟨_, _, rfl⟩⟩

/-- For AddCompletes, SubtractCompletes, LogicCompletes and ClearCompletes. -/
theorem witness_AddCompletes :
    calm.pastOpWord.canRead .long (.postinc .r1) = true ∧ calm.pastOpWord.canModify .long (.predec .r7) = true ∧
    calm.pastOpWord.canModify .byte (.dn .r0) = true ∧ calm.pastOpWord.fetchable (immExt .long) = true ∧
    (calm.pastOpWord.afterExt (immExt .long)).canModify .long (.absL 0x2000) = true := by decide

theorem witness_CompareCompletes :
    calm.pastOpWord.fetchable (immExt .word) = true ∧
    (calm.pastOpWord.afterExt (immExt .word)).canRead .word (.postinc .r0) = true := by decide

theorem witness_AddressArithmeticCompletes :
    calm.pastOpWord.canRead .word (.postinc .r0) = true ∧ eaSteps .r1 (.postinc .r0) = false ∧
    eaSteps .r0 (.postinc .r0) = true := by decide

theorem witness_ExtendedMemoryCompletes :
    calm.pastOpWord.canRead .byte (.predec .r0) = true ∧
    (calm.pastOpWord.afterEa .byte (.predec .r0)).canModify .byte (.predec .r0) = true ∧
    calm.pastOpWord.canRead .long (.predec .r0) = true ∧
    (calm.pastOpWord.afterEa .long (.predec .r0)).canModify .long (.predec .r1) = true := by decide

theorem witness_SixtyFourBitAddition :
    RegNum.r1 ≠ .r2 ∧ RegNum.r2 ≠ .r3 ∧ RegNum.r0 ≠ .r2 := by decide

theorem witness_AndToCcrCompletes : calm.pastOpWord.fetchable 1 = true := by decide

theorem witness_NotAndEorUndoThemselves : RegNum.r1 ≠ .r2 := by decide

theorem witness_MultiplyCompletes :
    calm.pastOpWord.canRead .word (.imm 0x8000) = true ∧ calm.pastOpWord.canRead .word (.ind .r0) = true := by decide

/-- The upper word of the dividend is one below the divisor. -/
theorem witness_UnsignedDivideCompletes :
    let m := calm.pastOpWord.operand .word (.imm 6)
    calm.pastOpWord.canRead .word (.imm 6) = true ∧ ((calm.readD .r0).extractLsb' 16 16).toNat < m.toNat := by decide

/-- The quotients -32768 and 32767. -/
theorem witness_SignedDivideCompletes :
    let s := calm.writeD .r0 0xFFFF8000
    let s' := calm.writeD .r0 0xFFFF8001
    let m := s.pastOpWord.operand .word (.imm 1)
    let m' := s'.pastOpWord.operand .word (.imm 0xFFFF)
    s.pastOpWord.canRead .word (.imm 1) = true ∧ m ≠ 0 ∧ outOfRange 16 ((s.readD .r0).toInt.tdiv m.toInt) = false ∧
    s'.pastOpWord.canRead .word (.imm 0xFFFF) = true ∧ m' ≠ 0 ∧
    outOfRange 16 ((s'.readD .r0).toInt.tdiv m'.toInt) = false := by decide

/-- The upper word of the dividend is the divisor; the quotient is 32768. -/
theorem witness_DivideOverflow :
    let m := calm.pastOpWord.operand .word (.ind .r0)
    let s := calm.writeD .r0 0xFFFF8000
    let m' := s.pastOpWord.operand .word (.imm 0xFFFF)
    calm.pastOpWord.canRead .word (.ind .r0) = true ∧ m ≠ 0 ∧ m.toNat ≤ ((calm.readD .r0).extractLsb' 16 16).toNat ∧
    s.pastOpWord.canRead .word (.imm 0xFFFF) = true ∧ m' ≠ 0 ∧
    outOfRange 16 ((s.readD .r0).toInt.tdiv m'.toInt) = true := by decide

theorem witness_DivideByZero :
    let b := calm.pastOpWord.afterEa .word (.dn .r2)
    calm.pastOpWord.canRead .word (.dn .r2) = true ∧ calm.pastOpWord.operand .word (.dn .r2) = 0 ∧
    calm.mem.wf = true ∧ b.stackRoom 6 = true ∧ b.vectorReady 5 = true := by decide

theorem witness_ShiftCompletes : calm.pastOpWord.canModify .word (.predec .r1) = true := by decide

theorem witness_BitInstructionsComplete :
    calm.pastOpWord.fetchable 1 = true ∧ (calm.pastOpWord.afterExt 1).canRead (bitSize (.dn .r0)) (.dn .r0) = true ∧
    (calm.pastOpWord.afterExt 1).canModify (bitSize (.postinc .r0)) (.postinc .r0) = true ∧
    calm.pastOpWord.canRead (bitSize (.imm 1)) (.imm 1) = true ∧
    calm.pastOpWord.canModify (bitSize (.dn .r1)) (.dn .r1) = true := by decide

theorem witness_MoveCompletes :
    let b := calm.pastOpWord.afterEa .word (.postinc .r0)
    let b' := calm.pastOpWord.afterEa .long (.an .r0)
    calm.pastOpWord.canRead .word (.postinc .r0) = true ∧ b.fetchable (eaExt .word (.absL 0x2002)) = true ∧
    b.writable .word (b.eaLoc .word (.absL 0x2002)) = true ∧
    calm.pastOpWord.canRead .long (.an .r0) = true ∧ b'.fetchable (eaExt .long (.predec .r0)) = true ∧
    b'.writable .long (b'.eaLoc .long (.predec .r0)) = true := by decide

theorem witness_MoveToAddressRegisterCompletes : calm.pastOpWord.canRead .word (.postinc .r0) = true := by decide

theorem witness_LoadAddressCompletes :
    calm.pastOpWord.fetchable 1 = true ∧ calm.pastOpWord.fetchable 2 = true := by decide

theorem witness_BranchCompletes :
    calm.pastOpWord.fetchable 1 = true ∧ condHolds calm.sr.ccr .ne = true ∧ condHolds calm.sr.ccr .eq = false := by decide

theorem witness_StopCompletes : calm.sr.s = true ∧ calm.pastOpWord.fetchable 1 = true := by decide

theorem witness_StopIsPrivileged :
    calmUser.sr.s = false ∧ calmUser.mem.wf = true ∧ calmUser.stackRoom 6 = true ∧ calmUser.vectorReady 8 = true := by
  decide

/-- A frame that ends at the top of the address space, and the last vector. -/
theorem witness_ExceptionEntry :
    let s := { calm with ssp := 0x1000000 }
    s.mem.wf = true ∧ s.stackRoom 6 = true ∧ s.vectorReady 255 = true := by decide

theorem witness_GroupZeroEntry :
    calmUser.mem.wf = true ∧ calmUser.stackRoom 14 = true ∧ calmUser.vectorReady AccessError.bus.vector = true ∧
    calmUser.vectorReady AccessError.address.vector = true := by decide

/-- RAM from 0x1000 to 0x8000, a byte that only writes reach above it, and ROM at 0x9000; nothing below. -/
def patchy : State :=
  { calm with busMap := [⟨0x1000, 0x7000, true, true, true⟩, ⟨0x8000, 2, false, true, false⟩,
      ⟨0x9000, 0x100, true, false, true⟩] }

theorem witness_DoubleBusFaultHalts :
    let s := { calm with halted := true }
    let s' := { s with inputs := [⟨false, 7, .spurious⟩] }
    ({ calm with ssp := 0x3001 } : State).ssp.getLsbD 0 = true ∧
    s.halted = true ∧ s.presented.reset = false ∧ s.inputs = [] ∧
    s'.halted = true ∧ s'.presented.reset = false ∧ s'.inputs ≠ [] := by decide

/-- A frame of which one word lies in no memory, and vectors that cannot be read. -/
theorem witness_DoubleBusFaultHalts_memory :
    let s := { patchy with ssp := 0x100C }
    let r := { patchy with inputs := [⟨true, 0, .spurious⟩] }
    let o := { calm with pc := 0x401, ssp := 0x3001 }
    busAddress (s.ssp - 14) + 14 ≤ 2 ^ 24 ∧ s.responds .write (busAddress (s.ssp - 14)) 14 = false ∧
    patchy.responds .read (4 * AccessError.address.vector) 4 = false ∧
    r.presented.reset = true ∧ r.responds .read 0 8 = false ∧
    o.atInstruction = true ∧ o.pc.getLsbD 0 = true ∧ o.ssp.getLsbD 0 = true := by decide

/-- The entry of a trace exception. -/
def traceEntry : Entry :=
  { vector := 9, savedPc := 0x400, pc0 := 0x400, mask := none, group1 := true, opWord := 0, traced := false }

theorem witness_ReturnUndoesEntry :
    calmUser.mem.wf = true ∧ calmUser.stackRoom 6 = true ∧ calmUser.vectorReady traceEntry.vector = true ∧
    calmUser.responds .read (busAddress (calmUser.ssp - 6)) 6 = true ∧
    calmUser.plain (busAddress (calmUser.ssp - 6)) 6 = true ∧ ∃ t, enterException traceEntry calmUser = .next t :=
  ⟨by decide, by decide, by decide, by decide, by decide, _, rfl⟩

/-- A read at an odd address, and one where nothing responds. -/
theorem witness_OperandFaults_read :
    let s := calm.writeA .r0 0x2001
    s.pastOpWord.fetchable (eaExt .word (.postinc .r0)) = true ∧
    s.pastOpWord.eaLoc .word (.postinc .r0) = .mem 0x2001 .data ∧ misaligned 0x2001 Size.word.bytes = true ∧
    silent.pastOpWord.fetchable (eaExt .long (.predec .r1)) = true ∧
    silent.pastOpWord.eaLoc .long (.predec .r1) = .mem 0xFFFFF8 .data ∧
    misaligned 0xFFFFF8 Size.long.bytes = false ∧
    (silent.pastOpWord.afterEa .long (.predec .r1)).responds .read (busAddress 0xFFFFF8) Size.long.bytes = false := by
  decide

/-- A write to ROM that was read, and a byte that only writes reach. -/
theorem witness_OperandFaults_write :
    let s := { patchy.writeA .r0 0x9000 with pc := 0x1000 }
    let b := s.pastOpWord.afterExt (immExt .word)
    s.pastOpWord.fetchable (immExt .word) = true ∧ b.canRead .word (.postinc .r0) = true ∧
    b.eaLoc .word (.postinc .r0) = .mem 0x9000 .data ∧ misaligned 0x9000 Size.word.bytes = false ∧
    (b.afterEa .word (.postinc .r0)).responds .write (busAddress 0x9000) Size.word.bytes = false ∧
    s.accessible .write 0x8001 1 = true ∧ s.accessible .read 0x8001 1 = false := by decide

/-- The second extension word cannot be fetched, or the first is at an odd address. -/
theorem witness_OperandFaults_fetch :
    let s := { patchy with pc := 0x7FFC }
    let o := { calm with pc := 0x401 }
    s.pastOpWord.fetchable 1 = true ∧
    misaligned (s.pastOpWord.pc + BitVec.ofNat 32 (2 * 1)) 2 = false ∧
    (s.pastOpWord.afterExt 1).responds .read (busAddress (s.pastOpWord.pc + BitVec.ofNat 32 (2 * 1))) 2 = false ∧
    o.pastOpWord.fetchable 0 = true ∧ misaligned (o.pastOpWord.pc + BitVec.ofNat 32 (2 * 0)) 2 = true ∧
    o.sr.s = true := by decide

/-- The second operand of ADDX at an odd address, and the destination of MOVE. -/
theorem witness_OperandFaults_second :
    let s := calm.writeA .r1 0x2001
    let b := s.pastOpWord.afterEa .long (.predec .r0)
    let m := calm.pastOpWord.afterEa .word (.dn .r0)
    s.pastOpWord.canRead .long (.predec .r0) = true ∧ b.eaLoc .long (.predec .r1) = .mem 0x1FFD .data ∧
    misaligned 0x1FFD Size.long.bytes = true ∧
    calm.pastOpWord.canRead .word (.dn .r0) = true ∧ m.fetchable (eaExt .word (.absW 0x2001)) = true ∧
    m.eaLoc .word (.absW 0x2001) = .mem 0x2001 .data ∧ misaligned 0x2001 Size.word.bytes = true := by decide

theorem witness_LinesAAndFTrap :
    let s := place [0xA000] calm
    let s' := place [0xFFFF] calm
    s.atInstruction = true ∧ s.accessible .read s.pc 2 = true ∧ (s.sampled.fetchedWord s.pc).extractLsb' 12 4 = 0b1010 ∧
    s.mem.wf = true ∧ s.stackRoom 6 = true ∧ s.vectorReady 10 = true ∧
    s'.atInstruction = true ∧ s'.accessible .read s'.pc 2 = true ∧
    (s'.sampled.fetchedWord s'.pc).extractLsb' 12 4 = 0b1111 ∧
    s'.mem.wf = true ∧ s'.stackRoom 6 = true ∧ s'.vectorReady 11 = true := by decide

theorem witness_IllegalWordsTrap :
    let s := place [0x4AFC] calm
    let s' := place [0x4E73] calm
    s.atInstruction = true ∧ s.accessible .read s.pc 2 = true ∧
    decode (s.sampled.fetchedWord s.pc :: s.sampled.wordsFrom (s.pc + 2) 4) = .error .illegal ∧
    s.mem.wf = true ∧ s.stackRoom 6 = true ∧ s.vectorReady 4 = true ∧
    s'.atInstruction = true ∧ s'.accessible .read s'.pc 2 = true ∧
    decode (s'.sampled.fetchedWord s'.pc :: s'.sampled.wordsFrom (s'.pc + 2) 4) = .error (.outOfScope "RTE") := by decide

/-- A word in scope, an illegal one, one refused, and one of each line. -/
theorem witness_OperationWordClasses :
    tableName 0x4E72 = some "STOP" ∧ tableName 0x4AFC = none ∧ refusedName 0x4AFC = none ∧
    tableName 0x4E73 = none ∧ refusedName 0x4E73 = some "RTE" ∧ tableName 0xA000 = none ∧ refusedName 0xA000 = none ∧
    tableName 0xFFFF = none ∧ refusedName 0xFFFF = none := by decide

theorem witness_OddProgramCounter :
    let s := { calm with pc := 0x401 }
    s.atInstruction = true ∧ s.pc.getLsbD 0 = true ∧ s.mem.wf = true ∧ s.stackRoom 14 = true ∧
    s.vectorReady 3 = true := by decide

theorem witness_TraceComesFirst :
    let s := { calm with tracePending := true, inputs := [⟨false, 7, .spurious⟩] }
    s.presented.reset = false ∧ s.halted = false ∧ s.tracePending = true ∧ s.mem.wf = true ∧ s.stackRoom 6 = true ∧
    s.vectorReady 9 = true := by decide

/-- A level one above the mask, and a rise to level 7 at mask 7 in the stopped state. -/
theorem witness_InterruptIsTaken :
    let s := { calm with sr := StatusReg.ofWord 0x2200, inputs := [⟨false, 3, .vector 255⟩] }
    let s' := { calm with stopped := true, inputs := [⟨false, 7, .autovector⟩] }
    s.presented.reset = false ∧ s.halted = false ∧ s.tracePending = false ∧ s.sr.i < s.presented.level ∧
    s.mem.wf = true ∧ s.stackRoom 6 = true ∧ s.vectorReady 255 = true ∧
    s'.presented.reset = false ∧ s'.halted = false ∧ s'.tracePending = false ∧
    (s'.presented.level = 7 ∧ s'.ipl ≠ 7) ∧ s'.mem.wf = true ∧ s'.stackRoom 6 = true ∧ s'.vectorReady 31 = true := by
  decide

/-- A level equal to the mask, and level 7 that has not risen. -/
theorem witness_StoppedWaits :
    let s := { calm with sr := StatusReg.ofWord 0x2300, stopped := true, inputs := [⟨false, 3, .autovector⟩] }
    let s' := { calm with stopped := true, ipl := 7, inputs := [⟨false, 7, .autovector⟩] }
    s.presented.reset = false ∧ s.halted = false ∧ s.tracePending = false ∧ s.stopped = true ∧
    s.presented.level ≤ s.sr.i ∧ (s.presented.level = 7 → s.ipl = 7 ∧ s.nmi = false) ∧
    s'.presented.reset = false ∧ s'.halted = false ∧ s'.tracePending = false ∧ s'.stopped = true ∧
    s'.presented.level ≤ s'.sr.i ∧ s'.presented.level = 7 ∧ s'.ipl = 7 ∧ s'.nmi = false := by decide

theorem witness_ResetSequence :
    let s := { calm with halted := true, inputs := [⟨true, 0, .spurious⟩] }
    s.presented.reset = true ∧ s.responds .read 0 8 = true ∧ s.plain 0 8 = true := by decide

/-- Reset vectors in memory that lead to 0x400. -/
theorem witness_ResetSequence_launch :
    let image : List (Nat × List Byte) := [(2, [0x30, 0, 0, 0, 4, 0])]
    (Memory.load image).readBE 0 4 = 0x3000 ∧ (Memory.load image).readBE 4 4 = 0x400 := by decide

/-- Bytes that end at the top of the address space. -/
theorem witness_ResetState : 0xFFFFFE + ([1, 2] : List Byte).length ≤ 2 ^ 24 := by decide

/-- For the statements about every step; MemoryMapIsFixed has the same last hypothesis. -/
theorem witness_StepKeepsInvariant :
    let s := State.reset.withFetchWord 16 0xD290
    (s.mem.wf = true ∧ s.prefetch.length ≤ 2 ∧ (s.halted = true → s.stopped = false ∧ s.tracePending = false) ∧
      (s.stopped = true → s.tracePending = false) ∧ (s.nmi = true → s.ipl = 7)) ∧ ∃ t, step s = .next t :=
  ⟨by decide, _, rfl⟩

theorem witness_UserStateIsConfined :
    (place [0x4201] calmUser).sr.s = false ∧ runs [0x4201] calmUser (fun t => !t.sr.s) = true ∧
    (place [0x4AFC] calmUser).sr.s = false ∧ runs [0x4AFC] calmUser (fun t => t.sr.s) = true := by decide

theorem witness_OnlyStopLeavesSupervisorState :
    ∃ t, exec (.stop 0) calm = .next t ∧ calm.sr.s = true ∧ t.sr.s = false := ⟨_, rfl, rfl, rfl⟩

theorem witness_InactiveStackPointerIsKept :
    (∃ t, exec (.clr .long (.predec .r7)) calm = .next t ∧ calm.sr.s = true) ∧
    (∃ t, exec (.clr .long (.predec .r7)) calmUser = .next t ∧ calmUser.sr.s = false ∧ t.sr.s = false) :=
  ⟨⟨_, rfl, rfl⟩, ⟨_, rfl, rfl, rfl⟩⟩

theorem witness_AddressInstructionsKeepFlags :
    ∃ t, exec (.movea .long (.postinc .r0) .r1) calm = .next t := ⟨_, rfl⟩

theorem witness_FlagXIsNotAffected : ∃ t, exec (.andToDn .word (.ind .r0) .r1) calm = .next t := ⟨_, rfl⟩

theorem witness_PrefetchRule :
    heldAt calm.prefetch 0x402 = none ∧ (∃ t, exec (.bcc .ne (.short 6)) calm = .next t ∧ condHolds calm.sr.ccr .ne = true) ∧
    (∃ t, enterException traceEntry calm = .next t) ∧
    ∃ t, enterGroup0 ⟨.bus, 0x2000, .read, .data⟩ 0x400 0x4201 false calm = .next t :=
  ⟨by decide, ⟨_, rfl, by decide⟩, ⟨_, rfl⟩, _, rfl⟩

/-! ### Devices: an access that responds is made, and an access of which one byte does not is a bus error -/

theorem test_device_read_runs :
    runs [0xD010] { start [] [(.r0, 0x2000)] [] 0 with
        busMap := [⟨0x2000, 1, true, false, false⟩, ⟨0, 0x4000, true, true, true⟩] }
      (fun t => t.pc == 0x402 && t.sr.s && t.ssp == 0x3000) = true := by decide

theorem test_word_half_device_half_silent :
    runs [0xD050] { start [] [(.r0, 0x2000)] [] 0 with
        busMap := [⟨0x2000, 1, true, true, false⟩, ⟨0, 0x1000, true, true, true⟩, ⟨0x2F00, 0x100, true, true, true⟩] }
      (fun t => t.ssp == 0x2FF2 && t.sr.s && !t.halted && t.readA .r0 == 0x2000) = true := by decide

end Sys2Proof.Tests
end

section
/-! SUPPORT. What a step does at an instruction boundary where nothing stands before the instruction: the sampled state
runs the words at its program counter. -/

namespace Sys2Proof.Machine

/-- Sampling the inputs leaves the bus as it is, and so what can be accessed. -/
@[simp] theorem State.sampled_accessible (s : State) (dir : Direction) (addr : Long) (nb : Nat) :
    s.sampled.accessible dir addr nb = s.accessible dir addr nb :=
  State.accessible_congr (State.sampled_busMap s) dir addr nb

/-- The five conditions of an instruction boundary, by name. -/
theorem State.atInstruction_iff (s : State) :
    s.atInstruction = true ↔ s.presented.reset = false ∧ s.halted = false ∧ s.tracePending = false ∧
      s.sampled.interruptTaken = false ∧ s.stopped = false := by
  simp only [State.atInstruction, Bool.and_eq_true, Bool.not_eq_true', and_assoc]

/-- Where nothing stands before the instruction, a step samples the inputs and runs it (60_exceptions.md R254). -/
theorem step_eq_runInstruction {s : State} (h : s.atInstruction = true) : step s = s.sampled.runInstruction := by
  obtain ⟨hreset, hhalted, htrace, hinterrupt, hstopped⟩ := s.atInstruction_iff.mp h
  have hproceed : s.sampled.proceed s.presented.ack = s.sampled.runInstruction := by
    simp [State.proceed, htrace, hinterrupt, hstopped]
  simp [step, State.advance, hreset, hhalted, hproceed]

/-- An operation word that can be fetched is run with the four words after it (30_encoding.md R80, R81). -/
theorem State.runInstruction_of_accessible {s : State} (h : s.accessible .read s.pc 2 = true) :
    s.runInstruction = s.runWords (s.fetchedWord s.pc) (s.wordsFrom (s.pc + 2) 4) := by
  simp only [State.runInstruction, State.access_done h, maxWords]

/-- Words that decode run as the instruction they decode to (30_encoding.md R102). -/
theorem State.runWords_of_decode {s : State} {w : Word} {ws rest : List Word} {i : Instr}
    (h : decode (w :: ws) = .ok (i, rest)) :
    s.runWords w ws = mapNext s.drawn (exec i { s with ir := w, prefetch := s.ahead i }) := by
  simp only [State.runWords, h]

/-- At an instruction boundary with an operation word that can be fetched, a step runs the words at the program
counter, whatever they decode to. -/
theorem step_eq_runWords {s : State} (hat : s.atInstruction = true) (hacc : s.accessible .read s.pc 2 = true) :
    step s = s.sampled.runWords (s.sampled.fetchedWord s.pc) (s.sampled.wordsFrom (s.pc + 2) 4) := by
  have hfetch : s.sampled.accessible .read s.sampled.pc 2 = true := by simpa using hacc
  calc step s = s.sampled.runInstruction := step_eq_runInstruction hat
    _ = s.sampled.runWords (s.sampled.fetchedWord s.pc) (s.sampled.wordsFrom (s.pc + 2) 4) :=
      State.runInstruction_of_accessible hfetch

end Sys2Proof.Machine
end

section
/-! The statement of 00_scope.md: a step at decodable words. -/

namespace Sys2Proof.Proofs

open Sys2Proof.Machine

/-- Settles O4: at an instruction boundary the step runs the words at the program counter, and these decode. -/
theorem stepRunsDecodedInstruction : Obligations.StepRunsDecodedInstruction := by
  intro s i rest hat hacc hdecode
  rw [step_eq_runWords hat hacc, State.runWords_of_decode hdecode]

end Sys2Proof.Proofs
end

section
/-! SUPPORT. The status register and its word: each field back from its bits (10_state.md R25, R26). -/

namespace Sys2Proof.Machine

/-- The bits of the CCR byte are those of its fields in order. -/
theorem Ccr.byte_getLsbD (f : Ccr) (k : Nat) :
    f.byte.getLsbD k =
      (0#3 ++ BitVec.ofBool f.x ++ BitVec.ofBool f.n ++ BitVec.ofBool f.z ++ BitVec.ofBool f.v ++
        BitVec.ofBool f.c).getLsbD k :=
  rfl

/-- The bits of the status register's word are those of its fields in order. -/
theorem StatusReg.word_getLsbD (sr : StatusReg) (k : Nat) :
    sr.word.getLsbD k =
      (BitVec.ofBool sr.t ++ 0#1 ++ BitVec.ofBool sr.s ++ 0#2 ++ sr.i ++ sr.ccr.byte).getLsbD k :=
  rfl

@[simp] theorem Ccr.ofByte_byte (f : Ccr) : Ccr.ofByte f.byte = f := by
  simp only [Ccr.ofByte, Ccr.byte_getLsbD, BitVec.getLsbD_append]
  simp

theorem StatusReg.word_trace (sr : StatusReg) : sr.word.getLsbD 15 = sr.t := by
  simp only [StatusReg.word_getLsbD, BitVec.getLsbD_append]
  simp

theorem StatusReg.word_supervisor (sr : StatusReg) : sr.word.getLsbD 13 = sr.s := by
  simp only [StatusReg.word_getLsbD, BitVec.getLsbD_append]
  simp

theorem StatusReg.word_mask (sr : StatusReg) : sr.word.extractLsb' 8 3 = sr.i := by
  apply BitVec.eq_of_getLsbD_eq
  intro k hk
  simp only [BitVec.getLsbD_extractLsb', StatusReg.word_getLsbD, BitVec.getLsbD_append]
  simp [hk]

theorem StatusReg.word_lowByte (sr : StatusReg) : sr.word.setWidth 8 = sr.ccr.byte := by
  apply BitVec.eq_of_getLsbD_eq
  intro k hk
  simp only [BitVec.getLsbD_setWidth, StatusReg.word_getLsbD, BitVec.getLsbD_append]
  simp [hk]

@[simp] theorem StatusReg.ofWord_word (sr : StatusReg) : StatusReg.ofWord sr.word = sr := by
  rw [StatusReg.ofWord, sr.word_trace, sr.word_supervisor, sr.word_mask, sr.word_lowByte, Ccr.ofByte_byte]

/-- The bits that have storage are those of the mask 0xA71F. -/
theorem StatusReg.word_ofWord (w : Word) : (StatusReg.ofWord w).word = w &&& 0xA71F := by
  apply BitVec.eq_of_getLsbD_eq
  intro k hk
  simp only [StatusReg.word_getLsbD, StatusReg.ofWord, Ccr.ofByte, Ccr.byte_getLsbD, BitVec.getLsbD_append]
  interval_cases k <;> simp

end Sys2Proof.Machine
end

section
/-! SUPPORT. Memory as the function of its addresses that it stands for. -/

namespace Sys2Proof.Machine

theorem Memory.wfFrom_head {lo k : Nat} {v : Byte} {m : Memory} (h : Memory.wfFrom lo ((k, v) :: m) = true) :
    v ≠ unlistedByte ∧ Memory.wfFrom (k + 1) m = true := by
  obtain ⟨_, _, hv, hm⟩ := Memory.wfFrom_cons.mp h
  exact ⟨hv, hm⟩

/-- Of two canonical memories that read alike, neither lists an address below the other's least one. -/
theorem Memory.head_not_lt {lo lo' k k' : Nat} {v v' : Byte} {m m' : Memory}
    (h : Memory.wfFrom lo ((k, v) :: m) = true) (h' : Memory.wfFrom lo' ((k', v') :: m') = true)
    (hr : ∀ a, Memory.read ((k, v) :: m) a = Memory.read ((k', v') :: m') a) : ¬ k < k' := by
  intro hk
  obtain ⟨hv, _⟩ := Memory.wfFrom_head h
  obtain ⟨_, hm'⟩ := Memory.wfFrom_head h'
  have hread : v = unlistedByte := by
    simpa [Memory.read_cons, Nat.ne_of_gt hk, Memory.read_below hm' (show k < k' + 1 by omega)] using hr k
  exact hv hread

/-- A canonical memory is determined by what it reads. -/
theorem Memory.eq_of_read_eq {m m' : Memory} {lo lo' : Nat} (h : Memory.wfFrom lo m = true)
    (h' : Memory.wfFrom lo' m' = true) (hr : ∀ a, m.read a = m'.read a) : m = m' := by
  induction m generalizing m' lo lo' with
  | nil =>
    cases m' with
    | nil => rfl
    | cons e' m' =>
      obtain ⟨k', v'⟩ := e'
      have hv' := (Memory.wfFrom_head h').1
      exact absurd (by simpa [Memory.read_cons] using (hr k').symm) hv'
  | cons e m ih =>
    obtain ⟨k, v⟩ := e
    cases m' with
    | nil =>
      have hv := (Memory.wfFrom_head h).1
      exact absurd (by simpa [Memory.read_cons] using hr k) hv
    | cons e' m' =>
      obtain ⟨k', v'⟩ := e'
      obtain rfl : k = k' := by
        have hlt := Memory.head_not_lt h h' hr
        have hgt := Memory.head_not_lt h' h fun a => (hr a).symm
        omega
      obtain rfl : v = v' := by simpa [Memory.read_cons] using hr k
      obtain ⟨_, hm⟩ := Memory.wfFrom_head h
      obtain ⟨_, hm'⟩ := Memory.wfFrom_head h'
      have htail : ∀ a, Memory.read m a = Memory.read m' a := by
        intro a
        by_cases ha : k = a
        · subst ha
          rw [Memory.read_below hm (Nat.lt_succ_self k), Memory.read_below hm' (Nat.lt_succ_self k)]
        · simpa [Memory.read_cons, ha] using hr a
      rw [ih hm hm' htail]

/-- Bytes placed in a canonical memory read back, each at its address. -/
theorem Memory.read_writeBytes {m : Memory} {a : Nat} {bs : List Byte} (h : m.wf = true)
    (ha : a + bs.length ≤ 2 ^ Config.addrBits) (k : Nat) (hk : k < bs.length) :
    (m.writeBytes a bs).read (a + k) = bs[k] := by
  induction bs generalizing m a k with
  | nil => exact absurd hk (Nat.not_lt_zero k)
  | cons b bs ih =>
    simp only [List.length_cons] at ha hk
    rw [Memory.writeBytes]
    cases k with
    | zero =>
      rw [Memory.read_writeBytes_other (Or.inl (by omega)), Nat.add_zero, Memory.read_write_same a b h]
      rfl
    | succ k =>
      rw [show a + (k + 1) = a + 1 + k by omega]
      exact ih (Memory.wf_write b h (by omega)) (by omega) k (by omega)

end Sys2Proof.Machine
end

section
/-! SUPPORT. The invariant of the states in which a run begins (10_state.md R36, R37). -/

namespace Sys2Proof.Machine

/-- After reset the invariant holds: no byte is listed, nothing is held, nothing is pending. -/
theorem State.inv_reset : State.reset.Inv := by
  simp [State.Inv, State.reset, Memory.wf, Memory.wfFrom]

/-- A launch keeps the invariant where its bytes lie in the address space. -/
theorem State.inv_launch (d : DataRegs) (a : AddrRegs) (usp ssp : Long) {image : List (Nat × List Byte)}
    (h : ∀ p ∈ image, p.1 + p.2.length ≤ 2 ^ Config.addrBits) : (State.launch d a usp ssp image).Inv := by
  simp [State.Inv, Memory.wf_load h]

end Sys2Proof.Machine
end

section
/-! The statements of 10_state.md that are about the state alone. -/

namespace Sys2Proof.Proofs

open Sys2Proof.Machine

/-- Settles O58: the two directions of the status register's layout. -/
theorem statusRegisterLayout : Obligations.StatusRegisterLayout :=
  ⟨StatusReg.word_ofWord, StatusReg.ofWord_word⟩

/-- Settles O6: by induction on both lists, whose least addresses agree because they read alike. -/
theorem canonicalMemoriesAreEqual : Obligations.CanonicalMemoriesAreEqual :=
  fun _ _ h h' hr => Memory.eq_of_read_eq h h' hr

/-- Settles O50: the fields are as written; the bytes of the list read back because a launch loads them into an empty
memory. -/
theorem resetState : Obligations.ResetState := by
  refine ⟨⟨rfl, rfl, rfl, rfl, rfl, rfl, by decide, by decide, State.inv_reset⟩, ?_⟩
  intro d a usp ssp base bytes hfit
  have hload : (State.launch d a usp ssp [(base, bytes)]).mem = Memory.writeBytes [] base bytes := rfl
  refine ⟨rfl, ?_, rfl, rfl, rfl, rfl, State.inv_launch d a usp ssp ?_, ?_, ?_⟩
  · rw [State.launch_sr, StatusReg.word_ofWord]
    rfl
  · intro p hp
    rw [List.mem_singleton.mp hp]
    exact hfit
  · intro k hk
    rw [hload]
    exact Memory.read_writeBytes rfl hfit k hk
  · intro k hk
    rw [hload, Memory.read_writeBytes_other hk, Memory.read_nil]

end Sys2Proof.Proofs
end

section
/-! SUPPORT. The stack pointer of the other privilege state (10_state.md R23): no part of an instruction reads or
writes it, so that replacing it before a part or after it is the same. -/

namespace Sys2Proof.Machine

/-- The stack pointer replaced that is not A7 in the given privilege state. -/
def State.withOther (s : State) (sup : Bool) (w : Long) : State :=
  { s with usp := if sup then w else s.usp, ssp := if sup then s.ssp else w }

/-- The stack pointer of the other privilege state replaced. -/
def State.withInactive (s : State) (w : Long) : State := s.withOther s.sr.s w

/-- The same in the state in which a part of an instruction ends. -/
def Eff.withInactive {α : Type} (e : Eff α) (w : Long) : Eff α :=
  match e with
  | .done v s => .done v (s.withInactive w)
  | .abort x s => .abort x (s.withInactive w)
  | .refuse r => .refuse r

/-- Two parts, one after the other. -/
theorem Eff.bind_withInactive {α β : Type} {w : Long} {e e' : Eff α} {f f' : α → State → Eff β}
    (he : e' = e.withInactive w) (hf : ∀ v t, f' v (t.withInactive w) = (f v t).withInactive w) :
    e'.bind f' = (e.bind f).withInactive w := by
  subst he
  cases e with
  | done v t => exact hf v t
  | abort x t => rfl
  | refuse r => rfl

/-! ### Registers -/

@[simp] theorem State.sp_withInactive (s : State) (w : Long) : (s.withInactive w).sp = s.sp := by
  cases h : s.sr.s <;> simp [State.sp, State.withInactive, State.withOther, h]

@[simp] theorem State.readA_withInactive (s : State) (w : Long) (r : RegNum) :
    (s.withInactive w).readA r = s.readA r := by
  cases r with
  | r7 => exact s.sp_withInactive w
  | _ => rfl

@[simp] theorem State.setSp_withInactive (s : State) (w v : Long) :
    (s.withInactive w).setSp v = (s.setSp v).withInactive w := by
  cases h : s.sr.s <;> simp [State.setSp, State.withInactive, State.withOther, h]

@[simp] theorem State.writeA_withInactive (s : State) (w : Long) (r : RegNum) (v : Long) :
    (s.withInactive w).writeA r v = (s.writeA r v).withInactive w := by
  cases r with
  | r7 => exact s.setSp_withInactive w v
  | _ => rfl

@[simp] theorem State.indexValue_withInactive (s : State) (w : Long) (x : IndexExt) :
    (s.withInactive w).indexValue x = s.indexValue x := by
  simp only [State.indexValue, State.readA_withInactive]
  rfl

@[simp] theorem State.dataA_withInactive (s : State) (w : Long) (r : RegNum) (ea : EA) :
    (s.withInactive w).dataA r ea = s.dataA r ea := by
  simp only [State.dataA, State.readA_withInactive]
  rfl

/-! ### Effective addresses -/

@[simp] theorem State.eaLoc_withInactive (s : State) (w : Long) (sz : Size) (ea : EA) :
    (s.withInactive w).eaLoc sz ea = s.eaLoc sz ea := by
  cases ea <;> simp only [State.eaLoc, State.readA_withInactive, State.indexValue_withInactive] <;> rfl

@[simp] theorem State.eaStep_withInactive (s : State) (w : Long) (sz : Size) (ea : EA) :
    (s.withInactive w).eaStep sz ea = (s.eaStep sz ea).withInactive w := by
  cases ea <;> simp [State.eaStep]

/-! ### Accesses -/

theorem State.access_withInactive (s : State) (w : Long) (space : Space) (dir : Direction) (addr : Long) (nb : Nat) :
    (s.withInactive w).access space dir addr nb = (s.access space dir addr nb).withInactive w := by
  have hr : (s.withInactive w).responds dir (busAddress addr) nb = s.responds dir (busAddress addr) nb :=
    State.responds_congr rfl dir _ nb
  simp only [State.access, hr]
  split
  · rfl
  · split <;> rfl

theorem State.busRead_withInactive (s : State) (w : Long) (use : Config.ReadUse) (a nb : Nat) :
    (s.withInactive w).busRead use a nb = s.busRead use a nb :=
  State.busRead_congr (s := s) (t := s.withInactive w) rfl rfl rfl use a nb

theorem State.memRead_withInactive (s : State) (w : Long) (use : Config.ReadUse) (space : Space) (addr : Long)
    (nb : Nat) : (s.withInactive w).memRead use space addr nb = (s.memRead use space addr nb).withInactive w :=
  Eff.bind_withInactive (s.access_withInactive w space .read addr nb) fun _ t =>
    congrArg (Eff.done · (t.withInactive w)) (t.busRead_withInactive w use (busAddress addr) nb)

theorem State.memWrite_withInactive (s : State) (w : Long) (addr : Long) (nb : Nat) (v : Long) :
    (s.withInactive w).memWrite addr nb v = (s.memWrite addr nb v).withInactive w :=
  Eff.bind_withInactive (s.access_withInactive w .data .write addr nb) fun _ _ => rfl

theorem State.fetchExt_withInactive (s : State) (w : Long) (k : Nat) :
    (s.withInactive w).fetchExt k = (s.fetchExt k).withInactive w := by
  induction k generalizing s with
  | zero => rfl
  | succ k ih =>
    exact Eff.bind_withInactive (s.access_withInactive w .program .read s.pc 2) fun _ t => ih { t with pc := t.pc + 2 }

theorem State.evalEa_withInactive (s : State) (w : Long) (sz : Size) (ea : EA) :
    (s.withInactive w).evalEa sz ea = (s.evalEa sz ea).withInactive w :=
  Eff.bind_withInactive (s.fetchExt_withInactive w _) fun _ t => by
    rw [State.eaLoc_withInactive, State.eaStep_withInactive]
    rfl

theorem State.readLoc_withInactive (s : State) (w : Long) (use : Config.ReadUse) (sz : Size) (l : Loc) :
    (s.withInactive w).readLoc use sz l = (s.readLoc use sz l).withInactive w := by
  cases l with
  | dreg r => rfl
  | areg r =>
    rw [State.readLoc, State.readA_withInactive]
    rfl
  | mem a space => exact Eff.bind_withInactive (s.memRead_withInactive w use space a _) fun _ _ => rfl
  | imm v => rfl

theorem State.writeLoc_withInactive (s : State) (w : Long) (sz : Size) (l : Loc) (v : BitVec sz.bits) :
    (s.withInactive w).writeLoc sz l v = (s.writeLoc sz l v).withInactive w := by
  cases l with
  | dreg r => rfl
  | areg r =>
    rw [State.writeLoc, State.writeA_withInactive]
    rfl
  | mem a space => exact s.memWrite_withInactive w a _ _
  | imm v => rfl

theorem State.readEa_withInactive (s : State) (w : Long) (sz : Size) (ea : EA) :
    (s.withInactive w).readEa sz ea = (s.readEa sz ea).withInactive w :=
  Eff.bind_withInactive (s.evalEa_withInactive w sz ea) fun l t => t.readLoc_withInactive w _ sz l

theorem State.modifyEa_withInactive (s : State) (w : Long) (sz : Size) (ea : EA)
    (f : Ccr → BitVec sz.bits → BitVec sz.bits × Ccr) :
    (s.withInactive w).modifyEa sz ea f = (s.modifyEa sz ea f).withInactive w :=
  Eff.bind_withInactive (s.evalEa_withInactive w sz ea) fun l t =>
    Eff.bind_withInactive (t.readLoc_withInactive w _ sz l) fun _ u =>
      Eff.bind_withInactive (u.writeLoc_withInactive w sz l _) fun _ _ => rfl

end Sys2Proof.Machine
end

section
/-! SUPPORT. The course of every instruction, said once: which of the 61 meanings are one ordinary part that completes,
and what the others do at their end. -/

namespace Sys2Proof.Machine

/-- What every part of an instruction is: it changes nothing that `PartOf` keeps, and does not reach the stack pointer
of the other privilege state. -/
structure Ordinary {α : Type} (F : State → Eff α) : Prop where
  leaves : ∀ s, (F s).Leaves (PartOf s)
  blind : ∀ w s, F (s.withInactive w) = (F s).withInactive w

theorem Ordinary.bind {α β : Type} {F : State → Eff α} {G : α → State → Eff β} (hF : Ordinary F)
    (hG : ∀ v, Ordinary (G v)) : Ordinary fun s => (F s).bind G :=
  ⟨fun s => PartOf.bind (hF.leaves s) fun v => (hG v).leaves,
    fun w s => Eff.bind_withInactive (hF.blind w s) fun v => (hG v).blind w⟩

/-- An update of the registers, the flags or the program counter. -/
theorem Ordinary.update {g : State → State} (hp : ∀ s, PartOf s (g s))
    (hb : ∀ w s, g (s.withInactive w) = (g s).withInactive w) : Ordinary fun s => .done () (g s) :=
  ⟨hp, fun w s => congrArg (Eff.done ()) (hb w s)⟩

theorem Ordinary.setCcr (f : Ccr → Ccr) : Ordinary fun s => .done () (s.setCcr (f s.sr.ccr)) :=
  Ordinary.update (fun s => PartOf.setCcr s _) fun _ _ => rfl

theorem Ordinary.writeA (r : RegNum) (f : Long → Long) : Ordinary fun s => .done () (s.writeA r (f (s.readA r))) :=
  Ordinary.update (fun s => PartOf.writeA s r _) fun w s => by simp

theorem Ordinary.fetchExt (k : Nat) : Ordinary fun s => s.fetchExt k :=
  ⟨fun s => PartOf.fetchExt s k, fun w s => s.fetchExt_withInactive w k⟩

theorem Ordinary.evalEa (sz : Size) (ea : EA) : Ordinary fun s => s.evalEa sz ea :=
  ⟨fun s => PartOf.evalEa s sz ea, fun w s => s.evalEa_withInactive w sz ea⟩

theorem Ordinary.readLoc (use : Config.ReadUse) (sz : Size) (l : Loc) : Ordinary fun s => s.readLoc use sz l :=
  ⟨fun s => PartOf.readLoc s use sz l, fun w s => s.readLoc_withInactive w use sz l⟩

theorem Ordinary.writeLoc (sz : Size) (l : Loc) (v : BitVec sz.bits) : Ordinary fun s => s.writeLoc sz l v :=
  ⟨fun s => PartOf.writeLoc s sz l v, fun w s => s.writeLoc_withInactive w sz l v⟩

theorem Ordinary.readEa (sz : Size) (ea : EA) : Ordinary fun s => s.readEa sz ea :=
  ⟨fun s => PartOf.readEa s sz ea, fun w s => s.readEa_withInactive w sz ea⟩

/-- A destination changed by a function that may read a register first. -/
theorem Ordinary.modifyEa (sz : Size) (ea : EA) (f : DataRegs → Ccr → BitVec sz.bits → BitVec sz.bits × Ccr) :
    Ordinary fun s => s.modifyEa sz ea (f s.d) :=
  ⟨fun s => PartOf.modifyEa s sz ea _, fun w s => s.modifyEa_withInactive w sz ea _⟩

/-! ### The shapes of instructions -/

theorem Ordinary.immToEa (alu : ∀ {n : Nat}, Alu n) (sz : Size) (imm : Long) (ea : EA) :
    Ordinary fun s => s.immToEa alu sz imm ea :=
  (Ordinary.fetchExt _).bind fun _ => Ordinary.modifyEa sz ea fun _ f d => alu f (imm.setWidth sz.bits) d

theorem Ordinary.quickToEa (alu : ∀ {n : Nat}, Alu n) (data : BitVec 3) (sz : Size) (ea : EA) :
    Ordinary fun s => s.quickToEa alu data sz ea :=
  Ordinary.modifyEa sz ea fun _ f d => alu f (BitVec.ofNat sz.bits (quickValue data)) d

theorem Ordinary.dnToEa (alu : ∀ {n : Nat}, Alu n) (sz : Size) (r : RegNum) (ea : EA) :
    Ordinary fun s => s.dnToEa alu sz r ea :=
  Ordinary.modifyEa sz ea fun regs f d => alu f ((regs.get r).setWidth sz.bits) d

theorem Ordinary.eaToDn (alu : ∀ {n : Nat}, Alu n) (sz : Size) (ea : EA) (r : RegNum) :
    Ordinary fun s => s.eaToDn alu sz ea r :=
  (Ordinary.readEa sz ea).bind fun _ =>
    Ordinary.update (fun t => (PartOf.writeLowD t sz r _).trans (PartOf.setCcr _ _)) fun _ _ => rfl

theorem Ordinary.eaToAn (op : Long → Long → Long) (sz : Size) (ea : EA) (r : RegNum) :
    Ordinary fun s => s.eaToAn op sz ea r :=
  (Ordinary.readEa sz ea).bind fun _ =>
    Ordinary.update (fun t => PartOf.writeA t r _) fun w t => by simp

theorem Ordinary.extended (alu : ∀ {n : Nat}, Alu n) (sz : Size) (form : XForm) (ry rx : RegNum) :
    Ordinary fun s => s.extended alu sz form ry rx := by
  cases form with
  | regs => exact Ordinary.dnToEa alu sz ry (.dn rx)
  | predec =>
    exact (Ordinary.readEa sz (.predec ry)).bind fun v => Ordinary.modifyEa sz (.predec rx) fun _ f d => alu f v d

theorem Ordinary.shiftReg (op : ShiftOp) (sz : Size) (count : ShiftCount) (r : RegNum) :
    Ordinary fun s => s.shiftReg op sz count r :=
  ⟨fun s => PartOf.shiftReg s op sz count r, fun w s => s.modifyEa_withInactive w sz (.dn r) _⟩

theorem Ordinary.shiftMem (op : ShiftOp) (ea : EA) : Ordinary fun s => s.shiftMem op ea :=
  Ordinary.modifyEa .word ea fun _ f d => shiftBy op 1 f d

/-- BTST of a bit whose number is given or is in a data register. -/
theorem Ordinary.bitTest (bit : DataRegs → Nat) (ea : EA) : Ordinary fun s => s.bitTest (bit s.d) ea :=
  ⟨fun s => PartOf.bitTest s _ ea, fun w s =>
    Eff.bind_withInactive (s.readEa_withInactive w (bitSize ea) ea) fun _ _ => rfl⟩

/-- BCHG, BCLR, BSET of a bit whose number is given or is in a data register. -/
theorem Ordinary.bitChange (op : BitOp) (bit : DataRegs → Nat) (ea : EA) :
    Ordinary fun s => s.bitChange op (bit s.d) ea :=
  ⟨fun s => PartOf.bitChange s op _ ea, fun w s => s.modifyEa_withInactive w (bitSize ea) ea _⟩

theorem Ordinary.compareImm (sz : Size) (imm : Long) (ea : EA) :
    Ordinary fun s => (s.fetchExt (immExt sz)).bind fun _ t =>
      (t.readEa sz ea).bind fun d t => .done () (t.setCcr (cmpCcr t.sr.ccr (imm.setWidth sz.bits) d)) :=
  (Ordinary.fetchExt _).bind fun _ => (Ordinary.readEa sz ea).bind fun d =>
    Ordinary.setCcr fun f => cmpCcr f (imm.setWidth sz.bits) d

theorem Ordinary.discardRead (sz : Size) (l : Loc) : Ordinary fun s => s.discardRead sz l := by
  have keep : Ordinary fun s => .done () s := Ordinary.update PartOf.refl fun _ _ => rfl
  cases l with
  | mem a space => exact (Ordinary.readLoc .destination sz (.mem a space)).bind fun _ => keep
  | dreg r => exact keep
  | areg r => exact keep
  | imm v => exact keep

theorem Ordinary.clear (sz : Size) (ea : EA) :
    Ordinary fun s => (s.evalEa sz ea).bind fun l t => (t.discardRead sz l).bind fun _ t =>
      (t.writeLoc sz l 0).bind fun _ t => .done () (t.setCcr (clrCcr t.sr.ccr)) :=
  (Ordinary.evalEa sz ea).bind fun l => (Ordinary.discardRead sz l).bind fun _ =>
    (Ordinary.writeLoc sz l 0).bind fun _ => Ordinary.setCcr clrCcr

/-- EXT: a data register replaced by a value computed from it. -/
theorem Ordinary.putD (sz : Size) (r : RegNum) (f : DataRegs → BitVec sz.bits) :
    Ordinary fun s => .done () (s.putD sz r (f s.d)) :=
  Ordinary.update (fun s => (PartOf.writeLowD s sz r _).trans (PartOf.setCcr _ _)) fun _ _ => rfl

theorem Ordinary.multiply (ea : EA) (r : RegNum) (product : Word → Word → Long) :
    Ordinary fun s => (s.readEa .word ea).bind fun v t => .done () (t.putProduct r (product v (t.lowD .word r))) :=
  (Ordinary.readEa .word ea).bind fun _ =>
    Ordinary.update (fun t => (PartOf.writeD t r _).trans (PartOf.setCcr _ _)) fun _ _ => rfl

theorem Ordinary.moveSource (sz : Size) (src dst : EA) : Ordinary fun s => s.moveSource sz src dst := by
  cases src with
  | an r => exact ⟨fun s => PartOf.refl s, fun w s => by rw [State.moveSource, State.dataA_withInactive]; rfl⟩
  | _ => exact Ordinary.readEa sz _

theorem Ordinary.move (sz : Size) (src dst : EA) :
    Ordinary fun s => (s.moveSource sz src dst).bind fun v t => (t.evalEa sz dst).bind fun l t =>
      (t.writeLoc sz l v).bind fun _ t => .done () (t.setCcr (logicCcr t.sr.ccr v)) :=
  (Ordinary.moveSource sz src dst).bind fun v => (Ordinary.evalEa sz dst).bind fun l =>
    (Ordinary.writeLoc sz l v).bind fun _ => Ordinary.setCcr fun f => logicCcr f v

theorem Ordinary.movea (sz : Size) (src : EA) (r : RegNum) :
    Ordinary fun s => (s.readEa sz src).bind fun v t => .done () (t.writeA r (v.signExtend 32)) :=
  (Ordinary.readEa sz src).bind fun v => Ordinary.writeA r fun _ => v.signExtend 32

theorem Ordinary.loadAddress (r : RegNum) (l : Loc) : Ordinary fun s => s.loadAddress r l := by
  have refused : Ordinary fun _ => (.refuse .illFormedOperand : Eff Unit) := ⟨fun _ => trivial, fun _ _ => rfl⟩
  cases l with
  | mem a space => exact Ordinary.writeA r fun _ => a
  | dreg q => exact refused
  | areg q => exact refused
  | imm v => exact refused

/-! ### The course of every instruction -/

/-- The four courses an instruction can have. -/
inductive Course (i : Instr) : Prop
  /-- one ordinary part, and then it completes -/
  | ordinary {F : State → Eff Unit} (hF : Ordinary F) (hexec : ∀ s, exec i s = finish s (F s.pastOpWord))
  /-- a division: a source is read, which is a zero divide or gives a quotient and a remainder -/
  | divides (ea : EA) (r : RegNum) (fits : Word → Long → Bool) (quotient remainder : Word → Long → Int)
      (hexec : ∀ s, exec i s = finishWith s (s.pastOpWord.readEa .word ea) fun v t =>
        if v = 0 then zeroDivide s t
        else finishDivide s t r (fits v (t.readD r)) (quotient v (t.readD r)) (remainder v (t.readD r)))
  /-- Bcc -/
  | branches (c : Cond) (disp : BranchDisp) (hi : i = .bcc c disp)
  /-- STOP -/
  | stops (imm : Word) (hi : i = .stop imm)

/-- Every instruction has one of these courses. -/
theorem exec_course (i : Instr) : Course i := by
  cases i with
  | ori sz imm ea => exact .ordinary (Ordinary.immToEa aluOr sz imm ea) fun _ => rfl
  | andi sz imm ea => exact .ordinary (Ordinary.immToEa aluAnd sz imm ea) fun _ => rfl
  | subi sz imm ea => exact .ordinary (Ordinary.immToEa aluSub sz imm ea) fun _ => rfl
  | addi sz imm ea => exact .ordinary (Ordinary.immToEa aluAdd sz imm ea) fun _ => rfl
  | eori sz imm ea => exact .ordinary (Ordinary.immToEa aluEor sz imm ea) fun _ => rfl
  | cmpi sz imm ea => exact .ordinary (Ordinary.compareImm sz imm ea) fun _ => rfl
  | andiToCcr imm =>
    exact .ordinary ((Ordinary.fetchExt 1).bind fun _ => Ordinary.setCcr fun f => andCcr f imm) fun _ => rfl
  | btstStatic bit ea =>
    exact .ordinary ((Ordinary.fetchExt 1).bind fun _ => Ordinary.bitTest (fun _ => bit.toNat) ea) fun _ => rfl
  | bchgStatic bit ea =>
    exact .ordinary ((Ordinary.fetchExt 1).bind fun _ => Ordinary.bitChange .chg (fun _ => bit.toNat) ea) fun _ => rfl
  | bclrStatic bit ea =>
    exact .ordinary ((Ordinary.fetchExt 1).bind fun _ => Ordinary.bitChange .clr (fun _ => bit.toNat) ea) fun _ => rfl
  | bsetStatic bit ea =>
    exact .ordinary ((Ordinary.fetchExt 1).bind fun _ => Ordinary.bitChange .set (fun _ => bit.toNat) ea) fun _ => rfl
  | btstDyn r ea => exact .ordinary (Ordinary.bitTest (fun d => (d.get r).toNat) ea) fun _ => rfl
  | bchgDyn r ea => exact .ordinary (Ordinary.bitChange .chg (fun d => (d.get r).toNat) ea) fun _ => rfl
  | bclrDyn r ea => exact .ordinary (Ordinary.bitChange .clr (fun d => (d.get r).toNat) ea) fun _ => rfl
  | bsetDyn r ea => exact .ordinary (Ordinary.bitChange .set (fun d => (d.get r).toNat) ea) fun _ => rfl
  | move sz src dst => exact .ordinary (Ordinary.move sz src dst) fun _ => rfl
  | movea sz src r => exact .ordinary (Ordinary.movea sz src r) fun _ => rfl
  | clr sz ea => exact .ordinary (Ordinary.clear sz ea) fun _ => rfl
  | notEa sz ea => exact .ordinary (Ordinary.modifyEa sz ea fun _ => aluNot) fun _ => rfl
  | extW r =>
    exact .ordinary (Ordinary.putD .word r fun d => ((d.get r).setWidth 8).signExtend 16) fun _ => rfl
  | extL r =>
    exact .ordinary (Ordinary.putD .long r fun d => ((d.get r).setWidth 16).signExtend 32) fun _ => rfl
  | lea ea r => exact .ordinary ((Ordinary.evalEa .long ea).bind fun l => Ordinary.loadAddress r l) fun _ => rfl
  | stop imm => exact .stops imm rfl
  | addq data sz ea => exact .ordinary (Ordinary.quickToEa aluAdd data sz ea) fun _ => rfl
  | addqA data sz r =>
    exact .ordinary (Ordinary.writeA r fun a => a + BitVec.ofNat 32 (quickValue data)) fun _ => rfl
  | subq data sz ea => exact .ordinary (Ordinary.quickToEa aluSub data sz ea) fun _ => rfl
  | subqA data sz r =>
    exact .ordinary (Ordinary.writeA r fun a => a - BitVec.ofNat 32 (quickValue data)) fun _ => rfl
  | bcc c disp => exact .branches c disp rfl
  | orToDn sz ea r => exact .ordinary (Ordinary.eaToDn aluOr sz ea r) fun _ => rfl
  | orToEa sz r ea => exact .ordinary (Ordinary.dnToEa aluOr sz r ea) fun _ => rfl
  | divu ea r =>
    exact .divides ea r (fun v d => d.toNat / v.toNat ≤ 0xFFFF) (fun v d => (d.toNat / v.toNat : Nat))
      (fun v d => (d.toNat % v.toNat : Nat)) fun _ => rfl
  | divs ea r =>
    exact .divides ea r (fun v d => -32768 ≤ d.toInt.tdiv v.toInt && d.toInt.tdiv v.toInt ≤ 32767)
      (fun v d => d.toInt.tdiv v.toInt) (fun v d => d.toInt - d.toInt.tdiv v.toInt * v.toInt) fun _ => rfl
  | subToDn sz ea r => exact .ordinary (Ordinary.eaToDn aluSub sz ea r) fun _ => rfl
  | subToEa sz r ea => exact .ordinary (Ordinary.dnToEa aluSub sz r ea) fun _ => rfl
  | suba sz ea r => exact .ordinary (Ordinary.eaToAn (· - ·) sz ea r) fun _ => rfl
  | subx sz form ry rx => exact .ordinary (Ordinary.extended aluSubx sz form ry rx) fun _ => rfl
  | eor sz r ea => exact .ordinary (Ordinary.dnToEa aluEor sz r ea) fun _ => rfl
  | andToDn sz ea r => exact .ordinary (Ordinary.eaToDn aluAnd sz ea r) fun _ => rfl
  | andToEa sz r ea => exact .ordinary (Ordinary.dnToEa aluAnd sz r ea) fun _ => rfl
  | mulu ea r =>
    exact .ordinary (Ordinary.multiply ea r fun v d => BitVec.ofNat 32 (v.toNat * d.toNat)) fun _ => rfl
  | muls ea r =>
    exact .ordinary (Ordinary.multiply ea r fun v d => BitVec.ofInt 32 (v.toInt * d.toInt)) fun _ => rfl
  | addToDn sz ea r => exact .ordinary (Ordinary.eaToDn aluAdd sz ea r) fun _ => rfl
  | addToEa sz r ea => exact .ordinary (Ordinary.dnToEa aluAdd sz r ea) fun _ => rfl
  | adda sz ea r => exact .ordinary (Ordinary.eaToAn (· + ·) sz ea r) fun _ => rfl
  | addx sz form ry rx => exact .ordinary (Ordinary.extended aluAddx sz form ry rx) fun _ => rfl
  | asrReg sz count r => exact .ordinary (Ordinary.shiftReg .asr sz count r) fun _ => rfl
  | aslReg sz count r => exact .ordinary (Ordinary.shiftReg .asl sz count r) fun _ => rfl
  | lsrReg sz count r => exact .ordinary (Ordinary.shiftReg .lsr sz count r) fun _ => rfl
  | lslReg sz count r => exact .ordinary (Ordinary.shiftReg .lsl sz count r) fun _ => rfl
  | roxrReg sz count r => exact .ordinary (Ordinary.shiftReg .roxr sz count r) fun _ => rfl
  | roxlReg sz count r => exact .ordinary (Ordinary.shiftReg .roxl sz count r) fun _ => rfl
  | rorReg sz count r => exact .ordinary (Ordinary.shiftReg .ror sz count r) fun _ => rfl
  | rolReg sz count r => exact .ordinary (Ordinary.shiftReg .rol sz count r) fun _ => rfl
  | asrMem ea => exact .ordinary (Ordinary.shiftMem .asr ea) fun _ => rfl
  | aslMem ea => exact .ordinary (Ordinary.shiftMem .asl ea) fun _ => rfl
  | lsrMem ea => exact .ordinary (Ordinary.shiftMem .lsr ea) fun _ => rfl
  | lslMem ea => exact .ordinary (Ordinary.shiftMem .lsl ea) fun _ => rfl
  | roxrMem ea => exact .ordinary (Ordinary.shiftMem .roxr ea) fun _ => rfl
  | roxlMem ea => exact .ordinary (Ordinary.shiftMem .roxl ea) fun _ => rfl
  | rorMem ea => exact .ordinary (Ordinary.shiftMem .ror ea) fun _ => rfl
  | rolMem ea => exact .ordinary (Ordinary.shiftMem .rol ea) fun _ => rfl

end Sys2Proof.Machine
end

section
/-! SUPPORT. In which states an instruction can end, said once for all of them. -/

namespace Sys2Proof.Machine

/-- What an exception of any group leaves: a processor that its entry halts has no trace to take. -/
structure Raised (s t : State) : Prop extends Taken s t where
  quiet : s.halted = false → t.halted = true → t.tracePending = false

theorem Raised.of_enterGroup0 {x : FailedAccess} {pc0 : Long} {opWord : Word} {busy : Bool} {s t : State}
    (h : enterGroup0 x pc0 opWord busy s = .next t) : Raised s t := by
  obtain ⟨htaken, _, htrace, _⟩ := enterGroup0_next h
  exact ⟨htaken, fun _ _ => htrace⟩

theorem Raised.of_enterException {e : Entry} {s t : State} (h : enterException e s = .next t) : Raised s t := by
  obtain ⟨htaken, _, _, hhalts⟩ := enterException_next h
  refine ⟨htaken, fun hlive hhalted => ?_⟩
  rcases hhalts with ⟨_, htrace⟩ | hsame
  · exact htrace
  · exact absurd (hsame.symm.trans hhalted) (by simp [hlive])

/-- The states in which an instruction begun in `s` can end. -/
inductive Ends (i : Instr) (s : State) : State → Prop
  /-- it completes -/
  | completes {u : State} (hu : PartOf s u) : Ends i s (s.retire u)
  /-- a branch is taken -/
  | branches {u : State} (target : Long) (hu : PartOf s u) :
      Ends i s (s.retire { u with pc := target, prefetch := [] })
  /-- STOP in supervisor state -/
  | stops {u : State} (imm : Word) (hi : i = .stop imm) (hs : s.sr.s = true) (hu : PartOf s u) :
      Ends i s (s.retire { u with sr := StatusReg.ofWord imm, stopped := !s.sr.t })
  /-- an exception is entered, after the parts that were done -/
  | raises {u t : State} (hu : PartOf s u) (ht : Raised u t) : Ends i s t

theorem finishWith_next {α : Type} {s t : State} {e : Eff α} {k : α → State → Result} (he : e.Leaves (PartOf s))
    (h : finishWith s e k = .next t) :
    (∃ v u, PartOf s u ∧ k v u = .next t) ∨ ∃ u, PartOf s u ∧ Raised u t := by
  cases e with
  | done v u => exact Or.inl ⟨v, u, he, h⟩
  | abort x u => exact Or.inr ⟨u, he, Raised.of_enterGroup0 h⟩
  | refuse r => cases h

theorem zeroDivide_next {s u t : State} (hu : PartOf s u) (h : zeroDivide s u = .next t) :
    ∃ u, PartOf s u ∧ Raised u t :=
  ⟨_, hu.trans (PartOf.setCcr u _), Raised.of_enterException h⟩

theorem finishDivide_next {s u t : State} {r : RegNum} {fits : Bool} {quotient remainder : Int} (hu : PartOf s u)
    (h : finishDivide s u r fits quotient remainder = .next t) : ∃ u, PartOf s u ∧ t = s.retire u := by
  unfold finishDivide at h
  split at h
  · cases h
    exact ⟨_, (hu.trans (PartOf.writeD u r _)).trans (PartOf.setCcr _ _), rfl⟩
  · cases h
    exact ⟨_, hu.trans (PartOf.setCcr u _), rfl⟩

/-- The course of Bcc: its displacement's word is fetched, and then it branches or not. -/
theorem exec_bcc (c : Cond) (disp : BranchDisp) (s : State) :
    exec (.bcc c disp) s = finishWith s (s.pastOpWord.fetchExt (branchExt disp)) fun _ t =>
      .next (s.retire
        (if condHolds s.sr.ccr c then { t with pc := s.pc + 2 + branchOffset disp, prefetch := [] } else t)) := by
  show finish s ((s.pastOpWord.fetchExt (branchExt disp)).bind _) = _
  cases s.pastOpWord.fetchExt (branchExt disp) <;> rfl

/-- The course of STOP in supervisor state: its operand's word is fetched, and then it stops. -/
theorem exec_stop {imm : Word} {s : State} (hs : s.sr.s = true) :
    exec (.stop imm) s = finishWith s (s.pastOpWord.fetchExt 1) fun _ t =>
      .next (s.retire { t with sr := StatusReg.ofWord imm, stopped := !s.sr.t }) := by
  rw [exec, execStop, if_pos hs]
  cases s.pastOpWord.fetchExt 1 <;> rfl

/-- In user state STOP is a privilege violation. -/
theorem exec_stop_user {imm : Word} {s : State} (hs : s.sr.s = false) :
    exec (.stop imm) s = privilegeViolation s := by
  rw [exec, execStop, if_neg (by simp [hs])]

/-- Every instruction ends in one of these states. -/
theorem exec_ends {i : Instr} {s t : State} (h : exec i s = .next t) : Ends i s t := by
  have past {α : Type} {F : State → Eff α} (hF : Ordinary F) : (F s.pastOpWord).Leaves (PartOf s) :=
    PartOf.after (PartOf.pastOpWord s) (hF.leaves _)
  cases exec_course i with
  | ordinary hF hexec =>
    rw [hexec] at h
    rcases finishWith_next (past hF) h with ⟨_, u, hu, hk⟩ | ⟨u, hu, ht⟩
    · cases hk
      exact .completes hu
    · exact .raises hu ht
  | divides ea r fits quotient remainder hexec =>
    rw [hexec] at h
    rcases finishWith_next (past (Ordinary.readEa .word ea)) h with ⟨v, u, hu, hk⟩ | ⟨u, hu, ht⟩
    · split at hk
      · obtain ⟨u', hu', ht⟩ := zeroDivide_next hu hk
        exact .raises hu' ht
      · obtain ⟨u', hu', rfl⟩ := finishDivide_next hu hk
        exact .completes hu'
    · exact .raises hu ht
  | branches c disp hi =>
    rw [hi, exec_bcc] at h
    rcases finishWith_next (past (Ordinary.fetchExt _)) h with ⟨_, u, hu, hk⟩ | ⟨u, hu, ht⟩
    · split at hk
      · cases hk
        exact .branches _ hu
      · cases hk
        exact .completes hu
    · exact .raises hu ht
  | stops imm hi =>
    cases hs : s.sr.s with
    | false =>
      rw [hi, exec_stop_user hs] at h
      exact .raises (PartOf.refl s) (Raised.of_enterException h)
    | true =>
      rw [hi, exec_stop hs] at h
      rcases finishWith_next (past (Ordinary.fetchExt 1)) h with ⟨_, u, hu, hk⟩ | ⟨u, hu, ht⟩
      · cases hk
        exact .stops imm hi hs hu
      · exact .raises hu ht

end Sys2Proof.Machine
end

section
/-! SUPPORT. In which states a step can end: what happens at an instruction boundary (60_exceptions.md R254, R264, R266,
R268, R270), said once. -/

namespace Sys2Proof.Machine

theorem Eff.Leaves.mono {α : Type} {P Q : State → Prop} {e : Eff α} (h : e.Leaves P) (hpq : ∀ t, P t → Q t) :
    e.Leaves Q := by
  cases e with
  | done v t => exact hpq t h
  | abort x t => exact hpq t h
  | refuse r => trivial

/-- What the reset sequence sets before it reads the reset vectors (70_reset_and_hazards.md R290). -/
def State.restarting (s : State) : State :=
  { s with
    sr := { t := false, s := true, i := 7, ccr := Ccr.ofByte ((Config.resetFlags s.draws).setWidth 8) }
    stopped := false
    halted := false
    tracePending := false
    prefetch := [] }

/-- What the reset sequence leaves (70_reset_and_hazards.md R290) beside the registers it loads. -/
structure Restarted (s t : State) : Prop where
  srS : t.sr.s = true
  srT : t.sr.t = false
  stopped : t.stopped = false
  tracePending : t.tracePending = false
  prefetch : t.prefetch = []
  ipl : t.ipl = s.ipl
  nmi : t.nmi = s.nmi
  wf : s.mem.wf = true → t.mem.wf = true

/-- In supervisor state SSP is A7. -/
theorem State.setSp_supervisor {s : State} (h : s.sr.s = true) (v : Long) : s.setSp v = { s with ssp := v } :=
  if_pos h

/-- The reset vectors are read and SSP is loaded; nothing else changes. -/
theorem Pushed.resetVectors {s : State} (hs : s.sr.s = true) :
    ((s.memRead .exception .program 0 4).bind fun ssp t =>
      State.memRead { t with ssp } .exception .program 4 4).Leaves (Pushed s) := by
  refine Pushed.bind hs (Pushed.memRead s _ _ _ _) fun ssp t ht => ?_
  rw [← State.setSp_supervisor ht]
  exact (Pushed.memRead _ _ _ _ _).mono fun _ hu => (Pushed.setSp ssp ht).trans hu

theorem resetSequence_next {s t : State} (h : resetSequence s = .next t) : Restarted s t := by
  have restarted {u : State} (hp : Pushed s.restarting u) (pc : Long) (halted : Bool) :
      Restarted s { u with pc, halted } := by
    refine ⟨?_, ?_, hp.part.stopped, hp.part.tracePending, hp.part.prefetch, hp.part.ipl, hp.part.nmi, hp.part.wf⟩
    · exact congrArg StatusReg.s hp.sr
    · exact congrArg StatusReg.t hp.sr
  have hvectors := Pushed.resetVectors (s := s.restarting) rfl
  simp only [resetSequence] at h
  split at h
  · rename_i pc u heq
    rw [State.restarting, heq] at hvectors
    cases h
    exact restarted hvectors pc u.halted
  · rename_i x u heq
    rw [State.restarting, heq] at hvectors
    cases h
    exact restarted hvectors u.pc true
  · cases h

/-- The states in which a step begun in `s` can end. -/
inductive StepEnds (s : State) : State → Prop
  /-- a halted or stopped processor waits -/
  | waits : StepEnds s s.sampled
  /-- reset -/
  | restarts {t : State} (h : Restarted s.sampled t) : StepEnds s (s.sampled.drawn t)
  /-- a trace or an interrupt, or the exception of an operation word that could not be fetched or is illegal; the edge
  of level 7 may have been taken -/
  | raises {u t : State} (hlive : s.halted = false) (hu : u = s.sampled ∨ u = { s.sampled with nmi := false })
      (h : Raised u t) : StepEnds s (s.sampled.drawn t)
  /-- an instruction -/
  | executes {t : State} (i : Instr) (w : Word) (hlive : s.halted = false) (hstop : s.stopped = false)
      (h : exec i { s.sampled with ir := w, prefetch := s.sampled.ahead i } = .next t) :
      StepEnds s (s.sampled.drawn t)

/-- What the words at the program counter lead to. -/
theorem runWords_next {s t : State} {w : Word} {ws : List Word} (h : s.runWords w ws = .next t) :
    ∃ u, t = s.drawn u ∧ (Raised s u ∨ ∃ i, exec i { s with ir := w, prefetch := s.ahead i } = .next u) := by
  have illegal {vector : Nat} (h : mapNext s.drawn (enterGroup1 vector w s) = .next t) :
      ∃ u, t = s.drawn u ∧ (Raised s u ∨ ∃ i, exec i { s with ir := w, prefetch := s.ahead i } = .next u) := by
    obtain ⟨u, hu, rfl⟩ := mapNext_eq_next h
    exact ⟨u, rfl, Or.inl (Raised.of_enterException hu)⟩
  unfold State.runWords at h
  split at h
  · obtain ⟨u, hu, rfl⟩ := mapNext_eq_next h
    exact ⟨u, rfl, Or.inr ⟨_, hu⟩⟩
  · exact illegal h
  · exact illegal h
  · exact illegal h
  · cases h
  · cases h

theorem runInstruction_next {s t : State} (h : s.runInstruction = .next t) :
    ∃ u, t = s.drawn u ∧ (Raised s u ∨ ∃ i w, exec i { s with ir := w, prefetch := s.ahead i } = .next u) := by
  unfold State.runInstruction at h
  cases ha : s.access .program .read s.pc 2 with
  | done _ _ =>
    rw [ha] at h
    obtain ⟨u, rfl, hu | ⟨i, hu⟩⟩ := runWords_next h
    · exact ⟨u, rfl, Or.inl hu⟩
    · exact ⟨u, rfl, Or.inr ⟨i, _, hu⟩⟩
  | abort x v =>
    rw [ha] at h
    obtain ⟨u, hu, rfl⟩ := mapNext_eq_next h
    obtain ⟨rfl, _⟩ := State.access_eq_abort ha
    exact ⟨u, rfl, Or.inl (Raised.of_enterGroup0 hu)⟩
  | refuse r => exact absurd ha (s.access_ne_refuse _ _ _ _ r)

/-- Every step ends in one of these states. -/
theorem step_ends {s t : State} (h : step s = .next t) : StepEnds s t := by
  unfold step State.advance at h
  split at h
  · obtain ⟨u, hu, rfl⟩ := mapNext_eq_next h
    exact .restarts (resetSequence_next hu)
  split at h
  · split at h
    · cases h
    · cases h
      exact .waits
  rename_i hlive
  replace hlive : s.halted = false := by simpa using hlive
  unfold State.proceed at h
  split at h
  · obtain ⟨u, hu, rfl⟩ := mapNext_eq_next h
    exact .raises hlive (Or.inl rfl) (Raised.of_enterException hu)
  split at h
  · obtain ⟨u, hu, rfl⟩ := mapNext_eq_next h
    exact .raises hlive (Or.inr rfl) (Raised.of_enterException hu)
  split at h
  · cases h
    exact .waits
  · rename_i hstop
    obtain ⟨u, rfl, hu | ⟨i, w, hu⟩⟩ := runInstruction_next h
    · exact .raises hlive (Or.inl rfl) hu
    · exact .executes i w hlive (by simpa using hstop) hu

end Sys2Proof.Machine
end

section
/-! SUPPORT. The machine's invariant across the ends of an instruction and of a step. -/

namespace Sys2Proof.Machine

theorem State.Inv.sampled {s : State} (h : s.Inv) : s.sampled.Inv := by
  obtain ⟨hmem, hheld, hhalt, hstop, _⟩ := h
  refine ⟨hmem, hheld, hhalt, hstop, fun hnmi => ?_⟩
  simp only [State.sampled_nmi, Bool.and_eq_true, beq_iff_eq] at hnmi
  exact hnmi.1

theorem State.Inv.drawn {t : State} (h : t.Inv) (s : State) : (s.drawn t).Inv := h

/-- The edge of level 7 taken. -/
theorem State.Inv.nmiTaken {s : State} (h : s.Inv) : State.Inv { s with nmi := false } := by
  obtain ⟨hmem, hheld, hhalt, hstop, _⟩ := h
  exact ⟨hmem, hheld, hhalt, hstop, fun hnmi => nomatch hnmi⟩

/-- The words after an instruction held: they are two. -/
theorem State.Inv.fetched {s : State} (h : s.Inv) (i : Instr) (w : Word) :
    State.Inv { s with ir := w, prefetch := s.ahead i } := by
  obtain ⟨hmem, _, hhalt, hstop, hnmi⟩ := h
  exact ⟨hmem, Nat.le_refl 2, hhalt, hstop, hnmi⟩

theorem State.Inv.part {s t : State} (h : s.Inv) (hp : PartOf s t) : t.Inv := by
  obtain ⟨hmem, hheld, hhalt, hstop, hnmi⟩ := h
  refine ⟨hp.wf hmem, ?_, ?_, ?_, ?_⟩
  · rwa [hp.prefetch]
  · rwa [hp.halted, hp.stopped, hp.tracePending]
  · rwa [hp.stopped, hp.tracePending]
  · rwa [hp.nmi, hp.ipl]

theorem State.Inv.raised {s t : State} (h : s.Inv) (hlive : s.halted = false) (hr : Raised s t) : t.Inv := by
  obtain ⟨hmem, _, _, _, hnmi⟩ := h
  refine ⟨hr.wf hmem, ?_, fun hhalted => ⟨hr.stopped, hr.quiet hlive hhalted⟩, ?_, ?_⟩
  · simp [hr.prefetch]
  · simp [hr.stopped]
  · rwa [hr.nmi, hr.ipl]

theorem State.Inv.restarted {s t : State} (h : s.Inv) (hr : Restarted s t) : t.Inv := by
  obtain ⟨hmem, _, _, _, hnmi⟩ := h
  refine ⟨hr.wf hmem, ?_, fun _ => ⟨hr.stopped, hr.tracePending⟩, fun _ => hr.tracePending, ?_⟩
  · simp [hr.prefetch]
  · rwa [hr.nmi, hr.ipl]

/-- A running instruction that completes, wherever it goes on and whatever it loads into SR: if it stops the processor,
no trace follows. -/
theorem State.Inv.retire {s0 u : State} (h : u.Inv) (hlive : u.halted = false) (pc : Long) (sr : StatusReg)
    {stopped : Bool} {held : List (Long × Word)} (hheld : held.length ≤ 2) (hstop : stopped = true → s0.sr.t = false) :
    (s0.retire { u with pc, sr, stopped, prefetch := held }).Inv := by
  obtain ⟨hmem, _, _, _, hnmi⟩ := h
  exact ⟨hmem, hheld, by simp [hlive], hstop, hnmi⟩

/-- An instruction that a running processor executes keeps the invariant. -/
theorem State.Inv.exec {i : Instr} {s t : State} (h : s.Inv) (hlive : s.halted = false) (hstop : s.stopped = false)
    (he : exec i s = .next t) : t.Inv := by
  have running {u : State} (hu : PartOf s u) : u.halted = false ∧ u.stopped = false ∧ u.prefetch.length ≤ 2 := by
    obtain ⟨_, hheld, _, _, _⟩ := h.part hu
    exact ⟨hu.halted.trans hlive, hu.stopped.trans hstop, hheld⟩
  cases exec_ends he with
  | @completes u hu =>
    obtain ⟨hulive, hustop, hheld⟩ := running hu
    exact (h.part hu).retire hulive u.pc u.sr hheld (by simp [hustop])
  | @branches u target hu =>
    obtain ⟨hulive, hustop, _⟩ := running hu
    exact (h.part hu).retire hulive target u.sr (Nat.zero_le 2) (by simp [hustop])
  | @stops u imm hi hs hu =>
    obtain ⟨hulive, _, hheld⟩ := running hu
    exact (h.part hu).retire hulive u.pc (StatusReg.ofWord imm) hheld (by simp)
  | raises hu ht => exact (h.part hu).raised (hu.halted.trans hlive) ht

/-- Every step keeps the invariant. -/
theorem State.Inv.step {s t : State} (h : s.Inv) (hs : step s = .next t) : t.Inv := by
  cases step_ends hs with
  | waits => exact h.sampled
  | restarts hr => exact (h.sampled.restarted hr).drawn s.sampled
  | raises hlive hu hr =>
    rcases hu with rfl | rfl
    · exact (h.sampled.raised hlive hr).drawn s.sampled
    · exact (h.sampled.nmiTaken.raised hlive hr).drawn s.sampled
  | executes i w hlive hstop he => exact ((h.sampled.fetched i w).exec hlive hstop he).drawn s.sampled

end Sys2Proof.Machine
end

section
/-! SUPPORT. The privilege state across an instruction and a step (60_exceptions.md R272). -/

namespace Sys2Proof.Machine

/-- What user state can reach: user state with SSP, T and the mask as they were, or supervisor state with trace off. -/
def Confined (s t : State) : Prop :=
  (t.sr.s = false ∧ t.ssp = s.ssp ∧ t.sr.t = s.sr.t ∧ t.sr.i = s.sr.i) ∨ (t.sr.s = true ∧ t.sr.t = false)

theorem PartOf.confined {s t : State} (hs : s.sr.s = false) (h : PartOf s t) : Confined s t :=
  Or.inl ⟨h.srS.trans hs, h.ssp hs, h.srT, h.srI⟩

theorem Confined.drawn {s t : State} (h : Confined s t) (u : State) : Confined s (u.drawn t) := h

theorem exec_confined {i : Instr} {s t : State} (hs : s.sr.s = false) (h : exec i s = .next t) : Confined s t := by
  cases exec_ends h with
  | @completes u hu => exact (show Confined s u from hu.confined hs)
  | @branches u target hu => exact (show Confined s u from hu.confined hs)
  | stops imm hi hsup hu => exact absurd hsup (by simp [hs])
  | raises hu ht => exact Or.inr ⟨ht.srS, ht.srT⟩

theorem step_confined {s t : State} (hs : s.sr.s = false) (h : step s = .next t) : Confined s t := by
  cases step_ends h with
  | waits => exact Or.inl ⟨hs, rfl, rfl, rfl⟩
  | restarts hr => exact Or.inr ⟨hr.srS, hr.srT⟩
  | raises hlive hu hr => exact Or.inr ⟨hr.srS, hr.srT⟩
  | executes i w hlive hstop he =>
    exact (exec_confined (s := { s.sampled with ir := w, prefetch := s.sampled.ahead i }) hs he).drawn s.sampled

/-- The one instruction that can leave supervisor state is a STOP whose operand clears S. -/
theorem exec_leaves_supervisor {i : Instr} {s t : State} (h : exec i s = .next t) (hs : s.sr.s = true)
    (ht : t.sr.s = false) : ∃ imm : Word, i = .stop imm ∧ imm.getLsbD 13 = false := by
  have kept {u : State} (hu : PartOf s u) : u.sr.s ≠ false := by simp [hu.srS, hs]
  cases exec_ends h with
  | @completes u hu => exact absurd (show u.sr.s = false from ht) (kept hu)
  | @branches u target hu => exact absurd (show u.sr.s = false from ht) (kept hu)
  | stops imm hi _ hu => exact ⟨imm, hi, ht⟩
  | raises hu hr => exact absurd ht (by simp [hr.srS])

end Sys2Proof.Machine
end

section
/-! SUPPORT. No instruction reaches the stack pointer of the other privilege state (10_state.md R23): it is kept, and a
run in which it alone differs answers the same but for it. -/

namespace Sys2Proof.Machine

/-- In supervisor state no instruction changes USP, and in user state none that stays there changes SSP. -/
theorem exec_keeps_other {i : Instr} {s t : State} (h : exec i s = .next t) :
    (s.sr.s = true → t.usp = s.usp) ∧ (s.sr.s = false → t.sr.s = false → t.ssp = s.ssp) := by
  cases exec_ends h with
  | completes hu => exact ⟨hu.usp, fun hs _ => hu.ssp hs⟩
  | branches target hu => exact ⟨hu.usp, fun hs _ => hu.ssp hs⟩
  | stops imm hi hsup hu => exact ⟨hu.usp, fun hs _ => hu.ssp hs⟩
  | raises hu hr => exact ⟨fun hs => hr.usp.trans (hu.usp hs), fun _ ht => absurd ht (by simp [hr.srS])⟩

/-! ### Exceptions entered in supervisor state -/

theorem State.supervisor_withInactive {s : State} (hs : s.sr.s = true) (w : Long) :
    (s.withInactive w).supervisor = s.supervisor.withInactive w := by
  simp [State.supervisor, State.withInactive, State.withOther, hs]

theorem State.push_withInactive (s : State) (w : Long) (nb : Nat) (v : Long) :
    (s.withInactive w).push nb v = (s.push nb v).withInactive w := by
  simp only [State.push, State.sp_withInactive, State.setSp_withInactive, State.memWrite_withInactive]

theorem State.pushGroup0_withInactive {s : State} (hs : s.sr.s = true) (w : Long) (x : FailedAccess) (pc0 : Long)
    (opWord : Word) (busy : Bool) :
    (s.withInactive w).pushGroup0 x pc0 opWord busy = (s.pushGroup0 x pc0 opWord busy).withInactive w := by
  rw [State.pushGroup0, State.supervisor_withInactive hs]
  exact Eff.bind_withInactive (State.push_withInactive _ w _ _) fun _ t =>
    Eff.bind_withInactive (t.push_withInactive w _ _) fun _ t =>
      Eff.bind_withInactive (t.push_withInactive w _ _) fun _ t =>
        Eff.bind_withInactive (t.push_withInactive w _ _) fun _ t => t.push_withInactive w _ _

theorem State.pushFrame_withInactive {s : State} (hs : s.sr.s = true) (w : Long) (e : Entry) :
    (s.withInactive w).pushFrame e = (s.pushFrame e).withInactive w := by
  rw [State.pushFrame, State.supervisor_withInactive hs]
  exact Eff.bind_withInactive
    (State.push_withInactive { s.supervisor with sr := { s.supervisor.sr with i := e.mask.getD s.sr.i } } w _ _)
    fun _ t => t.push_withInactive w _ _

/-- A frame written, and the vector read after it. -/
theorem Eff.bind_readVector_withInactive {w : Long} {e e' : Eff Unit} (he : e' = e.withInactive w) (vector : Nat) :
    (e'.bind fun _ t => t.readVector vector) = (e.bind fun _ t => t.readVector vector).withInactive w :=
  Eff.bind_withInactive he fun _ t => t.memRead_withInactive w _ _ _ _

theorem enterGroup0_withInactive {s : State} (hs : s.sr.s = true) (w : Long) (x : FailedAccess) (pc0 : Long)
    (opWord : Word) (busy : Bool) :
    enterGroup0 x pc0 opWord busy (s.withInactive w) =
      mapNext (·.withInactive w) (enterGroup0 x pc0 opWord busy s) := by
  have hentry := Eff.bind_readVector_withInactive (State.pushGroup0_withInactive hs w x pc0 opWord busy) x.error.vector
  unfold enterGroup0
  rw [hentry]
  cases (s.pushGroup0 x pc0 opWord busy).bind fun _ t => t.readVector x.error.vector <;> rfl

theorem enterException_withInactive {s : State} (hs : s.sr.s = true) (w : Long) (e : Entry) :
    enterException e (s.withInactive w) = mapNext (·.withInactive w) (enterException e s) := by
  have hentry := Eff.bind_readVector_withInactive (State.pushFrame_withInactive hs w e) e.vector
  have hpushed := Pushed.frame s e e.vector
  unfold enterException
  rw [hentry]
  revert hpushed
  cases (s.pushFrame e).bind fun _ t => t.readVector e.vector with
  | done v t => exact fun _ => rfl
  | abort x t => exact fun hpushed => enterGroup0_withInactive (congrArg StatusReg.s hpushed.sr) w x _ _ _
  | refuse r => exact fun _ => rfl

/-! ### Whole instructions -/

/-- The outcomes `r` of a run begun in the given privilege state and `r'` of the run in which the stack pointer of the
other privilege state alone was replaced by `w`: they differ in it alone, or the run entered supervisor state. -/
def Unreached (sup : Bool) (w : Long) (r r' : Result) : Prop :=
  r' = mapNext (·.withOther sup w) r ∨ sup = false ∧ ∀ t, r = .next t → t.sr.s = true

/-- An exception: it always ends in supervisor state. -/
theorem Unreached.of_entry {s : State} {w : Long} {enter : State → Result}
    (hsup : ∀ t, enter s = .next t → t.sr.s = true)
    (hcomm : s.sr.s = true → enter (s.withInactive w) = mapNext (·.withInactive w) (enter s)) :
    Unreached s.sr.s w (enter s) (enter (s.withInactive w)) := by
  cases hs : s.sr.s with
  | false => exact Or.inr ⟨rfl, hsup⟩
  | true =>
    refine Or.inl ((hcomm hs).trans ?_)
    cases h : enter s with
    | next t => rw [mapNext_next, mapNext_next, State.withInactive, hsup t h]
    | fault x => rfl
    | refused r => rfl

theorem Unreached.enterGroup0 (s : State) (w : Long) (x : FailedAccess) (pc0 : Long) (opWord : Word) (busy : Bool) :
    Unreached s.sr.s w (enterGroup0 x pc0 opWord busy s) (enterGroup0 x pc0 opWord busy (s.withInactive w)) :=
  Unreached.of_entry (fun _ h => (Raised.of_enterGroup0 h).srS) fun hs =>
    enterGroup0_withInactive hs w x pc0 opWord busy

theorem Unreached.enterException (s : State) (w : Long) (e : Entry) :
    Unreached s.sr.s w (enterException e s) (enterException e (s.withInactive w)) :=
  Unreached.of_entry (fun _ h => (Raised.of_enterException h).srS) fun hs => enterException_withInactive hs w e

/-- An instruction whose end does not reach it after its last part. -/
theorem Unreached.finishWith {α : Type} {s : State} {w : Long} {F : State → Eff α} {k k' : α → State → Result}
    (hF : Ordinary F)
    (hk : ∀ v u, u.sr.s = s.sr.s → Unreached s.sr.s w (k v u) (k' v (u.withInactive w))) :
    Unreached s.sr.s w (finishWith s (F s.pastOpWord) k)
      (finishWith (s.withInactive w) (F (s.withInactive w).pastOpWord) k') := by
  have hblind : F (s.withInactive w).pastOpWord = (F s.pastOpWord).withInactive w := hF.blind w s.pastOpWord
  have hleaves := hF.leaves s.pastOpWord
  rw [hblind]
  revert hleaves
  cases F s.pastOpWord with
  | done v u => exact fun hu => hk v u hu.srS
  | abort x u =>
    intro hu
    have hs : u.sr.s = s.sr.s := hu.srS
    rw [← hs]
    exact Unreached.enterGroup0 u w x s.pc s.ir false
  | refuse r => exact fun _ => Or.inl rfl

/-- The state in which an instruction completes. -/
theorem Unreached.next {sup : Bool} {w : Long} {t t' : State} (h : t' = t.withOther sup w) :
    Unreached sup w (.next t) (.next t') :=
  Or.inl (congrArg Host.Outcome.next h)

theorem finishDivide_withOther (s t : State) (sup : Bool) (w : Long) (r : RegNum) (fits : Bool)
    (quotient remainder : Int) :
    finishDivide (s.withInactive w) (t.withOther sup w) r fits quotient remainder =
      mapNext (·.withOther sup w) (finishDivide s t r fits quotient remainder) := by
  unfold finishDivide
  split <;> rfl

/-- No instruction reaches the stack pointer of the other privilege state, by the course it has. -/
theorem exec_unreached (i : Instr) (s : State) (w : Long) :
    Unreached s.sr.s w (exec i s) (exec i (s.withInactive w)) := by
  have same {u : State} (hu : u.sr.s = s.sr.s) : u.withInactive w = u.withOther s.sr.s w := by
    rw [State.withInactive, hu]
  cases exec_course i with
  | ordinary hF hexec =>
    rw [hexec, hexec]
    exact Unreached.finishWith hF fun _ u hu => Unreached.next (by rw [same hu]; rfl)
  | divides ea r fits quotient remainder hexec =>
    rw [hexec, hexec]
    refine Unreached.finishWith (Ordinary.readEa .word ea) fun v u hu => ?_
    split
    · rw [← hu]
      exact Unreached.enterException (u.setCcr (zeroDivideCcr u)) w _
    · rw [same hu]
      exact Or.inl (finishDivide_withOther s u _ w r _ _ _)
  | branches c disp hi =>
    rw [hi, exec_bcc, exec_bcc]
    refine Unreached.finishWith (Ordinary.fetchExt _) fun _ u hu => Unreached.next ?_
    have hcond : condHolds (s.withInactive w).sr.ccr c = condHolds s.sr.ccr c := rfl
    rw [same hu, hcond]
    split <;> rfl
  | stops imm hi =>
    rw [hi]
    cases hs : s.sr.s with
    | false =>
      have hs' : (s.withInactive w).sr.s = false := hs
      rw [exec_stop_user hs, exec_stop_user hs', ← hs]
      exact Unreached.enterException s w _
    | true =>
      have hs' : (s.withInactive w).sr.s = true := hs
      rw [exec_stop hs, exec_stop hs', ← hs]
      exact Unreached.finishWith (Ordinary.fetchExt 1) fun _ u hu => Unreached.next (by rw [same hu]; rfl)

end Sys2Proof.Machine
end

section
/-! The statements of 10_state.md that are about every instruction and every step. -/

namespace Sys2Proof.Proofs

open Sys2Proof.Machine

/-- Settles O51: the invariant across each way a step can end. -/
theorem stepKeepsInvariant : Obligations.StepKeepsInvariant :=
  fun _ _ hinv hstep => hinv.step hstep

/-- Settles O53: a step from user state leaves what it may not change, or enters supervisor state through an exception
or a reset. -/
theorem userStateIsConfined : Obligations.UserStateIsConfined :=
  fun _ _ hs hstep => step_confined hs hstep

/-- Settles O54: every other end of an instruction keeps S or sets it. -/
theorem onlyStopLeavesSupervisorState : Obligations.OnlyStopLeavesSupervisorState :=
  fun _ _ _ h hs ht => exec_leaves_supervisor h hs ht

/-- Settles O55: that it is kept is read off the ends of an instruction, that it is not read comes from the comparison
of the two runs. -/
theorem inactiveStackPointerIsKept : Obligations.InactiveStackPointerIsKept := by
  refine ⟨fun _ _ _ h => exec_keeps_other h, ?_, ?_⟩
  · intro i s v hs
    have hrun := exec_unreached i s v
    rw [State.withInactive, hs] at hrun
    rcases hrun with hsame | ⟨hfalse, _⟩
    · exact hsame
    · exact nomatch hfalse
  · intro i s t v hs h ht
    have hrun := exec_unreached i s v
    rw [State.withInactive, hs, h] at hrun
    rcases hrun with hsame | ⟨_, hentered⟩
    · exact hsame
    · exact absurd (hentered t rfl) (by simp [ht])

end Sys2Proof.Proofs
end

section
/-! SUPPORT. The bytes of a store, and what an access gives after one (20_memory.md R53, R56, R57). -/

namespace Sys2Proof.Machine

/-- The low word of the part of a value that two bytes hold. -/
theorem setWidth_and_twoBytes (v : Long) : (v &&& BitVec.ofNat 32 (2 ^ (8 * 2) - 1)).setWidth 16 = v.setWidth 16 := by
  apply BitVec.eq_of_getLsbD_eq
  intro i hi
  simp only [BitVec.getLsbD_setWidth, BitVec.getLsbD_and, getLsbD_ofNat_mask]
  simp [hi, show i < 32 by omega]

/-- Each byte of a store, the one at the lowest address the most significant (R53). -/
theorem Memory.read_writeBE {m : Memory} {a nb : Nat} (v : Long) (h : m.wf = true)
    (ha : a + nb ≤ 2 ^ Config.addrBits) {j : Nat} (hj : j < nb) :
    (m.writeBE a nb v).read (a + j) = v.extractLsb' (8 * (nb - 1 - j)) 8 := by
  induction nb generalizing v with
  | zero => exact absurd hj (Nat.not_lt_zero j)
  | succ k ih =>
    have hplace : ∀ i < k + 1, place (a + i) = a + i := fun i hi => place_of_lt (by omega)
    rw [Memory.writeBE, hplace k (Nat.lt_succ_self k)]
    by_cases hjk : j = k
    · subst hjk
      have hwf : (m.writeBE a j (v >>> 8)).wf = true :=
        Memory.wf_writeBE _ _ _ h fun i hi => by rw [hplace i (by omega)]; omega
      rw [Memory.read_write_same _ _ hwf]
      simp [BitVec.setWidth_eq_extractLsb']
    · have hshift : (v >>> 8).extractLsb' (8 * (k - 1 - j)) 8 = v.extractLsb' (8 * (k + 1 - 1 - j)) 8 := by
        apply BitVec.eq_of_getLsbD_eq
        intro i hi
        simp only [BitVec.getLsbD_extractLsb', BitVec.getLsbD_ushiftRight]
        rw [show 8 + (8 * (k - 1 - j) + i) = 8 * (k + 1 - 1 - j) + i by omega]
      rw [Memory.read_write_other _ _ _ _ (by omega), ih (v >>> 8) (by omega) (by omega), hshift]

/-- A store leaves every byte outside its addresses. -/
theorem Memory.read_writeBE_outside {m : Memory} {a nb k : Nat} (v : Long) (ha : a + nb ≤ 2 ^ Config.addrBits)
    (hk : ¬ (a ≤ k ∧ k < a + nb)) : (m.writeBE a nb v).read k = m.read k :=
  Memory.read_writeBE_other _ _ _ _ _ fun j hj => by rw [place_of_lt (by omega)]; omega

/-- The state after a store that is made. -/
def State.memWritten (s : State) (addr : Long) (nb : Nat) (v : Long) : State :=
  { s with mem := s.mem.writeBE (busAddress addr) nb v }

@[simp] theorem State.memWritten_busMap (s : State) (addr : Long) (nb : Nat) (v : Long) :
    (s.memWritten addr nb v).busMap = s.busMap := rfl

/-- What a read of plain memory gives after a store there. -/
theorem State.busRead_memWritten {s : State} {addr : Long} {nb : Nat} (v : Long) (h : s.mem.wf = true) (hn : nb ≤ 4)
    (ha : busAddress addr + nb ≤ 2 ^ Config.addrBits) (hplain : s.plain (busAddress addr) nb = true)
    (use : Config.ReadUse) :
    (s.memWritten addr nb v).busRead use (busAddress addr) nb = v &&& BitVec.ofNat 32 (2 ^ (8 * nb) - 1) := by
  have hplain' : (s.memWritten addr nb v).plain (busAddress addr) nb = true := by
    rw [State.plain_congr (s.memWritten_busMap addr nb v), hplain]
  rw [State.busRead_plain hplain', State.memWritten, Memory.readBE_writeBE _ _ _ h hn ha]

end Sys2Proof.Machine
end

section
/-! SUPPORT. Which error an access raises (20_memory.md R54, 60_exceptions.md R255). -/

namespace Sys2Proof.Machine

theorem misaligned_of_odd {addr : Long} {nb : Nat} (h : addr.getLsbD 0 = true) (hn : 1 < nb) :
    misaligned addr nb = true := by
  simp [misaligned, h, hn]

theorem misaligned_of_byte_or_even {addr : Long} {nb : Nat} (h : nb = 1 ∨ addr.getLsbD 0 = false) :
    misaligned addr nb = false := by
  rcases h with rfl | h
  · rfl
  · simp only [misaligned, h, Bool.and_false]

/-- An access that is not misaligned fails with a bus error alone. -/
theorem State.access_error_of_aligned {s t : State} {space : Space} {dir : Direction} {addr : Long} {nb : Nat}
    {x : FailedAccess} (hal : misaligned addr nb = false) (h : s.access space dir addr nb = .abort x t) :
    x.error = .bus := by
  rw [State.access, hal] at h
  split at h
  · contradiction
  · split at h <;> cases h
    rfl

/-- A part that ends with what it makes of a value fails only where its first part does. -/
theorem Eff.abort_of_bind_done {α β : Type} {e : Eff α} {f : α → State → β} {g : State → State} {x : FailedAccess}
    {t : State} (h : (e.bind fun v s => .done (f v s) (g s)) = .abort x t) : e = .abort x t := by
  cases e <;> cases h
  rfl

theorem State.memRead_error_of_aligned {s t : State} {use : Config.ReadUse} {space : Space} {addr : Long} {nb : Nat}
    {x : FailedAccess} (hal : misaligned addr nb = false) (h : s.memRead use space addr nb = .abort x t) :
    x.error = .bus :=
  State.access_error_of_aligned hal (Eff.abort_of_bind_done (g := id) h)

theorem State.memWrite_error_of_aligned {s t : State} {addr v : Long} {nb : Nat} {x : FailedAccess}
    (hal : misaligned addr nb = false) (h : s.memWrite addr nb v = .abort x t) : x.error = .bus :=
  State.access_error_of_aligned hal (Eff.abort_of_bind_done h)

theorem State.memRead_misaligned {s : State} {use : Config.ReadUse} {space : Space} {addr : Long} {nb : Nat}
    (h : misaligned addr nb = true) : s.memRead use space addr nb = .abort ⟨.address, addr, .read, space⟩ s := by
  rw [State.memRead, State.access_misaligned h, Eff.bind_abort]

theorem State.memWrite_misaligned {s : State} {addr v : Long} {nb : Nat} (h : misaligned addr nb = true) :
    s.memWrite addr nb v = .abort ⟨.address, addr, .write, .data⟩ s := by
  rw [State.memWrite, State.access_misaligned h, Eff.bind_abort]

theorem State.fetchExt_misaligned {s : State} (k : Nat) (h : s.pc.getLsbD 0 = true) :
    s.fetchExt (k + 1) = .abort ⟨.address, s.pc, .read, .program⟩ s := by
  rw [State.fetchExt, State.access_misaligned (misaligned_of_odd h (by decide)), Eff.bind_abort]

end Sys2Proof.Machine
end

section
/-! SUPPORT. What the outside fixes: no instruction, exception or step changes the memory map, and the inputs to come
change where they are sampled alone (20_memory.md R51, 00_scope.md R7). -/

namespace Sys2Proof.Machine

/-- What answers where, and the inputs to come, are as they were. -/
structure SameOutside (s t : State) : Prop where
  busMap : t.busMap = s.busMap
  inputs : t.inputs = s.inputs

theorem SameOutside.trans {s t u : State} (h : SameOutside s t) (k : SameOutside t u) : SameOutside s u :=
  ⟨k.busMap.trans h.busMap, k.inputs.trans h.inputs⟩

theorem PartOf.sameOutside {s t : State} (h : PartOf s t) : SameOutside s t := ⟨h.busMap, h.inputs⟩

theorem Taken.sameOutside {s t : State} (h : Taken s t) : SameOutside s t := ⟨h.busMap, h.inputs⟩

/-- If there is a next state, the outside is in it as it was in `s`. -/
def KeepsOutside (s : State) (r : Result) : Prop := ∀ t, r = .next t → SameOutside s t

/-- Counting the free values on changes nothing outside. -/
theorem KeepsOutside.drawn {s : State} {r : Result} (h : KeepsOutside s r) (u : State) :
    KeepsOutside s (mapNext u.drawn r) := by
  intro t ht
  obtain ⟨v, hv, rfl⟩ := mapNext_eq_next ht
  exact ⟨(h v hv).busMap, (h v hv).inputs⟩

theorem KeepsOutside.enterException (e : Entry) (s : State) : KeepsOutside s (enterException e s) :=
  fun _ h => (enterException_next h).1.sameOutside

theorem KeepsOutside.enterInterrupt (ack : Acknowledge) (s : State) : KeepsOutside s (enterInterrupt ack s) := by
  intro t h
  obtain ⟨htaken, _⟩ := enterException_next h
  exact ⟨htaken.busMap, htaken.inputs⟩

/-- Every instruction keeps the outside, however it ends. -/
theorem KeepsOutside.exec (i : Instr) (s : State) : KeepsOutside s (exec i s) := by
  intro t h
  cases exec_ends h with
  | completes hu => exact ⟨hu.busMap, hu.inputs⟩
  | branches target hu => exact ⟨hu.busMap, hu.inputs⟩
  | stops imm hi hs hu => exact ⟨hu.busMap, hu.inputs⟩
  | raises hu ht => exact hu.sameOutside.trans ht.sameOutside

theorem KeepsOutside.runInstruction (s : State) : KeepsOutside s s.runInstruction := by
  intro t h
  obtain ⟨u, rfl, hu | ⟨i, w, hu⟩⟩ := runInstruction_next h
  · exact ⟨hu.busMap, hu.inputs⟩
  · have hexec := KeepsOutside.exec i { s with ir := w, prefetch := s.ahead i } u hu
    exact ⟨hexec.busMap, hexec.inputs⟩

/-- The reset sequence reads the reset vectors and sets registers. -/
theorem KeepsOutside.resetSequence (s : State) : KeepsOutside s (resetSequence s) := by
  intro t h
  have hvectors := Pushed.resetVectors (s := s.restarting) rfl
  simp only [Machine.resetSequence] at h
  split at h
  · rename_i pc u heq
    rw [State.restarting, heq] at hvectors
    cases h
    exact ⟨hvectors.part.busMap, hvectors.part.inputs⟩
  · rename_i x u heq
    rw [State.restarting, heq] at hvectors
    cases h
    exact ⟨hvectors.part.busMap, hvectors.part.inputs⟩
  · cases h

/-- Once the inputs are sampled, whatever is next at the boundary keeps the outside (60_exceptions.md R254). -/
theorem KeepsOutside.proceed (ack : Acknowledge) (s : State) : KeepsOutside s (s.proceed ack) := by
  unfold State.proceed
  split
  · exact (KeepsOutside.enterException _ s).drawn s
  split
  · exact (KeepsOutside.enterInterrupt ack s).drawn s
  split
  · rintro _ ⟨⟩
    exact ⟨rfl, rfl⟩
  · exact KeepsOutside.runInstruction s

/-- A step samples the inputs, and keeps the outside from there on. -/
theorem KeepsOutside.step (s : State) : KeepsOutside s.sampled (step s) := by
  unfold Machine.step State.advance
  split
  · exact (KeepsOutside.resetSequence s.sampled).drawn s.sampled
  split
  · split
    · nofun
    · rintro _ ⟨⟩
      exact ⟨rfl, rfl⟩
  · exact KeepsOutside.proceed _ s.sampled

end Sys2Proof.Machine
end

section
/-! SUPPORT. What is held that was fetched ahead (20_memory.md R79). -/

namespace Sys2Proof.Machine

theorem State.fetchedWord_of_none {s : State} {p : Long} (h : heldAt s.prefetch p = none) :
    s.fetchedWord p = s.wordAt p := by
  rw [State.fetchedWord, h]

/-- A fetch from an address for which a word is held gives the word in memory or that word. -/
theorem State.fetchedWord_of_some {s : State} {p : Long} {w : Word} (h : heldAt s.prefetch p = some w) :
    s.fetchedWord p = s.wordAt p ∨ s.fetchedWord p = w := by
  simp only [State.fetchedWord, h]
  split
  · exact Or.inr rfl
  · split
    · exact Or.inl rfl
    · exact Or.inr rfl

/-- An instruction keeps what is held or drops it. -/
theorem exec_prefetch {i : Instr} {s t : State} (h : exec i s = .next t) :
    t.prefetch = s.prefetch ∨ t.prefetch = [] := by
  cases exec_ends h with
  | completes hu => exact Or.inl hu.prefetch
  | branches target hu => exact Or.inr rfl
  | stops imm hi hs hu => exact Or.inl hu.prefetch
  | raises hu ht => exact Or.inr ht.prefetch

theorem enterException_prefetch {e : Entry} {s t : State} (h : enterException e s = .next t) : t.prefetch = [] :=
  (enterException_next h).1.prefetch

theorem enterGroup0_prefetch {x : FailedAccess} {pc0 : Long} {opWord : Word} {busy : Bool} {s t : State}
    (h : enterGroup0 x pc0 opWord busy s = .next t) : t.prefetch = [] :=
  (enterGroup0_next h).1.prefetch

/-- A branch that is taken drops what is held; so does the exception of its displacement's fetch. -/
theorem exec_bcc_taken_prefetch {c : Cond} {disp : BranchDisp} {s t : State} (h : exec (.bcc c disp) s = .next t)
    (hc : condHolds s.sr.ccr c = true) : t.prefetch = [] := by
  rw [exec_bcc] at h
  cases he : s.pastOpWord.fetchExt (branchExt disp) with
  | done v u =>
    rw [he, finishWith_done, if_pos hc] at h
    cases h
    rfl
  | abort x u =>
    rw [he] at h
    exact enterGroup0_prefetch h
  | refuse r =>
    rw [he] at h
    cases h

end Sys2Proof.Machine
end

section
/-! The statements of 20_memory.md. -/

namespace Sys2Proof.Proofs

open Sys2Proof.Machine

/-- Settles O5: the store's bytes are those of the value, a read of plain memory puts them together again, and the
store changes neither the memory map nor what responds. -/
theorem memoryReadsWhatWasWritten : Obligations.MemoryReadsWhatWasWritten := by
  intro s addr nb v hwf hn hacc ha
  have hdone : s.memWrite addr nb v = .done () (s.memWritten addr nb v) := State.memWrite_done hacc
  refine ⟨s.memWritten addr nb v, hdone, rfl, State.memWrite_wf hwf hdone, ?_, ?_, ?_, ?_⟩
  · exact fun j hj => Memory.read_writeBE v hwf ha hj
  · exact fun k hk => Memory.read_writeBE_outside v ha hk
  · intro hread use space
    have hread' : (s.memWritten addr nb v).accessible .read addr nb = true := by
      rw [State.accessible_congr (s.memWritten_busMap addr nb v), hread]
    exact ⟨_, State.memRead_done hread', fun hplain => State.busRead_memWritten v hwf hn ha hplain use⟩
  · rintro rfl hplain
    rw [State.wordAt, State.busRead_memWritten v hwf hn ha hplain, setWidth_and_twoBytes]

/-- Settles O7: the address is checked before the bus, and a bus error is the only other error of an access. -/
theorem alignmentRule : Obligations.AlignmentRule := by
  intro s use space addr v
  refine ⟨fun hodd nb hn => ?_, fun hodd => State.fetchExt_misaligned 0 hodd, fun nb x t hal => ?_⟩
  · have hmis : misaligned addr nb = true := misaligned_of_odd hodd (by omega)
    exact ⟨State.memRead_misaligned hmis, State.memWrite_misaligned hmis⟩
  · have haligned : misaligned addr nb = false := misaligned_of_byte_or_even hal
    exact ⟨State.memRead_error_of_aligned haligned, State.memWrite_error_of_aligned haligned⟩

/-- Settles O52: a step samples the inputs, and whatever it does then keeps the outside. -/
theorem memoryMapIsFixed : Obligations.MemoryMapIsFixed := by
  intro s t h
  obtain ⟨hmap, hinputs⟩ := KeepsOutside.step s t h
  exact ⟨hmap, hinputs⟩

/-- Settles O59: a fetch by whether a word is held for its address, the rest from the ends of an instruction and of an
exception's entry. -/
theorem prefetchRule : Obligations.PrefetchRule := by
  refine ⟨fun s p => ?_, fun _ _ => State.fetchedWord_of_none, fun _ _ _ => exec_prefetch,
    fun _ _ _ _ => exec_bcc_taken_prefetch, fun _ _ _ => enterException_prefetch,
    fun _ _ _ _ _ _ => enterGroup0_prefetch⟩
  cases hheld : heldAt s.prefetch p with
  | none => exact Or.inl (State.fetchedWord_of_none hheld)
  | some w => exact (State.fetchedWord_of_some hheld).imp_right fun hw => by rw [hw]

end Sys2Proof.Proofs
end

section
/-! SUPPORT. The operation word as its six fields, of which every format of 30_encoding.md R103 is made. -/

namespace Sys2Proof.Laws

/-- An operation word from its fields: the line, bits 11 to 9, bit 8, bits 7 to 6, and the mode and register of bits
5 to 0 (30_encoding.md R83, R89). -/
def opWord (line : BitVec 4) (hi : BitVec 3) (b8 : BitVec 1) (ss : BitVec 2) (mode reg : BitVec 3) : Word :=
  line ++ hi ++ b8 ++ ss ++ mode ++ reg

/-! ### Bits as numbers -/

theorem toNat_append_eq_add {m k : Nat} (x : BitVec m) (y : BitVec k) :
    (x ++ y).toNat = x.toNat * 2 ^ k + y.toNat := by
  rw [BitVec.toNat_append, ← Nat.shiftLeft_add_eq_or_of_lt y.isLt, Nat.shiftLeft_eq]

theorem bitsAt_toNat (w : Word) (lo len : Nat) : (bitsAt w lo len).toNat = w.toNat / 2 ^ lo % 2 ^ len := by
  rw [bitsAt, BitVec.extractLsb'_toNat, Nat.shiftRight_eq_div_pow]

theorem toNat_extractLsb'_eq {k : Nat} (x : BitVec k) (lo len : Nat) :
    (x.extractLsb' lo len).toNat = x.toNat / 2 ^ lo % 2 ^ len := by
  rw [BitVec.extractLsb'_toNat, Nat.shiftRight_eq_div_pow]

/-- A field is a value if it is the same number. -/
theorem bitsAt_eq_of_toNat {w : Word} {lo len : Nat} {v : BitVec len} (h : w.toNat / 2 ^ lo % 2 ^ len = v.toNat) :
    bitsAt w lo len = v :=
  BitVec.eq_of_toNat_eq ((bitsAt_toNat w lo len).trans h)

/-- Two bits agree if they are the same digit. -/
theorem getElem_eq_of_toNat {m k : Nat} {w : BitVec m} {v : BitVec k} {i j : Nat} {hi : i < m} {hj : j < k}
    (h : w.toNat / 2 ^ i % 2 = v.toNat / 2 ^ j % 2) : w[i] = v[j] := by
  rw [BitVec.getElem_eq_testBit_toNat, BitVec.getElem_eq_testBit_toNat, Nat.testBit_eq_decide_div_mod_eq,
    Nat.testBit_eq_decide_div_mod_eq, h]

section Fields
variable (line : BitVec 4) (hi : BitVec 3) (b8 : BitVec 1) (ss : BitVec 2) (mode reg : BitVec 3)

/-- The fields are the digits of the operation word in a mixed radix. -/
theorem opWord_toNat :
    (opWord line hi b8 ss mode reg).toNat =
      line.toNat * 4096 + hi.toNat * 512 + b8.toNat * 256 + ss.toNat * 64 + mode.toNat * 8 + reg.toNat := by
  simp only [opWord, toNat_append_eq_add]
  omega

/-! ### The fields read back -/

@[simp] theorem bitsAt_line : bitsAt (opWord line hi b8 ss mode reg) 12 4 = line :=
  bitsAt_eq_of_toNat (by rw [opWord_toNat]; omega)

@[simp] theorem bitsAt_hi : bitsAt (opWord line hi b8 ss mode reg) 9 3 = hi :=
  bitsAt_eq_of_toNat (by rw [opWord_toNat]; omega)

@[simp] theorem bitsAt_ss : bitsAt (opWord line hi b8 ss mode reg) 6 2 = ss :=
  bitsAt_eq_of_toNat (by rw [opWord_toNat]; omega)

@[simp] theorem bitsAt_mode : bitsAt (opWord line hi b8 ss mode reg) 3 3 = mode :=
  bitsAt_eq_of_toNat (by rw [opWord_toNat]; omega)

@[simp] theorem bitsAt_reg : bitsAt (opWord line hi b8 ss mode reg) 0 3 = reg :=
  bitsAt_eq_of_toNat (by rw [opWord_toNat]; omega)

@[simp] theorem getElem_b8 : (opWord line hi b8 ss mode reg)[8] = b8[0] :=
  getElem_eq_of_toNat (by rw [opWord_toNat]; omega)

@[simp] theorem getElem_ss1 : (opWord line hi b8 ss mode reg)[7] = ss[1] :=
  getElem_eq_of_toNat (by rw [opWord_toNat]; omega)

@[simp] theorem getElem_ss0 : (opWord line hi b8 ss mode reg)[6] = ss[0] :=
  getElem_eq_of_toNat (by rw [opWord_toNat]; omega)

/-! ### Fields that stand across them -/

/-- The size field of MOVE (30_encoding.md R86). -/
@[simp] theorem bitsAt_moveSize : bitsAt (opWord line hi b8 ss mode reg) 12 2 = line.extractLsb' 0 2 :=
  bitsAt_eq_of_toNat (by rw [opWord_toNat, toNat_extractLsb'_eq]; omega)

/-- The mode field of MOVE's destination (30_encoding.md R91). -/
@[simp] theorem bitsAt_dstMode : bitsAt (opWord line hi b8 ss mode reg) 6 3 = b8 ++ ss :=
  bitsAt_eq_of_toNat (by rw [opWord_toNat, toNat_append_eq_add]; omega)

/-- The condition of Bcc, and the operation of line 0100 (30_encoding.md R92, R94). -/
@[simp] theorem bitsAt_cond : bitsAt (opWord line hi b8 ss mode reg) 8 4 = hi ++ b8 :=
  bitsAt_eq_of_toNat (by rw [opWord_toNat, toNat_append_eq_add]; omega)

/-- The pattern of EXT (30_encoding.md R92). -/
@[simp] theorem bitsAt_ext : bitsAt (opWord line hi b8 ss mode reg) 3 9 = hi ++ b8 ++ ss ++ mode :=
  bitsAt_eq_of_toNat (by rw [opWord_toNat]; simp only [toNat_append_eq_add]; omega)

/-- The displacement of Bcc (30_encoding.md R94). -/
@[simp] theorem bitsAt_disp : bitsAt (opWord line hi b8 ss mode reg) 0 8 = ss ++ mode ++ reg :=
  bitsAt_eq_of_toNat (by rw [opWord_toNat]; simp only [toNat_append_eq_add]; omega)

/-- The bits of ADDX and SUBX that tell them from ADD and SUB (30_encoding.md R96, R99). -/
@[simp] theorem bitsAt_mode_high : bitsAt (opWord line hi b8 ss mode reg) 4 2 = mode.extractLsb' 1 2 :=
  bitsAt_eq_of_toNat (by rw [opWord_toNat, toNat_extractLsb'_eq]; omega)

/-- The type of a register shift or rotate (30_encoding.md R100). -/
@[simp] theorem bitsAt_mode_low : bitsAt (opWord line hi b8 ss mode reg) 3 2 = mode.extractLsb' 0 2 :=
  bitsAt_eq_of_toNat (by rw [opWord_toNat, toNat_extractLsb'_eq]; omega)

/-- The type of a memory shift or rotate (30_encoding.md R100). -/
@[simp] theorem bitsAt_hi_low : bitsAt (opWord line hi b8 ss mode reg) 9 2 = hi.extractLsb' 0 2 :=
  bitsAt_eq_of_toNat (by rw [opWord_toNat, toNat_extractLsb'_eq]; omega)

@[simp] theorem getElem_mode0 : (opWord line hi b8 ss mode reg)[3] = mode[0] :=
  getElem_eq_of_toNat (by rw [opWord_toNat]; omega)

@[simp] theorem getElem_mode2 : (opWord line hi b8 ss mode reg)[5] = mode[2] :=
  getElem_eq_of_toNat (by rw [opWord_toNat]; omega)

@[simp] theorem getElem_hi2 : (opWord line hi b8 ss mode reg)[11] = hi[2] :=
  getElem_eq_of_toNat (by rw [opWord_toNat]; omega)

@[simp] theorem regAt9_opWord : regAt9 (opWord line hi b8 ss mode reg) = RegNum.ofBits hi := by simp [regAt9]

@[simp] theorem regAt0_opWord : regAt0 (opWord line hi b8 ss mode reg) = RegNum.ofBits reg := by simp [regAt0]

@[simp] theorem sizeAt6_opWord : sizeAt6 (opWord line hi b8 ss mode reg) = sizeOr (sizeOfBits ss) := by simp [sizeAt6]

end Fields

/-- Operation words are equal where their fields are. -/
theorem opWord_inj {l l' : BitVec 4} {h h' : BitVec 3} {b b' : BitVec 1} {s s' : BitVec 2} {m m' g g' : BitVec 3} :
    opWord l h b s m g = opWord l' h' b' s' m' g' ↔ l = l' ∧ h = h' ∧ b = b' ∧ s = s' ∧ m = m' ∧ g = g' := by
  refine ⟨fun heq => ?_, by rintro ⟨rfl, rfl, rfl, rfl, rfl, rfl⟩; rfl⟩
  have hnat := congrArg BitVec.toNat heq
  rw [opWord_toNat, opWord_toNat] at hnat
  refine ⟨?_, ?_, ?_, ?_, ?_, ?_⟩ <;> apply BitVec.eq_of_toNat_eq <;> omega

/-- The word of ANDI to CCR (30_encoding.md R90). -/
theorem opWord_eq_andiToCcr {l : BitVec 4} {h : BitVec 3} {b : BitVec 1} {s : BitVec 2} {m g : BitVec 3} :
    opWord l h b s m g = 0x023C#16 ↔ l = 0#4 ∧ h = 1#3 ∧ b = 0#1 ∧ s = 0#2 ∧ m = 7#3 ∧ g = 4#3 :=
  opWord_inj (l' := 0#4) (h' := 1#3) (b' := 0#1) (s' := 0#2) (m' := 7#3) (g' := 4#3)

/-- The word of STOP (30_encoding.md R92). -/
theorem opWord_eq_stop {l : BitVec 4} {h : BitVec 3} {b : BitVec 1} {s : BitVec 2} {m g : BitVec 3} :
    opWord l h b s m g = 0x4E72#16 ↔ l = 4#4 ∧ h = 7#3 ∧ b = 0#1 ∧ s = 1#2 ∧ m = 6#3 ∧ g = 2#3 :=
  opWord_inj (l' := 4#4) (h' := 7#3) (b' := 0#1) (s' := 1#2) (m' := 6#3) (g' := 2#3)

/-- Every word is made of its fields. -/
theorem exists_opWord (w : Word) : ∃ line hi b8 ss mode reg, w = opWord line hi b8 ss mode reg := by
  refine ⟨bitsAt w 12 4, bitsAt w 9 3, bitsAt w 8 1, bitsAt w 6 2, bitsAt w 3 3, bitsAt w 0 3, ?_⟩
  apply BitVec.eq_of_toNat_eq
  simp only [opWord_toNat, bitsAt_toNat]
  omega

end Sys2Proof.Laws
end

section
/-! SUPPORT. The readers of the decoder on what the encoder writes: each gives back the operand and leaves the words
after it (30_encoding.md R82 to R88). -/

namespace Sys2Proof.Laws

/-! ### Fields -/

@[simp] theorem RegNum.ofBits_toBits (r : RegNum) : RegNum.ofBits r.toBits = r := by cases r <;> rfl

@[simp] theorem sizeOr_some (sz : Size) : sizeOr (some sz) = .ok sz := rfl

@[simp] theorem sizeOfBits_toBits (sz : Size) : sizeOfBits sz.toBits = some sz := by cases sz <;> rfl

@[simp] theorem condOfBits_toBits (c : Cond) : condOfBits c.toBits = some c := by cases c <;> rfl

/-- The size field is never 11, which stands for other instructions (30_encoding.md R86). -/
@[simp] theorem Size.toBits_ne_three (sz : Size) : sz.toBits ≠ 3#2 := by cases sz <;> decide

/-! ### Immediate data and extension words -/

@[simp] theorem takeWord_cons (w : Word) (ws : List Word) : takeWord (w :: ws) = .ok (w, ws) := rfl

@[simp] theorem bitsAt_setWidth_byte (b : Byte) : bitsAt (b.setWidth 16) 0 8 = b :=
  bitsAt_eq_of_toNat (by rw [BitVec.toNat_setWidth]; omega)

/-- A long word is its two halves, the high one first (30_encoding.md R85). -/
theorem takeLong_halves (v : Long) (rest : List Word) :
    takeLong (v.extractLsb' 16 16 :: v.extractLsb' 0 16 :: rest) = .ok (v, rest) := by
  have hv : v.extractLsb' 16 16 ++ v.extractLsb' 0 16 = v := BitVec.eq_of_toNat_eq (by
    simp only [toNat_append_eq_add, toNat_extractLsb'_eq]; omega)
  exact congrArg (fun x => Except.ok (x, rest)) hv

/-- Immediate data of the operation size is read back (30_encoding.md R85). -/
theorem takeImm_immWords {sz : Size} {v : Long} (h : fits sz v = true) (rest : List Word) :
    takeImm sz (immWords sz v ++ rest) = .ok (v, rest) := by
  have hlt : v.toNat < 2 ^ sz.bits := of_decide_eq_true h
  cases sz with
  | byte =>
    have hv : (bitsAt ((v.setWidth 8).setWidth 16) 0 8).setWidth 32 = v := BitVec.eq_of_toNat_eq (by
      rw [bitsAt_setWidth_byte, BitVec.toNat_setWidth, BitVec.toNat_setWidth]
      simp only [Size.bits] at hlt
      omega)
    exact congrArg (fun x => Except.ok (x, rest)) hv
  | word =>
    have hv : (v.setWidth 16).setWidth 32 = v := BitVec.eq_of_toNat_eq (by
      rw [BitVec.toNat_setWidth, BitVec.toNat_setWidth]
      simp only [Size.bits] at hlt
      omega)
    exact congrArg (fun x => Except.ok (x, rest)) hv
  | long => exact takeLong_halves v rest

/-- The fields of a brief extension word are the digits of a number in a mixed radix. -/
theorem briefWord_toNat (b : BitVec 1) (r : BitVec 3) (l : BitVec 1) (d : Byte) :
    (b ++ r ++ l ++ 0#3 ++ d).toNat = b.toNat * 32768 + r.toNat * 4096 + l.toNat * 2048 + d.toNat := by
  simp only [toNat_append_eq_add, BitVec.toNat_ofNat]
  omega

/-- The fields of a brief extension word read back (30_encoding.md R84). -/
theorem ofWord_briefWord (b : BitVec 1) (r : RegNum) (long : Bool) (d : Byte) :
    IndexExt.ofWord (b ++ r.toBits ++ BitVec.ofBool long ++ 0#3 ++ d) =
      ⟨if b[0] then .a r else .d r, long, d⟩ := by
  have hb : (b ++ r.toBits ++ BitVec.ofBool long ++ 0#3 ++ d)[15] = b[0] :=
    getElem_eq_of_toNat (by rw [briefWord_toNat]; omega)
  have hr : bitsAt (b ++ r.toBits ++ BitVec.ofBool long ++ 0#3 ++ d) 12 3 = r.toBits :=
    bitsAt_eq_of_toNat (by rw [briefWord_toNat]; omega)
  have hl : (b ++ r.toBits ++ BitVec.ofBool long ++ 0#3 ++ d)[11] = (BitVec.ofBool long)[0] :=
    getElem_eq_of_toNat (by rw [briefWord_toNat]; omega)
  have hd : bitsAt (b ++ r.toBits ++ BitVec.ofBool long ++ 0#3 ++ d) 0 8 = d :=
    bitsAt_eq_of_toNat (by rw [briefWord_toNat]; omega)
  simp [IndexExt.ofWord, hb, hr, hl, hd]

@[simp] theorem IndexExt.ofWord_toWord (x : IndexExt) : IndexExt.ofWord x.toWord = x := by
  obtain ⟨reg, long, d⟩ := x
  cases reg with
  | d r => exact ofWord_briefWord 0 r long d
  | a r => exact ofWord_briefWord 1 r long d

/-! ### Effective addresses -/

theorem EA.ok_iff {cat : Cat} {sz : Size} {ea : EA} :
    ea.ok cat sz = true ↔ decodeAllows cat sz ea.mode = true ∧ ea.fits sz = true := by
  simp only [EA.ok, decodeAllows, Bool.and_eq_true]

@[simp] theorem modeOf_bits (ea : EA) : modeOf ea.modeBits ea.regBits = some ea.mode := by
  cases ea <;> rfl

/-- The mode of a legal operand is read from its fields (30_encoding.md R83, R88). -/
theorem legalMode_of_ok {cat : Cat} {sz : Size} {ea : EA} (h : ea.ok cat sz = true) :
    legalMode cat sz ea.modeBits ea.regBits = .ok ea.mode := by
  simp [legalMode, (EA.ok_iff.mp h).1]

/-- The extension words of an operand give it back (30_encoding.md R83, R84). -/
theorem takeOperand_words {sz : Size} {ea : EA} (h : ea.fits sz = true) (rest : List Word) :
    takeOperand ea.mode (RegNum.ofBits ea.regBits) sz (ea.words sz ++ rest) = .ok (ea, rest) := by
  cases ea with
  | dn r | an r | ind r | postinc r | predec r => simp [takeOperand, EA.mode, EA.regBits, EA.words]
  | disp r d | absW a | pcDisp d => simp [takeOperand, EA.mode, EA.regBits, EA.words, bind, Except.bind]
  | index r x | pcIndex x => simp [takeOperand, EA.mode, EA.regBits, EA.words, bind, Except.bind]
  | absL a => exact congrArg (· >>= _) (takeLong_halves a rest)
  | imm v => exact congrArg (· >>= _) (takeImm_immWords h rest)

/-- The effective address of bits 5 to 0 and its extension words give the operand back. -/
theorem takeEa_words {cat : Cat} {sz : Size} {ea : EA} (h : ea.ok cat sz = true) (l : BitVec 4) (hi : BitVec 3)
    (b8 : BitVec 1) (ss : BitVec 2) (rest : List Word) :
    takeEa cat sz (opWord l hi b8 ss ea.modeBits ea.regBits) (ea.words sz ++ rest) = .ok (ea, rest) := by
  simp only [takeEa, bitsAt_mode, bitsAt_reg, legalMode_of_ok h]
  exact takeOperand_words (EA.ok_iff.mp h).2 rest

end Sys2Proof.Laws
end

section
/-! SUPPORT. The operation word of each format of 30_encoding.md R103 as its fields. -/

namespace Sys2Proof.Laws

/-! ### The operation word of each format -/

theorem field_toNat (ea : EA) : ea.field.toNat = ea.modeBits.toNat * 8 + ea.regBits.toNat :=
  toNat_append_eq_add _ _

/-- A word is made of fields if it is their number. -/
theorem eq_opWord_of_toNat {w : Word} {l : BitVec 4} {h : BitVec 3} {b : BitVec 1} {s : BitVec 2} {m g : BitVec 3}
    (heq : w.toNat = l.toNat * 4096 + h.toNat * 512 + b.toNat * 256 + s.toNat * 64 + m.toNat * 8 + g.toNat) :
    w = opWord l h b s m g :=
  BitVec.eq_of_toNat_eq (heq.trans (opWord_toNat l h b s m g).symm)

theorem encodeImmEa_eq (op : BitVec 3) (sz : Size) (imm : Long) (ea : EA) :
    encodeImmEa op sz imm ea =
      opWord 0#4 op 0#1 sz.toBits ea.modeBits ea.regBits :: (immWords sz imm ++ ea.words sz) := by
  refine congrArg (· :: _) (eq_opWord_of_toNat ?_)
  simp only [toNat_append_eq_add, field_toNat, BitVec.toNat_ofNat]
  omega

theorem encodeBitStatic_eq (tt : BitVec 2) (bit : Byte) (ea : EA) :
    encodeBitStatic tt bit ea =
      opWord 0#4 4#3 0#1 tt ea.modeBits ea.regBits :: bit.setWidth 16 :: ea.words .byte := by
  refine congrArg (· :: _) (eq_opWord_of_toNat ?_)
  simp only [toNat_append_eq_add, field_toNat, BitVec.toNat_ofNat]
  omega

theorem encodeBitDyn_eq (tt : BitVec 2) (r : RegNum) (ea : EA) :
    encodeBitDyn tt r ea = opWord 0#4 r.toBits 1#1 tt ea.modeBits ea.regBits :: ea.words .byte := by
  refine congrArg (· :: _) (eq_opWord_of_toNat ?_)
  simp only [toNat_append_eq_add, field_toNat, BitVec.toNat_ofNat]
  omega

theorem encodeSizeEa_eq (op : BitVec 4) (sz : Size) (ea : EA) :
    encodeSizeEa op sz ea =
      opWord 4#4 (op.extractLsb' 1 3) (op.extractLsb' 0 1) sz.toBits ea.modeBits ea.regBits :: ea.words sz := by
  refine congrArg (· :: _) (eq_opWord_of_toNat ?_)
  simp only [toNat_append_eq_add, field_toNat, BitVec.toNat_ofNat, toNat_extractLsb'_eq]
  omega

theorem encodeQuick_eq (o : BitVec 1) (data : BitVec 3) (sz : Size) (ea : EA) :
    encodeQuick o data sz ea = opWord 5#4 data o sz.toBits ea.modeBits ea.regBits :: ea.words sz := by
  refine congrArg (· :: _) (eq_opWord_of_toNat ?_)
  simp only [toNat_append_eq_add, field_toNat, BitVec.toNat_ofNat]
  omega

theorem encodeEaDn_eq (line : BitVec 4) (r : RegNum) (dir : BitVec 1) (ss : BitVec 2) (sz : Size) (ea : EA) :
    encodeEaDn line r dir ss sz ea = opWord line r.toBits dir ss ea.modeBits ea.regBits :: ea.words sz := by
  refine congrArg (· :: _) (eq_opWord_of_toNat ?_)
  simp only [toNat_append_eq_add, field_toNat]
  omega

theorem xWord_eq (line : BitVec 4) (x : BitVec 3) (s : BitVec 2) (form : BitVec 1) (y : BitVec 3) :
    (line ++ x ++ 1#1 ++ s ++ 0#2 ++ form ++ y : Word) = opWord line x 1#1 s (0#2 ++ form) y := by
  refine eq_opWord_of_toNat ?_
  simp only [toNat_append_eq_add, BitVec.toNat_ofNat]
  omega

theorem encodeX_eq (line : BitVec 4) (sz : Size) (form : XForm) (ry rx : RegNum) :
    encodeX line sz form ry rx =
      [opWord line rx.toBits 1#1 sz.toBits (match form with | .regs => 0#3 | .predec => 1#3) ry.toBits] := by
  cases form with
  | regs => exact congrArg ([·]) (xWord_eq line rx.toBits sz.toBits 0 ry.toBits)
  | predec => exact congrArg ([·]) (xWord_eq line rx.toBits sz.toBits 1 ry.toBits)

/-- The count field of a register shift or rotate, and bit 5, which tells what it holds (30_encoding.md R100). -/
theorem encodeShiftReg_eq (tt : BitVec 2) (d : BitVec 1) (sz : Size) (count : ShiftCount) (r : RegNum) :
    encodeShiftReg tt d sz count r =
      match count with
      | .imm c => [opWord 14#4 c d sz.toBits (0#1 ++ tt) r.toBits]
      | .reg x => [opWord 14#4 x.toBits d sz.toBits (1#1 ++ tt) r.toBits] := by
  cases count <;>
  · refine congrArg ([·]) (eq_opWord_of_toNat ?_)
    simp only [toNat_append_eq_add, BitVec.toNat_ofNat]
    omega

theorem encodeShiftMem_eq (tt : BitVec 2) (d : BitVec 1) (ea : EA) :
    encodeShiftMem tt d ea = opWord 14#4 (0#1 ++ tt) d 3#2 ea.modeBits ea.regBits :: ea.words .word := by
  refine congrArg (· :: _) (eq_opWord_of_toNat ?_)
  simp only [toNat_append_eq_add, field_toNat, BitVec.toNat_ofNat]
  omega

/-- MOVE: the destination's register in bits 11 to 9 and its mode in bits 8 to 6 (30_encoding.md R91). -/
theorem moveWord_eq (s : BitVec 2) (r m : BitVec 3) (ea : EA) :
    (0#2 ++ s ++ r ++ m ++ ea.field : Word) =
      opWord (0#2 ++ s) r (m.extractLsb' 2 1) (m.extractLsb' 0 2) ea.modeBits ea.regBits := by
  refine eq_opWord_of_toNat ?_
  simp only [toNat_append_eq_add, field_toNat, BitVec.toNat_ofNat, toNat_extractLsb'_eq]
  omega

@[simp] theorem rejoin_mode (m : BitVec 3) : (m.extractLsb' 2 1 ++ m.extractLsb' 0 2 : BitVec 3) = m :=
  BitVec.eq_of_toNat_eq (by simp only [toNat_append_eq_add, toNat_extractLsb'_eq]; omega)

theorem extWord_eq (r : RegNum) : (0b0100100010000#13 ++ r.toBits : Word) = opWord 4#4 4#3 0#1 2#2 0#3 r.toBits := by
  refine eq_opWord_of_toNat ?_
  simp only [toNat_append_eq_add, BitVec.toNat_ofNat]
  omega

theorem extLong_eq (r : RegNum) : (0b0100100011000#13 ++ r.toBits : Word) = opWord 4#4 4#3 0#1 3#2 0#3 r.toBits := by
  refine eq_opWord_of_toNat ?_
  simp only [toNat_append_eq_add, BitVec.toNat_ofNat]
  omega

theorem bccWord_eq (c : BitVec 4) (d : Byte) :
    (0b0110#4 ++ c ++ d : Word) =
      opWord 6#4 (c.extractLsb' 1 3) (c.extractLsb' 0 1) (d.extractLsb' 6 2) (d.extractLsb' 3 3)
        (d.extractLsb' 0 3) := by
  refine eq_opWord_of_toNat ?_
  simp only [toNat_append_eq_add, BitVec.toNat_ofNat, toNat_extractLsb'_eq]
  omega

@[simp] theorem rejoin_cond (c : BitVec 4) : (c.extractLsb' 1 3 ++ c.extractLsb' 0 1 : BitVec 4) = c :=
  BitVec.eq_of_toNat_eq (by simp only [toNat_append_eq_add, toNat_extractLsb'_eq]; omega)

@[simp] theorem rejoin_disp (d : Byte) :
    (d.extractLsb' 6 2 ++ d.extractLsb' 3 3 ++ d.extractLsb' 0 3 : Byte) = d :=
  BitVec.eq_of_toNat_eq (by simp only [toNat_append_eq_add, toNat_extractLsb'_eq]; omega)

end Sys2Proof.Laws
end

section
/-! SUPPORT. Decoding what the encoder writes, format by format (30_encoding.md R88 to R103). In each lemma `hline` says
which branch of its line's table the operation word takes. -/

namespace Sys2Proof.Laws

@[simp] theorem ok_bind {ε α β : Type} (a : α) (f : α → Except ε β) : (Except.ok a >>= f) = f a := rfl

/-- An operation word that is in scope is decoded as such (30_encoding.md R102). -/
theorem decode_of_inScope {w : Word} {ws : List Word} {p : Parsed Instr} (h : decodeInScope w ws = .ok p) :
    decode (w :: ws) = .ok p := by
  simp only [decode, h, classify]

/-- A data alterable operand is not `An` (30_encoding.md R83, R87). -/
theorem modeBits_of_dataAlterable {sz : Size} {ea : EA} (h : ea.ok .dataAlterable sz = true) : ea.modeBits ≠ 1#3 := by
  cases ea <;> simp [EA.ok, Cat.allows, Mode.alterable, EA.mode, EA.modeBits] at h ⊢

/-- A data alterable operand is not immediate (30_encoding.md R83, R87). -/
theorem regBits_of_dataAlterable {sz : Size} {ea : EA} (h : ea.ok .dataAlterable sz = true) :
    ea.modeBits = 7#3 → ea.regBits ≠ 4#3 := by
  cases ea <;> simp [EA.ok, Cat.allows, Mode.alterable, EA.mode, EA.modeBits, EA.regBits] at h ⊢

/-- A memory alterable operand is not a register (30_encoding.md R83, R87). -/
theorem modeBits_of_memoryAlterable {sz : Size} {ea : EA} (h : ea.ok .memoryAlterable sz = true) :
    ea.modeBits.extractLsb' 1 2 ≠ 0#2 := by
  cases ea <;> simp [EA.ok, Cat.allows, Mode.alterable, EA.mode, EA.modeBits] at h ⊢

/-! A three-bit field that is a bit and two bits, as the shifts and rotates have it (30_encoding.md R100). -/

@[simp] theorem getElem_bit_append (b : BitVec 1) (t : BitVec 2) : (b ++ t : BitVec 3)[2] = b[0] :=
  getElem_eq_of_toNat (by rw [toNat_append_eq_add]; omega)

@[simp] theorem extractLsb'_bit_append (b : BitVec 1) (t : BitVec 2) : (b ++ t : BitVec 3).extractLsb' 0 2 = t :=
  BitVec.eq_of_toNat_eq (by rw [toNat_extractLsb'_eq, toNat_append_eq_add]; omega)

section Formats
variable {sz : Size} {ea : EA} {r : RegNum} {rest : List Word}

theorem decode_immEa {op : BitVec 3} {mk : Size → Long → EA → Instr} {imm : Long}
    (h : (fits sz imm && ea.ok .dataAlterable sz) = true)
    (hline : (ea.modeBits = 7#3 → ea.regBits ≠ 4#3) → ∀ ws,
      decodeInScope (opWord 0#4 op 0#1 sz.toBits ea.modeBits ea.regBits) ws =
        decodeImmEa mk (opWord 0#4 op 0#1 sz.toBits ea.modeBits ea.regBits) ws) :
    decode (encodeImmEa op sz imm ea ++ rest) = .ok (mk sz imm ea, rest) := by
  obtain ⟨himm, hea⟩ := Bool.and_eq_true_iff.mp h
  rw [encodeImmEa_eq, List.cons_append, List.append_assoc]
  refine decode_of_inScope ((hline (regBits_of_dataAlterable hea) _).trans ?_)
  simp [decodeImmEa, legalMode_of_ok hea, takeImm_immWords himm, takeOperand_words (EA.ok_iff.mp hea).2]

theorem decode_bitStatic {cat : Cat} {tt : BitVec 2} {mk : Byte → EA → Instr} {bit : Byte}
    (h : ea.ok cat .byte = true)
    (hline : ∀ ws, decodeInScope (opWord 0#4 4#3 0#1 tt ea.modeBits ea.regBits) ws =
      decodeBitStatic cat mk (opWord 0#4 4#3 0#1 tt ea.modeBits ea.regBits) ws) :
    decode (encodeBitStatic tt bit ea ++ rest) = .ok (mk bit ea, rest) := by
  rw [encodeBitStatic_eq, List.cons_append, List.cons_append]
  refine decode_of_inScope ((hline _).trans ?_)
  simp [decodeBitStatic, legalMode_of_ok h, takeOperand_words (EA.ok_iff.mp h).2]

theorem decode_bitDyn {cat : Cat} {tt : BitVec 2} {mk : RegNum → EA → Instr}
    (h : ea.ok cat .byte = true)
    (hline : ∀ ws, decodeInScope (opWord 0#4 r.toBits 1#1 tt ea.modeBits ea.regBits) ws =
      decodeBitDyn cat mk (opWord 0#4 r.toBits 1#1 tt ea.modeBits ea.regBits) ws) :
    decode (encodeBitDyn tt r ea ++ rest) = .ok (mk r ea, rest) := by
  rw [encodeBitDyn_eq, List.cons_append]
  refine decode_of_inScope ((hline _).trans ?_)
  simp [decodeBitDyn, takeEa_words h]

theorem decode_sizeEa {op : BitVec 4} {mk : Size → EA → Instr} (h : ea.ok .dataAlterable sz = true)
    (hline : ∀ ws, decodeInScope
        (opWord 4#4 (op.extractLsb' 1 3) (op.extractLsb' 0 1) sz.toBits ea.modeBits ea.regBits) ws =
      decodeSizeEa mk (opWord 4#4 (op.extractLsb' 1 3) (op.extractLsb' 0 1) sz.toBits ea.modeBits ea.regBits) ws) :
    decode (encodeSizeEa op sz ea ++ rest) = .ok (mk sz ea, rest) := by
  rw [encodeSizeEa_eq, List.cons_append]
  refine decode_of_inScope ((hline _).trans ?_)
  simp [decodeSizeEa, takeEa_words h]

/-- Format EA_DN with the size in bits 7 to 6, `op <ea>,Dn` (30_encoding.md R103). -/
theorem decode_toDn {cat : Cat} {line : BitVec 4} {mk : Size → EA → RegNum → Instr} (h : ea.ok cat sz = true)
    (hline : ∀ ws, decodeInScope (opWord line r.toBits 0#1 sz.toBits ea.modeBits ea.regBits) ws =
      decodeToDn cat mk (opWord line r.toBits 0#1 sz.toBits ea.modeBits ea.regBits) ws) :
    decode (encodeEaDn line r 0 sz.toBits sz ea ++ rest) = .ok (mk sz ea r, rest) := by
  rw [encodeEaDn_eq, List.cons_append]
  refine decode_of_inScope ((hline _).trans ?_)
  simp [decodeToDn, takeEa_words h]

/-- Format EA_DN with the size in bits 7 to 6, `op Dn,<ea>` (30_encoding.md R103). -/
theorem decode_toEa {cat : Cat} {line : BitVec 4} {mk : Size → RegNum → EA → Instr} (h : ea.ok cat sz = true)
    (hline : ∀ ws, decodeInScope (opWord line r.toBits 1#1 sz.toBits ea.modeBits ea.regBits) ws =
      decodeToEa cat mk (opWord line r.toBits 1#1 sz.toBits ea.modeBits ea.regBits) ws) :
    decode (encodeEaDn line r 1 sz.toBits sz ea ++ rest) = .ok (mk sz r ea, rest) := by
  rw [encodeEaDn_eq, List.cons_append]
  refine decode_of_inScope ((hline _).trans ?_)
  simp [decodeToEa, takeEa_words h]

/-- MULU, MULS, DIVU and DIVS (30_encoding.md R95, R98). -/
theorem decode_mulDiv {line : BitVec 4} {dir : BitVec 1} {mk : EA → RegNum → Instr} (h : ea.ok .data .word = true)
    (hline : ∀ ws, decodeInScope (opWord line r.toBits dir 3#2 ea.modeBits ea.regBits) ws =
      decodeMulDiv mk (opWord line r.toBits dir 3#2 ea.modeBits ea.regBits) ws) :
    decode (encodeEaDn line r dir 3 .word ea ++ rest) = .ok (mk ea r, rest) := by
  rw [encodeEaDn_eq, List.cons_append]
  refine decode_of_inScope ((hline _).trans ?_)
  simp [decodeMulDiv, takeEa_words h]

/-- ADDA and SUBA (30_encoding.md R96, R99). -/
theorem decode_addrOp {line : BitVec 4} {mk : Size → EA → RegNum → Instr}
    (h : (decide (sz ≠ .byte) && ea.ok .all sz) = true)
    (hline : ∀ ws, decodeInScope (opWord line r.toBits sz.addrBit 3#2 ea.modeBits ea.regBits) ws =
      decodeAddrOp mk (opWord line r.toBits sz.addrBit 3#2 ea.modeBits ea.regBits) ws) :
    decode (encodeEaDn line r sz.addrBit 3 sz ea ++ rest) = .ok (mk sz ea r, rest) := by
  obtain ⟨hsz, hea⟩ := Bool.and_eq_true_iff.mp h
  rw [encodeEaDn_eq, List.cons_append]
  refine decode_of_inScope ((hline _).trans ?_)
  cases sz with
  | byte => exact absurd hsz (by decide)
  | word | long => simp [decodeAddrOp, Size.addrBit, takeEa_words hea]

/-- ADDQ and SUBQ (30_encoding.md R93). -/
theorem decode_quick {o : BitVec 1} {data : BitVec 3} (h : ea.ok .dataAlterable sz = true) :
    decode (encodeQuick o data sz ea ++ rest) =
      .ok (if o[0] then .subq data sz ea else .addq data sz ea, rest) := by
  rw [encodeQuick_eq, List.cons_append]
  refine decode_of_inScope ?_
  by_cases ho : o[0] = true <;>
    simp [decodeInScope, decodeLine5, modeBits_of_dataAlterable h, takeEa_words h, ho]

/-- ADDQ and SUBQ to an address register (30_encoding.md R93). -/
theorem decode_quickAn {o : BitVec 1} {data : BitVec 3} (h : decide (sz ≠ .byte) = true) :
    decode (encodeQuick o data sz (.an r) ++ rest) =
      .ok (if o[0] then .subqA data sz r else .addqA data sz r, rest) := by
  rw [encodeQuick_eq, List.cons_append]
  refine decode_of_inScope ?_
  by_cases ho : o[0] = true <;>
    simp [decodeInScope, decodeLine5, decodeQuickAn, EA.modeBits, EA.mode, EA.regBits, EA.words,
      of_decide_eq_true h, ho]

theorem decode_x {line : BitVec 4} {mk : Size → XForm → RegNum → RegNum → Instr} {form : XForm} {ry rx : RegNum}
    (hline : ∀ mode ws, mode.extractLsb' 1 2 = 0#2 →
      decodeInScope (opWord line rx.toBits 1#1 sz.toBits mode ry.toBits) ws =
        decodeX mk (opWord line rx.toBits 1#1 sz.toBits mode ry.toBits) ws) :
    decode (encodeX line sz form ry rx ++ rest) = .ok (mk sz form ry rx, rest) := by
  rw [encodeX_eq, List.cons_append, List.nil_append]
  cases form with
  | regs | predec => exact decode_of_inScope ((hline _ _ (by decide)).trans (by simp [decodeX]))

theorem decode_shiftMem {tt : BitVec 2} {d : BitVec 1} (h : ea.ok .memoryAlterable .word = true) :
    decode (encodeShiftMem tt d ea ++ rest) = .ok (shiftMemOf tt (d.getLsbD 0) ea, rest) := by
  rw [encodeShiftMem_eq, List.cons_append]
  refine decode_of_inScope ?_
  simp [decodeInScope, decodeLineE, decodeShiftMem, takeEa_words h]

theorem decode_shiftReg {tt : BitVec 2} {d : BitVec 1} {count : ShiftCount} :
    decode (encodeShiftReg tt d sz count r ++ rest) = .ok (shiftRegOf tt (d.getLsbD 0) sz count r, rest) := by
  rw [encodeShiftReg_eq]
  cases count with
  | imm c | reg x =>
    refine decode_of_inScope ?_
    simp [decodeInScope, decodeLineE, decodeShiftReg]

/-- EXT to word and to long (30_encoding.md R92). -/
theorem decode_extW : decode (encode (.extW r) ++ rest) = .ok (.extW r, rest) := by
  rw [encode, extWord_eq]
  exact decode_of_inScope (by simp [decodeInScope, decodeLine4, opWord_eq_stop])

theorem decode_extL : decode (encode (.extL r) ++ rest) = .ok (.extL r, rest) := by
  rw [encode, extLong_eq]
  exact decode_of_inScope (by simp [decodeInScope, decodeLine4, opWord_eq_stop])

/-- LEA (30_encoding.md R92). -/
theorem decode_lea (h : ea.ok .control .long = true) : decode (encode (.lea ea r) ++ rest) = .ok (.lea ea r, rest) := by
  rw [encode, encodeEaDn_eq, List.cons_append]
  exact decode_of_inScope (by simp [decodeInScope, decodeLine4, opWord_eq_stop, decodeLea, takeEa_words h])

/-- MOVEA (30_encoding.md R91): a destination of mode 001. -/
theorem decode_movea (h : (decide (sz ≠ .byte) && ea.ok .all sz) = true) :
    decode (encode (.movea sz ea r) ++ rest) = .ok (.movea sz ea r, rest) := by
  obtain ⟨hsz, hea⟩ := Bool.and_eq_true_iff.mp h
  rw [encode, moveWord_eq, List.cons_append]
  refine decode_of_inScope ?_
  cases sz with
  | byte => exact absurd hsz (by decide)
  | word | long => simp [decodeInScope, decodeMove, decodeMovea, Size.toMoveBits, moveSizeOfBits, takeEa_words hea]

/-- MOVE (30_encoding.md R91): the source's extension words before the destination's (R82). -/
theorem decode_move {dst : EA} (h : (ea.ok .all sz && dst.ok .dataAlterable sz) = true) :
    decode (encode (.move sz ea dst) ++ rest) = .ok (.move sz ea dst, rest) := by
  obtain ⟨hsrc, hdst⟩ := Bool.and_eq_true_iff.mp h
  rw [encode, moveWord_eq, List.cons_append, List.append_assoc]
  refine decode_of_inScope ?_
  cases sz <;>
    simp [decodeInScope, decodeMove, Size.toMoveBits, moveSizeOfBits, modeBits_of_dataAlterable hdst,
      legalMode_of_ok hdst, takeEa_words hsrc, takeOperand_words (EA.ok_iff.mp hdst).2]

/-- Bcc (30_encoding.md R94): the displacement 0 announces a displacement word. -/
theorem decode_bcc {c : Cond} {disp : BranchDisp} (h : disp.ok = true) :
    decode (encode (.bcc c disp) ++ rest) = .ok (.bcc c disp, rest) := by
  cases disp with
  | short d =>
    have hd : d ≠ 0#8 := of_decide_eq_true h
    rw [encode, bccWord_eq]
    exact decode_of_inScope (by simp [decodeInScope, decodeLine6, hd])
  | word d =>
    rw [encode, bccWord_eq]
    exact decode_of_inScope (by simp [decodeInScope, decodeLine6])

/-- ANDI to CCR (30_encoding.md R90): the one immediate operand among the words of ANDI. -/
theorem decode_andiToCcr {imm : Byte} :
    decode (encode (.andiToCcr imm) ++ rest) = .ok (.andiToCcr imm, rest) :=
  congrArg (fun b => Except.ok (Instr.andiToCcr b, rest)) (bitsAt_setWidth_byte imm)

end Formats

end Sys2Proof.Laws
end

section
/-! SUPPORT. What the decoder reads: of each reader, what holds of the value it gives and how many words it takes
(30_encoding.md R82 to R107). -/

namespace Sys2Proof.Laws

/-- Where a reader of the words `ws` answers, it has taken the first words of `ws`, and `P` relates the value and the
number of those words. -/
def Reads {α : Type} (P : α → Nat → Prop) (ws : List Word) (p : Except Reject (Parsed α)) : Prop :=
  ∀ x rest, p = .ok (x, rest) → ∃ taken, ws = taken ++ rest ∧ P x taken.length

section Rules
variable {α β : Type} {P : α → Nat → Prop} {Q : β → Nat → Prop} {ws : List Word}

theorem Reads.error (e : Reject) : Reads P ws (.error e) := fun _ _ h => nomatch h

/-- A value given without taking a word. -/
theorem Reads.ok {x : α} (h : P x 0) : Reads P ws (.ok (x, ws)) := by
  rintro x' rest ⟨rfl, rfl⟩
  exact ⟨[], rfl, h⟩

/-- One reader after another takes the words of both. -/
theorem Reads.bind {p : Except Reject (Parsed α)} {f : Parsed α → Except Reject (Parsed β)} (hp : Reads P ws p)
    (hf : ∀ x n rest, P x n → Reads (fun y k => Q y (n + k)) rest (f (x, rest))) : Reads Q ws (p >>= f) := by
  intro y rest h
  cases p with
  | error e => exact nomatch h
  | ok x =>
    obtain ⟨taken, rfl, hx⟩ := hp x.1 x.2 rfl
    obtain ⟨more, hmore, hy⟩ := hf x.1 taken.length x.2 hx y rest h
    exact ⟨taken ++ more, by rw [hmore, List.append_assoc], by rwa [List.length_append]⟩

/-- What is read of the operation word takes no word. -/
theorem Reads.bind_field {γ : Type} {e : Except Reject γ} {f : γ → Except Reject (Parsed β)}
    (hf : ∀ a, e = .ok a → Reads Q ws (f a)) : Reads Q ws (e >>= f) := by
  cases e with
  | error e => exact Reads.error e
  | ok a => exact hf a rfl

end Rules

/-! ### Words, immediate data and operands -/

theorem takeWord_reads (ws : List Word) : Reads (fun _ n => n = 1) ws (takeWord ws) := by
  cases ws with
  | nil => exact Reads.error _
  | cons w ws =>
    rintro x rest ⟨rfl, rfl⟩
    exact ⟨[w], rfl, rfl⟩

theorem takeLong_reads (ws : List Word) : Reads (fun _ n => n = 2) ws (takeLong ws) :=
  (takeWord_reads ws).bind fun _ _ rest hn => (takeWord_reads rest).bind fun _ _ _ hk =>
    Reads.ok (by rw [hn, hk])

/-- Immediate data has the operation size (30_encoding.md R85). -/
theorem takeImm_reads (sz : Size) (ws : List Word) :
    Reads (fun v n => fits sz v = true ∧ n = (immWords sz v).length) ws (takeImm sz ws) := by
  cases sz with
  | byte =>
    exact (takeWord_reads ws).bind fun w n _ hn => Reads.ok ⟨decide_eq_true (by
      rw [BitVec.toNat_setWidth, bitsAt_toNat]; simp only [Size.bits]; omega), hn⟩
  | word =>
    exact (takeWord_reads ws).bind fun w n _ hn => Reads.ok ⟨decide_eq_true (by
      rw [BitVec.toNat_setWidth]; simp only [Size.bits]; omega), hn⟩
  | long =>
    intro v rest h
    obtain ⟨taken, hws, hn⟩ := takeLong_reads ws v rest h
    exact ⟨taken, hws, decide_eq_true v.isLt, hn⟩

/-- The operand of a mode has that mode (30_encoding.md R83). -/
theorem takeOperand_reads (m : Mode) (r : RegNum) (sz : Size) (ws : List Word) :
    Reads (fun ea n => ea.mode = m ∧ ea.fits sz = true ∧ n = (ea.words sz).length) ws (takeOperand m r sz ws) := by
  cases m with
  | dn | an | ind | postinc | predec => exact Reads.ok ⟨rfl, rfl, rfl⟩
  | disp | index | absW | pcDisp | pcIndex =>
    exact (takeWord_reads ws).bind fun _ _ _ hn => Reads.ok ⟨rfl, rfl, hn⟩
  | absL => exact (takeLong_reads ws).bind fun _ _ _ hn => Reads.ok ⟨rfl, rfl, hn⟩
  | imm => exact (takeImm_reads sz ws).bind fun _ _ _ ⟨hfits, hn⟩ => Reads.ok ⟨rfl, hfits, hn⟩

/-- A mode that is read is legal (30_encoding.md R88, R105). -/
theorem legalMode_eq_ok {cat : Cat} {sz : Size} {mode reg : BitVec 3} {m : Mode}
    (h : legalMode cat sz mode reg = .ok m) : decodeAllows cat sz m = true := by
  unfold legalMode at h
  split at h
  · split at h
    · next hallows => cases h; exact hallows
    · cases h
  · cases h

/-- An operand of a legal mode is legal, and takes its extension words (30_encoding.md R83, R88). -/
theorem takeOperand_reads_ok {cat : Cat} {sz : Size} {mode reg : BitVec 3} {m : Mode}
    (h : legalMode cat sz mode reg = .ok m) (r : RegNum) (ws : List Word) :
    Reads (fun ea n => ea.ok cat sz = true ∧ n = (ea.words sz).length) ws (takeOperand m r sz ws) := by
  intro ea rest hea
  obtain ⟨taken, hws, hmode, hfits, hn⟩ := takeOperand_reads m r sz ws ea rest hea
  exact ⟨taken, hws, EA.ok_iff.mpr ⟨hmode ▸ legalMode_eq_ok h, hfits⟩, hn⟩

theorem takeEa_reads (cat : Cat) (sz : Size) (w : Word) (ws : List Word) :
    Reads (fun ea n => ea.ok cat sz = true ∧ n = (ea.words sz).length) ws (takeEa cat sz w ws) :=
  Reads.bind_field fun _ hm => takeOperand_reads_ok hm _ ws

/-! ### Formats -/

/-- An instruction that is well-formed and has `n` words after its operation word. -/
def WellRead (i : Instr) (n : Nat) : Prop := i.wellFormed = true ∧ i.length = n + 1

section Formats
variable {cat : Cat} {sz : Size} {w : Word} {ws : List Word}

/-- An operation word and one effective address, whatever else the operation word holds. -/
theorem oneEa_reads {mk : EA → Instr} (hwf : ∀ ea, ea.ok cat sz = true → (mk ea).wellFormed = true)
    (hlen : ∀ ea, (mk ea).length = (ea.words sz).length + 1) :
    Reads WellRead ws (takeEa cat sz w ws >>= fun p => .ok (mk p.1, p.2)) :=
  (takeEa_reads cat sz w ws).bind fun ea n _ ⟨hea, hn⟩ => Reads.ok ⟨hwf ea hea, by rw [hlen, hn]⟩

theorem decodeImmEa_reads {mk : Size → Long → EA → Instr}
    (hwf : ∀ sz imm ea, (mk sz imm ea).wellFormed = (fits sz imm && ea.ok .dataAlterable sz))
    (hlen : ∀ sz imm ea, (mk sz imm ea).length = (immWords sz imm ++ ea.words sz).length + 1) :
    Reads WellRead ws (decodeImmEa mk w ws) :=
  Reads.bind_field fun sz _ => Reads.bind_field fun _ hm =>
    (takeImm_reads sz ws).bind fun imm _ rest ⟨himm, hn⟩ =>
      (takeOperand_reads_ok hm _ rest).bind fun ea _ _ ⟨hea, hk⟩ =>
        Reads.ok ⟨by rw [hwf, himm, hea]; rfl, by rw [hlen, List.length_append, hn, hk]; rfl⟩

theorem decodeBitStatic_reads {mk : Byte → EA → Instr} (hwf : ∀ bit ea, (mk bit ea).wellFormed = ea.ok cat .byte)
    (hlen : ∀ bit ea, (mk bit ea).length = (ea.words .byte).length + 2) :
    Reads WellRead ws (decodeBitStatic cat mk w ws) :=
  Reads.bind_field fun _ hm => (takeWord_reads ws).bind fun _ _ rest hn =>
    (takeOperand_reads_ok hm _ rest).bind fun ea _ _ ⟨hea, hk⟩ =>
      Reads.ok ⟨by rw [hwf, hea], by rw [hlen, hn, hk]; omega⟩

theorem decodeBitDyn_reads {mk : RegNum → EA → Instr} (hwf : ∀ r ea, (mk r ea).wellFormed = ea.ok cat .byte)
    (hlen : ∀ r ea, (mk r ea).length = (ea.words .byte).length + 1) :
    Reads WellRead ws (decodeBitDyn cat mk w ws) :=
  oneEa_reads (fun _ hea => by rw [hwf, hea]) fun _ => hlen _ _

theorem decodeSizeEa_reads {mk : Size → EA → Instr} (hwf : ∀ sz ea, (mk sz ea).wellFormed = ea.ok .dataAlterable sz)
    (hlen : ∀ sz ea, (mk sz ea).length = (ea.words sz).length + 1) : Reads WellRead ws (decodeSizeEa mk w ws) :=
  Reads.bind_field fun _ _ => oneEa_reads (fun _ hea => by rw [hwf, hea]) fun _ => hlen _ _

theorem decodeToDn_reads {mk : Size → EA → RegNum → Instr} (hwf : ∀ sz ea r, (mk sz ea r).wellFormed = ea.ok cat sz)
    (hlen : ∀ sz ea r, (mk sz ea r).length = (ea.words sz).length + 1) :
    Reads WellRead ws (decodeToDn cat mk w ws) :=
  Reads.bind_field fun _ _ => oneEa_reads (fun _ hea => by rw [hwf, hea]) fun _ => hlen _ _ _

theorem decodeToEa_reads {mk : Size → RegNum → EA → Instr} (hwf : ∀ sz r ea, (mk sz r ea).wellFormed = ea.ok cat sz)
    (hlen : ∀ sz r ea, (mk sz r ea).length = (ea.words sz).length + 1) :
    Reads WellRead ws (decodeToEa cat mk w ws) :=
  Reads.bind_field fun _ _ => oneEa_reads (fun _ hea => by rw [hwf, hea]) fun _ => hlen _ _ _

theorem decodeMulDiv_reads {mk : EA → RegNum → Instr} (hwf : ∀ ea r, (mk ea r).wellFormed = ea.ok .data .word)
    (hlen : ∀ ea r, (mk ea r).length = (ea.words .word).length + 1) : Reads WellRead ws (decodeMulDiv mk w ws) :=
  oneEa_reads (fun _ hea => by rw [hwf, hea]) fun _ => hlen _ _

theorem decodeAddrOp_reads {mk : Size → EA → RegNum → Instr}
    (hwf : ∀ sz ea r, (mk sz ea r).wellFormed = (decide (sz ≠ .byte) && ea.ok .all sz))
    (hlen : ∀ sz ea r, (mk sz ea r).length = (ea.words sz).length + 1) :
    Reads WellRead ws (decodeAddrOp mk w ws) :=
  oneEa_reads (fun _ hea => by rw [hwf, hea]; split <;> rfl) fun _ => hlen _ _ _

theorem decodeX_reads {mk : Size → XForm → RegNum → RegNum → Instr}
    (hwf : ∀ sz form ry rx, (mk sz form ry rx).wellFormed = true)
    (hlen : ∀ sz form ry rx, (mk sz form ry rx).length = 1) : Reads WellRead ws (decodeX mk w ws) :=
  Reads.bind_field fun _ _ => Reads.ok ⟨hwf _ _ _ _, hlen _ _ _ _⟩

theorem decodeLea_reads : Reads WellRead ws (decodeLea w ws) :=
  oneEa_reads (mk := fun ea => .lea ea (regAt9 w)) (fun _ hea => hea) fun _ => rfl

theorem decodeStop_reads : Reads WellRead ws (decodeStop ws) :=
  (takeWord_reads ws).bind fun _ _ _ hn => Reads.ok ⟨rfl, by rw [hn]; rfl⟩

theorem decodeAndiToCcr_reads : Reads WellRead ws (decodeAndiToCcr ws) :=
  (takeWord_reads ws).bind fun _ _ _ hn => Reads.ok ⟨rfl, by rw [hn]; rfl⟩

theorem decodeMovea_reads : Reads WellRead ws (decodeMovea sz w ws) := by
  unfold decodeMovea
  split
  · exact Reads.error _
  · next hsz =>
    exact oneEa_reads (mk := fun ea => .movea sz ea (regAt9 w))
      (fun _ hea => Bool.and_eq_true_iff.mpr ⟨decide_eq_true hsz, hea⟩) fun _ => rfl

theorem decodeQuickAn_reads : Reads WellRead ws (decodeQuickAn sz w ws) := by
  unfold decodeQuickAn
  split
  · exact Reads.error _
  · next hsz => split <;> exact Reads.ok ⟨decide_eq_true hsz, rfl⟩

theorem shiftRegOf_wellRead (tt : BitVec 2) (d : Bool) (count : ShiftCount) (r : RegNum) :
    WellRead (shiftRegOf tt d sz count r) 0 := by
  unfold shiftRegOf
  generalize tt.toNat = n
  rcases n with _ | _ | _ | n <;> cases d <;> cases count <;> exact ⟨rfl, rfl⟩

theorem shiftMemOf_wellFormed (tt : BitVec 2) (d : Bool) (ea : EA) :
    (shiftMemOf tt d ea).wellFormed = ea.ok .memoryAlterable .word := by
  unfold shiftMemOf
  generalize tt.toNat = n
  rcases n with _ | _ | _ | n <;> cases d <;> rfl

theorem shiftMemOf_length (tt : BitVec 2) (d : Bool) (ea : EA) :
    (shiftMemOf tt d ea).length = (ea.words .word).length + 1 := by
  unfold shiftMemOf
  generalize tt.toNat = n
  rcases n with _ | _ | _ | n <;> cases d <;> rfl

theorem decodeShiftReg_reads : Reads WellRead ws (decodeShiftReg w ws) :=
  Reads.bind_field fun _ _ => Reads.ok (shiftRegOf_wellRead _ _ _ _)

theorem decodeShiftMem_reads : Reads WellRead ws (decodeShiftMem w ws) := by
  unfold decodeShiftMem
  split
  · exact Reads.error _
  · exact oneEa_reads (fun _ hea => by rw [shiftMemOf_wellFormed, hea]) fun _ => shiftMemOf_length _ _ _

/-! ### Lines -/

theorem decodeLine0_reads : Reads WellRead ws (decodeLine0 w ws) := by
  unfold decodeLine0
  split
  · split <;> exact decodeBitDyn_reads (fun _ _ => rfl) fun _ _ => rfl
  · split
    case h_2 =>
      split
      · exact decodeAndiToCcr_reads
      · exact decodeImmEa_reads (fun _ _ _ => rfl) fun _ _ _ => rfl
    case h_5 => split <;> exact decodeBitStatic_reads (fun _ _ => rfl) fun _ _ => rfl
    case h_8 => exact Reads.error _
    all_goals exact decodeImmEa_reads (fun _ _ _ => rfl) fun _ _ _ => rfl

/-- MOVE: the source's extension words before the destination's (30_encoding.md R82, R91). -/
theorem decodeMove_reads : Reads WellRead ws (decodeMove w ws) := by
  refine Reads.bind_field fun sz _ => ?_
  split
  · exact decodeMovea_reads
  · exact Reads.bind_field fun _ hm => (takeEa_reads .all sz w ws).bind fun src _ rest ⟨hsrc, hn⟩ =>
      (takeOperand_reads_ok hm _ rest).bind fun dst _ _ ⟨hdst, hk⟩ =>
        Reads.ok ⟨Bool.and_eq_true_iff.mpr ⟨hsrc, hdst⟩, by
          rw [hn, hk]; exact congrArg (· + 1) List.length_append⟩

theorem decodeLine4_reads : Reads WellRead ws (decodeLine4 w ws) := by
  unfold decodeLine4
  split
  · exact decodeStop_reads
  split
  · exact decodeLea_reads
  split
  · exact decodeSizeEa_reads (fun _ _ => rfl) fun _ _ => rfl
  split
  · exact decodeSizeEa_reads (fun _ _ => rfl) fun _ _ => rfl
  split
  · exact Reads.ok ⟨rfl, rfl⟩
  split
  · exact Reads.ok ⟨rfl, rfl⟩
  · exact Reads.error _

theorem decodeLine5_reads : Reads WellRead ws (decodeLine5 w ws) := by
  refine Reads.bind_field fun sz _ => ?_
  split
  · exact decodeQuickAn_reads
  · refine (takeEa_reads .dataAlterable sz w ws).bind fun ea n rest ⟨hea, hn⟩ => ?_
    dsimp only
    split <;> exact Reads.ok ⟨hea, congrArg (· + 1) hn.symm⟩

theorem decodeLine6_reads : Reads WellRead ws (decodeLine6 w ws) := by
  unfold decodeLine6
  split
  · exact Reads.error _
  split
  · exact (takeWord_reads ws).bind fun _ _ _ hn => Reads.ok ⟨rfl, by rw [hn]; rfl⟩
  · next hd => exact Reads.ok ⟨decide_eq_true hd, rfl⟩

theorem decodeLine8_reads : Reads WellRead ws (decodeLine8 w ws) := by
  unfold decodeLine8
  split
  · split <;> exact decodeMulDiv_reads (fun _ _ => rfl) fun _ _ => rfl
  split
  · exact decodeToEa_reads (fun _ _ _ => rfl) fun _ _ _ => rfl
  · exact decodeToDn_reads (fun _ _ _ => rfl) fun _ _ _ => rfl

theorem decodeLineB_reads : Reads WellRead ws (decodeLineB w ws) := by
  unfold decodeLineB
  split
  · exact decodeToEa_reads (fun _ _ _ => rfl) fun _ _ _ => rfl
  · exact Reads.error _

theorem decodeLineC_reads : Reads WellRead ws (decodeLineC w ws) := by
  unfold decodeLineC
  split
  · split <;> exact decodeMulDiv_reads (fun _ _ => rfl) fun _ _ => rfl
  split
  · exact decodeToEa_reads (fun _ _ _ => rfl) fun _ _ _ => rfl
  · exact decodeToDn_reads (fun _ _ _ => rfl) fun _ _ _ => rfl

/-- Lines 1001 and 1101, which differ in the operation alone (30_encoding.md R96, R99). -/
theorem decodeAddSub_reads {toDn : Size → EA → RegNum → Instr} {toEa : Size → RegNum → EA → Instr}
    {toAn : Size → EA → RegNum → Instr} {extended : Size → XForm → RegNum → RegNum → Instr}
    (hDn : Reads WellRead ws (decodeToDn .all toDn w ws))
    (hEa : Reads WellRead ws (decodeToEa .memoryAlterable toEa w ws))
    (hAn : Reads WellRead ws (decodeAddrOp toAn w ws)) (hX : Reads WellRead ws (decodeX extended w ws)) :
    Reads WellRead ws (decodeAddSub toDn toEa toAn extended w ws) := by
  unfold decodeAddSub
  split
  · exact hAn
  split
  · exact hDn
  split
  · exact hX
  · exact hEa

theorem decodeLineE_reads : Reads WellRead ws (decodeLineE w ws) := by
  unfold decodeLineE
  split
  · exact decodeShiftMem_reads
  · exact decodeShiftReg_reads

theorem decodeInScope_reads : Reads WellRead ws (decodeInScope w ws) := by
  unfold decodeInScope
  split
  · exact decodeLine0_reads
  · exact decodeMove_reads
  · exact decodeMove_reads
  · exact decodeMove_reads
  · exact decodeLine4_reads
  · exact decodeLine5_reads
  · exact decodeLine6_reads
  · exact Reads.error _
  · exact decodeLine8_reads
  · exact decodeAddSub_reads (decodeToDn_reads (fun _ _ _ => rfl) fun _ _ _ => rfl)
      (decodeToEa_reads (fun _ _ _ => rfl) fun _ _ _ => rfl) (decodeAddrOp_reads (fun _ _ _ => rfl) fun _ _ _ => rfl)
      (decodeX_reads (fun _ _ _ _ => rfl) fun _ _ _ _ => rfl)
  · exact Reads.error _
  · exact decodeLineB_reads
  · exact decodeLineC_reads
  · exact decodeAddSub_reads (decodeToDn_reads (fun _ _ _ => rfl) fun _ _ _ => rfl)
      (decodeToEa_reads (fun _ _ _ => rfl) fun _ _ _ => rfl) (decodeAddrOp_reads (fun _ _ _ => rfl) fun _ _ _ => rfl)
      (decodeX_reads (fun _ _ _ _ => rfl) fun _ _ _ _ => rfl)
  · exact decodeLineE_reads
  · exact Reads.error _

end Formats

/-- What is decoded was decoded in scope: the names of R104's list only explain a rejection (30_encoding.md R102). -/
theorem decodeInScope_of_decode {ws : List Word} {p : Parsed Instr} (h : decode ws = .ok p) :
    ∃ w tail, ws = w :: tail ∧ decodeInScope w tail = .ok p := by
  cases ws with
  | nil => cases h
  | cons w tail =>
    refine ⟨w, tail, rfl, ?_⟩
    simp only [decode, classify] at h
    split at h
    · split at h <;> cases h
    · exact h

end Sys2Proof.Laws
end

section
/-! SUPPORT. When each format has an instruction, in the terms of opcode_table.json alone: the operation word decides
it, and four words after it are always enough (30_encoding.md R80, R102, R105). -/

namespace Sys2Proof.Laws

/-- Answers where `c` holds, and calls the operation word illegal where it does not. -/
def Answers {α : Type} (c : Prop) (p : Except Reject α) : Prop :=
  (c → ∃ x, p = .ok x) ∧ (¬c → p = .error .illegal)

/-- A reader that answers and leaves at least `k` words. -/
def Supplies {α : Type} (k : Nat) (p : Except Reject (Parsed α)) : Prop :=
  ∃ x rest, p = .ok (x, rest) ∧ k ≤ rest.length

section Rules
variable {α β : Type} {c d : Prop} {k j : Nat}

theorem Answers.ok {x : α} (h : c) : Answers c (.ok x : Except Reject α) := ⟨fun _ => ⟨x, rfl⟩, fun hc => absurd h hc⟩

theorem Answers.illegal (h : ¬c) : Answers c (.error .illegal : Except Reject α) :=
  ⟨fun hc => absurd hc h, fun _ => rfl⟩

@[simp] theorem answers_false_illegal : Answers False (.error .illegal : Except Reject α) := Answers.illegal id

theorem Answers.congr {p : Except Reject α} (hp : Answers c p) (h : d ↔ c) : Answers d p :=
  ⟨fun hd => hp.1 (h.mp hd), fun hd => hp.2 (mt h.mpr hd)⟩

/-- One condition and then another. -/
theorem Answers.bind {e : Except Reject α} {f : α → Except Reject β} (he : Answers c e)
    (hf : ∀ a, e = .ok a → Answers d (f a)) : Answers (c ∧ d) (e >>= f) := by
  by_cases hc : c
  · obtain ⟨a, rfl⟩ := he.1 hc
    exact (hf a rfl).congr (and_iff_right hc)
  · rw [he.2 hc]
    exact Answers.illegal fun h => hc h.1

/-- What always answers adds no condition. -/
theorem Answers.bind_ok {e : Except Reject α} {f : α → Except Reject β} (he : Answers c e)
    (hf : ∀ a, e = .ok a → ∃ y, f a = .ok y) : Answers c (e >>= f) :=
  (he.bind (d := True) fun a ha => ⟨fun _ => hf a ha, fun h => absurd trivial h⟩).congr (iff_of_eq (and_true c).symm)

/-- One reader after another, each with words enough. -/
theorem Supplies.bind {p : Except Reject (Parsed α)} {f : Parsed α → Except Reject (Parsed β)} (hp : Supplies k p)
    (hf : ∀ x rest, k ≤ rest.length → Supplies j (f (x, rest))) : Supplies j (p >>= f) := by
  obtain ⟨x, rest, rfl, hk⟩ := hp
  exact hf x rest hk

theorem Supplies.done {x : α} {rest : List Word} (h : k ≤ rest.length) : Supplies k (.ok (x, rest)) :=
  ⟨x, rest, rfl, h⟩

theorem Supplies.exists_ok {p : Except Reject (Parsed α)} (hp : Supplies k p) : ∃ y, p = .ok y := by
  obtain ⟨x, rest, rfl, -⟩ := hp
  exact ⟨_, rfl⟩

end Rules

/-! ### Words, immediate data and operands -/

theorem takeWord_supplies {k : Nat} {ws : List Word} (h : k + 1 ≤ ws.length) : Supplies k (takeWord ws) := by
  cases ws with
  | nil => exact absurd h (by simp)
  | cons w ws => exact Supplies.done (Nat.le_of_succ_le_succ h)

theorem takeLong_supplies {k : Nat} {ws : List Word} (h : k + 2 ≤ ws.length) : Supplies k (takeLong ws) :=
  (takeWord_supplies h).bind fun _ _ h' => (takeWord_supplies h').bind fun _ _ h'' => Supplies.done h''

theorem takeImm_supplies (sz : Size) {k : Nat} {ws : List Word} (h : k + 2 ≤ ws.length) :
    Supplies k (takeImm sz ws) := by
  cases sz with
  | byte | word => exact (takeWord_supplies h).bind fun _ _ h' => Supplies.done (Nat.le_of_succ_le h')
  | long => exact takeLong_supplies h

theorem takeOperand_supplies (m : Mode) (r : RegNum) (sz : Size) {k : Nat} {ws : List Word} (h : k + 2 ≤ ws.length) :
    Supplies k (takeOperand m r sz ws) := by
  cases m with
  | dn | an | ind | postinc | predec => exact Supplies.done (Nat.le_of_add_right_le h)
  | disp | index | absW | pcDisp | pcIndex =>
    exact (takeWord_supplies h).bind fun _ _ h' => Supplies.done (Nat.le_of_succ_le h')
  | absL => exact (takeLong_supplies h).bind fun _ _ h' => Supplies.done h'
  | imm => exact (takeImm_supplies sz h).bind fun _ _ h' => Supplies.done h'

/-! ### Modes and sizes -/

/-- The modes in the order of R83, as the table numbers them. -/
def modeOrder : List Mode :=
  [.dn, .an, .ind, .postinc, .predec, .disp, .index, .absW, .absL, .pcDisp, .pcIndex, .imm]

/-- The number of a mode is its place in the order of R83; the fields that are no mode have none. -/
theorem modeOf_eq_getElem? :
    ∀ mode reg : BitVec 3, modeOf mode reg = modeOrder[modeNumber mode.toNat reg.toNat]? := by decide

/-- The table's list of modes for a category (30_encoding.md R87). -/
def catModes (cat : Cat) : List Nat := (List.range 12).filter fun k => (modeOrder[k]?).any cat.allows

@[simp] theorem catModes_all : catModes .all = modesAll := rfl
@[simp] theorem catModes_data : catModes .data = modesData := rfl
@[simp] theorem catModes_dataExceptImmediate : catModes .dataExceptImmediate = modesDataExceptImmediate := rfl
@[simp] theorem catModes_control : catModes .control = modesControl := rfl
@[simp] theorem catModes_dataAlterable : catModes .dataAlterable = modesDataAlterable := rfl
@[simp] theorem catModes_memoryAlterable : catModes .memoryAlterable = modesMemoryAlterable := rfl

theorem contains_catModes (cat : Cat) (k : Nat) : (catModes cat).contains k = (modeOrder[k]?).any cat.allows := by
  by_cases hk : k < 12
  · simp [catModes, hk]
  · simp [catModes, hk, modeOrder]

/-- Mode 001 is address register direct (30_encoding.md R83). -/
theorem modeOf_eq_an : ∀ mode reg : BitVec 3, modeOf mode reg = some .an ↔ mode.toNat = 1 := by decide

theorem decodeAllows_iff {cat : Cat} {sz : Size} {m : Mode} :
    decodeAllows cat sz m = true ↔ cat.allows m = true ∧ ¬(sz = .byte ∧ m = .an) := by
  simp [decodeAllows, imp_iff_not_or, or_comm]

/-- Which mode and register fields are legal: those of the table's list, but no address register at byte size. -/
theorem legalMode_answers (cat : Cat) (sz : Size) (mode reg : BitVec 3) :
    Answers ((catModes cat).contains (modeNumber mode.toNat reg.toNat) = true ∧ ¬(sz = .byte ∧ mode.toNat = 1))
      (legalMode cat sz mode reg) := by
  have han := modeOf_eq_an mode reg
  rw [contains_catModes, ← modeOf_eq_getElem?, legalMode]
  cases hm : modeOf mode reg with
  | none => exact Answers.illegal (by simp)
  | some m =>
    rw [hm, Option.some_inj] at han
    rw [Option.any_some, ← han, ← decodeAllows_iff]
    dsimp only
    split
    · next hallows => exact Answers.ok hallows
    · next hallows => exact Answers.illegal hallows

/-- In a category without address registers the size does not matter. -/
theorem legalMode_answers_of_noAn {cat : Cat} (hcat : cat.allows .an = false) (sz : Size) (mode reg : BitVec 3) :
    Answers ((catModes cat).contains (modeNumber mode.toNat reg.toNat) = true) (legalMode cat sz mode reg) := by
  refine (legalMode_answers cat sz mode reg).congr (iff_self_and.mpr fun h => ?_)
  rintro ⟨-, hmode⟩
  rw [contains_catModes, ← modeOf_eq_getElem?, (modeOf_eq_an mode reg).mpr hmode, Option.any_some, hcat] at h
  exact absurd h (by decide)

theorem sizeOr_answers (o : Option Size) : Answers (o.isSome = true) (sizeOr o) := by
  cases o with
  | none => exact Answers.illegal (by simp)
  | some sz => exact Answers.ok rfl

theorem sizeOr_eq_ok {o : Option Size} {sz : Size} (h : sizeOr o = .ok sz) : o = some sz := by
  cases o with
  | none => cases h
  | some sz' => cases h; rfl

theorem sizeOfBits_isSome : ∀ ss : BitVec 2, (sizeOfBits ss).isSome = true ↔ ss.toNat ≤ 2 := by decide

theorem sizeOfBits_eq_byte : ∀ ss : BitVec 2, sizeOfBits ss = some .byte ↔ ss.toNat = 0 := by decide

theorem moveSizeOfBits_isSome : ∀ ss : BitVec 2, (moveSizeOfBits ss).isSome = true ↔ 1 ≤ ss.toNat := by decide

theorem moveSizeOfBits_eq_byte : ∀ ss : BitVec 2, moveSizeOfBits ss = some .byte ↔ ss.toNat = 1 := by decide

/-! ### Formats, in the terms of the table -/

theorem bitsAt_toNat_eq_fieldAt (w : Word) (lo len : Nat) : (bitsAt w lo len).toNat = fieldAt lo len w.toNat :=
  bitsAt_toNat w lo len

theorem bitsAt_eq_one_iff (w : Word) (lo : Nat) : bitsAt w lo 3 = 1 ↔ fieldAt lo 3 w.toNat = 1 := by
  rw [← bitsAt_toNat_eq_fieldAt, ← BitVec.toNat_inj]
  rfl

theorem sizeAt6_answers (w : Word) : Answers (sizeIn 0 w.toNat = true) (sizeAt6 w) := by
  refine (sizeOr_answers _).congr ?_
  rw [sizeOfBits_isSome, bitsAt_toNat_eq_fieldAt]
  simp [sizeIn]

theorem sizeAt6_eq_byte {w : Word} {sz : Size} (h : sizeAt6 w = .ok sz) : sz = .byte ↔ fieldAt 6 2 w.toNat = 0 := by
  rw [← bitsAt_toNat_eq_fieldAt, ← sizeOfBits_eq_byte, sizeOr_eq_ok h, Option.some_inj]

section Formats
variable {cat : Cat} {sz : Size} {w : Word} {ws : List Word}

theorem legalEa_answers (hcat : cat.allows .an = false) :
    Answers (eaIn (catModes cat) w.toNat = true) (legalMode cat sz (bitsAt w 3 3) (bitsAt w 0 3)) := by
  simpa only [eaIn, bitsAt_toNat_eq_fieldAt] using legalMode_answers_of_noAn hcat sz (bitsAt w 3 3) (bitsAt w 0 3)

/-- An effective address of any mode, but no byte of an address register (20_memory.md R63). -/
theorem legalEaAll_answers :
    Answers (eaIn modesAll w.toNat = true ∧ ¬(sz = .byte ∧ fieldAt 3 3 w.toNat = 1))
      (legalMode .all sz (bitsAt w 3 3) (bitsAt w 0 3)) := by
  simpa only [eaIn, bitsAt_toNat_eq_fieldAt, catModes_all] using legalMode_answers .all sz (bitsAt w 3 3) (bitsAt w 0 3)

/-- An effective address takes at most two words. -/
theorem length_of_takeEa {p : Parsed EA} {k : Nat} (h : takeEa cat sz w ws = .ok p) (hk : k + 2 ≤ ws.length) :
    k ≤ p.2.length := by
  obtain ⟨taken, rfl, -, htaken⟩ := takeEa_reads cat sz w ws p.1 p.2 h
  have hle := length_eaWords sz p.1
  rw [List.length_append] at hk
  omega

/-- ADDQ and SUBQ to an address register: word or long (30_encoding.md R93). -/
theorem decodeQuickAn_answers : Answers (sz ≠ .byte) (decodeQuickAn sz w ws) := by
  unfold decodeQuickAn
  split
  · next hbyte => exact Answers.illegal (not_not_intro hbyte)
  · next hbyte => split <;> exact Answers.ok hbyte

section Words
variable (hws : 4 ≤ ws.length)
include hws

theorem takeEa_answers (hcat : cat.allows .an = false) :
    Answers (eaIn (catModes cat) w.toNat = true) (takeEa cat sz w ws) :=
  (legalEa_answers hcat).bind_ok fun _ _ => (takeOperand_supplies (k := 2) _ _ _ hws).exists_ok

theorem takeEaAll_answers :
    Answers (eaIn modesAll w.toNat = true ∧ ¬(sz = .byte ∧ fieldAt 3 3 w.toNat = 1)) (takeEa .all sz w ws) :=
  legalEaAll_answers.bind_ok fun _ _ => (takeOperand_supplies (k := 2) _ _ _ hws).exists_ok

theorem decodeImmEa_answers {mk : Size → Long → EA → Instr} :
    Answers (sized modesDataAlterable w.toNat = true) (decodeImmEa mk w ws) := by
  refine ((sizeAt6_answers w).bind fun sz _ =>
    (legalEa_answers (cat := .dataAlterable) rfl).bind_ok fun m _ => ?_).congr Bool.and_eq_true_iff
  obtain ⟨imm, rest, himm, hrest⟩ := takeImm_supplies (k := 2) sz hws
  obtain ⟨ea, rest', hea, -⟩ := takeOperand_supplies (k := 0) m (regAt0 w) sz hrest
  exact ⟨(mk sz imm ea, rest'), by simp [himm, hea]⟩

theorem decodeBitStatic_answers {mk : Byte → EA → Instr} (hcat : cat.allows .an = false) :
    Answers (eaIn (catModes cat) w.toNat = true) (decodeBitStatic cat mk w ws) := by
  refine (legalEa_answers hcat).bind_ok fun m _ => ?_
  obtain ⟨n, rest, hn, hrest⟩ := takeWord_supplies (k := 3) hws
  obtain ⟨ea, rest', hea, -⟩ := takeOperand_supplies (k := 1) m (regAt0 w) .byte hrest
  exact ⟨(mk (bitsAt n 0 8) ea, rest'), by simp [hn, hea]⟩

theorem decodeBitDyn_answers {mk : RegNum → EA → Instr} (hcat : cat.allows .an = false) :
    Answers (eaIn (catModes cat) w.toNat = true) (decodeBitDyn cat mk w ws) :=
  (takeEa_answers hws hcat).bind_ok fun _ _ => ⟨_, rfl⟩

theorem decodeSizeEa_answers {mk : Size → EA → Instr} :
    Answers (sized modesDataAlterable w.toNat = true) (decodeSizeEa mk w ws) :=
  ((sizeAt6_answers w).bind fun _ _ => (takeEa_answers (cat := .dataAlterable) hws rfl).bind_ok
    fun _ _ => ⟨_, rfl⟩).congr Bool.and_eq_true_iff

theorem decodeToDn_answers {mk : Size → EA → RegNum → Instr} (hcat : cat.allows .an = false) :
    Answers (sized (catModes cat) w.toNat = true) (decodeToDn cat mk w ws) :=
  ((sizeAt6_answers w).bind fun _ _ => (takeEa_answers hws hcat).bind_ok fun _ _ => ⟨_, rfl⟩).congr
    Bool.and_eq_true_iff

/-- ADD and SUB to a data register: any mode, but no byte of an address register (30_encoding.md R96, R99). -/
theorem decodeToDnAll_answers {mk : Size → EA → RegNum → Instr} :
    Answers (sizedAll w.toNat = true) (decodeToDn .all mk w ws) := by
  have h := (sizeAt6_answers w).bind fun sz hsz =>
    ((takeEaAll_answers (w := w) (sz := sz) hws).congr (by rw [sizeAt6_eq_byte hsz])).bind_ok
      (f := fun p => .ok (mk sz p.1 (regAt9 w), p.2)) fun _ _ => ⟨_, rfl⟩
  exact h.congr (by simp [sizedAll, sized, and_assoc, imp_iff_not_or])

theorem decodeToEa_answers {mk : Size → RegNum → EA → Instr} (hcat : cat.allows .an = false) :
    Answers (sized (catModes cat) w.toNat = true) (decodeToEa cat mk w ws) :=
  ((sizeAt6_answers w).bind fun _ _ => (takeEa_answers hws hcat).bind_ok fun _ _ => ⟨_, rfl⟩).congr
    Bool.and_eq_true_iff

theorem decodeMulDiv_answers {mk : EA → RegNum → Instr} :
    Answers (eaIn modesData w.toNat = true) (decodeMulDiv mk w ws) :=
  (takeEa_answers (cat := .data) hws rfl).bind_ok fun _ _ => ⟨_, rfl⟩

theorem decodeAddrOp_answers {mk : Size → EA → RegNum → Instr} :
    Answers (eaIn modesAll w.toNat = true) (decodeAddrOp mk w ws) :=
  ((takeEaAll_answers hws).bind_ok fun _ _ => ⟨_, rfl⟩).congr
    (iff_self_and.mpr fun _ h => by split at h <;> cases h.1)

theorem decodeShiftMem_answers :
    Answers (w[11] = false ∧ eaIn modesMemoryAlterable w.toNat = true) (decodeShiftMem w ws) := by
  unfold decodeShiftMem
  rw [BitVec.getLsbD_eq_getElem (by decide)]
  split
  · next hbit => exact Answers.illegal (by simp [hbit])
  · next hbit =>
    exact ((takeEa_answers (cat := .memoryAlterable) hws rfl).bind_ok fun _ _ => ⟨_, rfl⟩).congr (by simp [hbit])

theorem decodeLea_answers : Answers (eaIn modesControl w.toNat = true) (decodeLea w ws) :=
  (takeEa_answers (cat := .control) hws rfl).bind_ok fun _ _ => ⟨_, rfl⟩

theorem decodeStop_exists : ∃ p, decodeStop ws = .ok p := by
  obtain ⟨imm, rest, h, -⟩ := takeWord_supplies hws
  exact ⟨(.stop imm, rest), by rw [decodeStop, h]; rfl⟩

theorem decodeAndiToCcr_exists : ∃ p, decodeAndiToCcr ws = .ok p := by
  obtain ⟨n, rest, h, -⟩ := takeWord_supplies hws
  exact ⟨(.andiToCcr (bitsAt n 0 8), rest), by rw [decodeAndiToCcr, h]; rfl⟩

/-! ### Lines whose words the table tells apart by the mode -/

/-- MOVEA, of a size that the size field of MOVE gives. -/
theorem decodeMovea_answers (hsz : sz = .byte ↔ fieldAt 12 2 w.toNat = 1) (hne : 1 ≤ fieldAt 12 2 w.toNat) :
    Answers (moveaWord w.toNat = true) (decodeMovea sz w ws) := by
  unfold decodeMovea
  split
  · next hbyte => exact Answers.illegal (by simp [moveaWord, hsz.mp hbyte])
  · next hbyte =>
    refine ((takeEaAll_answers hws).bind_ok fun _ _ => ⟨_, rfl⟩).congr ?_
    have h2 : 2 ≤ fieldAt 12 2 w.toNat := by have := mt hsz.mpr hbyte; omega
    simp [moveaWord, h2, hbyte]

/-- MOVE, of a size that the size field gives, to a destination that is not an address register. -/
theorem decodeMoveTo_answers (hsz : sz = .byte ↔ fieldAt 12 2 w.toNat = 1) (hne : 1 ≤ fieldAt 12 2 w.toNat) :
    Answers (moveWord w.toNat = true)
      (legalMode .dataAlterable sz (bitsAt w 6 3) (bitsAt w 9 3) >>= fun dm => takeEa .all sz w ws >>= fun p =>
        takeOperand dm (regAt9 w) sz p.2 >>= fun q => .ok (Instr.move sz p.1 q.1, q.2)) := by
  refine ((legalMode_answers_of_noAn (cat := .dataAlterable) rfl sz (bitsAt w 6 3) (bitsAt w 9 3)).bind fun dm _ =>
    (takeEaAll_answers hws).bind_ok fun p hp => ?_).congr ?_
  · obtain ⟨dst, rest, hdst, -⟩ := takeOperand_supplies (k := 0) dm (regAt9 w) sz (length_of_takeEa (k := 2) hp hws)
    exact ⟨(.move sz p.1 dst, rest), by simp [hdst]⟩
  · rw [bitsAt_toNat_eq_fieldAt, bitsAt_toNat_eq_fieldAt, catModes_dataAlterable]
    simp only [moveWord, hne, hsz, decide_true, Bool.true_and, Bool.and_eq_true, Bool.not_eq_true',
      Bool.and_eq_false_iff, beq_eq_false_iff_ne, not_and_or]
    exact and_comm

/-- MOVE and MOVEA (30_encoding.md R91). -/
theorem decodeMove_answers :
    Answers (moveWord w.toNat = true ∨ fieldAt 6 3 w.toNat = 1 ∧ moveaWord w.toNat = true) (decodeMove w ws) := by
  have hsome := moveSizeOfBits_isSome (bitsAt w 12 2)
  have hbyte := moveSizeOfBits_eq_byte (bitsAt w 12 2)
  have hmode := bitsAt_eq_one_iff w 6
  rw [bitsAt_toNat_eq_fieldAt] at hsome hbyte
  rw [decodeMove]
  cases hsize : moveSizeOfBits (bitsAt w 12 2) with
  | none =>
    have hzero : fieldAt 12 2 w.toNat = 0 := by rw [hsize] at hsome; simpa using hsome
    exact Answers.illegal (by simp [moveWord, moveaWord, hzero])
  | some sz =>
    rw [hsize, Option.some_inj] at hbyte
    have hne : 1 ≤ fieldAt 12 2 w.toNat := hsome.mp (by rw [hsize]; rfl)
    rw [sizeOr_some, ok_bind]
    split
    · next h =>
      refine (decodeMovea_answers hws hbyte hne).congr ?_
      simp [moveWord, hmode.mp h, modeNumber, modesDataAlterable]
    · next h => exact (decodeMoveTo_answers hws hbyte hne).congr (by simp [mt hmode.mpr h])

/-- ADDQ and SUBQ, to an address register (mode 001) and to another operand (30_encoding.md R93). -/
theorem decodeLine5_answers :
    Answers (sized modesDataAlterable w.toNat = true ∨ fieldAt 3 3 w.toNat = 1 ∧ sizeIn 1 w.toNat = true)
      (decodeLine5 w ws) := by
  have hmode := bitsAt_eq_one_iff w 3
  by_cases h : bitsAt w 3 3 = 1
  · have hread := (sizeAt6_answers w).bind fun sz hsz =>
      (decodeQuickAn_answers (w := w) (ws := ws)).congr (not_congr (sizeAt6_eq_byte hsz).symm)
    rw [decodeLine5]
    simp only [h, if_true]
    refine hread.congr ?_
    have hnoEa : sized modesDataAlterable w.toNat = false := by
      simp [sized, eaIn, hmode.mp h, modeNumber, modesDataAlterable]
    simp only [hnoEa, hmode.mp h, sizeIn, Bool.and_eq_true, decide_eq_true_iff, Bool.false_eq_true,
      false_or, true_and]
    omega
  · rw [decodeLine5]
    simp only [h, if_false]
    refine ((sizeAt6_answers w).bind fun sz _ => (takeEa_answers (cat := .dataAlterable) hws rfl).bind_ok
      fun p _ => ?_).congr ?_
    · split <;> exact ⟨_, rfl⟩
    · simp [mt hmode.mpr h, sized]

/-- Bcc: every condition but those of BRA and BSR (30_encoding.md R94). -/
theorem decodeLine6_answers : Answers (bccWord w.toNat = true) (decodeLine6 w ws) := by
  have hcond : ∀ c : BitVec 4, (condOfBits c).isSome = true ↔ 2 ≤ c.toNat := by decide
  have hfield : bccWord w.toNat = true ↔ (condOfBits (bitsAt w 8 4)).isSome = true := by
    rw [hcond, bitsAt_toNat_eq_fieldAt, bccWord, decide_eq_true_iff]
  rw [hfield, decodeLine6]
  cases condOfBits (bitsAt w 8 4) with
  | none => exact Answers.illegal (by simp)
  | some c =>
    obtain ⟨d, rest, hd, -⟩ := takeWord_supplies hws
    dsimp only
    split
    · exact hd ▸ Answers.ok rfl
    · exact Answers.ok rfl

end Words

theorem decodeX_answers {mk : Size → XForm → RegNum → RegNum → Instr} :
    Answers (sizeIn 0 w.toNat = true) (decodeX mk w ws) :=
  (sizeAt6_answers w).bind_ok fun _ _ => ⟨_, rfl⟩

theorem decodeShiftReg_answers : Answers (sizeIn 0 w.toNat = true) (decodeShiftReg w ws) :=
  (sizeAt6_answers w).bind_ok fun _ _ => ⟨_, rfl⟩

end Formats

end Sys2Proof.Laws
end

section
/-! SUPPORT. The patterns of opcode_table.json as patterns of an operation word's fields, and each line of the decoder
beside them (30_encoding.md R89 to R102). -/

namespace Sys2Proof.Laws

/-! ### The patterns of the table -/

/-- A word has one of the patterns, and meets its conditions. -/
def Hits (rows : List WordPattern) (n : Nat) : Prop := ∃ p ∈ rows, n &&& p.mask = p.value ∧ p.valid n = true

theorem nameIn_ne_none (rows : List WordPattern) (n : Nat) : nameIn rows n ≠ none ↔ Hits rows n := by
  simp [nameIn, Hits]

section Patterns
variable (l : BitVec 4) (h : BitVec 3) (b : BitVec 1) (s : BitVec 2) (m g : BitVec 3)

theorem fieldAt_line : fieldAt 12 4 (opWord l h b s m g).toNat = l.toNat := by
  rw [← bitsAt_toNat_eq_fieldAt, bitsAt_line]

@[simp] theorem fieldAt_hi : fieldAt 9 3 (opWord l h b s m g).toNat = h.toNat := by
  rw [← bitsAt_toNat_eq_fieldAt, bitsAt_hi]

@[simp] theorem fieldAt_b8 : fieldAt 8 1 (opWord l h b s m g).toNat = b.toNat := by
  rw [opWord_toNat, fieldAt]; omega

@[simp] theorem fieldAt_ss : fieldAt 6 2 (opWord l h b s m g).toNat = s.toNat := by
  rw [← bitsAt_toNat_eq_fieldAt, bitsAt_ss]

@[simp] theorem fieldAt_mode : fieldAt 3 3 (opWord l h b s m g).toNat = m.toNat := by
  rw [← bitsAt_toNat_eq_fieldAt, bitsAt_mode]

@[simp] theorem fieldAt_reg : fieldAt 0 3 (opWord l h b s m g).toNat = g.toNat := by
  rw [← bitsAt_toNat_eq_fieldAt, bitsAt_reg]

@[simp] theorem fieldAt_moveSize : fieldAt 12 2 (opWord l h b s m g).toNat = l.toNat % 4 := by
  rw [opWord_toNat, fieldAt]; omega

@[simp] theorem fieldAt_dstMode : fieldAt 6 3 (opWord l h b s m g).toNat = b.toNat * 4 + s.toNat := by
  rw [opWord_toNat, fieldAt]; omega

theorem fieldAt_and (lo len x y : Nat) : fieldAt lo len (x &&& y) = fieldAt lo len x &&& fieldAt lo len y := by
  rw [fieldAt, Nat.and_div_two_pow, Nat.and_mod_two_pow]; rfl

theorem eq_iff_fieldAt {x y : Nat} (hx : x < 65536) (hy : y < 65536) :
    x = y ↔ fieldAt 12 4 x = fieldAt 12 4 y ∧ fieldAt 9 3 x = fieldAt 9 3 y ∧ fieldAt 8 1 x = fieldAt 8 1 y ∧
      fieldAt 6 2 x = fieldAt 6 2 y ∧ fieldAt 3 3 x = fieldAt 3 3 y ∧ fieldAt 0 3 x = fieldAt 0 3 y := by
  simp only [fieldAt]
  omega

/-- A word has a pattern where each field has its part of the pattern. -/
@[simp] theorem opWord_and_eq_iff {mask value : Nat} (hv : value < 65536) :
    (opWord l h b s m g).toNat &&& mask = value ↔
      l.toNat &&& mask / 4096 % 16 = value / 4096 % 16 ∧ h.toNat &&& mask / 512 % 8 = value / 512 % 8 ∧
        b.toNat &&& mask / 256 % 2 = value / 256 % 2 ∧ s.toNat &&& mask / 64 % 4 = value / 64 % 4 ∧
        m.toNat &&& mask / 8 % 8 = value / 8 % 8 ∧ g.toNat &&& mask / 1 % 8 = value / 1 % 8 := by
  have hlt : (opWord l h b s m g).toNat &&& mask < 65536 := lt_of_le_of_lt Nat.and_le_left (opWord l h b s m g).isLt
  simp only [eq_iff_fieldAt hlt hv, fieldAt_and, fieldAt_line, fieldAt_hi, fieldAt_b8, fieldAt_ss, fieldAt_mode,
    fieldAt_reg]
  rfl

end Patterns

@[simp] theorem toNat_and_seven (x : BitVec 3) : x.toNat &&& 7 = x.toNat :=
  Nat.and_two_pow_sub_one_of_lt_two_pow (n := 3) x.isLt

@[simp] theorem toNat_and_three (x : BitVec 2) : x.toNat &&& 3 = x.toNat :=
  Nat.and_two_pow_sub_one_of_lt_two_pow (n := 2) x.isLt

@[simp] theorem toNat_mod_two (x : BitVec 1) : x.toNat % 2 = x.toNat := Nat.mod_eq_of_lt x.isLt

theorem oneBit_cases : ∀ b : BitVec 1, b = 0#1 ∨ b = 1#1 := by decide

theorem twoBits_cases : ∀ s : BitVec 2, s = 0#2 ∨ s = 1#2 ∨ s = 2#2 ∨ s = 3#2 := by decide

theorem threeBits_cases : ∀ h : BitVec 3,
    h = 0#3 ∨ h = 1#3 ∨ h = 2#3 ∨ h = 3#3 ∨ h = 4#3 ∨ h = 5#3 ∨ h = 6#3 ∨ h = 7#3 := by decide

/-! What a part of a field says of the whole. -/

theorem bit2_eq_false : ∀ {h : BitVec 3}, h[2] = false ↔ h = 0#3 ∨ h = 1#3 ∨ h = 2#3 ∨ h = 3#3 := by decide

theorem shiftType_cases : ∀ m : BitVec 3,
    m.toNat &&& 3 = 0 ∨ m.toNat &&& 3 = 1 ∨ m.toNat &&& 3 = 2 ∨ m.toNat &&& 3 = 3 := by decide

theorem dstMode_eq_an : ∀ (b : BitVec 1) (s : BitVec 2), b.toNat * 4 + s.toNat = 1 ↔ b = 0#1 ∧ s = 1#2 := by decide

theorem xForm_pattern : ∀ m : BitVec 3, m.extractLsb' 1 2 = 0#2 ↔ m.toNat &&& 6 = 0 := by decide

/-- The modes of ADDX and SUBX are no memory operand (30_encoding.md R96, R99). -/
theorem not_memoryAlterable_of_register :
    ∀ m g : BitVec 3, m.toNat &&& 6 = 0 → modeNumber m.toNat g.toNat ∉ modesMemoryAlterable := by decide

/-! ### Lines: the table's patterns and the decoder's branches, side by side -/

section Lines
variable (h : BitVec 3) (b : BitVec 1) (s : BitVec 2) (m g : BitVec 3) {ws : List Word}

/-- No word of line 0000 is a MOVE or MOVEA: 00 is no size of theirs (30_encoding.md R86). -/
@[simp] theorem moveWord_line0 : moveWord (opWord 0#4 h b s m g).toNat = false := by simp [moveWord]

@[simp] theorem moveaWord_line0 : moveaWord (opWord 0#4 h b s m g).toNat = false := by simp [moveaWord]

/-! The patterns of line 0100, field by field (30_encoding.md R92). -/

theorem lea_pattern :
    ((opWord 4#4 h b s m g).getLsbD 8 && (opWord 4#4 h b s m g).getLsbD 7 && (opWord 4#4 h b s m g).getLsbD 6) = true ↔
      b = 1#1 ∧ s = 3#2 := by
  have hbits : (b[0] && s[1] && s[0]) = true ↔ b = 1#1 ∧ s = 3#2 := by decide +revert
  simpa using hbits

theorem clr_pattern : h ++ b = 2#4 ↔ h = 1#3 ∧ b = 0#1 := by
  decide +revert

theorem not_pattern : h ++ b = 6#4 ↔ h = 3#3 ∧ b = 0#1 := by
  decide +revert

theorem extWord_pattern : h ++ b ++ s ++ m = 0b100010000#9 ↔ h = 4#3 ∧ b = 0#1 ∧ s = 2#2 ∧ m = 0#3 := by
  simp only [← BitVec.toNat_inj, toNat_append_eq_add, BitVec.toNat_ofNat]
  omega

theorem extLong_pattern : h ++ b ++ s ++ m = 0b100011000#9 ↔ h = 4#3 ∧ b = 0#1 ∧ s = 3#2 ∧ m = 0#3 := by
  simp only [← BitVec.toNat_inj, toNat_append_eq_add, BitVec.toNat_ofNat]
  omega

/-- The branches of line 0100, field by field. -/
theorem decodeLine4_opWord (ws : List Word) :
    decodeLine4 (opWord 4#4 h b s m g) ws =
      if h = 7#3 ∧ b = 0#1 ∧ s = 1#2 ∧ m = 6#3 ∧ g = 2#3 then decodeStop ws
      else if b = 1#1 ∧ s = 3#2 then decodeLea (opWord 4#4 h b s m g) ws
      else if h = 1#3 ∧ b = 0#1 then decodeSizeEa .clr (opWord 4#4 h b s m g) ws
      else if h = 3#3 ∧ b = 0#1 then decodeSizeEa .notEa (opWord 4#4 h b s m g) ws
      else if h = 4#3 ∧ b = 0#1 ∧ s = 2#2 ∧ m = 0#3 then .ok (.extW (RegNum.ofBits g), ws)
      else if h = 4#3 ∧ b = 0#1 ∧ s = 3#2 ∧ m = 0#3 then .ok (.extL (RegNum.ofBits g), ws)
      else .error .illegal := by
  simp only [decodeLine4, BitVec.ofNat_eq_ofNat, opWord_eq_stop, lea_pattern, bitsAt_cond, clr_pattern,
    not_pattern, bitsAt_ext, extWord_pattern, extLong_pattern, regAt0_opWord, true_and]

/-- The table's patterns of line 0100, field by field. -/
theorem hits_line4 :
    Hits tableRows4 (opWord 4#4 h b s m g).toNat ↔
      (h = 1#3 ∧ b = 0#1) ∧ sized modesDataAlterable (opWord 4#4 h b s m g).toNat = true ∨
      (h = 3#3 ∧ b = 0#1) ∧ sized modesDataAlterable (opWord 4#4 h b s m g).toNat = true ∨
      (h = 4#3 ∧ b = 0#1 ∧ s = 2#2 ∧ m = 0#3) ∨ (h = 4#3 ∧ b = 0#1 ∧ s = 3#2 ∧ m = 0#3) ∨
      (b = 1#1 ∧ s = 3#2) ∧ eaIn modesControl (opWord 4#4 h b s m g).toNat = true ∨
      (h = 7#3 ∧ b = 0#1 ∧ s = 1#2 ∧ m = 6#3 ∧ g = 2#3) := by
  simp [Hits, tableRows4, anyWord, BitVec.toNat_eq_nat]

variable (hws : 4 ≤ ws.length)
include hws

/-- ANDI, and ANDI to CCR in the place of an immediate destination (30_encoding.md R90). -/
theorem decodeAndi_answers :
    Answers (Hits tableRows0 (opWord 0#4 1#3 0#1 s m g).toNat) (decodeLine0 (opWord 0#4 1#3 0#1 s m g) ws) := by
  by_cases hccr : s = 0#2 ∧ m = 7#3 ∧ g = 4#3
  · obtain ⟨p, hp⟩ := decodeAndiToCcr_exists hws
    obtain ⟨rfl, rfl, rfl⟩ := hccr
    have hok : Answers True (decodeAndiToCcr ws) := by rw [hp]; exact Answers.ok trivial
    simpa [Hits, tableRows0, decodeLine0, anyWord, opWord_eq_andiToCcr] using hok
  · simpa [Hits, tableRows0, decodeLine0, anyWord, opWord_eq_andiToCcr, BitVec.toNat_eq_nat, hccr] using
      decodeImmEa_answers (w := opWord 0#4 1#3 0#1 s m g) hws

theorem decodeLine0_answers :
    Answers (Hits tableRows0 (opWord 0#4 h b s m g).toNat) (decodeLine0 (opWord 0#4 h b s m g) ws) := by
  rcases oneBit_cases b with rfl | rfl
  · rcases threeBits_cases h with rfl | rfl | rfl | rfl | rfl | rfl | rfl | rfl
    · simpa [Hits, tableRows0, decodeLine0] using decodeImmEa_answers hws
    · exact decodeAndi_answers s m g hws
    · simpa [Hits, tableRows0, decodeLine0] using decodeImmEa_answers hws
    · simpa [Hits, tableRows0, decodeLine0] using decodeImmEa_answers hws
    · rcases twoBits_cases s with rfl | rfl | rfl | rfl
      · simpa [Hits, tableRows0, decodeLine0] using decodeBitStatic_answers (cat := .dataExceptImmediate) hws rfl
      all_goals simpa [Hits, tableRows0, decodeLine0] using decodeBitStatic_answers (cat := .dataAlterable) hws rfl
    · simpa [Hits, tableRows0, decodeLine0] using decodeImmEa_answers hws
    · simpa [Hits, tableRows0, decodeLine0] using decodeImmEa_answers hws
    · simp [Hits, tableRows0, decodeLine0]
  · rcases twoBits_cases s with rfl | rfl | rfl | rfl
    · simpa [Hits, tableRows0, decodeLine0] using decodeBitDyn_answers (cat := .data) hws rfl
    all_goals simpa [Hits, tableRows0, decodeLine0] using decodeBitDyn_answers (cat := .dataAlterable) hws rfl

theorem decodeLine4_answers :
    Answers (Hits tableRows4 (opWord 4#4 h b s m g).toNat) (decodeLine4 (opWord 4#4 h b s m g) ws) := by
  rw [decodeLine4_opWord, hits_line4]
  split_ifs with hstop hlea hclr hnot hextW hextL
  · obtain ⟨p, hp⟩ := decodeStop_exists hws
    rw [hp]
    exact Answers.ok (by simp [hstop])
  · exact (decodeLea_answers hws).congr (by simp [hlea])
  · exact (decodeSizeEa_answers hws).congr (by simp [hclr])
  · exact (decodeSizeEa_answers hws).congr (by simp [hnot])
  · exact Answers.ok (by simp [hextW])
  · exact Answers.ok (by simp [hextL])
  · exact Answers.illegal (by simp [hstop, hlea, hclr, hnot, hextW, hextL])

theorem decodeLine5_hits :
    Answers (Hits tableRows4 (opWord 5#4 h b s m g).toNat) (decodeLine5 (opWord 5#4 h b s m g) ws) := by
  have hline := decodeLine5_answers (w := opWord 5#4 h b s m g) hws
  rcases oneBit_cases b with rfl | rfl <;> simpa [Hits, tableRows4] using hline

theorem decodeLine6_hits :
    Answers (Hits tableRows4 (opWord 6#4 h b s m g).toNat) (decodeLine6 (opWord 6#4 h b s m g) ws) := by
  simpa [Hits, tableRows4] using decodeLine6_answers hws

/-- Lines 1000 and 1100, whose patterns are those of the condition (30_encoding.md R95, R98). -/
theorem logicLine_answers {l : BitVec 4} {toDn : Size → EA → RegNum → Instr} {toEa : Size → RegNum → EA → Instr}
    {mulDiv : EA → RegNum → Instr}
    (hrows : Hits tableRows8 (opWord l h b s m g).toNat ↔
      b = 0#1 ∧ sized modesData (opWord l h b s m g).toNat = true ∨
      b = 1#1 ∧ sized modesMemoryAlterable (opWord l h b s m g).toNat = true ∨
      b = 0#1 ∧ s = 3#2 ∧ eaIn modesData (opWord l h b s m g).toNat = true ∨
      b = 1#1 ∧ s = 3#2 ∧ eaIn modesData (opWord l h b s m g).toNat = true) :
    Answers (Hits tableRows8 (opWord l h b s m g).toNat)
      (if bitsAt (opWord l h b s m g) 6 2 = 3 then decodeMulDiv mulDiv (opWord l h b s m g) ws
        else if (opWord l h b s m g).getLsbD 8 then decodeToEa .memoryAlterable toEa (opWord l h b s m g) ws
        else decodeToDn .data toDn (opWord l h b s m g) ws) := by
  rw [hrows]
  by_cases hs : s = 3#2
  · subst hs
    rcases oneBit_cases b with rfl | rfl <;> simpa [sized, sizeIn] using decodeMulDiv_answers hws
  · rcases oneBit_cases b with rfl | rfl
    · simpa [hs] using decodeToDn_answers (cat := .data) hws rfl
    · simpa [hs] using decodeToEa_answers (cat := .memoryAlterable) hws rfl

theorem decodeLine8_answers :
    Answers (Hits tableRows8 (opWord 8#4 h b s m g).toNat) (decodeLine8 (opWord 8#4 h b s m g) ws) :=
  logicLine_answers h b s m g hws (by simp [Hits, tableRows8, BitVec.toNat_eq_nat, and_assoc])

theorem decodeLineC_answers :
    Answers (Hits tableRows8 (opWord 12#4 h b s m g).toNat) (decodeLineC (opWord 12#4 h b s m g) ws) :=
  logicLine_answers h b s m g hws (by simp [Hits, tableRows8, BitVec.toNat_eq_nat, and_assoc])

theorem decodeLineB_answers :
    Answers (Hits tableRows8 (opWord 11#4 h b s m g).toNat) (decodeLineB (opWord 11#4 h b s m g) ws) := by
  rcases oneBit_cases b with rfl | rfl
  · simp [Hits, tableRows8, decodeLineB]
  · simpa [Hits, tableRows8, decodeLineB] using decodeToEa_answers (cat := .dataAlterable) hws rfl

/-- The memory forms are those with bit 11 clear; the register forms have every type (30_encoding.md R100). -/
theorem decodeLineE_answers :
    Answers (Hits tableRowsE (opWord 14#4 h b s m g).toNat) (decodeLineE (opWord 14#4 h b s m g) ws) := by
  by_cases hs : s = 3#2
  · subst hs
    have hmem := decodeShiftMem_answers (w := opWord 14#4 h b 3#2 m g) hws
    simp only [getElem_hi2, bit2_eq_false, or_and_right] at hmem
    rcases oneBit_cases b with rfl | rfl <;>
      simpa [Hits, tableRowsE, decodeLineE, BitVec.toNat_eq_nat, sizeIn] using hmem
  · rcases oneBit_cases b with rfl | rfl <;> rcases shiftType_cases m with hm | hm | hm | hm <;>
      simpa [Hits, tableRowsE, decodeLineE, BitVec.toNat_eq_nat, hs, hm] using decodeShiftReg_answers

/-- Lines 0001, 0010 and 0011. -/
theorem decodeMove_hits {l : BitVec 4} (hl : l = 1#4 ∨ l = 2#4 ∨ l = 3#4) :
    Answers (Hits tableRows0 (opWord l h b s m g).toNat) (decodeMove (opWord l h b s m g) ws) := by
  refine (decodeMove_answers hws).congr ?_
  rcases hl with rfl | rfl | rfl <;> simp [Hits, tableRows0, BitVec.toNat_eq_nat, dstMode_eq_an, and_assoc]

/-- Lines 1001 and 1101, whose patterns are those of the condition (30_encoding.md R96, R99). -/
theorem decodeAddSub_answers {l : BitVec 4} {toDn : Size → EA → RegNum → Instr} {toEa : Size → RegNum → EA → Instr}
    {toAn : Size → EA → RegNum → Instr} {extended : Size → XForm → RegNum → RegNum → Instr}
    (hrows : Hits tableRows8 (opWord l h b s m g).toNat ↔
      b = 0#1 ∧ sizedAll (opWord l h b s m g).toNat = true ∨
      b = 1#1 ∧ sized modesMemoryAlterable (opWord l h b s m g).toNat = true ∨
      s = 3#2 ∧ eaIn modesAll (opWord l h b s m g).toNat = true ∨
      b = 1#1 ∧ m.toNat &&& 6 = 0 ∧ sizeIn 0 (opWord l h b s m g).toNat = true) :
    Answers (Hits tableRows8 (opWord l h b s m g).toNat)
      (decodeAddSub toDn toEa toAn extended (opWord l h b s m g) ws) := by
  rw [hrows]
  by_cases hs : s = 3#2
  · subst hs
    simpa [decodeAddSub, sizedAll, sized, sizeIn] using decodeAddrOp_answers (w := opWord l h b 3#2 m g) hws
  · rcases oneBit_cases b with rfl | rfl
    · simpa [decodeAddSub, hs] using decodeToDnAll_answers hws
    · by_cases hX : m.toNat &&& 6 = 0
      · simpa [decodeAddSub, hs, xForm_pattern, hX, sized, eaIn, not_memoryAlterable_of_register m g hX] using
          decodeX_answers (w := opWord l h 1#1 s m g)
      · simpa [decodeAddSub, hs, xForm_pattern, hX] using decodeToEa_answers (cat := .memoryAlterable) hws rfl

theorem decodeLine9_answers :
    Answers (Hits tableRows8 (opWord 9#4 h b s m g).toNat)
      (decodeAddSub .subToDn .subToEa .suba .subx (opWord 9#4 h b s m g) ws) :=
  decodeAddSub_answers h b s m g hws (by simp [Hits, tableRows8, BitVec.toNat_eq_nat, and_assoc])

theorem decodeLineD_answers :
    Answers (Hits tableRows8 (opWord 13#4 h b s m g).toNat)
      (decodeAddSub .addToDn .addToEa .adda .addx (opWord 13#4 h b s m g) ws) :=
  decodeAddSub_answers h b s m g hws (by simp [Hits, tableRows8, BitVec.toNat_eq_nat, and_assoc])

end Lines

end Sys2Proof.Laws
end

section
/-! SUPPORT. The operation words, line by line: with four words after it a word is an instruction where the table has
its pattern (30_encoding.md R89, R102), and R104's list for the decoder is the table's. -/

namespace Sys2Proof.Laws

theorem fourBits_cases : ∀ l : BitVec 4,
    l = 0#4 ∨ l = 1#4 ∨ l = 2#4 ∨ l = 3#4 ∨ l = 4#4 ∨ l = 5#4 ∨ l = 6#4 ∨ l = 7#4 ∨ l = 8#4 ∨ l = 9#4 ∨ l = 10#4 ∨
      l = 11#4 ∨ l = 12#4 ∨ l = 13#4 ∨ l = 14#4 ∨ l = 15#4 := by decide

/-! ### The words in scope -/

section Lines
variable (l : BitVec 4) (h : BitVec 3) (b : BitVec 1) (s : BitVec 2) (m g : BitVec 3)

theorem opWord_line : (opWord l h b s m g).toNat / 4096 = l.toNat := by
  rw [opWord_toNat]
  omega

/-- The rows of the table that are looked up for a line. -/
def lineRows (l : BitVec 4) : List WordPattern :=
  match l.toNat with
  | 0 | 1 | 2 | 3 => tableRows0
  | 4 | 5 | 6 => tableRows4
  | 14 => tableRowsE
  | _ => tableRows8

theorem tableName_ne_none_iff :
    tableName (opWord l h b s m g) ≠ none ↔ Hits (lineRows l) (opWord l h b s m g).toNat := by
  rw [tableName, opWord_line, nameIn_ne_none]
  rfl

/-- Whether an operation word of a line but 1010 and 1111 is an instruction, the table decides. -/
theorem decodeInScope_answers {ws : List Word} (hws : 4 ≤ ws.length) (hA : l ≠ 10#4) (hF : l ≠ 15#4) :
    Answers (tableName (opWord l h b s m g) ≠ none) (decodeInScope (opWord l h b s m g) ws) := by
  rw [tableName_ne_none_iff, decodeInScope, bitsAt_line]
  rcases fourBits_cases l with rfl | rfl | rfl | rfl | rfl | rfl | rfl | rfl | rfl | rfl | rfl | rfl | rfl | rfl | rfl
    | rfl
  · exact decodeLine0_answers h b s m g hws
  · exact decodeMove_hits h b s m g hws (by decide)
  · exact decodeMove_hits h b s m g hws (by decide)
  · exact decodeMove_hits h b s m g hws (by decide)
  · exact decodeLine4_answers h b s m g hws
  · exact decodeLine5_hits h b s m g hws
  · exact decodeLine6_hits h b s m g hws
  · exact Answers.illegal (by simp [Hits, lineRows, tableRows8])
  · exact decodeLine8_answers h b s m g hws
  · exact decodeLine9_answers h b s m g hws
  · exact absurd rfl hA
  · exact decodeLineB_answers h b s m g hws
  · exact decodeLineC_answers h b s m g hws
  · exact decodeLineD_answers h b s m g hws
  · exact decodeLineE_answers h b s m g hws
  · exact absurd rfl hF

/-- The table has no word of lines 1010 and 1111 (30_encoding.md R101). -/
theorem tableName_lineAF (hl : l = 10#4 ∨ l = 15#4) : tableName (opWord l h b s m g) = none := by
  have hno : ¬Hits (lineRows l) (opWord l h b s m g).toNat := by
    rcases hl with rfl | rfl <;> simp [Hits, lineRows, tableRows8]
  exact not_not.mp (mt (tableName_ne_none_iff l h b s m g).mp hno)

end Lines

/-! ### The words out of scope (30_encoding.md R104) -/

/-- A row of the decoder's list and a pattern of the table's that say the same. -/
def SameRow (row : ScopeRow) (p : WordPattern) : Prop :=
  row.mask.toNat = p.mask ∧ row.value.toNat = p.value ∧ row.mnemonic = p.name ∧
    ∀ w : Word, (!row.except w) = p.valid w.toNat

theorem not_sizeField3 (w : Word) : (!sizeField3 w) = sizeIn 0 w.toNat := by
  have hsize : ∀ s : BitVec 2, (!decide (s = 3)) = decide (s.toNat ≤ 2) := by decide
  rw [sizeField3, hsize, bitsAt_toNat_eq_fieldAt]
  simp [sizeIn]

theorem not_modeField0 (w : Word) : (!modeField0 w) = notMode0 w.toNat := by
  have hmode : ∀ m : BitVec 3, (!decide (m = 0)) = (m.toNat != 0) := by decide
  rw [modeField0, hmode, bitsAt_toNat_eq_fieldAt]
  rfl

theorem illegalWord (w : Word) : decide (w = 0x4AFC#16) = !notIllegal w.toNat := by
  rw [notIllegal, bne, Bool.not_not, beq_eq_decide]
  exact decide_eq_decide.mpr BitVec.toNat_inj.symm

theorem scopeRows_same : List.Forall₂ SameRow (outOfScopeRows1 ++ outOfScopeRows2) (refusedRows0 ++ refusedRows6) := by
  simp [outOfScopeRows1, outOfScopeRows2, refusedRows0, refusedRows6, SameRow, not_sizeField3, not_modeField0,
    noWord, anyWord, illegalWord]

/-- Rows that say the same have the same words. -/
theorem SameRow.has {row : ScopeRow} {p : WordPattern} (h : SameRow row p) (w : Word) :
    (decide (w &&& row.mask = row.value) && !row.except w) = (w.toNat &&& p.mask == p.value && p.valid w.toNat) := by
  obtain ⟨hmask, hvalue, -, hvalid⟩ := h
  rw [hvalid, ← hmask, ← hvalue, ← BitVec.toNat_and]
  rw [beq_eq_decide, decide_eq_decide.mpr BitVec.toNat_inj]

/-- Lists of rows that say the same find the same name. -/
theorem nameIn_of_sameRows {rows : List ScopeRow} {ps : List WordPattern} (h : List.Forall₂ SameRow rows ps)
    (w : Word) :
    (rows.find? fun row => w &&& row.mask = row.value && !row.except w).map (·.mnemonic) = nameIn ps w.toNat := by
  unfold nameIn
  induction h with
  | nil => rfl
  | cons hrow _ ih =>
    rw [List.find?_cons, List.find?_cons, hrow.has w]
    split
    · exact congrArg some hrow.2.2.1
    · exact ih

/-- Each list of R104's words has the lines it is for. -/
theorem refusedRows_lines :
    (∀ p ∈ refusedRows0, p.mask / 4096 = 15 ∧ p.value / 4096 < 6) ∧
    (∀ p ∈ refusedRows6, p.mask / 4096 = 15 ∧ 6 ≤ p.value / 4096 ∧ p.value / 4096 ≠ 10 ∧ p.value / 4096 ≠ 15) := by
  decide

/-- A pattern that fixes bits 15 to 12 is one of its own line. -/
theorem line_of_and_eq {w : Word} {mask value : Nat} (hmask : mask / 4096 = 15) (h : w.toNat &&& mask = value) :
    w.toNat / 4096 = value / 4096 := by
  have hline : w.toNat / 4096 < 2 ^ 4 := by omega
  calc w.toNat / 4096 = w.toNat / 4096 &&& 15 := (Nat.and_two_pow_sub_one_of_lt_two_pow hline).symm
    _ = w.toNat / 2 ^ 12 &&& mask / 2 ^ 12 := by rw [← hmask]; rfl
    _ = value / 4096 := by rw [← Nat.and_div_two_pow, h]

theorem refusedRows0_hits {w : Word} (h : Hits refusedRows0 w.toNat) : w.toNat < 0x6000 := by
  obtain ⟨p, hp, hand, -⟩ := h
  obtain ⟨hmask, hvalue⟩ := refusedRows_lines.1 p hp
  have := line_of_and_eq hmask hand
  omega

theorem refusedRows6_hits {w : Word} (h : Hits refusedRows6 w.toNat) :
    0x6000 ≤ w.toNat ∧ w.toNat / 4096 ≠ 10 ∧ w.toNat / 4096 ≠ 15 := by
  obtain ⟨p, hp, hand, -⟩ := h
  obtain ⟨hmask, hvalue⟩ := refusedRows_lines.2 p hp
  have := line_of_and_eq hmask hand
  omega

theorem nameIn_eq_none {rows : List WordPattern} {n : Nat} (h : ¬Hits rows n) : nameIn rows n = none :=
  not_not.mp (mt (nameIn_ne_none rows n).mp h)

theorem nameIn_append (rows rows' : List WordPattern) (n : Nat) :
    nameIn (rows ++ rows') n = (nameIn rows n).or (nameIn rows' n) := by
  rw [nameIn, List.find?_append, Option.map_or]; rfl

/-- The name by which the decoder refuses a word is the table's. -/
theorem outOfScope?_eq_refusedName (w : Word) : outOfScope? w = refusedName w := by
  rw [outOfScope?, nameIn_of_sameRows scopeRows_same, nameIn_append, refusedName]
  split
  · next hlt => rw [nameIn_eq_none fun h => absurd (refusedRows6_hits h).1 (Nat.not_le.mpr hlt), Option.or_none]
  · next hge => rw [nameIn_eq_none fun h => hge (refusedRows0_hits h), Option.none_or]

/-- No word of lines 1010 and 1111 is refused by name (30_encoding.md R101). -/
theorem refusedName_lineAF {w : Word} (hl : w.toNat / 4096 = 10 ∨ w.toNat / 4096 = 15) : refusedName w = none := by
  rw [refusedName, if_neg (by omega)]
  refine nameIn_eq_none fun h => ?_
  obtain ⟨-, hA, hF⟩ := refusedRows6_hits h
  exact hl.elim hA hF

end Sys2Proof.Laws
end

section
/-! The statements of 30_encoding.md. -/

namespace Sys2Proof.Proofs

open Sys2Proof.Laws

/-- Settles O1: each constructor by the lemma of its format, which reads the fields back from the operation word and the
operands from the words after it. -/
theorem decodeInvertsEncode : Obligations.DecodeInvertsEncode := by
  intro i rest h
  cases i with
  | ori sz imm ea | subi sz imm ea | addi sz imm ea | eori sz imm ea | cmpi sz imm ea =>
    exact decode_immEa h fun _ ws => by simp [decodeInScope, decodeLine0]
  | andi sz imm ea =>
    exact decode_immEa h fun hea ws => by
      simp +contextual [decodeInScope, decodeLine0, opWord_eq_andiToCcr, hea]
  | andiToCcr imm => exact decode_andiToCcr
  | btstStatic bit ea | bchgStatic bit ea | bclrStatic bit ea | bsetStatic bit ea =>
    exact decode_bitStatic h fun ws => by simp [decodeInScope, decodeLine0]
  | btstDyn r ea | bchgDyn r ea | bclrDyn r ea | bsetDyn r ea =>
    exact decode_bitDyn h fun ws => by simp [decodeInScope, decodeLine0]
  | move sz src dst => exact decode_move h
  | movea sz src r => exact decode_movea h
  | clr sz ea | notEa sz ea =>
    exact decode_sizeEa h fun ws => by simp [decodeInScope, decodeLine4, opWord_eq_stop]
  | extW r => exact decode_extW
  | extL r => exact decode_extL
  | lea ea r => exact decode_lea h
  | stop imm => rfl
  | addq data sz ea | subq data sz ea => exact decode_quick h
  | addqA data sz r | subqA data sz r => exact decode_quickAn h
  | bcc c disp => exact decode_bcc h
  | orToDn sz ea r => exact decode_toDn h fun ws => by simp [decodeInScope, decodeLine8]
  | andToDn sz ea r => exact decode_toDn h fun ws => by simp [decodeInScope, decodeLineC]
  | subToDn sz ea r | addToDn sz ea r => exact decode_toDn h fun ws => by simp [decodeInScope, decodeAddSub]
  | orToEa sz r ea => exact decode_toEa h fun ws => by simp [decodeInScope, decodeLine8]
  | andToEa sz r ea => exact decode_toEa h fun ws => by simp [decodeInScope, decodeLineC]
  | subToEa sz r ea | addToEa sz r ea =>
    exact decode_toEa h fun ws => by simp [decodeInScope, decodeAddSub, modeBits_of_memoryAlterable h]
  | eor sz r ea => exact decode_toEa h fun ws => by simp [decodeInScope, decodeLineB]
  | divu ea r | divs ea r => exact decode_mulDiv h fun ws => by simp [decodeInScope, decodeLine8]
  | mulu ea r | muls ea r => exact decode_mulDiv h fun ws => by simp [decodeInScope, decodeLineC]
  | suba sz ea r | adda sz ea r => exact decode_addrOp h fun ws => by simp [decodeInScope, decodeAddSub]
  | subx sz form ry rx | addx sz form ry rx =>
    exact decode_x fun mode ws hmode => by simp [decodeInScope, decodeAddSub, hmode]
  | asrReg sz count r | aslReg sz count r | lsrReg sz count r | lslReg sz count r | roxrReg sz count r
  | roxlReg sz count r | rorReg sz count r | rolReg sz count r => exact decode_shiftReg
  | asrMem ea | aslMem ea | lsrMem ea | lslMem ea | roxrMem ea | roxlMem ea | rorMem ea | rolMem ea =>
    exact decode_shiftMem h

/-- Settles O2: the rules of reading, put together along the decoder, give it for the words after the operation word. -/
theorem decodedInstructionsAreWellFormed : Obligations.DecodedInstructionsAreWellFormed := by
  intro i ws rest h
  obtain ⟨w, tail, rfl, hscope⟩ := decodeInScope_of_decode h
  obtain ⟨taken, rfl, hwf, hlen⟩ := decodeInScope_reads i rest hscope
  exact ⟨hwf, w :: taken, rfl, hlen.symm⟩

/-- Settles O60: outside lines 1010 and 1111 the decoder's branches are the table's patterns, line by line, and what is
illegal is refused by the table's names; on those two lines the table and the names have nothing. -/
theorem operationWordClasses : Obligations.OperationWordClasses := by
  intro w a b c d
  obtain ⟨line, hi, b8, ss, mode, reg, rfl⟩ := exists_opWord w
  have hbits : (opWord line hi b8 ss mode reg).extractLsb' 12 4 = line := bitsAt_line ..
  have hline : (opWord line hi b8 ss mode reg).toNat / 4096 = line.toNat := opWord_line ..
  by_cases hAF : line = 10#4 ∨ line = 15#4
  · have htable := tableName_lineAF line hi b8 ss mode reg hAF
    have hrefused : refusedName (opWord line hi b8 ss mode reg) = none :=
      refusedName_lineAF (by rw [hline]; rcases hAF with rfl | rfl <;> decide)
    refine ⟨fun h => absurd htable h, fun _ => ?_⟩
    rcases hAF with rfl | rfl <;> simp [hrefused, hbits, decode, decodeInScope, classify]
  · obtain ⟨hA, hF⟩ := not_or.mp hAF
    obtain ⟨hok, hillegal⟩ := decodeInScope_answers line hi b8 ss mode reg (ws := [a, b, c, d]) (by simp) hA hF
    refine ⟨fun h => ?_, fun h => ?_⟩
    · obtain ⟨⟨i, rest⟩, hp⟩ := hok h
      exact ⟨i, rest, decode_of_inScope hp⟩
    · cases hname : refusedName (opWord line hi b8 ss mode reg) <;>
        simp [decode, hillegal (not_not.mpr h), classify, outOfScope?_eq_refusedName, hname, hbits, hA, hF]

/-- Settles O3: these words are what the encoder writes of the instructions beside them. -/
theorem wordsOfTheSpecDecode : Obligations.WordsOfTheSpecDecode :=
  have decodes (i : Instr) (h : i.wellFormed = true) : decode (encode i ++ []) = .ok (i, []) :=
    decodeInvertsEncode i [] h
  ⟨decodes (.addi .word 0x1234 (.dn .r0)) rfl,
    decodes (.addToEa .long .r0 (.predec .r1)) rfl,
    decodes (.orToDn .word (.postinc .r0) .r2) rfl,
    decodes (.move .word (.index .r0 ⟨.d .r1, true, 0⟩) (.dn .r0)) rfl,
    decodes (.btstStatic 3 (.absW 0x2000)) rfl,
    decodes (.lsrReg .long (.reg .r1) .r2) rfl,
    decodes (.bcc .ne (.short 0xF2)) rfl,
    decodes (.stop 0x2700) rfl,
    decodes (.divs (.imm 0xFFF9) .r0) rfl⟩

end Sys2Proof.Proofs
end

section
/-! SUPPORT. The flags of the additions and subtractions, said by the integers (40_add_sub.md R120, R126, R127,
R132). -/

namespace Sys2Proof

theorem Size.bits_pos (sz : Size) : 0 < sz.bits := by
  cases sz <;> decide

namespace Machine

/-! ### The overflow -/

section Overflow

variable {n : Nat} {e : Int} (s d : BitVec n) (x : Bool)

/-- The signed value of an integer cut to `n` bits that had at most one bit more: out of range it is off by `2 ^ n`. -/
theorem toInt_ofInt_of_lt (hn : 0 < n) (hlo : -2 ^ n ≤ e) (hhi : e < 2 ^ n) :
    (BitVec.ofInt n e).toInt =
      if e < -2 ^ (n - 1) then e + 2 ^ n else if 2 ^ (n - 1) ≤ e then e - 2 ^ n else e := by
  have hdouble := mul_pow_sub_one hn.ne' (2 : Int)
  have hcast : ((2 ^ n : Nat) : Int) = 2 ^ n := by push_cast; rfl
  rw [BitVec.toInt_ofInt]
  split
  · rw [← Int.add_bmod_right, Int.bmod_eq_of_le (by omega) (by omega), hcast]
  · split
    · rw [← Int.sub_bmod_right, Int.bmod_eq_of_le (by omega) (by omega), hcast]
    · exact Int.bmod_eq_of_le (by omega) (by omega)

/-- Such an integer is out of range exactly where its sign is lost. -/
theorem outOfRange_eq_sign_lost (hn : 0 < n) (hlo : -2 ^ n ≤ e) (hhi : e < 2 ^ n) :
    outOfRange n e = (decide (e < 0) != (BitVec.ofInt n e).msb) := by
  have hdouble := mul_pow_sub_one hn.ne' (2 : Int)
  rw [BitVec.msb_eq_toInt, toInt_ofInt_of_lt hn hlo hhi, outOfRange, ← hdouble]
  rw [← hdouble] at hlo hhi
  generalize (2 : Int) ^ (n - 1) = half at *
  by_cases hneg : e < -half
  · simp [hneg, show e < 0 by omega, show 0 ≤ e + 2 * half by omega]
  · by_cases hbig : half ≤ e
    · simp [hneg, hbig, show 0 ≤ e by omega, show e - 2 * half < 0 by omega]
    · simp [hneg, hbig]

theorem add_carry_eq_ofInt : s + d + BitVec.ofNat n x.toNat = BitVec.ofInt n (s.toInt + d.toInt + x.toNat) := by
  simp [BitVec.ofInt_add]

theorem sub_borrow_eq_ofInt : d - s - BitVec.ofNat n x.toNat = BitVec.ofInt n (d.toInt - s.toInt - x.toNat) := by
  simp [Int.sub_eq_add_neg, BitVec.ofInt_add, BitVec.sub_eq_add_neg, BitVec.ofInt_neg]

/-- The overflow of the spec's additions and subtractions (00_scope.md R13): where the operands' signs fix that of the
exact result, the result's top bit is another; where they do not, nothing overflows. -/
theorem overflow_eq_outOfRange {sign fixed : Bool} (hn : 0 < n) (hlo : -2 ^ n ≤ e) (hhi : e < 2 ^ n)
    (hfixed : fixed = true → (e < 0 ↔ sign = true))
    (hfree : fixed = false → -2 ^ (n - 1) ≤ e ∧ e < 2 ^ (n - 1)) :
    (fixed && (BitVec.ofInt n e).msb != sign) = outOfRange n e := by
  cases fixed with
  | true =>
    have hsign : decide (e < 0) = sign := by simp [hfixed rfl]
    rw [outOfRange_eq_sign_lost hn hlo hhi, hsign, Bool.true_and, bne_comm]
  | false =>
    obtain ⟨hge, hlt⟩ := hfree rfl
    simp [outOfRange, hge, hlt]

theorem addOverflow_eq_outOfRange (hn : 0 < n) :
    (s.msb == d.msb && (s + d + BitVec.ofNat n x.toNat).msb != d.msb) =
      outOfRange n (s.toInt + d.toInt + x.toNat) := by
  have hdouble := mul_pow_sub_one hn.ne' (2 : Int)
  have hs := And.intro s.le_toInt s.toInt_lt
  have hd := And.intro d.le_toInt d.toInt_lt
  have hx : x.toNat ≤ 1 := x.toNat_le
  rw [add_carry_eq_ofInt]
  refine overflow_eq_outOfRange hn (by omega) (by omega) (fun hsame => ?_) fun hdiff => ?_
  · simp only [BitVec.msb_eq_toInt, beq_iff_eq, decide_eq_decide, decide_eq_true_eq] at hsame ⊢
    omega
  · simp only [BitVec.msb_eq_toInt, beq_eq_false_iff_ne, ne_eq, decide_eq_decide] at hdiff
    omega

theorem subOverflow_eq_outOfRange (hn : 0 < n) :
    (s.msb != d.msb && (d - s - BitVec.ofNat n x.toNat).msb != d.msb) =
      outOfRange n (d.toInt - s.toInt - x.toNat) := by
  have hdouble := mul_pow_sub_one hn.ne' (2 : Int)
  have hs := And.intro s.le_toInt s.toInt_lt
  have hd := And.intro d.le_toInt d.toInt_lt
  have hx : x.toNat ≤ 1 := x.toNat_le
  rw [sub_borrow_eq_ofInt]
  refine overflow_eq_outOfRange hn (by omega) (by omega) (fun hdiff => ?_) fun hsame => ?_
  · simp only [BitVec.msb_eq_toInt, bne_iff_ne, ne_eq, decide_eq_decide, decide_eq_true_eq] at hdiff ⊢
    omega
  · simp only [BitVec.msb_eq_toInt, bne_eq_false_iff_eq, decide_eq_decide] at hsame
    omega

end Overflow

/-! ### The operations of the family -/

section Operations

variable {n : Nat} (f : Ccr) (s d : BitVec n) (x : Bool)

/-- `add_n` of R13: the sum with its carry and overflow. -/
theorem addN_eq (hn : 0 < n) :
    addN s d x = (s + d + BitVec.ofNat n x.toNat, (sumFlags s d x).c, (sumFlags s d x).v) := by
  have hsum : BitVec.ofNat n (s.toNat + d.toNat + x.toNat) = s + d + BitVec.ofNat n x.toNat := by
    simp [BitVec.ofNat_add]
  rw [addN, hsum, addOverflow_eq_outOfRange s d x hn]
  rfl

/-- `sub_n` of R13: the difference with its borrow and overflow. -/
theorem subN_eq (hn : 0 < n) :
    subN s d x = (d - s - BitVec.ofNat n x.toNat, (differenceFlags s d x).c, (differenceFlags s d x).v) := by
  rw [subN, subOverflow_eq_outOfRange s d x hn]
  rfl

theorem aluAdd_eq (hn : 0 < n) : aluAdd f s d = (s + d, sumFlags s d false) := by
  rw [aluAdd, addN_eq s d false hn]
  simp [sumFlags]

theorem aluSub_eq (hn : 0 < n) : aluSub f s d = (d - s, differenceFlags s d false) := by
  rw [aluSub, subN_eq s d false hn]
  simp [differenceFlags]

/-- The default of ADDX_Z_LITERAL (D7): Z is only cleared. -/
theorem extendZ_eq (old zero : Bool) : extendZ old zero = (old && zero) := rfl

theorem aluAddx_eq (hn : 0 < n) :
    aluAddx f s d =
      (s + d + BitVec.ofNat n f.x.toNat,
        { sumFlags s d f.x with z := f.z && s + d + BitVec.ofNat n f.x.toNat == 0 }) := by
  rw [aluAddx, addN_eq s d f.x hn]
  rfl

theorem aluSubx_eq (hn : 0 < n) :
    aluSubx f s d =
      (d - s - BitVec.ofNat n f.x.toNat,
        { differenceFlags s d f.x with z := f.z && d - s - BitVec.ofNat n f.x.toNat == 0 }) := by
  rw [aluSubx, subN_eq s d f.x hn]
  rfl

end Operations

end Machine
end Sys2Proof
end

section
/-! SUPPORT. The shapes of instructions over an effective address, completed once for every operation (20_memory.md R74,
R75): an instruction of a shape completes where its operand can be accessed. -/

namespace Sys2Proof.Machine

/-- An instruction that reaches its destination with memory as it was, and then stores there and sets the flags, changes
the bytes of its destination alone. -/
theorem sameMemoryBut_stored {s b : State} (hmem : b.mem = s.mem) {sz : Size} {ea : EA} {v : BitVec sz.bits} {f : Ccr} :
    SameMemoryBut sz (b.eaLoc sz ea) s (s.retire ((b.stored sz ea v).setCcr f)) := by
  intro k hk
  have hput := sameMemoryBut_put (b.afterEa sz ea) sz (b.eaLoc sz ea) v k hk
  simpa [State.stored, hmem] using hput

theorem State.readEa_of_canRead {s : State} {sz : Size} {ea : EA} (h : s.canRead sz ea = true) :
    s.readEa sz ea = .done (s.operand sz ea) (s.afterEa sz ea) := by
  obtain ⟨hfetch, hread⟩ := Bool.and_eq_true_iff.mp h
  exact State.readEa_done hfetch hread

theorem State.modifyEa_of_canModify {s : State} {sz : Size} {ea : EA}
    {f : Ccr → BitVec sz.bits → BitVec sz.bits × Ccr} (h : s.canModify sz ea = true) :
    s.modifyEa sz ea f =
      .done () ((s.stored sz ea (f s.sr.ccr (s.target sz ea)).1).setCcr (f s.sr.ccr (s.target sz ea)).2) := by
  obtain ⟨hread, hwrite⟩ := Bool.and_eq_true_iff.mp h
  obtain ⟨hfetch, hread⟩ := Bool.and_eq_true_iff.mp hread
  exact State.modifyEa_done hfetch hread hwrite

section Shapes

variable {alu : ∀ {n : Nat}, Alu n} {res : ∀ {n : Nat}, BitVec n → BitVec n → BitVec n}
  {flags : ∀ {n : Nat}, Ccr → BitVec n → BitVec n → Ccr}

/-- An operation on operands of every width computes this result and these flags. -/
def Computes (alu : ∀ {n : Nat}, Alu n) (res : ∀ {n : Nat}, BitVec n → BitVec n → BitVec n)
    (flags : ∀ {n : Nat}, Ccr → BitVec n → BitVec n → Ccr) : Prop :=
  ∀ {n : Nat}, 0 < n → ∀ (f : Ccr) (s d : BitVec n), alu f s d = (res s d, flags f s d)

theorem Computes.eq (halu : Computes alu res flags) {n : Nat} (hn : 0 < n) (f : Ccr) (s d : BitVec n) :
    alu f s d = (res s d, flags f s d) :=
  halu hn f s d

theorem Computes.toDn (halu : Computes alu res flags) {mk : Size → EA → RegNum → Instr}
    (hexec : ∀ sz ea r s, exec (mk sz ea r) s = finish s (s.pastOpWord.eaToDn alu sz ea r)) :
    CompletesToDn mk res flags := by
  intro sz ea r s hread
  have hlow : (s.pastOpWord.afterEa sz ea).lowD sz r = s.lowD sz r := by simp [State.lowD, State.readD]
  refine ⟨?_, fun k => by simp⟩
  rw [hexec, State.eaToDn, State.readEa_of_canRead hread, Eff.bind_done, hlow, halu.eq sz.bits_pos]
  simp

theorem Computes.toEa (halu : Computes alu res flags) {mk : Size → RegNum → EA → Instr}
    (hexec : ∀ sz r ea s, exec (mk sz r ea) s = finish s (s.pastOpWord.dnToEa alu sz r ea)) :
    CompletesToEa mk res flags := by
  intro sz r ea s hmodify
  refine ⟨?_, sameMemoryBut_stored (State.pastOpWord_mem s)⟩
  rw [hexec, State.dnToEa, State.modifyEa_of_canModify hmodify, halu.eq sz.bits_pos]
  rfl

theorem Computes.imm (halu : Computes alu res flags) {mk : Size → Long → EA → Instr}
    (hexec : ∀ sz imm ea s, exec (mk sz imm ea) s = finish s (s.pastOpWord.immToEa alu sz imm ea)) :
    CompletesImm mk res flags := by
  intro sz imm ea s hfetch hmodify
  refine ⟨?_, sameMemoryBut_stored (by simp)⟩
  rw [hexec, State.immToEa, State.fetchExt_done hfetch, Eff.bind_done, State.modifyEa_of_canModify hmodify,
    halu.eq sz.bits_pos]
  rfl

theorem Computes.quick (halu : Computes alu res flags) {mk : BitVec 3 → Size → EA → Instr}
    (hexec : ∀ data sz ea s, exec (mk data sz ea) s = finish s (s.pastOpWord.quickToEa alu data sz ea)) :
    CompletesQuick mk res flags := by
  intro data sz ea s hmodify
  refine ⟨?_, sameMemoryBut_stored (State.pastOpWord_mem s)⟩
  rw [hexec, State.quickToEa, State.modifyEa_of_canModify hmodify, halu.eq sz.bits_pos]
  rfl

end Shapes

theorem computes_add : Computes aluAdd (· + ·) (fun _ s d => sumFlags s d false) := fun hn f s d => aluAdd_eq f s d hn

theorem computes_sub : Computes aluSub (fun s d => d - s) (fun _ s d => differenceFlags s d false) :=
  fun hn f s d => aluSub_eq f s d hn

/-! ### A data register as an effective address -/

theorem State.afterEa_dn (s : State) (sz : Size) (r : RegNum) : s.afterEa sz (.dn r) = s := by
  simp [State.afterEa, State.afterExt, State.eaStep, eaExt]

theorem State.canModify_dn (s : State) (sz : Size) (r : RegNum) : s.canModify sz (.dn r) = true := rfl

theorem State.operand_dn (s : State) (sz : Size) (r : RegNum) : s.operand sz (.dn r) = s.lowD sz r := by
  rw [State.operand, State.afterEa_dn]; rfl

theorem State.target_dn (s : State) (sz : Size) (r : RegNum) : s.target sz (.dn r) = s.lowD sz r := by
  rw [State.target, State.afterEa_dn]; rfl

theorem State.stored_dn (s : State) (sz : Size) (r : RegNum) (v : BitVec sz.bits) :
    s.stored sz (.dn r) v = s.writeLowD sz r v := by
  rw [State.stored, State.afterEa_dn]; rfl

/-! ### The extended instructions -/

/-- Between registers nothing is accessed, so that the instruction completes in every state. -/
theorem completes_extended_regs {i : Instr} {alu : ∀ {n : Nat}, Alu n} {sz : Size} {ry rx : RegNum} {s : State}
    (hexec : exec i s = finish s (s.pastOpWord.extended alu sz .regs ry rx)) :
    let out := alu s.sr.ccr (s.lowD sz ry) (s.lowD sz rx)
    Completes i s (s.retire ((s.pastOpWord.writeLowD sz rx out.1).setCcr out.2)) := by
  refine ⟨?_, fun k => by simp⟩
  rw [hexec, State.extended, State.modifyEa_of_canModify (s.pastOpWord.canModify_dn sz rx), State.stored_dn,
    State.target_dn]
  rfl

/-- In memory the source is read first, and the destination is accessed in the state where the source's register is
decremented (R127, R75). -/
theorem completes_extended_predec {i : Instr} {alu : ∀ {n : Nat}, Alu n} {sz : Size} {ry rx : RegNum} {s : State}
    (hexec : exec i s = finish s (s.pastOpWord.extended alu sz .predec ry rx))
    (hread : s.pastOpWord.canRead sz (.predec ry) = true)
    (hmodify : (s.pastOpWord.afterEa sz (.predec ry)).canModify sz (.predec rx) = true) :
    let b := s.pastOpWord.afterEa sz (.predec ry)
    let out := alu s.sr.ccr (s.pastOpWord.operand sz (.predec ry)) (b.target sz (.predec rx))
    let t := s.retire ((b.stored sz (.predec rx) out.1).setCcr out.2)
    exec i s = .next t ∧ SameMemoryBut sz (b.eaLoc sz (.predec rx)) s t := by
  refine ⟨?_, sameMemoryBut_stored (by simp)⟩
  rw [hexec, State.extended, State.readEa_of_canRead hread, Eff.bind_done, State.modifyEa_of_canModify hmodify,
    State.afterEa_sr]
  rfl

end Sys2Proof.Machine
end

section
/-! SUPPORT. Address registers as operands (40_add_sub.md R123, R124, R129, R130). -/

namespace Sys2Proof.Machine

theorem State.readA_afterExt (s : State) (k : Nat) (r : RegNum) : (s.afterExt k).readA r = s.readA r := by
  cases r <;> rfl

theorem State.readA_pastOpWord (s : State) (r : RegNum) : s.pastOpWord.readA r = s.readA r := by
  cases r <;> rfl

/-- An effective address leaves an address register that it does not step. -/
theorem State.readA_eaStep_of_not_steps {s : State} {sz : Size} {ea : EA} {r : RegNum} (h : eaSteps r ea = false) :
    (s.eaStep sz ea).readA r = s.readA r := by
  have other {q : RegNum} (hq : decide (q = r) = false) (v : Long) : (s.writeA q v).readA r = s.readA r :=
    State.readA_writeA_other s q r v fun hr => of_decide_eq_false hq hr.symm
  cases ea with
  | postinc q => exact other h _
  | predec q => exact other h _
  | _ => rfl

/-- The value that ADDA and SUBA take from their destination register. -/
theorem State.dataA_afterEa {s : State} {sz : Size} {ea : EA} {r : RegNum} (h : eaSteps r ea = false) :
    (s.afterEa sz ea).dataA r ea = s.readA r := by
  rw [State.dataA, h, State.afterEa, State.readA_eaStep_of_not_steps h, State.readA_afterExt]
  rfl

theorem completes_eaToAn {i : Instr} {op : Long → Long → Long} {sz : Size} {ea : EA} {r : RegNum} {s : State}
    (hexec : exec i s = finish s (s.pastOpWord.eaToAn op sz ea r)) (hread : s.pastOpWord.canRead sz ea = true) :
    let b := s.pastOpWord.afterEa sz ea
    Completes i s (s.retire (b.writeA r (op (b.dataA r ea) ((s.pastOpWord.operand sz ea).signExtend 32)))) := by
  refine ⟨?_, fun k => by simp⟩
  rw [hexec, State.eaToAn, State.readEa_of_canRead hread]
  rfl

/-- An address register replaced: ADDQ and SUBQ to an address register access nothing. -/
theorem completes_writeA {i : Instr} {r : RegNum} {v : Long} {s : State}
    (hexec : exec i s = finish s (.done () (s.pastOpWord.writeA r v))) :
    Completes i s (s.retire (s.pastOpWord.writeA r v)) :=
  ⟨hexec, fun k => by simp⟩

end Sys2Proof.Machine
end

section
/-! SUPPORT. Instructions that write no flag, also where they end in an exception. -/

namespace Sys2Proof.Machine

/-- A part of an instruction begun in `s` that writes no part of SR, whether it is done or its access fails. -/
def KeepsSr {α : Type} (s : State) (e : Eff α) : Prop := e.Leaves fun t => t.sr = s.sr

theorem KeepsSr.bind {α β : Type} {s : State} {e : Eff α} {f : α → State → Eff β} (he : KeepsSr s e)
    (hf : ∀ v t, KeepsSr t (f v t)) : KeepsSr s (e.bind f) :=
  Eff.leaves_bind_same he fun v t ht => (hf v t).mono fun _ hu => hu.trans ht

theorem KeepsSr.access (s : State) (space : Space) (dir : Direction) (addr : Long) (nb : Nat) :
    KeepsSr s (s.access space dir addr nb) := by
  cases h : s.access space dir addr nb with
  | done u t => exact congrArg State.sr (State.access_eq_done h).2
  | abort x t => exact congrArg State.sr (State.access_eq_abort h).1
  | refuse r => trivial

theorem KeepsSr.fetchExt (s : State) (k : Nat) : KeepsSr s (s.fetchExt k) := by
  induction k generalizing s with
  | zero => exact rfl
  | succ k ih => exact (KeepsSr.access s .program .read s.pc 2).bind fun _ t => ih { t with pc := t.pc + 2 }

theorem KeepsSr.evalEa (s : State) (sz : Size) (ea : EA) : KeepsSr s (s.evalEa sz ea) :=
  (KeepsSr.fetchExt s _).bind fun _ t => t.eaStep_sr sz ea

theorem KeepsSr.memRead (s : State) (use : Config.ReadUse) (space : Space) (addr : Long) (nb : Nat) :
    KeepsSr s (s.memRead use space addr nb) :=
  (KeepsSr.access s space .read addr nb).bind fun _ _ => rfl

theorem KeepsSr.readLoc (s : State) (use : Config.ReadUse) (sz : Size) (l : Loc) : KeepsSr s (s.readLoc use sz l) := by
  cases l with
  | mem a space => exact (KeepsSr.memRead s use space a _).bind fun _ _ => rfl
  | dreg r => exact rfl
  | areg r => exact rfl
  | imm v => exact rfl

theorem KeepsSr.readEa (s : State) (sz : Size) (ea : EA) : KeepsSr s (s.readEa sz ea) :=
  (KeepsSr.evalEa s sz ea).bind fun l t => KeepsSr.readLoc t .source sz l

theorem KeepsSr.writeA (s : State) (r : RegNum) (v : Long) : KeepsSr s (.done () (s.writeA r v)) :=
  s.writeA_sr r v

theorem KeepsSr.loadAddress (s : State) (r : RegNum) (l : Loc) : KeepsSr s (s.loadAddress r l) := by
  cases l with
  | mem a space => exact KeepsSr.writeA s r a
  | dreg q => trivial
  | areg q => trivial
  | imm v => trivial

theorem KeepsSr.eaToAn (s : State) (op : Long → Long → Long) (sz : Size) (ea : EA) (r : RegNum) :
    KeepsSr s (s.eaToAn op sz ea r) :=
  (KeepsSr.readEa s sz ea).bind fun _ t => KeepsSr.writeA t r _

/-- An instruction whose parts write no flag writes none where it ends in an exception either (60_exceptions.md
R256). -/
theorem KeepsSr.exec_ccr {i : Instr} {s t : State} {e : Eff Unit} (he : KeepsSr s.pastOpWord e)
    (hexec : exec i s = finish s e) (h : exec i s = .next t) : t.sr.ccr = s.sr.ccr := by
  rcases finish_next (hexec ▸ h) with ⟨u, rfl, rfl⟩ | ⟨x, u, rfl, hentry⟩
  · exact congrArg StatusReg.ccr he
  · obtain ⟨htaken, _⟩ := enterGroup0_next hentry
    exact htaken.ccr.trans (congrArg StatusReg.ccr he)

end Sys2Proof.Machine
end

section
/-! SUPPORT. Long words and 64-bit numbers in two registers. -/

namespace Sys2Proof.Machine

theorem mergeLow_long (old v : Long) : mergeLow old v = v := by
  simp [mergeLow]

theorem State.lowD_long (s : State) (r : RegNum) : s.lowD .long r = s.readD r :=
  BitVec.setWidth_eq _

theorem State.writeLowD_long_d (s : State) (r : RegNum) (v : BitVec Size.long.bits) :
    (s.writeLowD .long r v).d = s.d.set r v :=
  congrArg (s.d.set r) (mergeLow_long _ v)

/-- The carry out of a long word, as a number. -/
theorem carry_toNat (b d : Long) :
    (decide (2 ^ 32 ≤ b.toNat + d.toNat)).toNat = (b.toNat + d.toNat) / 2 ^ 32 := by
  by_cases h : 2 ^ 32 ≤ b.toNat + d.toNat
  · rw [decide_eq_true h, Bool.toNat_true]
    omega
  · rw [decide_eq_false h, Bool.toNat_false]
    omega

/-- Addition in two halves: the carry of the low half enters the high one. -/
theorem append_add_append (a b c d : Long) :
    ((a ++ b) + (c ++ d) : BitVec 64) =
      (a + c + BitVec.ofNat 32 (decide (2 ^ 32 ≤ b.toNat + d.toNat)).toNat) ++ (b + d) := by
  apply BitVec.eq_of_toNat_eq
  rw [carry_toNat]
  simp only [BitVec.toNat_add, Laws.toNat_append_eq_add, BitVec.toNat_ofNat]
  omega

/-- The carry of the whole is that of the high half. -/
theorem append_carry_iff (a b c d : Long) :
    2 ^ 64 ≤ (a ++ b).toNat + (c ++ d).toNat ↔
      2 ^ 32 ≤ a.toNat + c.toNat + (decide (2 ^ 32 ≤ b.toNat + d.toNat)).toNat := by
  rw [carry_toNat]
  simp only [Laws.toNat_append_eq_add]
  omega

theorem append_eq_zero_iff (a b : Long) : a ++ b = (0 : BitVec 64) ↔ b = 0 ∧ a = 0 := by
  simp only [BitVec.toNat_eq, Laws.toNat_append_eq_add, BitVec.ofNat_eq_ofNat, BitVec.toNat_ofNat, Nat.zero_mod]
  omega

/-- What ADD.L between data registers leaves in the data registers and the flags (R121). -/
theorem exec_addLong_registers (q r : RegNum) (s : State) :
    ∃ t, exec (.addToDn .long (.dn q) r) s = .next t ∧ t.d = s.d.set r (s.readD q + s.readD r) ∧
      t.sr.ccr = sumFlags (s.readD q) (s.readD r) false := by
  have h := (computes_add.toDn (mk := .addToDn) (fun _ _ _ _ => rfl) .long (.dn q) r s rfl).1
  refine ⟨_, h, ?_, ?_⟩
  · rw [State.operand_dn, State.afterEa_dn, State.lowD_long, State.lowD_long, State.retire_d, State.setCcr_d]
    exact State.writeLowD_long_d _ r _
  · rw [State.operand_dn, State.lowD_long, State.lowD_long]
    rfl

/-- What ADDX.L between data registers leaves there (R127). -/
theorem exec_addxLong_registers (q r : RegNum) (s : State) :
    let sum := s.readD q + s.readD r + BitVec.ofNat 32 s.sr.ccr.x.toNat
    ∃ t, exec (.addx .long .regs q r) s = .next t ∧ t.d = s.d.set r sum ∧
      t.sr.ccr = { sumFlags (s.readD q) (s.readD r) s.sr.ccr.x with z := s.sr.ccr.z && sum == 0 } := by
  have h := (completes_extended_regs (i := .addx .long .regs q r) (s := s) (alu := aluAddx) rfl).1
  rw [aluAddx_eq _ _ _ (Size.bits_pos .long), State.lowD_long, State.lowD_long] at h
  exact ⟨_, h, State.writeLowD_long_d _ r _, rfl⟩

end Sys2Proof.Machine
end

section
/-! The statements of 40_add_sub.md. -/

namespace Sys2Proof.Proofs

open Sys2Proof.Machine

/-- Settles O8: ADD in each of its four shapes. -/
theorem addCompletes : Obligations.AddCompletes :=
  ⟨computes_add.toDn fun _ _ _ _ => rfl, computes_add.toEa fun _ _ _ _ => rfl, computes_add.imm fun _ _ _ _ => rfl,
    computes_add.quick fun _ _ _ _ => rfl⟩

/-- Settles O9: SUB in each of its four shapes. -/
theorem subtractCompletes : Obligations.SubtractCompletes :=
  ⟨computes_sub.toDn fun _ _ _ _ => rfl, computes_sub.toEa fun _ _ _ _ => rfl, computes_sub.imm fun _ _ _ _ => rfl,
    computes_sub.quick fun _ _ _ _ => rfl⟩

/-- Settles O11: the register's own value is free only where the source's mode steps it. -/
theorem addressArithmeticCompletes : Obligations.AddressArithmeticCompletes := by
  constructor
  · intro sz ea r s hread
    refine ⟨(s.pastOpWord.afterEa sz ea).dataA r ea, fun hsteps => ?_, completes_eaToAn rfl hread,
      completes_eaToAn rfl hread⟩
    rw [State.dataA_afterEa hsteps, State.readA_pastOpWord]
  · exact fun data sz r s => ⟨completes_writeA rfl, completes_writeA rfl⟩

/-- Settles O12: between registers ADDX and SUBX complete in every state, with the result and flags of their
operation. -/
theorem extendedRegistersComplete : Obligations.ExtendedRegistersComplete := by
  intro sz ry rx s
  have hadd := completes_extended_regs (i := .addx sz .regs ry rx) (s := s) (alu := aluAddx) rfl
  have hsub := completes_extended_regs (i := .subx sz .regs ry rx) (s := s) (alu := aluSubx) rfl
  rw [aluAddx_eq _ _ _ sz.bits_pos] at hadd
  rw [aluSubx_eq _ _ _ sz.bits_pos] at hsub
  exact ⟨hadd, hsub⟩

/-- Settles O13: the source is read, then the destination changed, in the state where the source's register is
decremented. -/
theorem extendedMemoryCompletes : Obligations.ExtendedMemoryCompletes := by
  intro sz ry rx s hread hmodify
  have hadd := completes_extended_predec (i := .addx sz .predec ry rx) (alu := aluAddx) rfl hread hmodify
  have hsub := completes_extended_predec (i := .subx sz .predec ry rx) (alu := aluSubx) rfl hread hmodify
  simp only [aluAddx_eq _ _ _ sz.bits_pos] at hadd
  simp only [aluSubx_eq _ _ _ sz.bits_pos] at hsub
  exact ⟨hadd.1, hadd.2, hsub⟩

/-- Settles O14: the carry and Z that ADD.L leaves enter ADDX.L as X and the kept Z. -/
theorem sixtyFourBitAddition : Obligations.SixtyFourBitAddition := by
  intro s alo ahi blo bhi hahi hblo
  obtain ⟨t, hadd, htd, htf⟩ := exec_addLong_registers alo blo s
  obtain ⟨u, haddx, hud, huf⟩ := exec_addxLong_registers ahi bhi t
  have ht {r : RegNum} (h : r ≠ blo) : t.readD r = s.readD r := by
    rw [State.readD, htd, DataRegs.get_set_other _ _ _ _ h, State.readD]
  have hlow : u.readD blo = s.readD alo + s.readD blo := by
    rw [State.readD, hud, DataRegs.get_set_other _ _ _ _ hblo, htd, DataRegs.get_set_same]
  have hx : t.sr.ccr.x = decide (2 ^ 32 ≤ (s.readD alo).toNat + (s.readD blo).toNat) := by
    rw [htf]; rfl
  have hz : t.sr.ccr.z = (s.readD alo + s.readD blo == 0) := by
    rw [htf]; simp [sumFlags]
  rw [ht hahi, ht hblo.symm, hx, hz] at huf
  have hhigh : u.readD bhi = s.readD ahi + s.readD bhi +
      BitVec.ofNat 32 (decide (2 ^ 32 ≤ (s.readD alo).toNat + (s.readD blo).toNat)).toNat := by
    rw [State.readD, hud, DataRegs.get_set_same, ht hahi, ht hblo.symm, hx]
  refine ⟨t, u, hadd, haddx, ?_, ?_, ?_, ?_, fun r hrlo hrhi => ?_⟩
  · rw [hlow, hhigh, append_add_append]
  · rw [huf]
    exact decide_eq_decide.mpr (append_carry_iff _ _ _ _).symm
  · rw [huf]
    rfl
  · rw [huf, ← hhigh, ← hlow, decide_eq_decide.mpr (append_eq_zero_iff _ _), Bool.decide_and]
    rfl
  · rw [State.readD, hud, DataRegs.get_set_other _ _ _ _ hrhi]
    exact ht hrlo

/-- Settles O56: each of the seven is parts that keep SR, and an exception's entry keeps the flags. -/
theorem addressInstructionsKeepFlags : Obligations.AddressInstructionsKeepFlags := by
  intro sz ea r data c disp i s t hi h
  have keeps {e : Eff Unit} (he : KeepsSr s.pastOpWord e) (hexec : exec i s = finish s e) : t.sr.ccr = s.sr.ccr :=
    he.exec_ccr hexec h
  simp only [List.mem_cons, List.not_mem_nil, or_false] at hi
  rcases hi with hmovea | hlea | hbcc | hadda | hsuba | haddq | hsubq
  · subst hmovea
    exact keeps ((KeepsSr.readEa _ sz ea).bind fun _ u => KeepsSr.writeA u r _) rfl
  · subst hlea
    exact keeps ((KeepsSr.evalEa _ .long ea).bind fun l u => KeepsSr.loadAddress u r l) rfl
  · subst hbcc
    refine keeps ((KeepsSr.fetchExt _ (branchExt disp)).bind fun _ u => ?_) rfl
    cases condHolds s.sr.ccr c <;> exact rfl
  · subst hadda
    exact keeps (KeepsSr.eaToAn _ _ sz ea r) rfl
  · subst hsuba
    exact keeps (KeepsSr.eaToAn _ _ sz ea r) rfl
  · subst haddq
    exact keeps (KeepsSr.writeA _ r _) rfl
  · subst hsubq
    exact keeps (KeepsSr.writeA _ r _) rfl

end Sys2Proof.Proofs
end

section
/-! SUPPORT. CLR and EXT completed (41_clr_ext.md R150 to R154). -/

namespace Sys2Proof.Machine

/-- The read that CLR discards leaves nothing behind where it can be made (R150). -/
theorem State.discardRead_done {s : State} {sz : Size} {l : Loc} (h : s.readable sz l = true) :
    s.discardRead sz l = .done () s := by
  cases l with
  | mem a space => rw [State.discardRead, State.readLoc_done h, Eff.bind_done]
  | dreg r => rfl
  | areg r => rfl
  | imm v => rfl

@[simp] theorem State.put_sr (s : State) (sz : Size) (l : Loc) (v : BitVec sz.bits) : (s.put sz l v).sr = s.sr := by
  cases l with
  | dreg r => exact State.writeLowD_sr s sz r v
  | areg r => exact State.writeA_sr s r _
  | mem a space => rfl
  | imm w => rfl

theorem exec_clr_of_canModify {sz : Size} {ea : EA} {s : State} (h : s.pastOpWord.canModify sz ea = true) :
    exec (.clr sz ea) s = .next (s.retire ((s.pastOpWord.stored sz ea 0).setCcr (clrCcr s.sr.ccr))) := by
  obtain ⟨hcanRead, hwrite⟩ := Bool.and_eq_true_iff.mp h
  obtain ⟨hfetch, hread⟩ := Bool.and_eq_true_iff.mp hcanRead
  have hbus := State.afterEa_busMap s.pastOpWord sz ea
  rw [← State.readable_congr hbus] at hread
  rw [← State.writable_congr hbus] at hwrite
  calc exec (.clr sz ea) s
      = finish s ((s.pastOpWord.evalEa sz ea).bind fun l t => (t.discardRead sz l).bind fun _ t =>
          (t.writeLoc sz l 0).bind fun _ t => .done () (t.setCcr (clrCcr t.sr.ccr))) := rfl
    _ = .next (s.retire ((s.pastOpWord.stored sz ea 0).setCcr (clrCcr (s.pastOpWord.stored sz ea 0).sr.ccr))) := by
        rw [State.evalEa_done hfetch, Eff.bind_done, State.discardRead_done hread, Eff.bind_done,
          State.writeLoc_done hwrite, Eff.bind_done, finish_done, State.stored]
    _ = .next (s.retire ((s.pastOpWord.stored sz ea 0).setCcr (clrCcr s.sr.ccr))) := by
        rw [State.stored, State.put_sr, State.afterEa_sr, State.pastOpWord_sr]

/-- A data register replaced with the flags of its value: nothing is accessed, so that EXT completes in every state. -/
theorem completes_putD {i : Instr} {sz : Size} {r : RegNum} {v : BitVec sz.bits} {s : State}
    (hexec : exec i s = finish s (.done () (s.pastOpWord.putD sz r v))) :
    Completes i s (s.retire ((s.pastOpWord.writeLowD sz r v).setCcr (logicCcr s.sr.ccr v))) :=
  ⟨hexec, fun k => by simp⟩

theorem State.writeLowD_long (s : State) (r : RegNum) (v : Long) : s.writeLowD .long r v = s.writeD r v :=
  congrArg (s.writeD r) (mergeLow_long _ v)

end Sys2Proof.Machine
end

section
/-! The statements of 41_clr_ext.md. -/

namespace Sys2Proof.Proofs

open Sys2Proof.Machine

/-- Settles O18: the operand is read, its value discarded, and zero stored at the same address. -/
theorem clearCompletes : Obligations.ClearCompletes :=
  fun _ _ s hmodify => ⟨exec_clr_of_canModify hmodify, sameMemoryBut_stored (State.pastOpWord_mem s)⟩

/-- Settles O19: the result is the operand's sign extension, and a long result is the whole register. -/
theorem signExtendCompletes : Obligations.SignExtendCompletes := by
  intro r s
  have hword : Completes (.extW r) s _ := completes_putD (sz := .word) rfl
  have hlong : Completes (.extL r) s _ := completes_putD (sz := .long) rfl
  rw [State.writeLowD_long] at hlong
  exact ⟨⟨(s.lowD .byte r).signExtend 16, BitVec.toInt_signExtend_of_le (by decide), hword⟩,
    ⟨(s.lowD .word r).signExtend 32, BitVec.toInt_signExtend_of_le (by decide), hlong⟩⟩

end Sys2Proof.Proofs
end

section
/-! SUPPORT. Words multiplied and divided as numbers (42_mul_div.md R160, R162, R164, R165): a product has 32 bits, and
where the quotient fits its word the remainder does too. -/

namespace Sys2Proof.Machine

/-! ### Products -/

/-- The product of MULU. -/
def unsignedProduct (m d : Word) : Long := BitVec.ofNat 32 (m.toNat * d.toNat)

/-- The product of MULS. -/
def signedProduct (m d : Word) : Long := BitVec.ofInt 32 (m.toInt * d.toInt)

theorem toNat_unsignedProduct (m d : Word) : (unsignedProduct m d).toNat = m.toNat * d.toNat :=
  Nat.mod_eq_of_lt (Nat.mul_lt_mul'' (c := 2 ^ 16) (d := 2 ^ 16) m.isLt d.isLt)

theorem toInt_signedProduct (m d : Word) : (signedProduct m d).toInt = m.toInt * d.toInt := by
  have hlo := BitVec.le_toInt_mul_toInt (x := m) (y := d)
  have hhi := BitVec.toInt_mul_toInt_le (x := m) (y := d)
  exact BitVec.toInt_ofInt_eq_self (by decide) (by omega) (by omega)

/-! ### Unsigned quotients and remainders -/

section Unsigned

variable {m : Word} {d : Long}

/-- The quotient of DIVU. -/
def unsignedQuotient (m : Word) (d : Long) : Word := BitVec.ofNat 16 (d.toNat / m.toNat)

/-- The remainder of DIVU. -/
def unsignedRemainder (m : Word) (d : Long) : Word := BitVec.ofNat 16 (d.toNat % m.toNat)

theorem word_toNat_pos (hm : m ≠ 0) : 0 < m.toNat :=
  Nat.pos_of_ne_zero fun h => hm (BitVec.eq_of_toNat_eq h)

/-- The quotient has 16 bits exactly where the upper word of the dividend is below the divisor. -/
theorem unsigned_fits_iff (hm : m ≠ 0) : d.toNat / m.toNat ≤ 0xFFFF ↔ (d.extractLsb' 16 16).toNat < m.toNat := by
  have hhigh : (d.extractLsb' 16 16).toNat = d.toNat / 65536 := by
    rw [Laws.toNat_extractLsb'_eq]
    omega
  calc d.toNat / m.toNat ≤ 0xFFFF
      ↔ d.toNat / m.toNat < 65536 := Nat.lt_succ_iff.symm
    _ ↔ d.toNat < 65536 * m.toNat := Nat.div_lt_iff_lt_mul (word_toNat_pos hm)
    _ ↔ d.toNat / 65536 < m.toNat := by rw [Nat.div_lt_iff_lt_mul (by decide), Nat.mul_comm]
    _ ↔ (d.extractLsb' 16 16).toNat < m.toNat := by rw [hhigh]

theorem toNat_unsignedQuotient (hfits : d.toNat / m.toNat ≤ 0xFFFF) :
    (unsignedQuotient m d).toNat = d.toNat / m.toNat :=
  Nat.mod_eq_of_lt (Nat.lt_succ_of_le hfits)

theorem toNat_unsignedRemainder (hm : m ≠ 0) : (unsignedRemainder m d).toNat = d.toNat % m.toNat :=
  Nat.mod_eq_of_lt ((Nat.mod_lt _ (word_toNat_pos hm)).trans m.isLt)

theorem unsignedQuotient_eq_zero_iff (hfits : d.toNat / m.toNat ≤ 0xFFFF) :
    ((d.toNat / m.toNat : Nat) : Int) = 0 ↔ unsignedQuotient m d = 0 := by
  rw [Int.natCast_eq_zero, BitVec.toNat_eq, toNat_unsignedQuotient hfits]
  rfl

/-- The dividend is quotient times divisor plus remainder (R164). -/
theorem unsigned_dividend (hm : m ≠ 0) (hfits : d.toNat / m.toNat ≤ 0xFFFF) :
    d.toNat = (unsignedQuotient m d).toNat * m.toNat + (unsignedRemainder m d).toNat := by
  rw [toNat_unsignedQuotient hfits, toNat_unsignedRemainder hm, Nat.div_add_mod']

theorem unsignedRemainder_lt (hm : m ≠ 0) : (unsignedRemainder m d).toNat < m.toNat := by
  rw [toNat_unsignedRemainder hm]
  exact Nat.mod_lt _ (word_toNat_pos hm)

end Unsigned

/-! ### Signed quotients and remainders -/

section Signed

variable {m : Word} {d : Long} {q : Int}

/-- The quotient of DIVS, rounded toward zero. -/
def signedQuotient (m : Word) (d : Long) : Word := BitVec.ofInt 16 (d.toInt.tdiv m.toInt)

/-- The remainder of DIVS. -/
def signedRemainder (m : Word) (d : Long) : Word := BitVec.ofInt 16 (d.toInt.tmod m.toInt)

/-- DIVS's test of the quotient is the range of a signed word (00_scope.md R13). -/
theorem signed_fits_eq (q : Int) : (decide (-32768 ≤ q) && decide (q ≤ 32767)) = !outOfRange 16 q := by
  rw [Bool.eq_iff_iff]
  simp only [outOfRange, Bool.and_eq_true, decide_eq_true_eq, Bool.not_eq_true', Bool.or_eq_false_iff,
    decide_eq_false_iff_not]
  omega

theorem sub_tdiv_mul (a b : Int) : a - a.tdiv b * b = a.tmod b := by
  rw [Int.tmod_def, Int.mul_comm]

theorem toInt_ofInt_of_inRange (h : outOfRange 16 q = false) : (BitVec.ofInt 16 q).toInt = q := by
  simp only [outOfRange, Bool.or_eq_false_iff, decide_eq_false_iff_not] at h
  exact BitVec.toInt_ofInt_eq_self (by decide) (by omega) (by omega)

theorem natAbs_tmod_word_lt (hm : m ≠ 0) : (d.toInt.tmod m.toInt).natAbs < m.toInt.natAbs := by
  have hm' : m.toInt ≠ 0 := fun h => hm (BitVec.toInt_inj.mp h)
  rw [Int.natAbs_tmod]
  exact Nat.mod_lt _ (Int.natAbs_pos.mpr hm')

theorem toInt_signedQuotient (h : outOfRange 16 (d.toInt.tdiv m.toInt) = false) :
    (signedQuotient m d).toInt = d.toInt.tdiv m.toInt :=
  toInt_ofInt_of_inRange h

/-- Smaller than its divisor, a remainder is always a signed word. -/
theorem toInt_signedRemainder (hm : m ≠ 0) : (signedRemainder m d).toInt = d.toInt.tmod m.toInt := by
  have hlt := natAbs_tmod_word_lt (d := d) hm
  have hlo := m.le_toInt
  have hhi := m.toInt_lt
  exact BitVec.toInt_ofInt_eq_self (by decide) (by omega) (by omega)

theorem signedQuotient_eq_zero_iff (h : outOfRange 16 (d.toInt.tdiv m.toInt) = false) :
    d.toInt.tdiv m.toInt = 0 ↔ signedQuotient m d = 0 := by
  rw [← BitVec.toInt_inj, toInt_signedQuotient h]
  rfl

/-- The dividend is quotient times divisor plus remainder (R165). -/
theorem signed_dividend (hm : m ≠ 0) (h : outOfRange 16 (d.toInt.tdiv m.toInt) = false) :
    d.toInt = (signedQuotient m d).toInt * m.toInt + (signedRemainder m d).toInt := by
  rw [toInt_signedQuotient h, toInt_signedRemainder hm, Int.tdiv_mul_add_tmod]

theorem natAbs_signedRemainder_lt (hm : m ≠ 0) : (signedRemainder m d).toInt.natAbs < m.toInt.natAbs := by
  rw [toInt_signedRemainder hm]
  exact natAbs_tmod_word_lt hm

/-- The remainder of a quotient rounded toward zero is zero or has the dividend's sign. -/
theorem signedRemainder_sign (hm : m ≠ 0) :
    signedRemainder m d = 0 ∨ ((signedRemainder m d).toInt < 0 ↔ d.toInt < 0) := by
  rw [← BitVec.toInt_inj, toInt_signedRemainder hm, show (0 : Word).toInt = 0 from rfl]
  rcases lt_or_ge d.toInt 0 with hneg | hpos
  · have hrem := Int.tmod_nonneg m.toInt (show 0 ≤ -d.toInt by omega)
    rw [Int.neg_tmod] at hrem
    omega
  · have hrem := Int.tmod_nonneg m.toInt hpos
    omega

end Signed

end Sys2Proof.Machine
end

section
/-! SUPPORT. The course of a multiplication and of a division whose source can be read (42_mul_div.md R160 to R165): a
product; a divisor of zero; a quotient that does not fit; a quotient and a remainder. -/

namespace Sys2Proof.Machine

/-- A multiplication reads its source and replaces a whole data register by the product (R160, R162). -/
theorem completes_product {i : Instr} {ea : EA} {r : RegNum} {product : Word → Word → Long} {s : State}
    (hexec : exec i s = finish s ((s.pastOpWord.readEa .word ea).bind fun v t =>
      .done () (t.putProduct r (product v (t.lowD .word r)))))
    (hread : s.pastOpWord.canRead .word ea = true) :
    let v := product (s.pastOpWord.operand .word ea) (s.lowD .word r)
    Completes i s (s.retire (((s.pastOpWord.afterEa .word ea).writeD r v).setCcr (logicCcr s.sr.ccr v))) := by
  have hlow : (s.pastOpWord.afterEa .word ea).lowD .word r = s.lowD .word r := by simp [State.lowD, State.readD]
  refine ⟨?_, fun k => by simp⟩
  rw [hexec, State.readEa_of_canRead hread, Eff.bind_done, hlow, finish_done, State.putProduct, State.afterEa_sr,
    State.pastOpWord_sr]

/-- An instruction is a division: its source is read, and is a zero divide or gives, with the data register, a quotient,
a remainder and whether the quotient fits. -/
def Divides (i : Instr) (ea : EA) (r : RegNum) (fits : Word → Long → Bool) (quotient remainder : Word → Long → Int) :
    Prop :=
  ∀ s, exec i s = finishWith s (s.pastOpWord.readEa .word ea) fun v t =>
    if v = 0 then zeroDivide s t
    else finishDivide s t r (fits v (t.readD r)) (quotient v (t.readD r)) (remainder v (t.readD r))

theorem divides_divu (ea : EA) (r : RegNum) :
    Divides (.divu ea r) ea r (fun v d => decide (d.toNat / v.toNat ≤ 0xFFFF)) (fun v d => (d.toNat / v.toNat : Nat))
      (fun v d => (d.toNat % v.toNat : Nat)) :=
  fun _ => rfl

theorem divides_divs (ea : EA) (r : RegNum) :
    Divides (.divs ea r) ea r (fun v d => !outOfRange 16 (d.toInt.tdiv v.toInt)) (fun v d => d.toInt.tdiv v.toInt)
      (fun v d => d.toInt.tmod v.toInt) := by
  have hmodel : Divides (.divs ea r) ea r
      (fun v d => decide (-32768 ≤ d.toInt.tdiv v.toInt) && decide (d.toInt.tdiv v.toInt ≤ 32767))
      (fun v d => d.toInt.tdiv v.toInt) (fun v d => d.toInt - d.toInt.tdiv v.toInt * v.toInt) := fun _ => rfl
  simpa only [signed_fits_eq, sub_tdiv_mul] using hmodel

section Divisions

variable {i : Instr} {ea : EA} {r : RegNum} {fits : Word → Long → Bool} {quotient remainder : Word → Long → Int}
  {s : State} {m : Word}

theorem Divides.exec_of_canRead (h : Divides i ea r fits quotient remainder)
    (hread : s.pastOpWord.canRead .word ea = true) (hsource : s.pastOpWord.operand .word ea = m) :
    exec i s =
      if m = 0 then zeroDivide s (s.pastOpWord.afterEa .word ea)
      else finishDivide s (s.pastOpWord.afterEa .word ea) r (fits m (s.readD r)) (quotient m (s.readD r))
        (remainder m (s.readD r)) := by
  have hreg : (s.pastOpWord.afterEa .word ea).readD r = s.readD r := by simp [State.readD]
  subst hsource
  rw [h, State.readEa_of_canRead hread, ← hreg]
  rfl

theorem Divides.exec_zero (h : Divides i ea r fits quotient remainder)
    (hread : s.pastOpWord.canRead .word ea = true) (hzero : s.pastOpWord.operand .word ea = 0) :
    exec i s = zeroDivide s (s.pastOpWord.afterEa .word ea) :=
  (h.exec_of_canRead hread hzero).trans (if_pos rfl)

/-- A quotient that fits: the remainder is the high word and the quotient the low word. -/
theorem Divides.completes {q rem : Word} (h : Divides i ea r fits quotient remainder)
    (hread : s.pastOpWord.canRead .word ea = true) (hsource : s.pastOpWord.operand .word ea = m) (hm : m ≠ 0)
    (hfits : fits m (s.readD r) = true) (hq : BitVec.ofInt 16 (quotient m (s.readD r)) = q)
    (hrem : BitVec.ofInt 16 (remainder m (s.readD r)) = rem) (hzero : quotient m (s.readD r) = 0 ↔ q = 0) :
    Completes i s (s.retire (((s.pastOpWord.afterEa .word ea).writeD r (rem ++ q)).setCcr
      { x := s.sr.ccr.x, n := q.msb, z := q == 0, v := false, c := false })) := by
  have hz : (quotient m (s.readD r) == 0) = (q == 0) := by
    rw [Bool.eq_iff_iff, beq_iff_eq, beq_iff_eq, hzero]
  refine ⟨?_, fun k => by simp⟩
  rw [h.exec_of_canRead hread hsource, if_neg hm, hfits, finishDivide, if_pos rfl, hq, hrem, hz, State.afterEa_sr]
  rfl

/-- A quotient that does not fit leaves the register; N and Z are free values (R163, log 25). -/
theorem Divides.overflows (h : Divides i ea r fits quotient remainder)
    (hread : s.pastOpWord.canRead .word ea = true) (hsource : s.pastOpWord.operand .word ea = m) (hm : m ≠ 0)
    (hfits : fits m (s.readD r) = false) :
    ∃ n z, Completes i s (s.retire ((s.pastOpWord.afterEa .word ea).setCcr
      { x := s.sr.ccr.x, n := n, z := z, v := true, c := false })) := by
  refine ⟨Config.divideN s.draws, Config.divideZ s.draws, ?_, fun k => by simp⟩
  rw [h.exec_of_canRead hread hsource, if_neg hm, hfits, finishDivide, if_neg Bool.false_ne_true, State.afterEa_sr,
    State.afterEa_draws]
  rfl

end Divisions

end Sys2Proof.Machine
end

section
/-! SUPPORT. The entry of an exception whose 6-byte frame and vector can be accessed (60_exceptions.md R252, R256,
70_reset_and_hazards.md R293). -/

namespace Sys2Proof.Machine

/-! ### The supervisor stack -/

theorem getLsbD_zero_eq (a : Long) : a.getLsbD 0 = decide (a.toNat % 2 = 1) :=
  Nat.testBit_zero _

/-- An address counted down from an even one stays even by an even count. -/
theorem even_sub {a : Long} {k : Nat} (ha : a.getLsbD 0 = false) (hk : k % 2 = 0) :
    (a - BitVec.ofNat 32 k).getLsbD 0 = false := by
  simp only [getLsbD_zero_eq, decide_eq_false_iff_not, BitVec.toNat_sub, BitVec.toNat_ofNat] at ha ⊢
  omega

/-- The places of a frame count up from its lowest address (log 16). -/
theorem busAddress_in_frame {a : Long} {nb k : Nat} (hpos : 0 < k) (hk : k ≤ nb)
    (hroom : busAddress (a - BitVec.ofNat 32 nb) + nb ≤ 2 ^ Config.addrBits) :
    busAddress (a - BitVec.ofNat 32 k) = busAddress (a - BitVec.ofNat 32 nb) + (nb - k) := by
  simp only [busAddress, Config.addrBits, BitVec.toNat_sub, BitVec.toNat_ofNat] at hroom ⊢
  omega

/-- A part of what responds responds. -/
theorem State.responds_part {s : State} {dir : Direction} {a nb j w : Nat} (h : s.responds dir a nb = true)
    (hj : j + w ≤ nb) : s.responds dir (a + j) w = true := by
  simp only [State.responds, List.all_eq_true, List.mem_range] at h ⊢
  intro i hi
  rw [Nat.add_assoc]
  exact h (j + i) (by omega)

theorem State.stackRoom_iff {s : State} {nb : Nat} :
    s.stackRoom nb = true ↔ s.ssp.getLsbD 0 = false ∧
      busAddress (s.ssp - BitVec.ofNat 32 nb) + nb ≤ 2 ^ Config.addrBits ∧
      s.responds .write (busAddress (s.ssp - BitVec.ofNat 32 nb)) nb = true := by
  simp [State.stackRoom, and_assoc]

/-- Where the stack has room for a frame, each of its words and long words can be pushed (R293). -/
theorem State.accessible_of_stackRoom {s : State} {nb k w : Nat} (h : s.stackRoom nb = true) (hpos : 0 < k) (hk : k ≤ nb)
    (heven : k % 2 = 0) (hw : w ≤ k) : s.accessible .write (s.ssp - BitVec.ofNat 32 k) w = true := by
  obtain ⟨hssp, hroom, hresponds⟩ := State.stackRoom_iff.mp h
  rw [State.accessible, misaligned_of_byte_or_even (.inr (even_sub hssp heven)), busAddress_in_frame hpos hk hroom,
    State.responds_part hresponds (by omega)]
  rfl

/-- The state after a push in supervisor state that is made (R256). -/
def State.pushed (s : State) (nb : Nat) (v : Long) : State :=
  { s with
    ssp := s.ssp - BitVec.ofNat 32 nb
    mem := s.mem.writeBE (busAddress (s.ssp - BitVec.ofNat 32 nb)) nb v }

@[simp] theorem State.pushed_busMap (s : State) (nb : Nat) (v : Long) : (s.pushed nb v).busMap = s.busMap := rfl

@[simp] theorem State.pushed_ssp (s : State) (nb : Nat) (v : Long) :
    (s.pushed nb v).ssp = s.ssp - BitVec.ofNat 32 nb := rfl

@[simp] theorem State.pushed_mem (s : State) (nb : Nat) (v : Long) :
    (s.pushed nb v).mem = s.mem.writeBE (busAddress (s.ssp - BitVec.ofNat 32 nb)) nb v := rfl

theorem State.push_done {s : State} {nb : Nat} {v : Long} (hs : s.sr.s = true)
    (h : s.accessible .write (s.ssp - BitVec.ofNat 32 nb) nb = true) : s.push nb v = .done () (s.pushed nb v) := by
  have hsp : s.sp = s.ssp := if_pos hs
  rw [State.push, hsp, State.setSp_supervisor hs]
  exact State.memWrite_done h

/-! ### The 6-byte frame and the vector -/

/-- Memory with the 6-byte frame at a place: the status register, and above it the program counter. -/
def Memory.withFrame (m : Memory) (a : Nat) (sr : Word) (pc : Long) : Memory :=
  (m.writeBE (a + 2) 4 pc).writeBE a 2 (sr.setWidth 32)

section Frame

variable {m : Memory} {a : Nat} (sr : Word) (pc : Long)

theorem Memory.wf_writeBE_of_le {nb : Nat} (v : Long) (h : m.wf = true) (ha : a + nb ≤ 2 ^ Config.addrBits) :
    (m.writeBE a nb v).wf = true :=
  Memory.wf_writeBE _ _ _ h fun j hj => by rw [place_of_lt (by omega)]; omega

/-- A word has no bits above its two bytes. -/
theorem word_and_twoBytes (w : Word) : w.setWidth 32 &&& BitVec.ofNat 32 (2 ^ (8 * 2) - 1) = w.setWidth 32 := by
  apply BitVec.eq_of_toNat_eq
  have hw := w.isLt
  rw [BitVec.toNat_and, BitVec.toNat_ofNat, Nat.mod_eq_of_lt (by decide), Nat.and_two_pow_sub_one_eq_mod,
    BitVec.toNat_setWidth]
  omega

theorem Memory.withFrame_sr (h : m.wf = true) (ha : a + 6 ≤ 2 ^ Config.addrBits) :
    (m.withFrame a sr pc).readBE a 2 = sr.setWidth 32 := by
  rw [Memory.withFrame, Memory.readBE_writeBE _ _ _ (Memory.wf_writeBE_of_le _ h (by omega)) (by decide) (by omega)]
  exact word_and_twoBytes sr

theorem Memory.withFrame_pc (h : m.wf = true) (ha : a + 6 ≤ 2 ^ Config.addrBits) :
    (m.withFrame a sr pc).readBE (a + 2) 4 = pc := by
  have habove : (m.withFrame a sr pc).readBE (a + 2) 4 = (m.writeBE (a + 2) 4 pc).readBE (a + 2) 4 :=
    Memory.readBE_congr fun j hj => Memory.read_writeBE_outside _ (by omega) (by rw [place_of_lt (by omega)]; omega)
  rw [habove, Memory.readBE_writeBE _ _ _ h (by decide) (by omega)]
  exact BitVec.and_allOnes

theorem Memory.read_withFrame_outside {k : Nat} (ha : a + 6 ≤ 2 ^ Config.addrBits) (hk : ¬ (a ≤ k ∧ k < a + 6)) :
    (m.withFrame a sr pc).read k = m.read k := by
  rw [Memory.withFrame, Memory.read_writeBE_outside _ (by omega) (by omega),
    Memory.read_writeBE_outside _ (by omega) (by omega)]

end Frame

/-- The state in which an exception's frame is written: supervisor state, with the new interrupt mask (R256). -/
def State.entering (s : State) (mask : Option (BitVec 3)) : State :=
  { s.supervisor with sr := { s.supervisor.sr with i := mask.getD s.sr.i } }

theorem State.pushFrame_eq (s : State) (e : Entry) :
    s.pushFrame e = ((s.entering e.mask).push 4 e.savedPc).bind fun _ t => t.push 2 (s.sr.word.setWidth 32) :=
  rfl

@[simp] theorem State.entering_ssp (s : State) (mask : Option (BitVec 3)) : (s.entering mask).ssp = s.ssp := rfl

@[simp] theorem State.entering_mem (s : State) (mask : Option (BitVec 3)) : (s.entering mask).mem = s.mem := rfl

@[simp] theorem State.entering_busMap (s : State) (mask : Option (BitVec 3)) : (s.entering mask).busMap = s.busMap := rfl

/-- The state after the two writes of the 6-byte frame (R256). -/
def State.framed (s : State) (e : Entry) : State :=
  ((s.entering e.mask).pushed 4 e.savedPc).pushed 2 (s.sr.word.setWidth 32)

@[simp] theorem State.framed_busMap (s : State) (e : Entry) : (s.framed e).busMap = s.busMap := rfl

theorem State.framed_ssp (s : State) (e : Entry) : (s.framed e).ssp = s.ssp - 6 := by
  rw [State.framed, State.pushed_ssp, State.pushed_ssp, BitVec.sub_sub]
  rfl

theorem State.framed_mem {s : State} (e : Entry) (h : s.stackRoom 6 = true) :
    (s.framed e).mem = s.mem.withFrame (busAddress (s.ssp - 6)) s.sr.word e.savedPc := by
  obtain ⟨-, hroom, -⟩ := State.stackRoom_iff.mp h
  have hpc : busAddress (s.ssp - BitVec.ofNat 32 4) = busAddress (s.ssp - 6) + 2 :=
    busAddress_in_frame (by decide) (by decide) hroom
  have hsr : s.ssp - BitVec.ofNat 32 4 - BitVec.ofNat 32 2 = s.ssp - 6 := s.framed_ssp e
  rw [State.framed, State.pushed_mem, State.pushed_mem, State.pushed_ssp, State.entering_ssp, hsr, hpc,
    State.entering_mem, Memory.withFrame]

theorem State.pushFrame_done {s : State} (e : Entry) (h : s.stackRoom 6 = true) :
    s.pushFrame e = .done () (s.framed e) := by
  have hpc : (s.entering e.mask).accessible .write ((s.entering e.mask).ssp - BitVec.ofNat 32 4) 4 = true :=
    State.accessible_of_stackRoom h (by decide) (by decide) (by decide) (by decide)
  have hsr : ((s.entering e.mask).pushed 4 e.savedPc).accessible .write (s.framed e).ssp 2 = true := by
    rw [State.framed_ssp, State.accessible_congr (((s.entering e.mask).pushed_busMap ..).trans (s.entering_busMap _))]
    exact State.accessible_of_stackRoom h (by decide) (by decide) (by decide) (by decide)
  rw [State.pushFrame_eq, State.push_done rfl hpc, Eff.bind_done, State.push_done rfl hsr, State.framed]

theorem State.readVector_done {s : State} {vector : Nat} (h : s.vectorReady vector = true) :
    s.readVector vector = .done (s.busRead .exception (4 * vector) 4) s := by
  obtain ⟨hlt, hresponds⟩ := Bool.and_eq_true_iff.mp h
  have hlt := of_decide_eq_true hlt
  have hplace : busAddress (BitVec.ofNat 32 (4 * vector)) = 4 * vector := by
    simp only [busAddress, Config.addrBits, BitVec.toNat_ofNat]
    omega
  have heven : (BitVec.ofNat 32 (4 * vector)).getLsbD 0 = false := by
    simp only [getLsbD_zero_eq, decide_eq_false_iff_not, BitVec.toNat_ofNat]
    omega
  have hacc : s.accessible .read (BitVec.ofNat 32 (4 * vector)) 4 = true := by
    rw [State.accessible, misaligned_of_byte_or_even (.inr heven), hplace, hresponds]
    rfl
  rw [State.readVector, State.memRead_done hacc, hplace]

/-- Taking an exception of group 1 or 2, or an interrupt, where the stack has room and the vector can be read: the
frame is written, and the program counter is read from the vector (R256). -/
theorem enterException_done {e : Entry} {s : State} (hroom : s.stackRoom 6 = true)
    (hvector : s.vectorReady e.vector = true) :
    enterException e s = .next { s.framed e with
      pc := (s.framed e).busRead .exception (4 * e.vector) 4
      tracePending := e.traced } := by
  have hvector' : (s.framed e).vectorReady e.vector = true := hvector
  rw [enterException, State.pushFrame_done e hroom, Eff.bind_done, State.readVector_done hvector']

/-- It leaves all that R256 says. -/
theorem enterException_entered {e : Entry} {s : State} (hwf : s.mem.wf = true) (hroom : s.stackRoom 6 = true)
    (hvector : s.vectorReady e.vector = true) :
    ∃ t, enterException e s = .next t ∧ Entered e.vector e.savedPc (e.mask.getD s.sr.i) s t ∧
      t.tracePending = e.traced := by
  obtain ⟨-, hplaces, -⟩ := State.stackRoom_iff.mp hroom
  have hmem := State.framed_mem e hroom
  refine ⟨_, enterException_done hroom hvector, ⟨⟨rfl, rfl, rfl, rfl⟩, rfl, rfl, rfl, rfl, s.framed_ssp e, ?_, ?_, ?_,
    rfl, fun hplain => State.busRead_plain ((State.plain_congr (s.framed_busMap e) ..).trans hplain) _⟩, rfl⟩
  · rw [hmem, State.framed_ssp]
    exact Memory.withFrame_sr _ _ hwf hplaces
  · rw [hmem, State.framed_ssp]
    exact Memory.withFrame_pc _ _ hwf hplaces
  · intro k hk
    rw [State.framed_ssp] at hk
    rw [hmem]
    exact Memory.read_withFrame_outside _ _ hplaces hk

/-- A zero divide is exception 5 from the state after the source operand was read, followed by the instruction's trace
exception (R163, R257, R270). -/
theorem zeroDivide_entered {s0 s : State} (hwf : s.mem.wf = true) (hroom : s.stackRoom 6 = true)
    (hvector : s.vectorReady 5 = true) :
    ∃ t, zeroDivide s0 s = .next t ∧ Entered 5 s.pc s.sr.i (s.setCcr (zeroDivideCcr s)) t ∧
      t.tracePending = s0.sr.t :=
  enterException_entered (s := s.setCcr (zeroDivideCcr s)) hwf hroom hvector

end Sys2Proof.Machine
end

section
/-! The statements of 42_mul_div.md. -/

namespace Sys2Proof.Proofs

open Sys2Proof.Machine

/-- Settles O20: the product of two words is a long word, unsigned and signed. -/
theorem multiplyCompletes : Obligations.MultiplyCompletes := fun _ r s hread =>
  ⟨⟨_, toNat_unsignedProduct _ (s.lowD .word r), completes_product rfl hread⟩,
    ⟨_, toInt_signedProduct _ (s.lowD .word r), completes_product rfl hread⟩⟩

/-- Settles O21: where the upper word of the dividend is below the divisor, the quotient fits. -/
theorem unsignedDivideCompletes : Obligations.UnsignedDivideCompletes := by
  intro ea r s hread m hhigh
  have hm : m ≠ 0 := fun h => Nat.not_lt_zero _ (h ▸ hhigh)
  have hfits := (unsigned_fits_iff hm).mpr hhigh
  exact ⟨unsignedQuotient m (s.readD r), unsignedRemainder m (s.readD r), unsigned_dividend hm hfits,
    unsignedRemainder_lt hm, (divides_divu ea r).completes hread rfl hm (decide_eq_true hfits)
      (BitVec.ofInt_natCast ..) (BitVec.ofInt_natCast ..) (unsignedQuotient_eq_zero_iff hfits)⟩

/-- Settles O22: where the quotient is a signed word, so is the remainder. -/
theorem signedDivideCompletes : Obligations.SignedDivideCompletes := by
  intro ea r s hread m hm hrange
  refine ⟨signedQuotient m (s.readD r), signedRemainder m (s.readD r), signed_dividend hm hrange,
    natAbs_signedRemainder_lt hm, signedRemainder_sign hm, ?_⟩
  rw [← BitVec.msb_eq_toInt]
  exact (divides_divs ea r).completes hread rfl hm (congrArg not hrange) rfl rfl (signedQuotient_eq_zero_iff hrange)

/-- Settles O23: DIVU overflows where the upper word of the dividend reaches the divisor, DIVS where the quotient leaves
the range of a signed word. -/
theorem divideOverflow : Obligations.DivideOverflow := by
  intro ea r s hread m hm
  refine ⟨fun hhigh => ?_, fun hrange => ?_⟩
  · have hfits : ¬ (s.readD r).toNat / m.toNat ≤ 0xFFFF := fun h => Nat.not_lt.mpr hhigh ((unsigned_fits_iff hm).mp h)
    exact (divides_divu ea r).overflows hread rfl hm (decide_eq_false hfits)
  · exact (divides_divs ea r).overflows hread rfl hm (congrArg not hrange)

/-- Settles O24: DIVU and DIVS alike enter the exception of vector 5 from the state after the source was read, with
the flags that a zero divide leaves. -/
theorem divideByZero : Obligations.DivideByZero := by
  intro ea r s hread hzero hwf b hroom hvector
  have hdivu : exec (.divu ea r) s = zeroDivide s b := (divides_divu ea r).exec_zero hread hzero
  have hdivs : exec (.divs ea r) s = zeroDivide s b := (divides_divs ea r).exec_zero hread hzero
  obtain ⟨t, henter, hentered, htrace⟩ := zeroDivide_entered (s0 := s) (s := b) (by simpa [b] using hwf) hroom hvector
  refine ⟨Config.divideN s.draws, Config.divideZ s.draws, Config.divideV s.draws, t, hdivu.trans henter,
    hdivs.trans henter, ?_, htrace⟩
  simpa [b, zeroDivideCcr] using hentered

end Sys2Proof.Proofs
end

section
/-! SUPPORT. The loops of the shifts in closed form (43_asl_asr.md R171, R172, 45_lsl_lsr_rotate.md R201, R202): what
they hold after any count. -/

namespace Sys2Proof.Machine

/-! ### The loop -/

section Loop

variable {n : Nat} {op : ShiftOp}

theorem Shifting.repeat_succ (k : Nat) (s : Shifting n) :
    Shifting.repeat op (k + 1) s = (Shifting.repeat op k s).step op := by
  induction k generalizing s with
  | zero => rfl
  | succ k ih => exact ih (s.step op)

/-- What the loop holds after any count, from what one iteration makes of it. -/
theorem Shifting.repeat_eq {closed : Nat → Shifting n} {s : Shifting n} (hstart : closed 0 = s)
    (hstep : ∀ k, (closed k).step op = closed (k + 1)) (k : Nat) : Shifting.repeat op k s = closed k := by
  induction k with
  | zero => exact hstart.symm
  | succ k ih => rw [Shifting.repeat_succ, ih, hstep]

end Loop

/-! ### Left -/

section Left

variable {n : Nat} (v : BitVec n) (x : Bool) (k : Nat)

/-- The bit that a shift left by `k` places moved out last; 0 if none, or if a zero shifted in. -/
def lastOutLeft : Bool := decide (1 ≤ k) && v.getLsbD (n - k) && decide (k ≤ n)

theorem getMsbD_eq_lastOutLeft : v.getMsbD k = lastOutLeft v (k + 1) := by
  simp [BitVec.getMsbD, lastOutLeft, Nat.sub_sub, Nat.add_comm 1 k, Bool.and_comm]

/-- The loop of ASL and LSL after `k` places. -/
def shiftedLeft (changed : Bool) : Shifting n :=
  { v := v <<< k, x := if k = 0 then x else lastOutLeft v k, c := lastOutLeft v k, changed }

theorem step_lsl_shiftedLeft (changed : Bool) :
    (shiftedLeft v x k changed).step .lsl = shiftedLeft v x (k + 1) changed := by
  simp [Shifting.step, shiftedLeft, getMsbD_eq_lastOutLeft, BitVec.shiftLeft_add]

theorem shiftLeft_eq_ofInt : v <<< k = BitVec.ofInt n (v.toInt * 2 ^ k) := by
  have hpow : BitVec.twoPow n k = BitVec.ofInt n ((2 ^ k : Nat) : Int) := by
    rw [BitVec.ofInt_natCast, ← BitVec.toNat_inj, BitVec.toNat_twoPow, BitVec.toNat_ofNat]
  rw [BitVec.shiftLeft_eq_mul_twoPow, hpow, BitVec.ofInt_mul, BitVec.ofInt_toInt]
  simp

/-- A number out of range stays so when doubled, and one in range leaves it exactly where doubling changes the top
bit. -/
theorem outOfRange_double (hn : 0 < n) (e : Int) :
    outOfRange n (e * 2) = (outOfRange n e || (BitVec.ofInt n (e * 2)).msb != (BitVec.ofInt n e).msb) := by
  have hdouble := mul_pow_sub_one hn.ne' (2 : Int)
  cases hrange : outOfRange n e with
  | true =>
    simp only [outOfRange, Bool.or_eq_true, decide_eq_true_eq] at hrange
    simp only [outOfRange, Bool.true_or, Bool.or_eq_true, decide_eq_true_eq]
    have hhalf : (0 : Int) < 2 ^ (n - 1) := by positivity
    omega
  | false =>
    have hsign := hrange
    simp only [outOfRange, Bool.or_eq_false_iff, decide_eq_false_iff_not] at hrange
    rw [outOfRange_eq_sign_lost hn (by omega) (by omega)] at hsign ⊢
    simp only [bne_eq_false_iff_eq] at hsign
    have hsame : e * 2 < 0 ↔ e < 0 := by omega
    rw [Bool.false_or, ← hsign, decide_eq_decide.mpr hsame, bne_comm]

/-- ASL changes the top bit on the way exactly where the operand times the power of 2 is out of range. -/
theorem step_asl_shiftedLeft (hn : 0 < n) :
    (shiftedLeft v x k (outOfRange n (v.toInt * 2 ^ k))).step .asl =
      shiftedLeft v x (k + 1) (outOfRange n (v.toInt * 2 ^ (k + 1))) := by
  have hchanged : outOfRange n (v.toInt * 2 ^ (k + 1)) =
      (outOfRange n (v.toInt * 2 ^ k) || (v <<< (k + 1)).msb != (v <<< k).msb) := by
    rw [shiftLeft_eq_ofInt, shiftLeft_eq_ofInt, pow_succ, ← mul_assoc, outOfRange_double hn]
  rw [hchanged]
  simp [Shifting.step, shiftedLeft, getMsbD_eq_lastOutLeft, BitVec.shiftLeft_add]

theorem repeat_asl (hn : 0 < n) :
    Shifting.repeat .asl k { v, x, c := false, changed := false } =
      shiftedLeft v x k (outOfRange n (v.toInt * 2 ^ k)) :=
  Shifting.repeat_eq (by simp [shiftedLeft, lastOutLeft, outOfRange, v.le_toInt, v.toInt_lt])
    (fun k => step_asl_shiftedLeft v x k hn) k

theorem repeat_lsl :
    Shifting.repeat .lsl k { v, x, c := false, changed := false } = shiftedLeft v x k false :=
  Shifting.repeat_eq (by simp [shiftedLeft, lastOutLeft]) (fun k => step_lsl_shiftedLeft v x k false) k

end Left

/-! ### Right -/

section Right

variable {n : Nat} (v : BitVec n) (x : Bool) (k : Nat)

/-- The bit that an arithmetic shift right by `k` places moved out last, 0 if none: copies of the sign follow the
operand. -/
def lastOutSigned : Bool := decide (1 ≤ k) && (if k ≤ n then v.getLsbD (k - 1) else v.msb)

/-- The bit that a logical shift right by `k` places moved out last, 0 if none. -/
def lastOutRight : Bool := decide (1 ≤ k) && v.getLsbD (k - 1)

theorem getElem_atTop {i : Nat} (b : Bool) (hi : i < n) : (atTop b : BitVec n)[i] = (decide (i = n - 1) && b) := by
  rw [atTop, BitVec.getElem_shiftLeft]
  by_cases htop : i = n - 1
  · cases b <;> simp [htop]
  · simp [htop, show i < n - 1 by omega]

/-- One iteration of ASR puts the sign back at the top. -/
theorem ushiftRight_or_sign : v >>> 1 ||| atTop v.msb = v.sshiftRight 1 := by
  ext i hi
  rw [BitVec.getElem_or, getElem_atTop v.msb hi, BitVec.getElem_ushiftRight, BitVec.getElem_sshiftRight]
  by_cases hin : 1 + i < n
  · simp [hin, show i ≠ n - 1 by omega]
  · have htop : i = n - 1 := by omega
    simp [hin, ← htop, BitVec.getLsbD_of_ge v (1 + i) (by omega)]

theorem getLsbD_zero_sshiftRight : (v.sshiftRight k).getLsbD 0 = lastOutSigned v (k + 1) := by
  rcases Nat.eq_zero_or_pos n with rfl | hn
  · simp [lastOutSigned, BitVec.of_length_zero]
  · simp [BitVec.getLsbD_sshiftRight, lastOutSigned, hn.ne']

/-- The loop of ASR after `k` places. -/
def shiftedSigned : Shifting n :=
  { v := v.sshiftRight k, x := if k = 0 then x else lastOutSigned v k, c := lastOutSigned v k, changed := false }

/-- The loop of LSR after `k` places. -/
def shiftedRight : Shifting n :=
  { v := v >>> k, x := if k = 0 then x else lastOutRight v k, c := lastOutRight v k, changed := false }

theorem step_asr_shiftedSigned : (shiftedSigned v x k).step .asr = shiftedSigned v x (k + 1) := by
  simp [Shifting.step, shiftedSigned, getLsbD_zero_sshiftRight, ushiftRight_or_sign, BitVec.sshiftRight_add,
    -BitVec.msb_sshiftRight]

theorem step_lsr_shiftedRight : (shiftedRight v x k).step .lsr = shiftedRight v x (k + 1) := by
  simp [Shifting.step, shiftedRight, lastOutRight, BitVec.shiftRight_add]

theorem repeat_asr : Shifting.repeat .asr k { v, x, c := false, changed := false } = shiftedSigned v x k :=
  Shifting.repeat_eq (by simp [shiftedSigned, lastOutSigned]) (step_asr_shiftedSigned v x) k

theorem repeat_lsr : Shifting.repeat .lsr k { v, x, c := false, changed := false } = shiftedRight v x k :=
  Shifting.repeat_eq (by simp [shiftedRight, lastOutRight]) (step_lsr_shiftedRight v x) k

end Right

end Sys2Proof.Machine
end

section
/-! SUPPORT. The shifts and rotates completed (43_asl_asr.md R170, R173). -/

namespace Sys2Proof.Machine

/-- In a data register nothing is accessed, so that a shift completes in every state. -/
theorem completesShiftReg {mk : Size → ShiftCount → RegNum → Instr} {op : ShiftOp}
    (hexec : ∀ sz count r s, exec (mk sz count r) s = finish s (s.pastOpWord.shiftReg op sz count r)) :
    CompletesShiftReg mk op := by
  intro sz count r s
  refine ⟨?_, fun k => by simp⟩
  rw [hexec, State.shiftReg, State.modifyEa_of_canModify (s.pastOpWord.canModify_dn sz r), State.stored_dn,
    State.target_dn]
  cases count <;> rfl

theorem completesShiftMem {mk : EA → Instr} {op : ShiftOp}
    (hexec : ∀ ea s, exec (mk ea) s = finish s (s.pastOpWord.shiftMem op ea)) : CompletesShiftMem mk op := by
  intro ea s hmodify
  refine ⟨?_, sameMemoryBut_stored (State.pastOpWord_mem s)⟩
  rw [hexec, State.shiftMem, State.modifyEa_of_canModify hmodify]
  rfl

end Sys2Proof.Machine
end

section
/-! The statements of 43_asl_asr.md. -/

namespace Sys2Proof.Proofs

open Sys2Proof.Machine

/-- Settles O25: each of the sixteen is its loop over a data register or over a word in memory. -/
theorem shiftCompletes : Obligations.ShiftCompletes :=
  ⟨completesShiftReg fun _ _ _ _ => rfl, completesShiftReg fun _ _ _ _ => rfl, completesShiftReg fun _ _ _ _ => rfl,
    completesShiftReg fun _ _ _ _ => rfl, completesShiftReg fun _ _ _ _ => rfl, completesShiftReg fun _ _ _ _ => rfl,
    completesShiftReg fun _ _ _ _ => rfl, completesShiftReg fun _ _ _ _ => rfl, completesShiftMem fun _ _ => rfl,
    completesShiftMem fun _ _ => rfl, completesShiftMem fun _ _ => rfl, completesShiftMem fun _ _ => rfl,
    completesShiftMem fun _ _ => rfl, completesShiftMem fun _ _ => rfl, completesShiftMem fun _ _ => rfl,
    completesShiftMem fun _ _ => rfl⟩

/-- Settles O26: the loops of ASL and LSL hold the same operand and the same last bit out, and differ in V alone. -/
theorem shiftLeftClosedForm : Obligations.ShiftLeftClosedForm := by
  intro sz k f v
  constructor
  · simp only [shiftBy, ShiftOp.startC, repeat_asl v f.x k sz.bits_pos]
    rfl
  · simp only [shiftBy, ShiftOp.startC, repeat_lsl v f.x k]
    rfl

/-- Settles O27: the loop of ASR holds the operand shifted with its sign, that of LSR the operand shifted with zeros. -/
theorem shiftRightClosedForm : Obligations.ShiftRightClosedForm := by
  intro sz k f v
  refine ⟨⟨v.sshiftRight k, ?_, ?_⟩, ⟨v >>> k, ?_, ?_⟩⟩
  · rw [BitVec.toInt_sshiftRight, Int.shiftRight_eq_div_pow]
    simp
  · simp only [shiftBy, ShiftOp.startC, repeat_asr v f.x k]
    rfl
  · rw [BitVec.toNat_ushiftRight, Nat.shiftRight_eq_div_pow]
  · simp only [shiftBy, ShiftOp.startC, repeat_lsr v f.x k]
    rfl

end Sys2Proof.Proofs
end

section
/-! SUPPORT. The logic instructions completed (44_logic.md R180), and a data register whose low bits are replaced and put
back (10_state.md R21). -/

namespace Sys2Proof

theorem Size.bits_le (sz : Size) : sz.bits ≤ 32 := by
  cases sz <;> decide

namespace Machine

theorem computes_and : Computes aluAnd (· &&& ·) (fun f s d => logicCcr f (s &&& d)) := fun _ _ _ _ => rfl

theorem computes_or : Computes aluOr (· ||| ·) (fun f s d => logicCcr f (s ||| d)) := fun _ _ _ _ => rfl

theorem computes_eor : Computes aluEor (· ^^^ ·) (fun f s d => logicCcr f (s ^^^ d)) := fun _ _ _ _ => rfl

theorem exec_notEa_of_canModify {sz : Size} {ea : EA} {s : State} (h : s.pastOpWord.canModify sz ea = true) :
    let new := ~~~ s.pastOpWord.target sz ea
    exec (.notEa sz ea) s = .next (s.retire ((s.pastOpWord.stored sz ea new).setCcr (logicCcr s.sr.ccr new))) :=
  congrArg (finish s) (State.modifyEa_of_canModify h)

/-! ### The low bits of a data register -/

section MergeLow

variable {n : Nat} (old : Long) (v w : BitVec n)

theorem getElem_mergeLow {i : Nat} (hi : i < 32) : (mergeLow old v)[i] = if i < n then v.getLsbD i else old[i] := by
  by_cases hin : i < n
  · simp [mergeLow, hin]
  · simp [mergeLow, hi, hin, show n + (i - n) = i by omega, BitVec.getLsbD_of_ge v i (by omega)]

theorem setWidth_mergeLow (hn : n ≤ 32) : (mergeLow old v).setWidth n = v := by
  ext i hi
  rw [BitVec.getElem_setWidth, BitVec.getLsbD_eq_getElem (by omega), getElem_mergeLow, if_pos hi,
    BitVec.getLsbD_eq_getElem hi]

theorem mergeLow_mergeLow : mergeLow (mergeLow old v) w = mergeLow old w := by
  ext i hi
  simp only [getElem_mergeLow]
  split <;> rfl

theorem mergeLow_setWidth : mergeLow old (old.setWidth n) = old := by
  ext i hi
  rw [getElem_mergeLow]
  split
  · simp [*]
  · rfl

end MergeLow

theorem DataRegs.set_set (f : DataRegs) (r : RegNum) (v w : Long) : (f.set r v).set r w = f.set r w := by
  cases r <;> rfl

theorem DataRegs.set_get (f : DataRegs) (r : RegNum) : f.set r (f.get r) = f := by
  cases r <;> rfl

/-! ### A data register as the destination -/

/-- The state in which a logic instruction without extension words ends that replaces a data register by a result. -/
def State.afterLogic (s : State) (sz : Size) (r : RegNum) (v : BitVec sz.bits) : State :=
  s.retire (s.pastOpWord.putD sz r v)

section AfterLogic

variable (s : State) (sz : Size) (r : RegNum) (v : BitVec sz.bits)

theorem exec_notEa_dn : exec (.notEa sz (.dn r)) s = .next (s.afterLogic sz r (~~~ s.lowD sz r)) := by
  rw [exec_notEa_of_canModify (s.pastOpWord.canModify_dn sz r), State.target_dn, State.stored_dn]
  rfl

theorem exec_eor_dn (q : RegNum) :
    exec (.eor sz q (.dn r)) s = .next (s.afterLogic sz r (s.lowD sz q ^^^ s.lowD sz r)) := by
  rw [(computes_eor.toEa (mk := .eor) (fun _ _ _ _ => rfl) sz q (.dn r) s rfl).1, State.target_dn, State.stored_dn]
  rfl

theorem State.afterLogic_d : (s.afterLogic sz r v).d = s.d.set r (mergeLow (s.readD r) v) := rfl

theorem State.lowD_afterLogic_same : (s.afterLogic sz r v).lowD sz r = v := by
  rw [State.lowD, State.readD, State.afterLogic_d, DataRegs.get_set_same, setWidth_mergeLow _ _ sz.bits_le]

theorem State.lowD_afterLogic_other {q : RegNum} (h : q ≠ r) : (s.afterLogic sz r v).lowD sz q = s.lowD sz q := by
  rw [State.lowD, State.readD, State.afterLogic_d, DataRegs.get_set_other _ _ _ _ h]
  rfl

/-- A result and then the register's own value put back: the upper bits were never changed, V and C are cleared and X is
kept by both. -/
theorem State.afterLogic_restored {w : BitVec sz.bits} (hw : w = s.lowD sz r) :
    let u := (s.afterLogic sz r v).afterLogic sz r w
    u.d = s.d ∧ u.sr.ccr.x = s.sr.ccr.x ∧ u.sr.ccr.v = false ∧ u.sr.ccr.c = false := by
  refine ⟨?_, rfl, rfl, rfl⟩
  rw [State.afterLogic_d, State.afterLogic_d, DataRegs.set_set, State.readD, State.afterLogic_d, DataRegs.get_set_same,
    mergeLow_mergeLow, hw, State.lowD, mergeLow_setWidth]
  exact DataRegs.set_get s.d r

end AfterLogic

end Machine
end Sys2Proof
end

section
/-! SUPPORT. The status register's word with only its flags replaced (44_logic.md R188). -/

namespace Sys2Proof.Machine

theorem andCcr_byte (f : Ccr) (imm : Byte) : (andCcr f imm).byte = f.byte &&& imm := by
  apply BitVec.eq_of_getLsbD_eq
  intro k hk
  simp only [BitVec.getLsbD_and, Ccr.byte_getLsbD, andCcr, BitVec.getLsbD_append]
  interval_cases k <;> simp

/-- ANDing the flags alone is ANDing the word under an upper byte of ones. -/
theorem StatusReg.word_andCcr (sr : StatusReg) (imm : Byte) :
    StatusReg.word { sr with ccr := andCcr sr.ccr imm } = sr.word &&& (0xFF#8 ++ imm) := by
  have hupper (b : Byte) : b &&& 0xFF#8 = b := BitVec.and_allOnes
  simp only [StatusReg.word, andCcr_byte]
  rw [BitVec.and_append, hupper]

theorem exec_andiToCcr {imm : Byte} {s : State} (h : s.pastOpWord.fetchable 1 = true) :
    exec (.andiToCcr imm) s =
      .next (s.retire ((s.pastOpWord.afterExt 1).setCcr (andCcr s.sr.ccr imm))) := by
  calc exec (.andiToCcr imm) s
      = finish s ((s.pastOpWord.fetchExt 1).bind fun _ t => .done () (t.setCcr (andCcr t.sr.ccr imm))) := rfl
    _ = .next (s.retire ((s.pastOpWord.afterExt 1).setCcr (andCcr s.sr.ccr imm))) := by
        rw [State.fetchExt_done h]
        rfl

end Sys2Proof.Machine
end

section
/-! SUPPORT. Instructions that do not affect X, also where they end in an exception. -/

namespace Sys2Proof.Machine

/-- A part of an instruction begun in `s` that keeps X, whether it is done or its access fails. -/
def KeepsX {α : Type} (s : State) (e : Eff α) : Prop := e.Leaves fun t => t.sr.ccr.x = s.sr.ccr.x

/-- An end of an instruction that leaves X as it is in `s`, where it goes on. -/
def EndKeepsX (s : State) (r : Result) : Prop := ∀ t, r = .next t → t.sr.ccr.x = s.sr.ccr.x

theorem KeepsSr.keepsX {α : Type} {s : State} {e : Eff α} (h : KeepsSr s e) : KeepsX s e :=
  h.mono fun _ ht => congrArg (·.ccr.x) ht

theorem KeepsX.bind {α β : Type} {s : State} {e : Eff α} {f : α → State → Eff β} (he : KeepsX s e)
    (hf : ∀ v t, KeepsX t (f v t)) : KeepsX s (e.bind f) :=
  Eff.leaves_bind_same he fun v t ht => (hf v t).mono fun _ hu => hu.trans ht

/-! ### Parts that write no flag -/

theorem KeepsSr.memWrite (s : State) (addr : Long) (nb : Nat) (v : Long) : KeepsSr s (s.memWrite addr nb v) :=
  (KeepsSr.access s .data .write addr nb).bind fun _ _ => rfl

theorem KeepsSr.writeLoc (s : State) (sz : Size) (l : Loc) (v : BitVec sz.bits) : KeepsSr s (s.writeLoc sz l v) := by
  cases l with
  | dreg r => exact s.writeLowD_sr sz r v
  | areg r => exact KeepsSr.writeA s r _
  | mem a space => exact KeepsSr.memWrite s a _ _
  | imm w => trivial

theorem KeepsSr.discardRead (s : State) (sz : Size) (l : Loc) : KeepsSr s (s.discardRead sz l) := by
  cases l with
  | mem a space => exact (KeepsSr.readLoc s .destination sz (.mem a space)).bind fun _ _ => rfl
  | dreg r => exact rfl
  | areg r => exact rfl
  | imm v => exact rfl

theorem KeepsSr.moveSource (s : State) (sz : Size) (src dst : EA) : KeepsSr s (s.moveSource sz src dst) := by
  cases src with
  | an r => exact rfl
  | _ => exact KeepsSr.readEa s sz _

/-! ### The shapes of instructions -/

/-- A destination changed by an operation that keeps X: the flags it writes are computed before the store, which changes
no flag. -/
theorem KeepsX.modifyEa (s : State) (sz : Size) (ea : EA) {f : Ccr → BitVec sz.bits → BitVec sz.bits × Ccr}
    (hf : ∀ c d, (f c d).2.x = c.x) : KeepsX s (s.modifyEa sz ea f) :=
  (KeepsSr.evalEa s sz ea).keepsX.bind fun l t => (KeepsSr.readLoc t .destination sz l).keepsX.bind fun d u =>
    Eff.leaves_bind_same (KeepsSr.writeLoc u sz l _).keepsX fun _ _ _ => hf u.sr.ccr d

/-- An operation whose new flags have the X of the old ones. -/
def AluKeepsX (alu : ∀ {n : Nat}, Alu n) : Prop := ∀ (n : Nat) (f : Ccr) (s d : BitVec n), (alu f s d).2.x = f.x

theorem aluAnd_keepsX : AluKeepsX aluAnd := fun _ _ _ _ => rfl

theorem aluOr_keepsX : AluKeepsX aluOr := fun _ _ _ _ => rfl

theorem aluEor_keepsX : AluKeepsX aluEor := fun _ _ _ _ => rfl

section Shapes

variable {alu : ∀ {n : Nat}, Alu n} (h : AluKeepsX alu) (s : State) (sz : Size)
include h

theorem AluKeepsX.eaToDn (ea : EA) (r : RegNum) : KeepsX s (s.eaToDn alu sz ea r) :=
  (KeepsSr.readEa s sz ea).keepsX.bind fun v t => h _ t.sr.ccr v (t.lowD sz r)

theorem AluKeepsX.dnToEa (r : RegNum) (ea : EA) : KeepsX s (s.dnToEa alu sz r ea) :=
  KeepsX.modifyEa s sz ea fun f d => h _ f (s.lowD sz r) d

theorem AluKeepsX.immToEa (imm : Long) (ea : EA) : KeepsX s (s.immToEa alu sz imm ea) :=
  (KeepsSr.fetchExt s (immExt sz)).keepsX.bind fun _ t =>
    KeepsX.modifyEa t sz ea fun f d => h _ f (imm.setWidth sz.bits) d

end Shapes

/-- A loop keeps X where each iteration does. -/
theorem Shifting.repeat_x {n : Nat} {op : ShiftOp} (hop : ∀ s : Shifting n, (s.step op).x = s.x) (k : Nat)
    (s : Shifting n) : (Shifting.repeat op k s).x = s.x := by
  induction k generalizing s with
  | zero => rfl
  | succ k ih => exact (ih (s.step op)).trans (hop s)

/-- ROL and ROR, whose iteration moves no bit into X (R203, R204). -/
theorem KeepsX.shiftReg {op : ShiftOp} (hop : ∀ {n : Nat} (v : Shifting n), (v.step op).x = v.x) (s : State)
    (sz : Size) (count : ShiftCount) (r : RegNum) : KeepsX s (s.shiftReg op sz count r) :=
  KeepsX.modifyEa s sz (.dn r) fun _ _ => Shifting.repeat_x hop _ _

theorem KeepsX.shiftMem {op : ShiftOp} (hop : ∀ {n : Nat} (v : Shifting n), (v.step op).x = v.x) (s : State)
    (ea : EA) : KeepsX s (s.shiftMem op ea) :=
  KeepsX.modifyEa s .word ea fun _ _ => Shifting.repeat_x hop _ _

theorem KeepsX.bitTest (s : State) (b : Nat) (ea : EA) : KeepsX s (s.bitTest b ea) :=
  (KeepsSr.readEa s (bitSize ea) ea).keepsX.bind fun _ _ => rfl

theorem KeepsX.bitChange (s : State) (op : BitOp) (b : Nat) (ea : EA) : KeepsX s (s.bitChange op b ea) :=
  KeepsX.modifyEa s (bitSize ea) ea fun _ _ => rfl

theorem KeepsX.clear (s : State) (sz : Size) (ea : EA) :
    KeepsX s ((s.evalEa sz ea).bind fun l t => (t.discardRead sz l).bind fun _ t =>
      (t.writeLoc sz l 0).bind fun _ t => .done () (t.setCcr (clrCcr t.sr.ccr))) :=
  (KeepsSr.evalEa s sz ea).keepsX.bind fun l t => (KeepsSr.discardRead t sz l).keepsX.bind fun _ t =>
    (KeepsSr.writeLoc t sz l 0).keepsX.bind fun _ _ => rfl

theorem KeepsX.putD (s : State) (sz : Size) (r : RegNum) (v : BitVec sz.bits) :
    KeepsX s (.done () (s.putD sz r v)) :=
  rfl

theorem KeepsX.multiply (s : State) (ea : EA) (r : RegNum) (product : Word → Word → Long) :
    KeepsX s ((s.readEa .word ea).bind fun v t => .done () (t.putProduct r (product v (t.lowD .word r)))) :=
  (KeepsSr.readEa s .word ea).keepsX.bind fun _ _ => rfl

theorem KeepsX.move (s : State) (sz : Size) (src dst : EA) :
    KeepsX s ((s.moveSource sz src dst).bind fun v t => (t.evalEa sz dst).bind fun l t =>
      (t.writeLoc sz l v).bind fun _ t => .done () (t.setCcr (logicCcr t.sr.ccr v))) :=
  (KeepsSr.moveSource s sz src dst).keepsX.bind fun v t => (KeepsSr.evalEa t sz dst).keepsX.bind fun l t =>
    (KeepsSr.writeLoc t sz l v).keepsX.bind fun _ _ => rfl

theorem KeepsX.compareImm (s : State) (sz : Size) (imm : Long) (ea : EA) :
    KeepsX s ((s.fetchExt (immExt sz)).bind fun _ t => (t.readEa sz ea).bind fun d t =>
      .done () (t.setCcr (cmpCcr t.sr.ccr (imm.setWidth sz.bits) d))) :=
  (KeepsSr.fetchExt s (immExt sz)).keepsX.bind fun _ t => (KeepsSr.readEa t sz ea).keepsX.bind fun _ _ => rfl

/-- A bit instruction whose bit number is in a word of its own. -/
theorem KeepsX.afterBitNumber {s : State} {f : State → Eff Unit} (hf : ∀ t, KeepsX t (f t)) :
    KeepsX s ((s.fetchExt 1).bind fun _ t => f t) :=
  (KeepsSr.fetchExt s 1).keepsX.bind fun _ t => hf t

/-! ### Ends -/

theorem KeepsX.finishWith {α : Type} {s s0 : State} {e : Eff α} {k : α → State → Result} (he : KeepsX s e)
    (hk : ∀ v t, EndKeepsX t (k v t)) : EndKeepsX s (finishWith s0 e k) := by
  intro t h
  cases e with
  | done v u => exact (hk v u t h).trans he
  | abort x u =>
    obtain ⟨htaken, _⟩ := enterGroup0_next h
    exact (congrArg Ccr.x htaken.ccr).trans he
  | refuse r => cases h

theorem EndKeepsX.next {s t : State} (h : t.sr.ccr.x = s.sr.ccr.x) : EndKeepsX s (.next t) := by
  rintro _ ⟨⟩
  exact h

/-- An instruction of one part, which begins past the operation word. -/
theorem KeepsX.finish {s : State} {e : Eff Unit} (he : KeepsX s.pastOpWord e) : EndKeepsX s (finish s e) :=
  KeepsX.finishWith (s := s) he fun _ _ => EndKeepsX.next rfl

theorem EndKeepsX.zeroDivide (s0 s : State) : EndKeepsX s (zeroDivide s0 s) := by
  intro t h
  obtain ⟨htaken, _⟩ := enterException_next h
  rw [htaken.ccr]
  rfl

theorem EndKeepsX.finishDivide (s0 s : State) (r : RegNum) (fits : Bool) (quotient remainder : Int) :
    EndKeepsX s (finishDivide s0 s r fits quotient remainder) := by
  cases fits with
  | true => exact EndKeepsX.next rfl
  | false => exact EndKeepsX.next rfl

/-- A division keeps X whether it completes, overflows or divides by zero (42_mul_div.md R163 to R165). -/
theorem Divides.keepsX {i : Instr} {ea : EA} {r : RegNum} {fits : Word → Long → Bool}
    {quotient remainder : Word → Long → Int} (h : Divides i ea r fits quotient remainder) (s : State) :
    EndKeepsX s (exec i s) := by
  rw [h]
  refine (KeepsSr.readEa s.pastOpWord .word ea).keepsX.finishWith fun v t => ?_
  split
  · exact EndKeepsX.zeroDivide s t
  · exact EndKeepsX.finishDivide s t r _ _ _

end Sys2Proof.Machine
end

section
/-! The statements of 44_logic.md. -/

namespace Sys2Proof.Proofs

open Sys2Proof.Machine

/-- Settles O15: AND, OR and EOR in each of their shapes, and NOT, which has no source. -/
theorem logicCompletes : Obligations.LogicCompletes :=
  ⟨computes_and.toDn fun _ _ _ _ => rfl, computes_and.toEa fun _ _ _ _ => rfl, computes_and.imm fun _ _ _ _ => rfl,
    computes_or.toDn fun _ _ _ _ => rfl, computes_or.toEa fun _ _ _ _ => rfl, computes_or.imm fun _ _ _ _ => rfl,
    computes_eor.toEa fun _ _ _ _ => rfl, computes_eor.imm fun _ _ _ _ => rfl,
    fun _ _ s hmodify => ⟨exec_notEa_of_canModify hmodify, sameMemoryBut_stored (State.pastOpWord_mem s)⟩⟩

/-- Settles O16: the flags ANDed with their bits of the operand are the word ANDed under an upper byte of ones. -/
theorem andToCcrCompletes : Obligations.AndToCcrCompletes := by
  intro imm s hfetch
  refine ⟨{ s.sr with ccr := andCcr s.sr.ccr imm }, s.sr.word_andCcr imm, rfl, rfl, rfl, ?_⟩
  have hpc : s.pc + 2 + BitVec.ofNat 32 (2 * 1) = s.pc + 4 := BitVec.add_assoc s.pc 2 2
  rw [exec_andiToCcr hfetch, ← hpc]
  rfl

/-- Settles O17: the second operation takes the register's low bits back to what they were, for EOR because the source
is another register and so the same both times. -/
theorem notAndEorUndoThemselves : Obligations.NotAndEorUndoThemselves := by
  refine ⟨fun sz r s => ⟨_, _, exec_notEa_dn s sz r, exec_notEa_dn _ sz r, ?_⟩,
    fun sz q r s hqr => ⟨_, _, exec_eor_dn s sz r q, exec_eor_dn _ sz r q, ?_⟩⟩
  · refine s.afterLogic_restored sz r _ ?_
    rw [State.lowD_afterLogic_same, BitVec.not_not]
  · refine s.afterLogic_restored sz r _ ?_
    rw [State.lowD_afterLogic_same, State.lowD_afterLogic_other s sz r _ hqr, ← BitVec.xor_assoc, BitVec.xor_self,
      BitVec.zero_xor]

/-- Settles O57: each of the thirty is parts that keep X, and an exception's entry keeps the flags. -/
theorem flagXIsNotAffected : Obligations.FlagXIsNotAffected := by
  intro sz ea dst q r imm bit count i s t hi
  suffices h : EndKeepsX s (exec i s) from h t
  revert i
  simp only [List.forall_mem_cons]
  exact ⟨
    -- CLR, EXT
    KeepsX.finish (KeepsX.clear _ sz ea),
    KeepsX.finish (KeepsX.putD _ .word r _), KeepsX.finish (KeepsX.putD _ .long r _),
    -- MULS, MULU, DIVS, DIVU
    KeepsX.finish (KeepsX.multiply _ ea r fun v d => BitVec.ofInt 32 (v.toInt * d.toInt)),
    KeepsX.finish (KeepsX.multiply _ ea r fun v d => BitVec.ofNat 32 (v.toNat * d.toNat)),
    (divides_divs ea r).keepsX s, (divides_divu ea r).keepsX s,
    -- AND, OR, EOR, NOT
    KeepsX.finish (aluAnd_keepsX.eaToDn _ sz ea r), KeepsX.finish (aluAnd_keepsX.dnToEa _ sz r ea),
    KeepsX.finish (aluAnd_keepsX.immToEa _ sz imm ea), KeepsX.finish (aluOr_keepsX.eaToDn _ sz ea r),
    KeepsX.finish (aluOr_keepsX.dnToEa _ sz r ea), KeepsX.finish (aluOr_keepsX.immToEa _ sz imm ea),
    KeepsX.finish (aluEor_keepsX.dnToEa _ sz r ea), KeepsX.finish (aluEor_keepsX.immToEa _ sz imm ea),
    KeepsX.finish (KeepsX.modifyEa _ sz ea fun _ _ => rfl),
    -- ROL, ROR
    KeepsX.finish (KeepsX.shiftReg (fun _ => rfl) _ sz count r),
    KeepsX.finish (KeepsX.shiftReg (fun _ => rfl) _ sz count r),
    KeepsX.finish (KeepsX.shiftMem (fun _ => rfl) _ ea), KeepsX.finish (KeepsX.shiftMem (fun _ => rfl) _ ea),
    -- BTST, BSET, BCLR, BCHG
    KeepsX.finish (KeepsX.afterBitNumber fun t => KeepsX.bitTest t _ ea),
    KeepsX.finish (KeepsX.afterBitNumber fun t => KeepsX.bitChange t _ _ ea),
    KeepsX.finish (KeepsX.afterBitNumber fun t => KeepsX.bitChange t _ _ ea),
    KeepsX.finish (KeepsX.afterBitNumber fun t => KeepsX.bitChange t _ _ ea),
    KeepsX.finish (KeepsX.bitTest _ _ ea), KeepsX.finish (KeepsX.bitChange _ _ _ ea),
    KeepsX.finish (KeepsX.bitChange _ _ _ ea), KeepsX.finish (KeepsX.bitChange _ _ _ ea),
    -- MOVE, CMPI
    KeepsX.finish (KeepsX.move _ sz ea dst), KeepsX.finish (KeepsX.compareImm _ sz imm ea),
    List.forall_mem_nil _⟩

end Sys2Proof.Proofs
end

section
/-! SUPPORT. The loops of the rotates in closed form (45_lsl_lsr_rotate.md R203 to R206): what they hold after any
count. -/

namespace Sys2Proof.Machine

/-! ### Rotations -/

section Rotations

variable {n : Nat} (v : BitVec n) (j k : Nat)

/-- The counterpart of `BitVec.getMsbD_rotateLeft`. -/
theorem getLsbD_rotateRight_mod (i : Nat) :
    (v.rotateRight k).getLsbD i = (decide (i < n) && v.getLsbD ((k + i) % n)) := by
  rcases Nat.lt_or_ge i n with hi | hi
  · have hk : k % n < n := Nat.mod_lt k (Nat.zero_lt_of_lt hi)
    rw [BitVec.getLsbD_rotateRight, ← Nat.mod_add_mod]
    by_cases hinside : i < n - k % n
    · simp [hinside, hi, Nat.mod_eq_of_lt (show k % n + i < n by omega)]
    · simp [hinside, hi, Nat.mod_eq_sub_mod (show n ≤ k % n + i by omega),
        Nat.mod_eq_of_lt (show k % n + i - n < n by omega), show i - (n - k % n) = k % n + i - n by omega]
  · simp [hi, Nat.not_lt.mpr hi]

theorem rotateLeft_rotateLeft : (v.rotateLeft k).rotateLeft j = v.rotateLeft (k + j) := by
  refine BitVec.eq_of_getMsbD_eq fun i hi => ?_
  have hmod : (j + i) % n < n := Nat.mod_lt _ (Nat.zero_lt_of_lt hi)
  simp [BitVec.getMsbD_rotateLeft, hi, hmod, Nat.add_assoc]

theorem rotateRight_rotateRight : (v.rotateRight k).rotateRight j = v.rotateRight (k + j) := by
  refine BitVec.eq_of_getLsbD_eq fun i hi => ?_
  have hmod : (j + i) % n < n := Nat.mod_lt _ (Nat.zero_lt_of_lt hi)
  simp only [getLsbD_rotateRight_mod, hi, hmod, decide_true, Bool.true_and, Nat.add_mod_mod, Nat.add_assoc]

theorem getMsbD_atBottom {i : Nat} (b : Bool) (hi : i < n) :
    (atBottom b : BitVec n).getMsbD i = (decide (i = n - 1) && b) := by
  have hbottom : n - 1 - i = 0 ↔ i = n - 1 := by omega
  have hn : 0 < n := Nat.zero_lt_of_lt hi
  cases b <;> simp [atBottom, BitVec.getMsbD, hi, hn, hbottom]

/-- One iteration of ROL puts the top bit back at the bottom. -/
theorem shiftLeft_or_high : v <<< 1 ||| atBottom v.msb = v.rotateLeft 1 := by
  refine BitVec.eq_of_getMsbD_eq fun i hi => ?_
  rw [BitVec.getMsbD_or, getMsbD_atBottom _ hi, BitVec.getMsbD_shiftLeft, BitVec.getMsbD_rotateLeft, Nat.add_comm 1 i]
  by_cases hin : i + 1 < n
  · simp [hi, Nat.mod_eq_of_lt hin, show i ≠ n - 1 by omega]
  · obtain rfl : n = i + 1 := by omega
    simp [BitVec.msb]

/-- One iteration of ROR puts the bottom bit back at the top. -/
theorem ushiftRight_or_low : v >>> 1 ||| atTop (v.getLsbD 0) = v.rotateRight 1 := by
  refine BitVec.eq_of_getLsbD_eq fun i hi => ?_
  rw [getLsbD_rotateRight_mod, BitVec.getLsbD_eq_getElem hi, BitVec.getElem_or, getElem_atTop _ hi,
    BitVec.getElem_ushiftRight, Nat.add_comm 1 i]
  by_cases hin : i + 1 < n
  · simp [hi, Nat.mod_eq_of_lt hin, show i ≠ n - 1 by omega]
  · obtain rfl : n = i + 1 := by omega
    simp

theorem rotateLeft_zero : v.rotateLeft 0 = v :=
  BitVec.eq_of_getMsbD_eq fun i hi => by simp [BitVec.getMsbD_rotateLeft, hi, Nat.mod_eq_of_lt hi]

theorem rotateRight_zero : v.rotateRight 0 = v :=
  BitVec.eq_of_getLsbD_eq fun i hi => by simp only [getLsbD_rotateRight_mod, hi, Nat.mod_eq_of_lt hi, Nat.zero_add,
    decide_true, Bool.true_and]

theorem getLsbD_zero_rotateLeft_succ (hn : 0 < n) : (v.rotateLeft (k + 1)).getLsbD 0 = (v.rotateLeft k).msb := by
  have hlast : k + 1 + (n - 1) = k + n := by omega
  rw [BitVec.getLsbD_eq_getMsbD, BitVec.msb, BitVec.getMsbD_rotateLeft, BitVec.getMsbD_rotateLeft, Nat.sub_zero, hlast,
    Nat.add_mod_right]
  simp [hn]

theorem msb_rotateRight_succ (hn : 0 < n) : (v.rotateRight (k + 1)).msb = (v.rotateRight k).getLsbD 0 := by
  have hlast : k + 1 + (n - 1) = k + n := by omega
  rw [BitVec.msb_eq_getLsbD_last, getLsbD_rotateRight_mod, getLsbD_rotateRight_mod, hlast, Nat.add_mod_right]
  simp [hn]

end Rotations

/-! ### Without X -/

section Rotate

variable {n : Nat} (v : BitVec n) (x : Bool) (k : Nat)

/-- The loop of ROL after `k` places. -/
def rotatedLeft : Shifting n :=
  { v := v.rotateLeft k, x, c := decide (1 ≤ k) && (v.rotateLeft k).getLsbD 0, changed := false }

/-- The loop of ROR after `k` places. -/
def rotatedRight : Shifting n :=
  { v := v.rotateRight k, x, c := decide (1 ≤ k) && (v.rotateRight k).msb, changed := false }

theorem step_rol_rotatedLeft (hn : 0 < n) : (rotatedLeft v x k).step .rol = rotatedLeft v x (k + 1) := by
  simp only [Shifting.step, rotatedLeft, shiftLeft_or_high, rotateLeft_rotateLeft, getLsbD_zero_rotateLeft_succ _ _ hn,
    Nat.le_add_left, decide_true, Bool.true_and]

theorem step_ror_rotatedRight (hn : 0 < n) : (rotatedRight v x k).step .ror = rotatedRight v x (k + 1) := by
  simp only [Shifting.step, rotatedRight, ushiftRight_or_low, rotateRight_rotateRight, msb_rotateRight_succ _ _ hn,
    Nat.le_add_left, decide_true, Bool.true_and]

theorem repeat_rol (hn : 0 < n) : Shifting.repeat .rol k { v, x, c := false, changed := false } = rotatedLeft v x k :=
  Shifting.repeat_eq (by simp [rotatedLeft, rotateLeft_zero]) (fun k => step_rol_rotatedLeft v x k hn) k

theorem repeat_ror (hn : 0 < n) : Shifting.repeat .ror k { v, x, c := false, changed := false } = rotatedRight v x k :=
  Shifting.repeat_eq (by simp [rotatedRight, rotateRight_zero]) (fun k => step_ror_rotatedRight v x k hn) k

end Rotate

/-! ### With X -/

section RotateExtended

variable {n : Nat} (w : BitVec (1 + n)) (k : Nat)

/-- The loop of ROXL and ROXR where X with the operand below it is `w`. -/
def heldExtended : Shifting n :=
  { v := w.setWidth n, x := w.msb, c := w.msb, changed := false }

theorem heldExtended_append (v : BitVec n) (x : Bool) :
    heldExtended (BitVec.ofBool x ++ v) = { v, x, c := x, changed := false } := by
  have hmsb : (BitVec.ofBool x ++ v).msb = x := by cases x <;> simp [BitVec.msb_append]
  rw [heldExtended, hmsb, BitVec.setWidth_append_eq_right]

/-- One iteration of ROXL is one of ROL on X with the operand. -/
theorem step_roxl_heldExtended (hn : 0 < n) : (heldExtended w).step .roxl = heldExtended (w.rotateLeft 1) := by
  have hv : w.setWidth n <<< 1 ||| atBottom w.msb = (w.rotateLeft 1).setWidth n := by
    rw [← shiftLeft_or_high, BitVec.setWidth_or, BitVec.setWidth_shiftLeft_of_le (Nat.le_add_left n 1), atBottom,
      atBottom, BitVec.setWidth_ofNat_of_le (Nat.le_add_left n 1)]
  have hx : (w.setWidth n).msb = (w.rotateLeft 1).msb := by
    rw [BitVec.msb_rotateLeft, Nat.mod_eq_of_lt (show 1 < 1 + n by omega), BitVec.msb, BitVec.getMsbD_setWidth]
    simp
  simp only [Shifting.step, heldExtended, hv, hx]

/-- One iteration of ROXR is one of ROR on X with the operand. -/
theorem step_roxr_heldExtended (hn : 0 < n) : (heldExtended w).step .roxr = heldExtended (w.rotateRight 1) := by
  have hv : w.setWidth n >>> 1 ||| atTop w.msb = (w.rotateRight 1).setWidth n := by
    ext i hi
    rw [BitVec.getElem_or, getElem_atTop _ hi, BitVec.getElem_ushiftRight, BitVec.getLsbD_setWidth,
      BitVec.getElem_setWidth, getLsbD_rotateRight_mod, Nat.mod_eq_of_lt (show 1 + i < 1 + n by omega)]
    by_cases hin : 1 + i < n
    · simp [hin, show i < 1 + n by omega, show i ≠ n - 1 by omega]
    · obtain rfl : n = 1 + i := by omega
      simp [BitVec.msb_eq_getLsbD_last, show i < 1 + (1 + i) by omega]
  have hx : (w.setWidth n).getLsbD 0 = (w.rotateRight 1).msb := by
    rw [msb_rotateRight_succ _ _ (show 0 < 1 + n by omega), rotateRight_zero, BitVec.getLsbD_setWidth]
    simp [hn]
  simp only [Shifting.step, heldExtended, hv, hx]

theorem repeat_roxl (hn : 0 < n) : Shifting.repeat .roxl k (heldExtended w) = heldExtended (w.rotateLeft k) :=
  Shifting.repeat_eq (closed := fun k => heldExtended (w.rotateLeft k)) (by simp only [rotateLeft_zero])
    (fun k => by rw [step_roxl_heldExtended _ hn, rotateLeft_rotateLeft]) k

theorem repeat_roxr (hn : 0 < n) : Shifting.repeat .roxr k (heldExtended w) = heldExtended (w.rotateRight k) :=
  Shifting.repeat_eq (closed := fun k => heldExtended (w.rotateRight k)) (by simp only [rotateRight_zero])
    (fun k => by rw [step_roxr_heldExtended _ hn, rotateRight_rotateRight]) k

end RotateExtended

end Sys2Proof.Machine
end

section
/-! The statements of 45_lsl_lsr_rotate.md. -/

namespace Sys2Proof.Proofs

open Sys2Proof.Machine

/-- Settles O28: the loops of ROL and ROR hold the operand rotated, and in C the bit that came round last. -/
theorem rotateClosedForm : Obligations.RotateClosedForm := by
  intro sz k f v
  constructor
  · simp only [shiftBy, ShiftOp.startC, repeat_rol v f.x k sz.bits_pos]
    rfl
  · simp only [shiftBy, ShiftOp.startC, repeat_ror v f.x k sz.bits_pos]
    rfl

/-- Settles O29: the loops of ROXL and ROXR hold X with the operand below it, rotated as one bit vector, and C is X. -/
theorem rotateExtendedClosedForm : Obligations.RotateExtendedClosedForm := by
  intro sz k f v
  constructor
  · simp only [shiftBy, ShiftOp.startC, ← heldExtended_append, repeat_roxl _ k sz.bits_pos]
    rfl
  · simp only [shiftBy, ShiftOp.startC, ← heldExtended_append, repeat_roxr _ k sz.bits_pos]
    rfl

end Sys2Proof.Proofs
end

section
/-! SUPPORT. The bit instructions completed (46_bit_manipulation.md R220 to R225) from the state in which the bit number
is known: behind its word in the static form, behind the operation word in the dynamic one. -/

namespace Sys2Proof.Machine

/-- What follows the fetch of `k` extension words, as the operand of a static form follows its bit-number word, runs
from behind them. -/
theorem State.bind_fetchExt_of_fetchable {α : Type} {s : State} {k : Nat} {f : State → Eff α}
    (h : s.fetchable k = true) : ((s.fetchExt k).bind fun _ t => f t) = f (s.afterExt k) := by
  rw [State.fetchExt_done h, Eff.bind_done]

section BitInstructions

variable {i : Instr} {s b : State} {n : Nat} {ea : EA}

/-- BTST reads its operand and writes Z alone (R222). -/
theorem completes_bitTest (hexec : exec i s = finish s (b.bitTest n ea)) (hsr : b.sr = s.sr) (hmem : b.mem = s.mem)
    (hread : b.canRead (bitSize ea) ea = true) :
    Completes i s (s.retire ((b.afterEa (bitSize ea) ea).setCcr
      (bitCcr s.sr.ccr (b.operand (bitSize ea) ea) n))) := by
  refine ⟨?_, fun k => by simp [hmem]⟩
  rw [hexec, State.bitTest, State.readEa_of_canRead hread, Eff.bind_done, finish_done, State.afterEa_sr, hsr]

/-- BCHG, BCLR and BSET put back their operand with one bit changed, and write Z from the operand as it was (R223 to
R225). -/
theorem completesBit {op : BitOp} (hexec : exec i s = finish s (b.bitChange op n ea)) (hsr : b.sr = s.sr)
    (hmem : b.mem = s.mem) : CompletesBit i s b n ea op.apply := by
  intro hmodify
  refine ⟨?_, sameMemoryBut_stored hmem⟩
  rw [hexec, State.bitChange, State.modifyEa_of_canModify hmodify, finish_done, hsr]
  rfl

end BitInstructions

end Sys2Proof.Machine
end

section
/-! The statement of 46_bit_manipulation.md. -/

namespace Sys2Proof.Proofs

open Sys2Proof.Machine

/-- Settles O30: the static forms begin behind the bit-number word that was fetched, the dynamic forms with the register
behind the operation word; from there on both are the same test or change of one bit. -/
theorem bitInstructionsComplete : Obligations.BitInstructionsComplete := by
  refine ⟨fun ea s => ⟨fun bit hfetch hread => ?_, fun r hread => ?_⟩,
    fun ea s => ⟨fun bit hfetch => ?_, fun r => ?_⟩⟩
  · exact completes_bitTest (congrArg (finish s) (State.bind_fetchExt_of_fetchable hfetch)) rfl rfl hread
  · exact completes_bitTest rfl rfl rfl hread
  · have hstatic (op : BitOp) := congrArg (finish s)
      (State.bind_fetchExt_of_fetchable (f := fun t => t.bitChange op bit.toNat ea) hfetch)
    exact ⟨completesBit (op := .chg) (hstatic .chg) rfl rfl, completesBit (op := .clr) (hstatic .clr) rfl rfl,
      completesBit (op := .set) (hstatic .set) rfl rfl⟩
  · exact ⟨completesBit (op := .chg) rfl rfl rfl, completesBit (op := .clr) rfl rfl rfl,
      completesBit (op := .set) rfl rfl rfl⟩

end Sys2Proof.Proofs
end

section
/-! SUPPORT. MOVE, MOVEA, LEA, Bcc and STOP completed (47_example_support.md R231 to R240). -/

namespace Sys2Proof.Machine

/-- MOVE's source where it can be read: the operand, but a free value for an address register that the destination
steps (20_memory.md R75, log 23). -/
theorem State.moveSource_done {s : State} {sz : Size} {src dst : EA} (h : s.canRead sz src = true) :
    ∃ v, ((∀ r, src = .an r → eaSteps r dst = false) → v = s.operand sz src) ∧
      s.moveSource sz src dst = .done v (s.afterEa sz src) := by
  cases src with
  | an r =>
    have hafter : s.afterEa sz (.an r) = s := by simp [State.afterEa, State.afterExt, State.eaStep, eaExt]
    refine ⟨(s.dataA r dst).setWidth sz.bits, fun hsteps => ?_, by rw [hafter]; rfl⟩
    rw [State.operand, hafter, State.dataA, hsteps r rfl]
    rfl
  | _ => exact ⟨_, fun _ => rfl, State.readEa_of_canRead h⟩

/-- MOVE completes where its destination, too, can be reached and written. -/
theorem exec_move_done {sz : Size} {src dst : EA} {s b : State} {v : BitVec sz.bits}
    (hsource : s.pastOpWord.moveSource sz src dst = .done v b) (hfetch : b.fetchable (eaExt sz dst) = true)
    (hwrite : b.writable sz (b.eaLoc sz dst) = true) :
    exec (.move sz src dst) s = .next (s.retire ((b.stored sz dst v).setCcr (logicCcr b.sr.ccr v))) := by
  rw [← State.writable_congr (b.afterEa_busMap sz dst)] at hwrite
  have hsr : (b.stored sz dst v).sr = b.sr := by rw [State.stored, State.put_sr, State.afterEa_sr]
  calc exec (.move sz src dst) s
      = finish s ((s.pastOpWord.moveSource sz src dst).bind fun v t => (t.evalEa sz dst).bind fun l t =>
          (t.writeLoc sz l v).bind fun _ t => .done () (t.setCcr (logicCcr t.sr.ccr v))) := rfl
    _ = .next (s.retire ((b.stored sz dst v).setCcr (logicCcr b.sr.ccr v))) := by
        rw [hsource, Eff.bind_done, State.evalEa_done hfetch, Eff.bind_done, State.writeLoc_done hwrite, Eff.bind_done,
          finish_done, ← hsr, State.stored]

/-- LEA loads the address of a location in memory, and makes no access there. -/
theorem completes_lea {ea : EA} {r : RegNum} {a : Long} {space : Space} {s : State}
    (hfetch : s.pastOpWord.fetchable (eaExt .long ea) = true) (hloc : s.pastOpWord.eaLoc .long ea = .mem a space)
    (hstep : ∀ t : State, t.eaStep .long ea = t) :
    Completes (.lea ea r) s (s.retire ((s.pastOpWord.afterExt (eaExt .long ea)).writeA r a)) := by
  refine ⟨?_, fun k => by simp⟩
  calc exec (.lea ea r) s
      = finish s ((s.pastOpWord.evalEa .long ea).bind fun l t => t.loadAddress r l) := rfl
    _ = .next (s.retire ((s.pastOpWord.afterExt (eaExt .long ea)).writeA r a)) := by
        rw [State.evalEa_done hfetch, hloc, State.afterEa, hstep]
        rfl

theorem State.indexValue_pastOpWord (s : State) (x : IndexExt) : s.pastOpWord.indexValue x = s.indexValue x := by
  cases h : x.reg with
  | d n => simp only [State.indexValue, h]; rfl
  | a n => simp only [State.indexValue, h, State.readA_pastOpWord]

/-- Bcc completes once its displacement's word is fetched, taken or not (R238). -/
theorem exec_bcc_of_fetchable {c : Cond} {disp : BranchDisp} {s : State}
    (h : s.pastOpWord.fetchable (branchExt disp) = true) :
    exec (.bcc c disp) s = .next { s with
      pc := if condHolds s.sr.ccr c then s.pc + 2 + branchOffset disp
        else s.pc + 2 + BitVec.ofNat 32 (2 * branchExt disp)
      prefetch := if condHolds s.sr.ccr c then [] else s.prefetch
      tracePending := s.sr.t } := by
  rw [exec_bcc, State.fetchExt_done h, finishWith_done]
  cases condHolds s.sr.ccr c <;> rfl

end Sys2Proof.Machine
end

section
/-! SUPPORT. The flags of CMPI as comparisons (47_example_support.md R234, R239). -/

namespace Sys2Proof.Machine

/-- The table of R239, each condition by the flags it asks for. -/
theorem condHolds_table (f : Ccr) :
    (condHolds f .hi = true ↔ f.c = false ∧ f.z = false) ∧ (condHolds f .ls = true ↔ f.c = true ∨ f.z = true) ∧
    (condHolds f .cc = true ↔ f.c = false) ∧ (condHolds f .cs = true ↔ f.c = true) ∧
    (condHolds f .ne = true ↔ f.z = false) ∧ (condHolds f .eq = true ↔ f.z = true) ∧
    (condHolds f .vc = true ↔ f.v = false) ∧ (condHolds f .vs = true ↔ f.v = true) ∧
    (condHolds f .pl = true ↔ f.n = false) ∧ (condHolds f .mi = true ↔ f.n = true) ∧
    (condHolds f .ge = true ↔ f.n = f.v) ∧ (condHolds f .lt = true ↔ f.n ≠ f.v) ∧
    (condHolds f .gt = true ↔ f.z = false ∧ f.n = f.v) ∧ (condHolds f .le = true ↔ f.z = true ∨ f.n ≠ f.v) := by
  simp [condHolds]

section Comparison

variable {n : Nat} (f : Ccr) (v d : BitVec n)

theorem cmpCcr_eq (hn : 0 < n) : cmpCcr f v d = { differenceFlags v d false with x := f.x } := by
  rw [cmpCcr, subN_eq v d false hn]
  simp [differenceFlags]

theorem cmpCcr_n : (cmpCcr f v d).n = (d - v).msb := by
  simp [cmpCcr, subN]

theorem cmpCcr_z : (cmpCcr f v d).z = true ↔ d = v := by
  simpa [cmpCcr, subN] using sub_eq_zero (a := d) (b := v)

theorem cmpCcr_c : (cmpCcr f v d).c = true ↔ d.toNat < v.toNat := by
  simp [cmpCcr, subN]

theorem cmpCcr_v (hn : 0 < n) : (cmpCcr f v d).v = outOfRange n (d.toInt - v.toInt) := by
  simp [cmpCcr_eq f v d hn, differenceFlags]

/-- N and V differ exactly where the exact difference is negative. -/
theorem cmpCcr_n_ne_v (hn : 0 < n) : (cmpCcr f v d).n ≠ (cmpCcr f v d).v ↔ d.toInt < v.toInt := by
  have hdouble := mul_pow_sub_one hn.ne' (2 : Int)
  have hv := And.intro v.le_toInt v.toInt_lt
  have hd := And.intro d.le_toInt d.toInt_lt
  have hcut : d - v = BitVec.ofInt n (d.toInt - v.toInt) := by simpa using sub_borrow_eq_ofInt v d false
  have hneg : decide (d.toInt - v.toInt < 0) = decide (d.toInt < v.toInt) := decide_eq_decide.mpr (by omega)
  rw [cmpCcr_n, cmpCcr_v f v d hn, outOfRange_eq_sign_lost hn (by omega) (by omega), ← hcut, hneg]
  cases (d - v).msb <;> simp

end Comparison

end Sys2Proof.Machine
end

section
/-! The statements of 47_example_support.md. -/

namespace Sys2Proof.Proofs

open Sys2Proof.Machine

/-- Settles O10: the immediate is fetched, the destination read, and the flags of their difference set. -/
theorem compareCompletes : Obligations.CompareCompletes := by
  intro sz imm ea s hfetch hread
  refine ⟨?_, fun k => by simp⟩
  calc exec (.cmpi sz imm ea) s
      = finish s ((s.pastOpWord.fetchExt (immExt sz)).bind fun _ t => (t.readEa sz ea).bind fun d t =>
          .done () (t.setCcr (cmpCcr t.sr.ccr (imm.setWidth sz.bits) d))) := rfl
    _ = _ := by
        rw [State.fetchExt_done hfetch, Eff.bind_done, State.readEa_of_canRead hread, Eff.bind_done,
          cmpCcr_eq _ _ _ sz.bits_pos, State.afterEa_sr]
        rfl

/-- Settles O31: the source is read, then the destination reached from there and written. -/
theorem moveCompletes : Obligations.MoveCompletes := by
  intro sz src dst s hread b hfetch hwrite
  obtain ⟨v, hv, hsource⟩ := State.moveSource_done (dst := dst) hread
  have hsr : b.sr = s.sr := s.pastOpWord.afterEa_sr sz src
  refine ⟨v, hv, ?_, sameMemoryBut_stored (s.pastOpWord.afterEa_mem sz src)⟩
  rw [exec_move_done hsource hfetch hwrite, hsr]

/-- Settles O32: the register is written after the source's mode has stepped it. -/
theorem moveToAddressRegisterCompletes : Obligations.MoveToAddressRegisterCompletes := by
  intro sz src r s hread
  have hexec : exec (.movea sz src r) s =
      finish s ((s.pastOpWord.readEa sz src).bind fun v t => .done () (t.writeA r (v.signExtend 32))) := rfl
  rw [State.readEa_of_canRead hread] at hexec
  exact ⟨_, hexec, rfl, State.readA_writeA_same _ r _, fun k => by simp⟩

/-- Settles O33: each control mode is a location in memory and steps no register. -/
theorem loadAddressCompletes : Obligations.LoadAddressCompletes := by
  intro q r d a x s
  have hindex := s.indexValue_pastOpWord x
  refine ⟨?_, fun hfetch => ⟨?_, ?_, ?_, ?_, ?_⟩, fun hfetch => ?_⟩
  · exact completes_lea rfl (congrArg (Loc.mem · .data) (s.readA_pastOpWord q)) fun _ => rfl
  · exact completes_lea hfetch (by rw [State.eaLoc, State.readA_pastOpWord]) fun _ => rfl
  · exact completes_lea hfetch (by rw [State.eaLoc, State.readA_pastOpWord, hindex, BitVec.add_assoc]; rfl) fun _ => rfl
  · exact completes_lea hfetch rfl fun _ => rfl
  · exact completes_lea hfetch rfl fun _ => rfl
  · exact completes_lea hfetch (by rw [State.eaLoc, hindex, BitVec.add_assoc]; rfl) fun _ => rfl
  · exact completes_lea hfetch rfl fun _ => rfl

/-- Settles O34: a byte displacement needs no word, a word displacement one. -/
theorem branchCompletes : Obligations.BranchCompletes := by
  refine fun c s => ⟨fun d => ?_, fun d hfetch => ?_⟩
  · simpa [branchExt, branchOffset] using exec_bcc_of_fetchable (c := c) (disp := .short d) (s := s) rfl
  · simpa [branchExt, branchOffset, BitVec.add_assoc] using exec_bcc_of_fetchable (c := c) (disp := .word d) hfetch

/-- Settles O35: each condition is a fact about flags, and each flag of CMPI one about its operands. -/
theorem conditionsCompare : Obligations.ConditionsCompare := by
  refine ⟨fun x n z v c => condHolds_table ⟨x, n, z, v, c⟩, ?_⟩
  intro sz f v d g
  obtain ⟨hi, ls, cc, cs, ne, eq, vc, vs, pl, mi, ge, lt, gt, le⟩ := condHolds_table g
  have hv : g.v = outOfRange sz.bits (d.toInt - v.toInt) := cmpCcr_v f v d sz.bits_pos
  have hn : g.n = (d - v).msb := cmpCcr_n f v d
  have hc : g.c = true ↔ d.toNat < v.toNat := cmpCcr_c f v d
  have hz : g.z = true ↔ d = v := cmpCcr_z f v d
  have hnv : g.n ≠ g.v ↔ d.toInt < v.toInt := cmpCcr_n_ne_v f v d sz.bits_pos
  have hcc : g.c = false ↔ v.toNat ≤ d.toNat := by rw [← Bool.not_eq_true, hc, Nat.not_lt]
  have hnz : g.z = false ↔ d ≠ v := by rw [← Bool.not_eq_true, hz]
  have hge : g.n = g.v ↔ v.toInt ≤ d.toInt := by rw [← not_iff_not, ← Ne, hnv, Int.not_le]
  have hnat : d = v ↔ d.toNat = v.toNat := BitVec.toNat_inj.symm
  have hint : d = v ↔ d.toInt = v.toInt := BitVec.toInt_inj.symm
  refine ⟨?_, ?_, cc.trans hcc, cs.trans hc, eq.trans hz, ne.trans hnz, ge.trans hge, lt.trans hnv, ?_, ?_,
    by rw [vc, hv], by rw [vs, hv], by rw [pl, hn], by rw [mi, hn]⟩
  · rw [hi, hcc, hnz, Ne, hnat]; omega
  · rw [ls, hc, hz, hnat]; omega
  · rw [gt, hge, hnz, Ne, hint]; omega
  · rw [le, hnv, hz, hint]; omega

/-- Settles O36: the operand's word is fetched, and its stored bits are those of the mask. -/
theorem stopCompletes : Obligations.StopCompletes := by
  intro imm s hs hfetch
  refine ⟨StatusReg.ofWord imm, StatusReg.word_ofWord imm, ?_⟩
  rw [exec_stop hs, State.fetchExt_done hfetch, finishWith_done]
  simp [State.retire, State.afterExt, State.pastOpWord, BitVec.add_assoc]

/-- Settles O37: the violation is an exception of the instruction itself, entered before anything is fetched. -/
theorem stopIsPrivileged : Obligations.StopIsPrivileged := by
  intro imm s hs hwf hroom hvector
  rw [exec_stop_user hs]
  exact enterException_entered hwf hroom hvector

end Sys2Proof.Proofs
end

section
/-! SUPPORT. The entry of a bus error or address error: its 14-byte frame where the stack has room for it
(60_exceptions.md R261, R262, R263). -/

namespace Sys2Proof.Machine

/-! ### Memory with the frame -/

/-- A store leaves what is read above it. -/
theorem Memory.readBE_writeBE_above (m : Memory) {a nb c n : Nat} (v : Long) (h : a + nb ≤ c)
    (hc : c + n ≤ 2 ^ Config.addrBits) : (m.writeBE a nb v).readBE c n = m.readBE c n :=
  Memory.readBE_congr fun j hj => Memory.read_writeBE_outside v (by omega) (by rw [place_of_lt (by omega)]; omega)

/-- A word stored reads back. -/
theorem Memory.readBE_writeBE_word {m : Memory} {a : Nat} (w : Word) (h : m.wf = true)
    (ha : a + 2 ≤ 2 ^ Config.addrBits) : (m.writeBE a 2 (w.setWidth 32)).readBE a 2 = w.setWidth 32 := by
  rw [Memory.readBE_writeBE _ _ _ h (by decide) ha, word_and_twoBytes]

/-- A long word stored reads back. -/
theorem Memory.readBE_writeBE_long {m : Memory} {a : Nat} (v : Long) (h : m.wf = true)
    (ha : a + 4 ≤ 2 ^ Config.addrBits) : (m.writeBE a 4 v).readBE a 4 = v := by
  rw [Memory.readBE_writeBE _ _ _ h (by decide) ha]
  exact BitVec.and_allOnes

/-- What a group 0 frame holds, from its lowest address up (R263). -/
structure Group0Frame where
  access : Word
  addr : Long
  opWord : Word
  sr : Word
  pc : Long

/-- The long word and word at the top of the frame. -/
def Memory.withGroup0Top (m : Memory) (a : Nat) (f : Group0Frame) : Memory :=
  (m.writeBE (a + 10) 4 f.pc).writeBE (a + 8) 2 (f.sr.setWidth 32)

/-- The frame down to the address of the access that failed. -/
def Memory.withGroup0Rest (m : Memory) (a : Nat) (f : Group0Frame) : Memory :=
  ((m.withGroup0Top a f).writeBE (a + 6) 2 (f.opWord.setWidth 32)).writeBE (a + 2) 4 f.addr

/-- Memory with a group 0 frame at a place, written from its top down. -/
def Memory.withGroup0 (m : Memory) (a : Nat) (f : Group0Frame) : Memory :=
  (m.withGroup0Rest a f).writeBE a 2 (f.access.setWidth 32)

section Frame

variable {m : Memory} {a : Nat} (f : Group0Frame)

theorem Memory.wf_withGroup0Top (h : m.wf = true) (ha : a + 14 ≤ 2 ^ Config.addrBits) :
    (m.withGroup0Top a f).wf = true :=
  Memory.wf_writeBE_of_le _ (Memory.wf_writeBE_of_le _ h (by omega)) (by omega)

theorem Memory.wf_withGroup0Rest (h : m.wf = true) (ha : a + 14 ≤ 2 ^ Config.addrBits) :
    (m.withGroup0Rest a f).wf = true :=
  Memory.wf_writeBE_of_le _ (Memory.wf_writeBE_of_le _ (Memory.wf_withGroup0Top f h ha) (by omega)) (by omega)

theorem Memory.withGroup0_access (h : m.wf = true) (ha : a + 14 ≤ 2 ^ Config.addrBits) :
    (m.withGroup0 a f).readBE a 2 = f.access.setWidth 32 :=
  Memory.readBE_writeBE_word _ (Memory.wf_withGroup0Rest f h ha) (by omega)

theorem Memory.withGroup0_addr (h : m.wf = true) (ha : a + 14 ≤ 2 ^ Config.addrBits) :
    (m.withGroup0 a f).readBE (a + 2) 4 = f.addr := by
  rw [Memory.withGroup0, Memory.readBE_writeBE_above _ _ (by omega) (by omega), Memory.withGroup0Rest]
  exact Memory.readBE_writeBE_long _ (Memory.wf_writeBE_of_le _ (Memory.wf_withGroup0Top f h ha) (by omega)) (by omega)

theorem Memory.withGroup0_opWord (h : m.wf = true) (ha : a + 14 ≤ 2 ^ Config.addrBits) :
    (m.withGroup0 a f).readBE (a + 6) 2 = f.opWord.setWidth 32 := by
  rw [Memory.withGroup0, Memory.readBE_writeBE_above _ _ (by omega) (by omega), Memory.withGroup0Rest,
    Memory.readBE_writeBE_above _ _ (by omega) (by omega)]
  exact Memory.readBE_writeBE_word _ (Memory.wf_withGroup0Top f h ha) (by omega)

/-- What is above the operation word is as the first two writes left it. -/
theorem Memory.withGroup0_top {c n : Nat} (hc : a + 8 ≤ c) (hn : c + n ≤ 2 ^ Config.addrBits) :
    (m.withGroup0 a f).readBE c n = (m.withGroup0Top a f).readBE c n := by
  rw [Memory.withGroup0, Memory.readBE_writeBE_above _ _ (by omega) hn, Memory.withGroup0Rest,
    Memory.readBE_writeBE_above _ _ (by omega) hn, Memory.readBE_writeBE_above _ _ (by omega) hn]

theorem Memory.withGroup0_sr (h : m.wf = true) (ha : a + 14 ≤ 2 ^ Config.addrBits) :
    (m.withGroup0 a f).readBE (a + 8) 2 = f.sr.setWidth 32 := by
  rw [Memory.withGroup0_top f le_rfl (by omega), Memory.withGroup0Top]
  exact Memory.readBE_writeBE_word _ (Memory.wf_writeBE_of_le _ h (by omega)) (by omega)

theorem Memory.withGroup0_pc (h : m.wf = true) (ha : a + 14 ≤ 2 ^ Config.addrBits) :
    (m.withGroup0 a f).readBE (a + 10) 4 = f.pc := by
  rw [Memory.withGroup0_top f (by omega) (by omega), Memory.withGroup0Top,
    Memory.readBE_writeBE_above _ _ (by omega) (by omega)]
  exact Memory.readBE_writeBE_long _ h (by omega)

theorem Memory.read_withGroup0_outside {k : Nat} (ha : a + 14 ≤ 2 ^ Config.addrBits) (hk : ¬ (a ≤ k ∧ k < a + 14)) :
    (m.withGroup0 a f).read k = m.read k := by
  rw [Memory.withGroup0, Memory.read_writeBE_outside _ (by omega) (by omega), Memory.withGroup0Rest,
    Memory.read_writeBE_outside _ (by omega) (by omega), Memory.read_writeBE_outside _ (by omega) (by omega),
    Memory.withGroup0Top, Memory.read_writeBE_outside _ (by omega) (by omega),
    Memory.read_writeBE_outside _ (by omega) (by omega)]

end Frame

/-! ### The frame pushed -/

/-- A state from which `k` bytes were pushed on the supervisor stack, with the memory that is left. -/
def State.under (s : State) (k : Nat) (m : Memory) : State := { s with ssp := s.ssp - BitVec.ofNat 32 k, mem := m }

@[simp] theorem State.under_mem (s : State) (k : Nat) (m : Memory) : (s.under k m).mem = m := rfl

@[simp] theorem State.under_busMap (s : State) (k : Nat) (m : Memory) : (s.under k m).busMap = s.busMap := rfl

theorem State.under_zero (s : State) : s.under 0 s.mem = s := by
  simp [State.under]

theorem State.under_ssp_sub (s : State) (k w : Nat) (m : Memory) :
    (s.under k m).ssp - BitVec.ofNat 32 w = s.ssp - BitVec.ofNat 32 (k + w) := by
  rw [State.under, BitVec.sub_sub, BitVec.ofNat_add]

/-- The next push of a frame for which the stack has room, counted from the frame's lowest address. -/
theorem State.push_under {s : State} {nb : Nat} (hs : s.sr.s = true) (hroom : s.stackRoom nb = true) {k w : Nat}
    (m : Memory) (v : Long) (hpos : 0 < k + w) (hk : k + w ≤ nb) (heven : (k + w) % 2 = 0) :
    (s.under k m).push w v =
      .done () (s.under (k + w) (m.writeBE (busAddress (s.ssp - BitVec.ofNat 32 nb) + (nb - (k + w))) w v)) := by
  obtain ⟨-, hplaces, -⟩ := State.stackRoom_iff.mp hroom
  have hacc : (s.under k m).accessible .write ((s.under k m).ssp - BitVec.ofNat 32 w) w = true := by
    rw [State.accessible_congr (s.under_busMap k m), State.under_ssp_sub]
    exact State.accessible_of_stackRoom hroom hpos hk heven (by omega)
  rw [State.push_done (s := s.under k m) hs hacc, State.pushed, State.under_ssp_sub,
    busAddress_in_frame hpos hk hplaces]
  rfl

/-- What the entry of a failed access puts into its frame. -/
def State.group0Frame (s : State) (x : FailedAccess) (pc0 : Long) (opWord : Word) (busy : Bool) : Group0Frame where
  access := accessWord x busy s.sr.s s.draws
  addr := x.addr
  opWord := opWord
  sr := s.sr.word
  pc := framePc pc0 s.draws

/-- The state after the five writes of a group 0 frame. -/
def State.group0Framed (s : State) (f : Group0Frame) : State :=
  s.supervisor.under 14 (s.mem.withGroup0 (busAddress (s.ssp - 14)) f)

@[simp] theorem State.group0Framed_ssp (s : State) (f : Group0Frame) : (s.group0Framed f).ssp = s.ssp - 14 := rfl

@[simp] theorem State.group0Framed_mem (s : State) (f : Group0Frame) :
    (s.group0Framed f).mem = s.mem.withGroup0 (busAddress (s.ssp - 14)) f := by
  rw [State.group0Framed, State.under_mem]

@[simp] theorem State.group0Framed_busMap (s : State) (f : Group0Frame) : (s.group0Framed f).busMap = s.busMap := rfl

theorem State.pushGroup0_done {s : State} (x : FailedAccess) (pc0 : Long) (opWord : Word) (busy : Bool)
    (h : s.stackRoom 14 = true) :
    s.pushGroup0 x pc0 opWord busy = .done () (s.group0Framed (s.group0Frame x pc0 opWord busy)) := by
  have hpush {k w : Nat} (m : Memory) (v : Long) (hpos : 0 < k + w) (hk : k + w ≤ 14) (heven : (k + w) % 2 = 0) :
      (s.supervisor.under k m).push w v = .done () (s.supervisor.under (k + w)
        (m.writeBE (busAddress (s.ssp - 14) + (14 - (k + w))) w v)) :=
    State.push_under rfl (s := s.supervisor) (nb := 14) h m v hpos hk heven
  rw [State.pushGroup0, ← s.supervisor.under_zero]
  rw [hpush _ _ (by decide) (by decide) (by decide), Eff.bind_done,
    hpush _ _ (by decide) (by decide) (by decide), Eff.bind_done,
    hpush _ _ (by decide) (by decide) (by decide), Eff.bind_done,
    hpush _ _ (by decide) (by decide) (by decide), Eff.bind_done,
    hpush _ _ (by decide) (by decide) (by decide)]
  rfl

/-- The state after a frame is written and the vector read (R252). -/
def State.vectored (s : State) (vector : Nat) : State :=
  { s with pc := s.busRead .exception (4 * vector) 4, tracePending := false }

theorem State.vectored_ssp (s : State) (vector : Nat) : (s.vectored vector).ssp = s.ssp := rfl

theorem State.vectored_mem (s : State) (vector : Nat) : (s.vectored vector).mem = s.mem := rfl

theorem State.vectored_pc {s : State} {vector : Nat} (h : s.plain (4 * vector) 4 = true) :
    (s.vectored vector).pc = (s.vectored vector).mem.readBE (4 * vector) 4 :=
  State.busRead_plain h .exception

/-- The entry of a bus error or address error where the stack has room and the vector can be read. -/
theorem enterGroup0_done {x : FailedAccess} {pc0 : Long} {opWord : Word} {busy : Bool} {s : State}
    (hroom : s.stackRoom 14 = true) (hvector : s.vectorReady x.error.vector = true) :
    enterGroup0 x pc0 opWord busy s =
      .next ((s.group0Framed (s.group0Frame x pc0 opWord busy)).vectored x.error.vector) := by
  have hvector' : (s.group0Framed (s.group0Frame x pc0 opWord busy)).vectorReady x.error.vector = true := hvector
  rw [enterGroup0, State.pushGroup0_done x pc0 opWord busy hroom, Eff.bind_done, State.readVector_done hvector']
  rfl

/-! ### The fields of the frame -/

section AccessWord

variable (x : FailedAccess) (busy supervisor : Bool) (draw : Nat)

/-- The bits of the first word are those of its fields in order. -/
theorem accessWord_getLsbD (k : Nat) :
    ((accessWord x busy supervisor draw).setWidth 32).getLsbD k = (decide (k < 32) &&
      (Config.frameUndefinedBits draw ++ BitVec.ofBool (decide (x.dir = .read)) ++ BitVec.ofBool busy ++
        functionCode supervisor x.space).getLsbD k) :=
  BitVec.getLsbD_setWidth ..

theorem accessWord_direction :
    ((accessWord x busy supervisor draw).setWidth 32).getLsbD 4 = decide (x.dir = .read) := by
  rw [accessWord_getLsbD, BitVec.getLsbD_append, BitVec.getLsbD_append, BitVec.getLsbD_append]
  simp

theorem accessWord_busy : ((accessWord x busy supervisor draw).setWidth 32).getLsbD 3 = busy := by
  rw [accessWord_getLsbD, BitVec.getLsbD_append, BitVec.getLsbD_append]
  simp

theorem accessWord_functionCode :
    ((accessWord x busy supervisor draw).setWidth 32).extractLsb' 0 3 = functionCode supervisor x.space := by
  apply BitVec.eq_of_getLsbD_eq
  intro i hi
  rw [BitVec.getLsbD_extractLsb', accessWord_getLsbD, Nat.zero_add, BitVec.getLsbD_append]
  simp [hi, show i < 32 by omega]

end AccessWord

/-- The program counter in the frame has advanced by 2 to 10 bytes. -/
theorem framePc_advance (pc0 : Long) (draw : Nat) :
    ∃ k : Nat, 2 ≤ k ∧ k ≤ 10 ∧ framePc pc0 draw = pc0 + BitVec.ofNat 32 k := by
  have hlt := (Config.framePcAdvance draw).isLt
  refine ⟨2 + (Config.framePcAdvance draw).val, by omega, by omega, ?_⟩
  rw [framePc, BitVec.ofNat_add, BitVec.add_assoc]
  rfl

/-- The frame's writes leave all that R263 says of the stack. -/
theorem group0Framed_frame {x : FailedAccess} {pc0 : Long} {opWord : Word} {busy : Bool} {s : State}
    (hwf : s.mem.wf = true) (hplaces : busAddress (s.ssp - 14) + 14 ≤ 2 ^ Config.addrBits) :
    let a := busAddress (s.ssp - 14)
    let m := s.mem.withGroup0 a (s.group0Frame x pc0 opWord busy)
    (m.readBE a 2).getLsbD 4 = decide (x.dir = .read) ∧ (m.readBE a 2).getLsbD 3 = busy ∧
      (m.readBE a 2).extractLsb' 0 3 = functionCode s.sr.s x.space ∧ m.readBE (a + 2) 4 = x.addr ∧
      m.readBE (a + 6) 2 = opWord.setWidth 32 ∧ m.readBE (a + 8) 2 = s.sr.word.setWidth 32 ∧
      ∃ k : Nat, 2 ≤ k ∧ k ≤ 10 ∧ m.readBE (a + 10) 4 = pc0 + BitVec.ofNat 32 k := by
  intro a m
  obtain ⟨k, hlo, hhi, hk⟩ := framePc_advance pc0 s.draws
  refine ⟨?_, ?_, ?_, Memory.withGroup0_addr _ hwf hplaces, Memory.withGroup0_opWord _ hwf hplaces,
    Memory.withGroup0_sr _ hwf hplaces, k, hlo, hhi, (Memory.withGroup0_pc _ hwf hplaces).trans hk⟩
  all_goals rw [Memory.withGroup0_access _ hwf hplaces, State.group0Frame]
  · exact accessWord_direction ..
  · exact accessWord_busy ..
  · exact accessWord_functionCode ..

/-- The state that R263 describes, from its stack pointer and memory. -/
theorem EnteredGroup0.of_frame {x : FailedAccess} {pc0 : Long} {opWord : Word} {busy : Bool} {s t : State}
    (hwf : s.mem.wf = true) (hplaces : busAddress (s.ssp - 14) + 14 ≤ 2 ^ Config.addrBits) (htaken : Taken s t)
    (hmask : t.sr.i = s.sr.i) (hssp : t.ssp = s.ssp - 14)
    (hmem : t.mem = s.mem.withGroup0 (busAddress (s.ssp - 14)) (s.group0Frame x pc0 opWord busy))
    (hpc : s.plain (4 * x.error.vector) 4 = true → t.pc = t.mem.readBE (4 * x.error.vector) 4) :
    EnteredGroup0 x pc0 opWord busy s t := by
  obtain ⟨hdir, hbusy, hcode, haddr, hword, hsr, hsaved⟩ :=
    group0Framed_frame (x := x) (pc0 := pc0) (opWord := opWord) (busy := busy) hwf hplaces
  have houtside : SameMemoryAbove 14 s t := by
    intro k hk
    rw [hssp] at hk
    rw [hmem]
    exact Memory.read_withGroup0_outside _ hplaces hk
  rw [← hmem, ← hssp] at hdir hbusy hcode haddr hword hsr hsaved
  exact ⟨⟨htaken.d, htaken.a, htaken.usp, htaken.ccr⟩, htaken.srS, htaken.srT, hmask, htaken.stopped, hssp, hdir, hbusy,
    hcode, haddr, hword, hsr, hsaved, houtside, htaken.prefetch, hpc⟩

/-- The entry of a bus error or address error leaves all that R263 says. -/
theorem enterGroup0_entered {x : FailedAccess} {pc0 : Long} {opWord : Word} {busy : Bool} {s : State}
    (hwf : s.mem.wf = true) (hroom : s.stackRoom 14 = true) (hvector : s.vectorReady x.error.vector = true) :
    ∃ t, enterGroup0 x pc0 opWord busy s = .next t ∧ EnteredGroup0 x pc0 opWord busy s t ∧
      t.tracePending = false ∧ t.halted = s.halted ∧ t.mem.wf = true := by
  obtain ⟨-, hplaces, -⟩ := State.stackRoom_iff.mp hroom
  have henter := enterGroup0_done (pc0 := pc0) (opWord := opWord) (busy := busy) hroom hvector
  obtain ⟨htaken, hmask, htrace, -⟩ := enterGroup0_next henter
  have hplain (h : s.plain (4 * x.error.vector) 4 = true) :=
    State.vectored_pc ((State.plain_congr (s.group0Framed_busMap (s.group0Frame x pc0 opWord busy)) ..).trans h)
  exact ⟨_, henter, .of_frame hwf hplaces htaken hmask ((State.vectored_ssp ..).trans (s.group0Framed_ssp _))
    ((State.vectored_mem ..).trans (s.group0Framed_mem _)) hplain, htrace, rfl, htaken.wf hwf⟩

end Sys2Proof.Machine
end

section
/-! SUPPORT. The return from an exception (60_exceptions.md R269). -/

namespace Sys2Proof.Machine

/-- The 6-byte frame popped, where it can be read. -/
theorem returnFromException_done {s : State} (hsr : s.accessible .read s.ssp 2 = true)
    (hpc : s.accessible .read (s.ssp + 2) 4 = true) :
    returnFromException s = .next { s with
      sr := StatusReg.ofWord ((s.busRead .exception (busAddress s.ssp) 2).setWidth 16)
      pc := s.busRead .exception (busAddress (s.ssp + 2)) 4
      ssp := s.ssp + 6
      prefetch := [] } := by
  rw [returnFromException, State.memRead_done hsr, Eff.bind_done, State.memRead_done hpc]
  rfl

/-- A frame of 6 bytes lies in the address space from an even address up, in plain memory that responds to reads. -/
structure FrameReadable (s : State) : Prop where
  even : s.ssp.getLsbD 0 = false
  places : busAddress s.ssp + 6 ≤ 2 ^ Config.addrBits
  responds : s.responds .read (busAddress s.ssp) 6 = true
  plain : s.plain (busAddress s.ssp) 6 = true

/-- An address counted up from an even one stays even by an even count. -/
theorem even_add {a : Long} {k : Nat} (ha : a.getLsbD 0 = false) (hk : k % 2 = 0) :
    (a + BitVec.ofNat 32 k).getLsbD 0 = false := by
  simp only [getLsbD_zero_eq, decide_eq_false_iff_not, BitVec.toNat_add, BitVec.toNat_ofNat] at ha ⊢
  omega

/-- Counting up within the address space reaches the places above. -/
theorem busAddress_add {a : Long} {k : Nat} (h : busAddress a + k < 2 ^ Config.addrBits) :
    busAddress (a + BitVec.ofNat 32 k) = busAddress a + k := by
  simp only [busAddress, Config.addrBits, BitVec.toNat_add, BitVec.toNat_ofNat] at h ⊢
  omega

/-- A part of plain memory is plain. -/
theorem State.plain_part {s : State} {a nb j w : Nat} (h : s.plain a nb = true) (hj : j + w ≤ nb) :
    s.plain (a + j) w = true := by
  simp only [State.plain, List.all_eq_true, List.mem_range] at h ⊢
  intro i hi
  rw [Nat.add_assoc]
  exact h (j + i) (by omega)

/-- From a frame that holds a status register and a program counter both are loaded. -/
theorem returnFromException_of_frame {s : State} {sr : StatusReg} {pc : Long} (h : FrameReadable s)
    (hsr : s.mem.readBE (busAddress s.ssp) 2 = sr.word.setWidth 32) (hpc : s.mem.readBE (busAddress s.ssp + 2) 4 = pc) :
    returnFromException s = .next { s with sr := sr, pc := pc, ssp := s.ssp + 6, prefetch := [] } := by
  have hplace : busAddress (s.ssp + 2) = busAddress s.ssp + 2 :=
    busAddress_add (k := 2) (Nat.lt_of_lt_of_le (by omega) h.places)
  have heven : (s.ssp + 2).getLsbD 0 = false := even_add (k := 2) h.even rfl
  have hword : s.accessible .read s.ssp 2 = true := by
    rw [State.accessible, misaligned_of_byte_or_even (.inr h.even)]
    exact State.responds_part (j := 0) h.responds (by decide)
  have hlong : s.accessible .read (s.ssp + 2) 4 = true := by
    rw [State.accessible, misaligned_of_byte_or_even (.inr heven), hplace]
    exact State.responds_part (j := 2) h.responds (by decide)
  have hplain : s.plain (busAddress s.ssp) 2 = true := State.plain_part (j := 0) h.plain (by decide)
  have hback : StatusReg.ofWord ((sr.word.setWidth 32).setWidth 16) = sr := by
    rw [BitVec.setWidth_setWidth_of_le _ (by decide), BitVec.setWidth_eq, StatusReg.ofWord_word]
  rw [returnFromException_done hword hlong, hplace, State.busRead_plain hplain, hsr, hback,
    State.busRead_plain (State.plain_part h.plain (by decide)), hpc]

end Sys2Proof.Machine
end

section
/-! SUPPORT. Double bus faults (60_exceptions.md R263, R264, 70_reset_and_hazards.md R290). -/

namespace Sys2Proof.Machine

/-- A part that is done or whose access fails. -/
def Eff.Answers {α : Type} (e : Eff α) : Prop := ∀ r, e ≠ .refuse r

theorem Eff.Answers.bind {α β : Type} {e : Eff α} {f : α → State → Eff β} (he : e.Answers)
    (hf : ∀ v t, (f v t).Answers) : (e.bind f).Answers := by
  cases e with
  | done v t => exact hf v t
  | abort x t => nofun
  | refuse r => exact absurd rfl (he r)

theorem State.memRead_answers (s : State) (use : Config.ReadUse) (space : Space) (addr : Long) (nb : Nat) :
    (s.memRead use space addr nb).Answers :=
  Eff.Answers.bind (s.access_ne_refuse space .read addr nb) fun _ _ => nofun

theorem State.push_answers (s : State) (nb : Nat) (v : Long) : (s.push nb v).Answers :=
  Eff.Answers.bind (State.access_ne_refuse _ .data .write _ nb) fun _ _ => nofun

theorem State.pushGroup0_answers (s : State) (x : FailedAccess) (pc0 : Long) (opWord : Word) (busy : Bool) :
    (s.pushGroup0 x pc0 opWord busy).Answers :=
  (State.push_answers _ _ _).bind fun _ _ => (State.push_answers _ _ _).bind fun _ _ =>
    (State.push_answers _ _ _).bind fun _ _ => (State.push_answers _ _ _).bind fun _ _ => State.push_answers _ _ _

/-- Where the frame is not written or the vector not read, the processor halts (R264). -/
theorem enterGroup0_halts {x : FailedAccess} {pc0 : Long} {opWord : Word} {busy : Bool} {s : State}
    (h : ∀ t, s.pushGroup0 x pc0 opWord busy = .done () t → ∀ v u, t.readVector x.error.vector ≠ .done v u) :
    ∃ t, enterGroup0 x pc0 opWord busy s = .next t ∧ t.halted = true := by
  have hanswers := (s.pushGroup0_answers x pc0 opWord busy).bind (f := fun _ t => t.readVector x.error.vector)
    fun _ t => t.memRead_answers _ _ _ _
  have hfails (v : Long) (u : State) :
      (s.pushGroup0 x pc0 opWord busy).bind (fun _ t => t.readVector x.error.vector) ≠ .done v u := by
    intro hdone
    obtain ⟨_, t, hpush, hread⟩ := Eff.bind_eq_done hdone
    exact h t hpush v u hread
  unfold enterGroup0
  split
  · next hdone => exact absurd hdone (hfails _ _)
  · exact ⟨_, rfl, rfl⟩
  · next hrefuse => exact absurd hrefuse (hanswers _)

/-- With an odd supervisor stack pointer it halts at the first write, with memory as it was. -/
theorem enterGroup0_of_odd {x : FailedAccess} {pc0 : Long} {opWord : Word} {busy : Bool} {s : State}
    (h : s.ssp.getLsbD 0 = true) :
    enterGroup0 x pc0 opWord busy s =
      .next { s.supervisor with ssp := s.ssp - 4, halted := true, tracePending := false } := by
  have hodd : (s.ssp - BitVec.ofNat 32 4).getLsbD 0 = true := by
    simp only [getLsbD_zero_eq, decide_eq_true_eq, BitVec.toNat_sub, BitVec.toNat_ofNat] at h ⊢
    omega
  have hpush (v : Long) : s.supervisor.push 4 v =
      .abort ⟨.address, s.ssp - BitVec.ofNat 32 4, .write, .data⟩ (s.supervisor.setSp (s.ssp - BitVec.ofNat 32 4)) :=
    State.memWrite_misaligned (misaligned_of_odd hodd (by decide))
  rw [enterGroup0, State.pushGroup0, hpush]
  rfl

/-- A push that is made leaves the state under its bytes, which are writable. -/
theorem State.push_under_eq_done {s t : State} {k w : Nat} {m : Memory} {v : Long} {u : Unit} (hs : s.sr.s = true)
    (h : (s.under k m).push w v = .done u t) :
    s.responds .write (busAddress (s.ssp - BitVec.ofNat 32 (k + w))) w = true ∧ ∃ m', t = s.under (k + w) m' := by
  have hsp : (s.under k m).sp = (s.under k m).ssp := if_pos hs
  rw [State.push, hsp, State.under_ssp_sub, State.setSp_supervisor (s := s.under k m) hs] at h
  obtain ⟨hacc, rfl⟩ := State.memWrite_eq_done h
  obtain ⟨-, hresponds⟩ := Bool.and_eq_true_iff.mp hacc
  exact ⟨hresponds, _, rfl⟩

/-- A group 0 frame that is written is written to writable memory, word by word. -/
theorem State.pushGroup0_eq_done {x : FailedAccess} {pc0 : Long} {opWord : Word} {busy : Bool} {s t : State}
    {u : Unit} (h : s.pushGroup0 x pc0 opWord busy = .done u t) :
    (∃ m, t = s.supervisor.under 14 m) ∧ s.responds .write (busAddress (s.ssp - 4)) 4 = true ∧
      s.responds .write (busAddress (s.ssp - 6)) 2 = true ∧ s.responds .write (busAddress (s.ssp - 8)) 2 = true ∧
      s.responds .write (busAddress (s.ssp - 12)) 4 = true ∧ s.responds .write (busAddress (s.ssp - 14)) 2 = true := by
  have hs : s.supervisor.sr.s = true := rfl
  rw [State.pushGroup0, ← s.supervisor.under_zero] at h
  obtain ⟨_, _, hpush, h⟩ := Eff.bind_eq_done h
  obtain ⟨hpc, _, rfl⟩ := State.push_under_eq_done hs hpush
  obtain ⟨_, _, hpush, h⟩ := Eff.bind_eq_done h
  obtain ⟨hsr, _, rfl⟩ := State.push_under_eq_done hs hpush
  obtain ⟨_, _, hpush, h⟩ := Eff.bind_eq_done h
  obtain ⟨hop, _, rfl⟩ := State.push_under_eq_done hs hpush
  obtain ⟨_, _, hpush, h⟩ := Eff.bind_eq_done h
  obtain ⟨haddr, _, rfl⟩ := State.push_under_eq_done hs hpush
  obtain ⟨hword, hframe⟩ := State.push_under_eq_done hs h
  exact ⟨hframe, hpc, hsr, hop, haddr, hword⟩

/-- What responds to a count of bytes and to those after it responds to all. -/
theorem State.responds_append {s : State} {dir : Direction} {a m n : Nat} (hm : s.responds dir a m = true)
    (hn : s.responds dir (a + m) n = true) : s.responds dir a (m + n) = true := by
  simp only [State.responds, List.all_eq_true, List.mem_range] at hm hn ⊢
  intro j hj
  by_cases hjm : j < m
  · exact hm j hjm
  · have := hn (j - m) (by omega)
    rwa [show a + m + (j - m) = a + j by omega] at this

/-- A frame is written only where all its bytes respond. -/
theorem State.responds_of_pushGroup0 {x : FailedAccess} {pc0 : Long} {opWord : Word} {busy : Bool} {s t : State}
    {u : Unit} (hplaces : busAddress (s.ssp - 14) + 14 ≤ 2 ^ Config.addrBits)
    (h : s.pushGroup0 x pc0 opWord busy = .done u t) : s.responds .write (busAddress (s.ssp - 14)) 14 = true := by
  obtain ⟨-, hpc, hsr, hop, haddr, hword⟩ := State.pushGroup0_eq_done h
  have hplace {k : Nat} (hpos : 0 < k) (hk : k ≤ 14) :
      busAddress (s.ssp - BitVec.ofNat 32 k) = busAddress (s.ssp - 14) + (14 - k) :=
    busAddress_in_frame hpos hk hplaces
  rw [show busAddress (s.ssp - 4) = _ from hplace (by decide) (by decide)] at hpc
  rw [show busAddress (s.ssp - 6) = _ from hplace (by decide) (by decide)] at hsr
  rw [show busAddress (s.ssp - 8) = _ from hplace (by decide) (by decide)] at hop
  rw [show busAddress (s.ssp - 12) = _ from hplace (by decide) (by decide)] at haddr
  exact State.responds_append (State.responds_append (State.responds_append
    (State.responds_append hword haddr) hop) hsr) hpc

/-- The vectors of bus errors and address errors lie where the bus takes them. -/
theorem busAddress_errorVector (e : AccessError) : busAddress (BitVec.ofNat 32 (4 * e.vector)) = 4 * e.vector := by
  cases e <;> rfl

/-- A vector is read only where it responds. -/
theorem State.responds_of_readVector {s u : State} {e : AccessError} {v : Long}
    (h : s.readVector e.vector = .done v u) : s.responds .read (4 * e.vector) 4 = true := by
  obtain ⟨_, _, hacc, -⟩ := Eff.bind_eq_done h
  obtain ⟨-, hresponds⟩ := Bool.and_eq_true_iff.mp (State.access_eq_done hacc).1
  rwa [busAddress_errorVector] at hresponds

/-- An access that cannot be made fails with the state as it was. -/
theorem State.memRead_of_silent {s : State} {use : Config.ReadUse} {space : Space} {addr : Long} {nb : Nat}
    (h : s.responds .read (busAddress addr) nb = false) : ∃ x, s.memRead use space addr nb = .abort x s := by
  cases hal : misaligned addr nb with
  | true => exact ⟨_, State.memRead_misaligned hal⟩
  | false => exact ⟨_, by rw [State.memRead, State.access_silent hal h, Eff.bind_abort]⟩

theorem State.memRead_of_responds {s : State} {use : Config.ReadUse} {space : Space} {addr : Long} {nb : Nat}
    (hal : misaligned addr nb = false) (h : s.responds .read (busAddress addr) nb = true) :
    s.memRead use space addr nb = .done (s.busRead use (busAddress addr) nb) s :=
  State.memRead_done (by rw [State.accessible, hal, h]; rfl)

/-- The two reads of the reset sequence: SSP, which is loaded, and the program counter (R290). -/
def State.readResetVectors (s : State) : Eff Long :=
  (s.memRead .exception .program 0 4).bind fun ssp t => State.memRead { t with ssp } .exception .program 4 4

/-- What the reset sequence makes of its reads. -/
def restart (e : Eff Long) : Result :=
  match e with
  | .done pc t => .next { t with pc }
  | .abort _ t => .next { t with halted := true }
  | .refuse r => .refused r

theorem resetSequence_eq (s : State) : resetSequence s = restart s.restarting.readResetVectors := rfl

theorem State.readResetVectors_of_ssp {s : State} (h : s.responds .read 0 4 = true) :
    s.readResetVectors =
      State.memRead { s with ssp := s.busRead .exception 0 4 } .exception .program 4 4 := by
  have hssp : s.memRead .exception .program 0 4 = .done (s.busRead .exception 0 4) s := State.memRead_of_responds rfl h
  rw [State.readResetVectors, hssp, Eff.bind_done]

theorem State.readResetVectors_done {s : State} (h : s.responds .read 0 8 = true) :
    s.readResetVectors = .done (s.busRead .exception 4 4) { s with ssp := s.busRead .exception 0 4 } := by
  have hpc : s.responds .read 4 4 = true := State.responds_part (j := 4) h (by decide)
  rw [State.readResetVectors_of_ssp (State.responds_part (j := 0) h (by decide)),
    ← State.busRead_congr (s := s) (t := { s with ssp := s.busRead .exception 0 4 }) rfl rfl rfl]
  exact State.memRead_of_responds rfl hpc

theorem State.readResetVectors_fails {s : State} (h : s.responds .read 0 8 = false) :
    ∃ x t, s.readResetVectors = .abort x t ∧ t.mem = s.mem := by
  cases hssp : s.responds .read 0 4 with
  | false =>
    obtain ⟨x, hread⟩ := State.memRead_of_silent (s := s) (use := .exception) (space := .program) (addr := 0) hssp
    exact ⟨x, s, by rw [State.readResetVectors, hread, Eff.bind_abort], rfl⟩
  | true =>
    have hpc : s.responds .read 4 4 = false := by
      by_contra hpc
      exact absurd (State.responds_append hssp (Bool.eq_true_of_not_eq_false hpc)) (by simp [h])
    obtain ⟨x, hread⟩ := State.memRead_of_silent (s := { s with ssp := s.busRead .exception 0 4 }) (use := .exception)
      (space := .program) (addr := 4) hpc
    exact ⟨x, _, (State.readResetVectors_of_ssp hssp).trans hread, rfl⟩

/-- The reset sequence loads SSP and the program counter where both can be read (R290). -/
theorem resetSequence_done {s : State} (h : s.responds .read 0 8 = true) :
    resetSequence s = .next { s.restarting with
      ssp := s.restarting.busRead .exception 0 4
      pc := s.restarting.busRead .exception 4 4 } := by
  rw [resetSequence_eq, State.readResetVectors_done (s := s.restarting) h]
  rfl

/-- Where one of them cannot be read the processor halts (R264). -/
theorem resetSequence_halts {s : State} (h : s.responds .read 0 8 = false) :
    ∃ t, resetSequence s = .next t ∧ t.halted = true ∧ t.mem = s.mem := by
  obtain ⟨x, t, hfails, hmem⟩ := State.readResetVectors_fails (s := s.restarting) h
  exact ⟨{ t with halted := true }, by rw [resetSequence_eq, hfails]; rfl, rfl, hmem⟩

end Sys2Proof.Machine
end

section
/-! SUPPORT. What a step does where something stands before the next instruction, or where there is none to run
(60_exceptions.md R254, R258, R259, R266, R270, 70_reset_and_hazards.md R290). -/

namespace Sys2Proof.Machine

/-- Reset is above everything (R254). -/
theorem step_of_reset {s : State} (h : s.presented.reset = true) :
    step s = mapNext s.sampled.drawn (resetSequence s.sampled) :=
  if_pos h

/-- A halted processor waits for reset (R264). -/
theorem step_of_halted {s : State} (hreset : s.presented.reset = false) (hhalted : s.halted = true) :
    step s = if s.inputs = [] then .fault .halted else .next s.sampled := by
  simp [step, State.advance, hreset, hhalted]

/-- A step of a processor that is not halted, without reset. -/
theorem step_of_live {s : State} (hreset : s.presented.reset = false) (hlive : s.halted = false) :
    step s = s.sampled.proceed s.presented.ack := by
  simp [step, State.advance, hreset, hlive]

/-- A pending trace comes before all else (R254, R270). -/
theorem step_of_trace {s : State} (hreset : s.presented.reset = false) (hlive : s.halted = false)
    (htrace : s.tracePending = true) : step s = mapNext s.sampled.drawn (enterTrace s.sampled) := by
  rw [step_of_live hreset hlive]
  exact if_pos htrace

/-- Then an interrupt (R254, R266). -/
theorem step_of_interrupt {s : State} (hreset : s.presented.reset = false) (hlive : s.halted = false)
    (htrace : s.tracePending = false) (htaken : s.sampled.interruptTaken = true) :
    step s = mapNext s.sampled.drawn (enterInterrupt s.presented.ack s.sampled) := by
  rw [step_of_live hreset hlive, State.proceed, State.sampled_tracePending, htrace, if_neg Bool.false_ne_true,
    if_pos htaken]

/-- A stopped processor waits for it (R268). -/
theorem step_of_stopped {s : State} (hreset : s.presented.reset = false) (hlive : s.halted = false)
    (htrace : s.tracePending = false) (htaken : s.sampled.interruptTaken = false) (hstopped : s.stopped = true) :
    step s = .next s.sampled := by
  rw [step_of_live hreset hlive, State.proceed, State.sampled_tracePending, htrace, if_neg Bool.false_ne_true, htaken,
    if_neg Bool.false_ne_true]
  exact if_pos hstopped

/-- When an interrupt is taken, in terms of the inputs presented (R266). -/
theorem State.sampled_interruptTaken (s : State) :
    s.sampled.interruptTaken = true ↔
      s.sr.i < s.presented.level ∨ s.presented.level = 7 ∧ (s.nmi = true ∨ s.ipl ≠ 7) := by
  have hlevel : s.sampled.interruptTaken = (decide (s.sr.i < s.presented.level) ||
      s.presented.level == 7 && (s.presented.level == 7 && (s.nmi || s.ipl != 7))) := rfl
  rw [hlevel, Bool.or_eq_true, decide_eq_true_iff]
  simp +contextual

/-- An instruction fetch at an odd address is an address error (R255, R261). -/
theorem step_of_odd_pc {s : State} (hat : s.atInstruction = true) (hodd : s.pc.getLsbD 0 = true) :
    step s = mapNext s.sampled.drawn (enterGroup0 ⟨.address, s.pc, .read, .program⟩ s.pc
      (Config.frameOpWord s.draws) false s.sampled) := by
  have hfetch := State.access_misaligned (s := s.sampled) (space := .program) (dir := .read)
    (misaligned_of_odd hodd (nb := 2) (by decide))
  rw [step_eq_runInstruction hat, State.runInstruction, State.sampled_pc, hfetch]
  rfl

/-- Words that are no instruction in scope (R102, R258, R259). -/
theorem State.runWords_of_error {s : State} {w : Word} {ws : List Word} :
    (decode (w :: ws) = .error .illegal → s.runWords w ws = mapNext s.drawn (enterGroup1 4 w s)) ∧
    (decode (w :: ws) = .error .lineA → s.runWords w ws = mapNext s.drawn (enterGroup1 10 w s)) ∧
    (decode (w :: ws) = .error .lineF → s.runWords w ws = mapNext s.drawn (enterGroup1 11 w s)) ∧
    (∀ name, decode (w :: ws) = .error (.outOfScope name) → s.runWords w ws = .refused (.outOfScope name)) := by
  refine ⟨fun h => ?_, fun h => ?_, fun h => ?_, fun name h => ?_⟩ <;> rw [State.runWords, h]

/-- A word whose bits 15 to 12 are 1010 is of line A, whatever follows. -/
theorem decode_lineA {w : Word} (h : w.extractLsb' 12 4 = 0b1010) (ws : List Word) :
    decode (w :: ws) = .error .lineA := by
  simp [decode, decodeInScope, bitsAt, h, classify]

/-- A word whose bits 15 to 12 are 1111 is of line F, whatever follows. -/
theorem decode_lineF {w : Word} (h : w.extractLsb' 12 4 = 0b1111) (ws : List Word) :
    decode (w :: ws) = .error .lineF := by
  simp [decode, decodeInScope, bitsAt, h, classify]

/-- A step that enters an exception once the inputs are sampled leaves what R256 says of the state before it. -/
theorem step_entered {e : Entry} {s : State} {nmi : Bool}
    (hstep : step s = mapNext s.sampled.drawn (enterException e { s.sampled with nmi })) (hwf : s.mem.wf = true)
    (hroom : s.stackRoom 6 = true) (hvector : s.vectorReady e.vector = true) :
    ∃ t, step s = .next t ∧ Entered e.vector e.savedPc (e.mask.getD s.sr.i) s t ∧ t.tracePending = e.traced ∧
      t.nmi = nmi := by
  obtain ⟨t, henter, hentered, htrace⟩ := enterException_entered (s := { s.sampled with nmi }) hwf hroom hvector
  obtain ⟨htaken, -⟩ := enterException_next henter
  exact ⟨s.sampled.drawn t, by rw [hstep, henter, mapNext_next], hentered, htrace, htaken.nmi⟩

/-- An operation word that raises a group 1 exception: its own address is saved, and nothing is changed first. -/
theorem step_entered_group1 {s : State} {vector : Nat} {w : Word}
    (hstep : step s = mapNext s.sampled.drawn (enterGroup1 vector w s.sampled)) (hwf : s.mem.wf = true)
    (hroom : s.stackRoom 6 = true) (hvector : s.vectorReady vector = true) :
    ∃ t, step s = .next t ∧ Entered vector s.pc s.sr.i s t ∧ t.tracePending = false := by
  obtain ⟨t, hnext, hentered, htrace, -⟩ := step_entered hstep hwf hroom hvector
  exact ⟨t, hnext, hentered, htrace⟩

end Sys2Proof.Machine
end

section
/-! The statements of 60_exceptions.md but for the accesses of operands. -/

namespace Sys2Proof.Proofs

open Sys2Proof.Machine

/-- Settles O38: the frame is written, the vector read, and nothing else changed. -/
theorem exceptionEntry : Obligations.ExceptionEntry := by
  intro e s hwf hroom hvector
  obtain ⟨t, henter, hentered, htrace⟩ := enterException_entered hwf hroom hvector
  obtain ⟨htaken, -⟩ := enterException_next henter
  have hhalted : t.halted = s.halted := by
    rw [enterException_done hroom hvector] at henter
    cases henter
    rfl
  exact ⟨t, henter, hentered, htrace, hhalted, htaken.wf hwf⟩

/-- Settles O39: the five writes of the frame, none of which reaches another's bytes. -/
theorem groupZeroEntry : Obligations.GroupZeroEntry :=
  fun _ _ _ _ _ hwf hroom hvector => enterGroup0_entered hwf hroom hvector

/-- Settles O40: a frame that is written lies in writable memory and a vector that is read responds, so that where
these fail the entry fails. -/
theorem doubleBusFaultHalts : Obligations.DoubleBusFaultHalts := by
  refine ⟨?_, fun s hreset hsilent => ?_, fun s hat hpc hssp => ?_, fun s hhalted hreset => step_of_halted hreset hhalted⟩
  · intro x pc0 opWord busy s halts
    have hodd (h : s.ssp.getLsbD 0 = true) : halts :=
      ⟨_, enterGroup0_of_odd h, rfl, rfl, rfl, rfl, fun _ => rfl⟩
    have hfails (h : ∀ t, s.pushGroup0 x pc0 opWord busy = .done () t →
        ∀ v u, t.readVector x.error.vector ≠ .done v u) : halts := by
      cases heven : s.ssp.getLsbD 0 with
      | true => exact hodd heven
      | false =>
        obtain ⟨t, henter, hhalted⟩ := enterGroup0_halts h
        obtain ⟨htaken, -⟩ := enterGroup0_next henter
        exact ⟨t, henter, hhalted, htaken.d, htaken.a, htaken.usp, fun h => absurd (heven.symm.trans h) (by decide)⟩
    refine ⟨hodd, fun hplaces hsilent => hfails fun t hpush => ?_, fun hsilent => hfails fun t hpush v u hread => ?_⟩
    · exact absurd (State.responds_of_pushGroup0 hplaces hpush) (Bool.eq_false_iff.mp hsilent)
    · obtain ⟨⟨m, rfl⟩, -⟩ := State.pushGroup0_eq_done hpush
      exact absurd (State.responds_of_readVector hread) (Bool.eq_false_iff.mp hsilent)
  · obtain ⟨t, hseq, hhalted, hmem⟩ := resetSequence_halts (s := s.sampled) hsilent
    exact ⟨s.sampled.drawn t, by rw [step_of_reset hreset, hseq, mapNext_next], hhalted, hmem⟩
  · have hstep := step_of_odd_pc hat hpc
    rw [enterGroup0_of_odd (s := s.sampled) hssp] at hstep
    exact ⟨_, hstep, rfl⟩

/-- Settles O41: the frame that the entry wrote holds the status register and the program counter that the return
loads, and both pop what was pushed. -/
theorem returnUndoesEntry : Obligations.ReturnUndoesEntry := by
  intro e s t hwf hroom hvector hreads hplain h
  obtain ⟨t', henter, ⟨⟨hd, ha, husp, -⟩, -, -, -, -, hssp, hsr, hpc, -⟩, -⟩ := enterException_entered hwf hroom hvector
  obtain rfl : t' = t := by
    rw [henter] at h
    cases h
    rfl
  obtain ⟨htaken, -⟩ := enterException_next henter
  obtain ⟨heven, hplaces, -⟩ := State.stackRoom_iff.mp hroom
  have hframe : FrameReadable t' := by
    refine ⟨?_, ?_, ?_, ?_⟩ <;> rw [hssp]
    · exact even_sub (k := 6) heven rfl
    · exact hplaces
    · rw [State.responds_congr htaken.busMap, hreads]
    · rw [State.plain_congr htaken.busMap, hplain]
  refine ⟨_, returnFromException_of_frame hframe hsr hpc, rfl, rfl, ?_, husp, hd, ha, rfl⟩
  rw [hssp]
  exact BitVec.sub_add_cancel _ _

/-- Settles O43: the line is read off the operation word, and its exception entered. -/
theorem linesAAndFTrap : Obligations.LinesAAndFTrap := by
  intro s vector hat hacc hline hwf hroom hvector
  have hstep := step_eq_runWords hat hacc
  obtain ⟨-, hA, hF, -⟩ := State.runWords_of_error (s := s.sampled) (w := s.sampled.fetchedWord s.pc)
    (ws := s.sampled.wordsFrom (s.pc + 2) 4)
  rcases hline with ⟨rfl, hline⟩ | ⟨rfl, hline⟩
  · rw [hA (decode_lineA hline _)] at hstep
    exact step_entered_group1 hstep hwf hroom hvector
  · rw [hF (decode_lineF hline _)] at hstep
    exact step_entered_group1 hstep hwf hroom hvector

/-- Settles O44: the step runs the words at the program counter, and these are no instruction. -/
theorem illegalWordsTrap : Obligations.IllegalWordsTrap := by
  intro s hat hacc words
  obtain ⟨hillegal, -, -, hscope⟩ := State.runWords_of_error (s := s.sampled) (w := s.sampled.fetchedWord s.pc)
    (ws := s.sampled.wordsFrom (s.pc + 2) 4)
  have hstep := step_eq_runWords hat hacc
  refine ⟨fun hdecode hwf hroom hvector => ?_, fun name hdecode => hstep.trans (hscope name hdecode)⟩
  rw [hillegal hdecode] at hstep
  exact step_entered_group1 hstep hwf hroom hvector

/-- Settles O45: the fetch fails before anything else, and its error is entered. -/
theorem oddProgramCounter : Obligations.OddProgramCounter := by
  intro s hat hodd hwf hroom hvector
  obtain ⟨t, henter, hentered, -⟩ := enterGroup0_entered (x := ⟨.address, s.pc, .read, .program⟩) (pc0 := s.pc)
    (opWord := Config.frameOpWord s.draws) (busy := false) (s := s.sampled) hwf hroom hvector
  exact ⟨s.sampled.drawn t, _, by rw [step_of_odd_pc hat hodd, henter, mapNext_next], hentered⟩

/-- Settles O46: a pending trace is entered before the sampled interrupt is looked at. -/
theorem traceComesFirst : Obligations.TraceComesFirst := by
  intro s hreset hlive htrace hwf hroom hvector
  obtain ⟨t, hnext, hentered, hquiet, -⟩ := step_entered (step_of_trace hreset hlive htrace) hwf hroom hvector
  exact ⟨t, hnext, hentered, hquiet⟩

/-- Settles O47: the sampled level is above the mask or has risen to 7, and the interrupt's mask is that level. -/
theorem interruptIsTaken : Obligations.InterruptIsTaken := by
  intro s hreset hlive htrace hlevel hwf hroom vector hvector
  have htaken : s.sampled.interruptTaken = true := s.sampled_interruptTaken.mpr (hlevel.imp_right (And.imp_right .inr))
  obtain ⟨t, hnext, hentered, -, hnmi⟩ :=
    step_entered (step_of_interrupt hreset hlive htrace htaken) hwf hroom hvector
  exact ⟨t, hnext, hentered, hnmi⟩

/-- Settles O48: no interrupt is taken, and the state is the sampled one. -/
theorem stoppedWaits : Obligations.StoppedWaits := by
  intro s hreset hlive htrace hstopped hmask hseven
  have htaken : s.sampled.interruptTaken = false := by
    rw [← Bool.not_eq_true, s.sampled_interruptTaken]
    rintro (habove | ⟨hlevel, hrise⟩)
    · exact absurd habove (BitVec.not_lt.mpr hmask)
    · obtain ⟨hipl, hnmi⟩ := hseven hlevel
      simp [hipl, hnmi] at hrise
  exact ⟨s.sampled.nmi, step_of_stopped hreset hlive htrace htaken hstopped⟩

end Sys2Proof.Proofs
end

section
/-! SUPPORT. Reset from any state and from the state after reset (70_reset_and_hazards.md R290, R292). -/

namespace Sys2Proof.Machine

/-- The state after a step that does the reset sequence, where both reset vectors can be read. -/
def State.restarted (s : State) : State :=
  s.drawn { s.restarting with
    ssp := s.restarting.busRead .exception 0 4
    pc := s.restarting.busRead .exception 4 4 }

theorem step_of_reset_done {s : State} (hreset : s.presented.reset = true) (h : s.responds .read 0 8 = true) :
    step s = .next s.sampled.restarted := by
  rw [step_of_reset hreset, resetSequence_done (s := s.sampled) h]
  rfl

/-- From plain memory SSP and the program counter are what memory has (R51). -/
theorem State.restarted_of_plain {s : State} (h : s.plain 0 8 = true) :
    s.restarted = s.drawn { s.restarting with ssp := s.mem.readBE 0 4, pc := s.mem.readBE 4 4 } := by
  have hssp : s.restarting.plain 0 4 = true := State.plain_part (s := s) (j := 0) h (by decide)
  have hpc : s.restarting.plain 4 4 = true := State.plain_part (s := s) (j := 4) h (by decide)
  rw [State.restarted, State.busRead_plain hssp, State.busRead_plain hpc]
  rfl

/-- After reset all of the address space is plain memory. -/
theorem State.reset_vectors : State.reset.responds .read 0 8 = true ∧ State.reset.plain 0 8 = true := by
  decide

end Sys2Proof.Machine
end

section
/-! The statement of 70_reset_and_hazards.md. -/

namespace Sys2Proof.Proofs

open Sys2Proof.Machine

/-- Settles O49: the reset sequence changes the fields that R290 names, and from the state after reset these are those
of the launch state. -/
theorem resetSequence : Obligations.ResetSequence := by
  refine ⟨fun s hreset hreads => ?_, fun d a usp ssp image ack hssp hpc => ?_⟩
  · refine ⟨_, step_of_reset_done hreset hreads, rfl, rfl, rfl, rfl, rfl, rfl, rfl, fun hplain => ?_, rfl, rfl, rfl, rfl⟩
    rw [State.restarted_of_plain (s := s.sampled) hplain]
    exact ⟨rfl, rfl⟩
  · obtain ⟨hreads, hplain⟩ := State.reset_vectors
    let s : State := { State.reset with d, a, usp, mem := Memory.load image, inputs := [⟨true, 0, ack⟩] }
    have hstep : step s = .next s.sampled.restarted := step_of_reset_done rfl hreads
    rw [State.restarted_of_plain (s := s.sampled) hplain, show s.sampled.mem.readBE 0 4 = ssp from hssp,
      show s.sampled.mem.readBE 4 4 = 0x400 from hpc] at hstep
    exact ⟨_, 1, hstep, rfl⟩

end Sys2Proof.Proofs
end

section
/-! SUPPORT. Which accesses end an instruction where they fail, part by part and shape by shape (30_encoding.md R82,
20_memory.md R75, 60_exceptions.md R255, R261, R262). -/

namespace Sys2Proof.Machine

/-! ### Parts -/

/-- A part that first fetches `n` words, and ends where one of them cannot be fetched. -/
def Eff.FailsOnFetch {α : Type} (e : Eff α) (n : Nat) (b : State) : Prop :=
  ∀ k, k < n → b.fetchable k = true → e.FailsAt (b.afterExt k) .read .program (b.pc + BitVec.ofNat 32 (2 * k)) 2

/-- A part that evaluates an effective address and then reads there. -/
structure Eff.FailsOnRead {α : Type} (e : Eff α) (sz : Size) (ea : EA) (b : State) : Prop where
  fetch : e.FailsOnFetch (eaExt sz ea) b
  read (a : Long) (space : Space) : b.fetchable (eaExt sz ea) = true → b.eaLoc sz ea = .mem a space →
    e.FailsAt (b.afterEa sz ea) .read space a sz.bytes

/-- A part that then writes there. -/
structure Eff.FailsOnModify {α : Type} (e : Eff α) (sz : Size) (ea : EA) (b : State) : Prop
    extends e.FailsOnRead sz ea b where
  write (a : Long) (space : Space) : b.canRead sz ea = true → b.eaLoc sz ea = .mem a space →
    e.FailsAt (b.afterEa sz ea) .write .data a sz.bytes

/-- A part that evaluates an effective address and writes there without a read. -/
structure Eff.FailsOnStore {α : Type} (e : Eff α) (sz : Size) (ea : EA) (b : State) : Prop where
  fetch : e.FailsOnFetch (eaExt sz ea) b
  write (a : Long) (space : Space) : b.fetchable (eaExt sz ea) = true → b.eaLoc sz ea = .mem a space →
    e.FailsAt (b.afterEa sz ea) .write .data a sz.bytes

section Parts

variable {α β : Type} {e : Eff α} {n : Nat} {sz : Size} {ea : EA} {b : State}

theorem Eff.FailsOnFetch.bind {f : α → State → Eff β} (h : e.FailsOnFetch n b) : (e.bind f).FailsOnFetch n b :=
  fun k hk hfetch => (h k hk hfetch).bind

theorem Eff.FailsOnRead.bind {f : α → State → Eff β} (h : e.FailsOnRead sz ea b) : (e.bind f).FailsOnRead sz ea b :=
  ⟨h.fetch.bind, fun a space hfetch hloc => (h.read a space hfetch hloc).bind⟩

theorem State.fetchExt_failsOnFetch (b : State) (n : Nat) : (b.fetchExt n).FailsOnFetch n b :=
  fun _ hk hfetch => State.fetchExt_failsAt hk hfetch

theorem State.evalEa_failsOnFetch (b : State) (sz : Size) (ea : EA) : (b.evalEa sz ea).FailsOnFetch (eaExt sz ea) b :=
  (b.fetchExt_failsOnFetch _).bind

theorem State.readEa_failsOnRead (b : State) (sz : Size) (ea : EA) : (b.readEa sz ea).FailsOnRead sz ea b :=
  ⟨(b.evalEa_failsOnFetch sz ea).bind, fun _ _ hfetch hloc => State.readEa_failsAt hfetch hloc⟩

theorem State.modifyEa_failsOnModify (b : State) (sz : Size) (ea : EA)
    (f : Ccr → BitVec sz.bits → BitVec sz.bits × Ccr) : (b.modifyEa sz ea f).FailsOnModify sz ea b :=
  ⟨⟨(b.evalEa_failsOnFetch sz ea).bind, fun _ _ hfetch hloc => (State.modifyEa_failsAt hloc).1 hfetch⟩,
    fun _ _ hread hloc => (State.modifyEa_failsAt hloc).2 hread⟩

/-- An effective address evaluated and written, as MOVE does to its destination (R75). -/
theorem State.storeEa_failsOnStore {v : BitVec sz.bits} {f : Unit → State → Eff β} (b : State) :
    ((b.evalEa sz ea).bind fun l t => (t.writeLoc sz l v).bind f).FailsOnStore sz ea b := by
  refine ⟨(b.evalEa_failsOnFetch sz ea).bind, fun a space hfetch hloc => ?_⟩
  rw [State.evalEa_done hfetch, Eff.bind_done, hloc]
  exact (State.writeLoc_failsAt _ sz a space v).bind

/-- An effective address evaluated, read for nothing and written, as CLR does (41_clr_ext.md R150). -/
theorem State.clear_failsOnModify {v : BitVec sz.bits} {f : Unit → State → Eff β} (b : State) :
    ((b.evalEa sz ea).bind fun l t => (t.discardRead sz l).bind fun _ t => (t.writeLoc sz l v).bind f).FailsOnModify
      sz ea b := by
  refine ⟨⟨(b.evalEa_failsOnFetch sz ea).bind, fun a space hfetch hloc => ?_⟩, fun a space hread hloc => ?_⟩
  · rw [State.evalEa_done hfetch, Eff.bind_done, hloc]
    exact (State.readLoc_failsAt _ .destination sz a space).bind.bind
  · obtain ⟨hfetch, hreadable⟩ := Bool.and_eq_true_iff.mp hread
    rw [← State.readable_congr (b.afterEa_busMap sz ea)] at hreadable
    rw [State.evalEa_done hfetch, Eff.bind_done, State.discardRead_done hreadable, Eff.bind_done, hloc]
    exact (State.writeLoc_failsAt _ sz a space v).bind

/-- The source of MOVE is read but for an address register, which is not accessed. -/
theorem State.moveSource_failsOnRead (b : State) (sz : Size) (src dst : EA) :
    (b.moveSource sz src dst).FailsOnRead sz src b := by
  cases src with
  | an r => exact ⟨fun k hk => absurd hk (Nat.not_lt_zero k), fun _ _ _ hloc => nomatch hloc⟩
  | _ => exact b.readEa_failsOnRead sz _

end Parts

/-! ### Instructions -/

section Instructions

variable {α β : Type} {i : Instr} {s b : State} {e : Eff α} {k : α → State → Result} {n : Nat} {sz : Size} {ea : EA}

theorem Eff.FailsOnFetch.faults (h : e.FailsOnFetch n b) (hexec : exec i s = finishWith s e k) :
    FaultsOnFetch i n s b :=
  fun j hj hfetch => (h j hj hfetch).finishWith hexec

theorem Eff.FailsOnRead.faults (h : e.FailsOnRead sz ea b) (hexec : exec i s = finishWith s e k) :
    FaultsOnRead i sz ea s b :=
  ⟨h.fetch.faults hexec, fun a space hfetch hloc => (h.read a space hfetch hloc).finishWith hexec⟩

theorem Eff.FailsOnModify.faults (h : e.FailsOnModify sz ea b) (hexec : exec i s = finishWith s e k) :
    FaultsOnModify i sz ea s b :=
  ⟨h.toFailsOnRead.faults hexec, fun a space hread hloc => (h.write a space hread hloc).finishWith hexec⟩

theorem Eff.FailsOnStore.faults (h : e.FailsOnStore sz ea b) (hexec : exec i s = finishWith s e k) :
    FaultsOnStore i sz ea s b :=
  ⟨h.fetch.faults hexec, fun a space hfetch hloc => (h.write a space hfetch hloc).finishWith hexec⟩

/-- An instruction whose first part is done goes on with the next. -/
theorem exec_after {e : Eff β} {f : β → State → Eff α} {v : β} {t : State} (he : e = .done v t)
    (hexec : exec i s = finishWith s (e.bind f) k) : exec i s = finishWith s (f v t) k := by
  rw [hexec, he, Eff.bind_done]

/-- An instruction that reads a source. -/
theorem faultsOnRead_of_readEa {f : BitVec sz.bits → State → Eff α}
    (hexec : exec i s = finishWith s ((b.readEa sz ea).bind f) k) : FaultsOnRead i sz ea s b :=
  (b.readEa_failsOnRead sz ea).bind.faults hexec

/-- An instruction that changes a destination. -/
theorem faultsOnModify_of_modifyEa {f : Ccr → BitVec sz.bits → BitVec sz.bits × Ccr}
    (hexec : exec i s = finish s (b.modifyEa sz ea f)) : FaultsOnModify i sz ea s b :=
  (b.modifyEa_failsOnModify sz ea f).faults hexec

/-- An instruction that fetches words first. -/
theorem faultsOnFetch_of_fetchExt {f : Unit → State → Eff α}
    (hexec : exec i s = finishWith s ((b.fetchExt n).bind f) k) : FaultsOnFetch i n s b :=
  (b.fetchExt_failsOnFetch n).bind.faults hexec

/-- Words fetched first, and then a destination changed (R82). -/
theorem faults_fetch_modify {f : Ccr → BitVec sz.bits → BitVec sz.bits × Ccr}
    (hexec : exec i s = finish s ((b.fetchExt n).bind fun _ t => t.modifyEa sz ea f)) :
    FaultsOnFetch i n s b ∧ (b.fetchable n = true → FaultsOnModify i sz ea s (b.afterExt n)) :=
  ⟨faultsOnFetch_of_fetchExt hexec,
    fun hfetch => faultsOnModify_of_modifyEa (exec_after (State.fetchExt_done hfetch) hexec)⟩

/-- Words fetched first, and then a destination read alone (R82). -/
theorem faults_fetch_read {f : BitVec sz.bits → State → Eff Unit}
    (hexec : exec i s = finish s ((b.fetchExt n).bind fun _ t => (t.readEa sz ea).bind f)) :
    FaultsOnFetch i n s b ∧ (b.fetchable n = true → FaultsOnRead i sz ea s (b.afterExt n)) :=
  ⟨faultsOnFetch_of_fetchExt hexec,
    fun hfetch => faultsOnRead_of_readEa (exec_after (State.fetchExt_done hfetch) hexec)⟩

/-- ADDX and SUBX in memory: the source read, and then the destination changed (R75, R127). -/
theorem faults_extended {alu : ∀ {n : Nat}, Alu n} {ry rx : RegNum}
    (hexec : exec i s = finish s (b.extended alu sz .predec ry rx)) :
    FaultsOnRead i sz (.predec ry) s b ∧
      (b.canRead sz (.predec ry) = true → FaultsOnModify i sz (.predec rx) s (b.afterEa sz (.predec ry))) :=
  ⟨faultsOnRead_of_readEa hexec,
    fun hread => faultsOnModify_of_modifyEa (exec_after (State.readEa_of_canRead hread) hexec)⟩

/-- MOVE: the source read, and then the destination written (R75). -/
theorem faults_move (sz : Size) (src dst : EA) (s : State) :
    FaultsOnRead (.move sz src dst) sz src s s.pastOpWord ∧
      (s.pastOpWord.canRead sz src = true →
        FaultsOnStore (.move sz src dst) sz dst s (s.pastOpWord.afterEa sz src)) := by
  have hexec : exec (.move sz src dst) s = finish s ((s.pastOpWord.moveSource sz src dst).bind fun v t =>
      (t.evalEa sz dst).bind fun l t =>
        (t.writeLoc sz l v).bind fun _ t => .done () (t.setCcr (logicCcr t.sr.ccr v))) := rfl
  refine ⟨(s.pastOpWord.moveSource_failsOnRead sz src dst).bind.faults hexec, fun hread => ?_⟩
  obtain ⟨v, -, hsource⟩ := State.moveSource_done (dst := dst) hread
  exact (State.storeEa_failsOnStore _).faults (exec_after hsource hexec)

end Instructions

end Sys2Proof.Machine
end

section
/-! The statement of 60_exceptions.md about the accesses of operands. -/

namespace Sys2Proof.Proofs

open Sys2Proof.Machine

/-- Settles O42: each instruction by its shape, which says in which order it makes its accesses. -/
theorem operandFaults : Obligations.OperandFaults := by
  refine ⟨fun sz ea r s => ?_, fun sz ea r data s => ?_, fun sz imm ea s => ?_, fun bit ea s => ?_,
    fun sz ry rx s => ?_, faults_move, fun imm data c d s => ?_⟩
  · have divides {i : Instr} {k : Word → State → Result}
        (hexec : exec i s = finishWith s (s.pastOpWord.readEa .word ea) k) : FaultsOnRead i .word ea s s.pastOpWord :=
      (s.pastOpWord.readEa_failsOnRead .word ea).faults hexec
    exact ⟨faultsOnRead_of_readEa rfl, faultsOnRead_of_readEa rfl, faultsOnRead_of_readEa rfl,
      faultsOnRead_of_readEa rfl, faultsOnRead_of_readEa rfl, faultsOnRead_of_readEa rfl, faultsOnRead_of_readEa rfl,
      faultsOnRead_of_readEa rfl, faultsOnRead_of_readEa rfl, divides rfl, divides rfl, faultsOnRead_of_readEa rfl,
      (s.pastOpWord.evalEa_failsOnFetch .long ea).bind.faults rfl⟩
  · have clears : FaultsOnModify (.clr sz ea) sz ea s s.pastOpWord := s.pastOpWord.clear_failsOnModify.faults rfl
    exact ⟨faultsOnModify_of_modifyEa rfl, faultsOnModify_of_modifyEa rfl, faultsOnModify_of_modifyEa rfl,
      faultsOnModify_of_modifyEa rfl, faultsOnModify_of_modifyEa rfl, faultsOnModify_of_modifyEa rfl, clears,
      faultsOnModify_of_modifyEa rfl, faultsOnModify_of_modifyEa rfl, faultsOnModify_of_modifyEa rfl,
      faultsOnModify_of_modifyEa rfl, faultsOnModify_of_modifyEa rfl, faultsOnModify_of_modifyEa rfl,
      faultsOnModify_of_modifyEa rfl, faultsOnModify_of_modifyEa rfl, faultsOnModify_of_modifyEa rfl,
      faultsOnModify_of_modifyEa rfl, faultsOnModify_of_modifyEa rfl, faultsOnModify_of_modifyEa rfl,
      faultsOnModify_of_modifyEa rfl⟩
  · have hadd := faults_fetch_modify (i := .addi sz imm ea) (s := s) rfl
    have hsub := faults_fetch_modify (i := .subi sz imm ea) (s := s) rfl
    have hand := faults_fetch_modify (i := .andi sz imm ea) (s := s) rfl
    have hor := faults_fetch_modify (i := .ori sz imm ea) (s := s) rfl
    have heor := faults_fetch_modify (i := .eori sz imm ea) (s := s) rfl
    have hcmp := faults_fetch_read (i := .cmpi sz imm ea) (s := s) rfl
    exact ⟨⟨hadd.1, hsub.1, hand.1, hor.1, heor.1, hcmp.1⟩, fun hfetch =>
      ⟨hadd.2 hfetch, hsub.2 hfetch, hand.2 hfetch, hor.2 hfetch, heor.2 hfetch, hcmp.2 hfetch⟩⟩
  · have htst := faults_fetch_read (i := .btstStatic bit ea) (s := s) rfl
    have hchg := faults_fetch_modify (i := .bchgStatic bit ea) (s := s) rfl
    have hclr := faults_fetch_modify (i := .bclrStatic bit ea) (s := s) rfl
    have hset := faults_fetch_modify (i := .bsetStatic bit ea) (s := s) rfl
    exact ⟨⟨htst.1, hchg.1, hclr.1, hset.1⟩, fun hfetch =>
      ⟨htst.2 hfetch, hchg.2 hfetch, hclr.2 hfetch, hset.2 hfetch⟩⟩
  · have hadd := faults_extended (i := .addx sz .predec ry rx) (s := s) (alu := aluAddx) rfl
    have hsub := faults_extended (i := .subx sz .predec ry rx) (s := s) (alu := aluSubx) rfl
    exact ⟨hadd.1, hsub.1, fun hread => ⟨hadd.2 hread, hsub.2 hread⟩⟩
  · exact ⟨faultsOnFetch_of_fetchExt rfl, (s.pastOpWord.fetchExt_failsOnFetch 1).faults (exec_bcc c (.word d) s),
      fun hs => (s.pastOpWord.fetchExt_failsOnFetch 1).faults (exec_stop hs)⟩

end Sys2Proof.Proofs
end
